-- ==== Sys2Proof/Word.lean ====
section
/-! DEFINITION. The word and byte types of KET-HBC: registers are 32-bit unsigned values (10_state.md R21), buffer
memory holds 8-bit bytes (20_memory.md R60), and all quantities are unsigned (00_scope.md R9). -/

namespace Sys2Proof

/-- A register value (10_state.md R21). -/
abbrev Word := BitVec 32

/-- One byte of buffer memory (20_memory.md R60). -/
abbrev Byte := BitVec 8

end Sys2Proof
end

