-- ==== Sys2Proof/Syntax.lean ====
section
/-! DEFINITION. The instructions: one constructor per row of opcode_table.json. KET-HBC is no processor; commands and
CTRL actions take the place of instructions (00_scope.md R2, 30_encoding.md R81, R85). -/

namespace Sys2Proof

/-- The eleven commands of 30_encoding.md R81 and the three CTRL actions of R85. -/
inductive Instr where
  /-- NOP, OP 0x0 (44_control.md R212). -/
  | nop
  /-- DECODE, OP 0x1 (42_block_codec.md R166). -/
  | decode
  /-- ENCODE, OP 0x2 (42_block_codec.md R167). -/
  | encode
  /-- COPY, OP 0x3 (42_block_codec.md R168). -/
  | copy
  /-- PDECODE, OP 0x4 (43_payload.md R193). -/
  | pdecode
  /-- PENCODE, OP 0x5, with RAW in bit 9 (43_payload.md R194, 30_encoding.md R84). -/
  | pencode (raw : Bool)
  /-- BW_RESET, OP 0x6 (40_bitstream.md R126). -/
  | bwReset
  /-- BW_PUT, OP 0x7, with NBITS in bits [8:4] (40_bitstream.md R127). -/
  | bwPut (nbits : BitVec 5)
  /-- BW_FLUSH, OP 0x8 (40_bitstream.md R128). -/
  | bwFlush
  /-- BR_RESET, OP 0x9 (40_bitstream.md R129). -/
  | brReset
  /-- BR_GET, OP 0xA, with NBITS in bits [8:4] (40_bitstream.md R130). -/
  | brGet (nbits : BitVec 5)
  /-- A CTRL write that acts as START, with the IRQ_EN bit it stores (44_control.md R210). -/
  | start (irqEn : Bool)
  /-- A CTRL write that acts as ABORT, with the IRQ_EN bit it stores (44_control.md R213). -/
  | abort (irqEn : Bool)
  /-- A CTRL write that acts as SOFT_RESET, whatever its other bits are (44_control.md R214). -/
  | softReset
deriving DecidableEq, Repr

/-- The two places a word is written to be an instruction (30_encoding.md R80, R85). -/
inductive Format where
  /-- A command word, held in CMD and latched at START. -/
  | cmd
  /-- A value written to CTRL. -/
  | ctrl
deriving DecidableEq, Repr

/-- Which of the two formats an instruction is written in. -/
def Instr.format : Instr → Format
  | .nop => .cmd
  | .decode => .cmd
  | .encode => .cmd
  | .copy => .cmd
  | .pdecode => .cmd
  | .pencode _ => .cmd
  | .bwReset => .cmd
  | .bwPut _ => .cmd
  | .bwFlush => .cmd
  | .brReset => .cmd
  | .brGet _ => .cmd
  | .start _ => .ctrl
  | .abort _ => .ctrl
  | .softReset => .ctrl

end Sys2Proof
end

