-- ==== Sys2Proof/WellFormed.lean ====
section
/-! DEFINITION. Which instructions are legal as written (30_encoding.md R83). Every other field is legal at each of its
values. An instruction that is not well formed still has an encoding and a meaning: BAD_LENGTH (44_control.md R210). -/

namespace Sys2Proof

/-- NBITS is legal for BW_PUT and BR_GET when `1 ≤ NBITS ≤ 24` (30_encoding.md R83). -/
def nbitsLegal (n : BitVec 5) : Bool :=
  decide (1 ≤ n.toNat) && decide (n.toNat ≤ 24)

/-- The check of an instruction's own fields. -/
def Instr.wellFormed : Instr → Bool
  | .nop => true
  | .decode => true
  | .encode => true
  | .copy => true
  | .pdecode => true
  | .pencode _ => true
  | .bwReset => true
  | .bwPut n => nbitsLegal n
  | .bwFlush => true
  | .brReset => true
  | .brGet n => nbitsLegal n
  | .start _ => true
  | .abort _ => true
  | .softReset => true

end Sys2Proof
end

