-- ==== Sys2Proof/Decode.lean ====
section
/-! DEFINITION. The decoder of command words (30_encoding.md R80 to R82) and of CTRL write values (R85), and the
encoder. A word that selects no row is rejected by name. -/

namespace Sys2Proof

/-- Why a word is no instruction. -/
inductive DecodeReject where
  /-- OP is 0xB..0xF (30_encoding.md R81). -/
  | reservedOpcode
  /-- A bit outside the fields the opcode's row uses is 1 (30_encoding.md R82). -/
  | reservedBits
  /-- A CTRL write with bits [2:0] = 0, which only stores IRQ_EN (30_encoding.md R85). -/
  | noAction
deriving DecidableEq, Repr

/-- OP, bits [3:0] (30_encoding.md R80). -/
def opField (w : Word) : BitVec 4 := w.extractLsb' 0 4

/-- NBITS, bits [8:4] (30_encoding.md R80). -/
def nbitsField (w : Word) : BitVec 5 := w.extractLsb' 4 5

/-- RAW, bit 9 (30_encoding.md R80). -/
def rawField (w : Word) : Bool := w.getLsbD 9

/-- IRQ_EN, bit 3 of a CTRL write value (10_state.md R25). -/
def irqEnField (w : Word) : Bool := w.getLsbD 3

/-- A word selects a row when `(word & mask) = match` (30_encoding.md R81). -/
def selects (w mask mtch : Word) : Bool := decide (w &&& mask = mtch)

/-- The command a word stands for (30_encoding.md R81). -/
def decodeCommand (w : Word) : Except DecodeReject Instr :=
  if selects w 0xFFFFFFFF#32 0x00000000#32 then .ok .nop
  else if selects w 0xFFFFFFFF#32 0x00000001#32 then .ok .decode
  else if selects w 0xFFFFFFFF#32 0x00000002#32 then .ok .encode
  else if selects w 0xFFFFFFFF#32 0x00000003#32 then .ok .copy
  else if selects w 0xFFFFFFFF#32 0x00000004#32 then .ok .pdecode
  else if selects w 0xFFFFFDFF#32 0x00000005#32 then .ok (.pencode (rawField w))
  else if selects w 0xFFFFFFFF#32 0x00000006#32 then .ok .bwReset
  else if selects w 0xFFFFFE0F#32 0x00000007#32 then .ok (.bwPut (nbitsField w))
  else if selects w 0xFFFFFFFF#32 0x00000008#32 then .ok .bwFlush
  else if selects w 0xFFFFFFFF#32 0x00000009#32 then .ok .brReset
  else if selects w 0xFFFFFE0F#32 0x0000000A#32 then .ok (.brGet (nbitsField w))
  else if 0xB ≤ (opField w).toNat then .error .reservedOpcode
  else .error .reservedBits

/-- The action of a CTRL write value (30_encoding.md R85). Bits [31:4] take no part. -/
def decodeCtrl (v : Word) : Except DecodeReject Instr :=
  if selects v 0x00000004#32 0x00000004#32 then .ok .softReset
  else if selects v 0x00000006#32 0x00000002#32 then .ok (.abort (irqEnField v))
  else if selects v 0x00000007#32 0x00000001#32 then .ok (.start (irqEnField v))
  else .error .noAction

/-- The decoder: which instruction a word is, in the place it is written to. -/
def decode : Format → Word → Except DecodeReject Instr
  | .cmd, w => decodeCommand w
  | .ctrl, v => decodeCtrl v

/-- The word of an instruction (30_encoding.md R81, R85, R100), the bits that take no part 0. -/
def encode : Instr → Word
  | .nop => 0x0#32
  | .decode => 0x1#32
  | .encode => 0x2#32
  | .copy => 0x3#32
  | .pdecode => 0x4#32
  | .pencode raw => 0x5#32 ||| ((BitVec.ofBool raw).zeroExtend 32 <<< 9)
  | .bwReset => 0x6#32
  | .bwPut n => 0x7#32 ||| (n.zeroExtend 32 <<< 4)
  | .bwFlush => 0x8#32
  | .brReset => 0x9#32
  | .brGet n => 0xA#32 ||| (n.zeroExtend 32 <<< 4)
  | .start ie => 0x1#32 ||| ((BitVec.ofBool ie).zeroExtend 32 <<< 3)
  | .abort ie => 0x2#32 ||| ((BitVec.ofBool ie).zeroExtend 32 <<< 3)
  | .softReset => 0x4#32

/-- The place a table word of `nbits` bits is written to: opcode_table.json gives its CTRL rows bits 2 and below, one
byte, and its CMD32 rows all 32 bits (log 14). -/
def tableFormat (nbits : Nat) : Format :=
  if nbits ≤ 8 then .ctrl else .cmd

/-- The instruction the decoder reads from a word of opcode_table.json. A word is one 32-bit register value, so no byte
order enters (10_state.md R21). -/
def decodeTableWord (nbits w : Nat) : Option Instr :=
  if w < 2 ^ 32 then
    match decode (tableFormat nbits) (BitVec.ofNat 32 w) with
    | .ok i => some i
    | .error _ => none
  else none

end Sys2Proof
end

