-- ==== Sys2Proof/Config.lean ====
section
/-! DEFINITION. What one build of the block fixes (00_scope.md R7, R8), and the free values: the constants without a
body that stand wherever the spec says `unspecified` or `any value` (93_implementation_defined.md). -/

namespace Sys2Proof

/-- The order in which a codeword's bits enter the stream (30_encoding.md R92). -/
inductive CodeBitOrder where
  | lsbFirst
  | msbFirst
deriving DecidableEq, Repr

/-- The three parameters a model takes (00_scope.md R7). They are data of the machine that no step changes, so that a
statement about every state holds for every build. -/
structure Config where
  /-- `MEM_SIZE`: bytes of buffer memory (20_memory.md R60). -/
  memSize : Nat
  /-- `REG_BASE`: bus address of register offset 0x00 (10_state.md R20). -/
  regBase : Nat
  /-- `CODE_BIT_ORDER` (30_encoding.md R92). -/
  codeBitOrder : CodeBitOrder
deriving DecidableEq, Repr

namespace Config

/-- The legal values of the parameters (00_scope.md R7). -/
abbrev Legal (c : Config) : Prop :=
  1 ≤ c.memSize ∧ c.memSize ≤ 2 ^ 32 ∧ c.regBase % 0x100 = 0

/-- DESIGN CHOICE (log 1, unsafe for statements about `State.reset` alone): the build the reset state is given.
`MEM_SIZE` and `CODE_BIT_ORDER` are those of the spec's programs (95_test_vectors.md section 3). -/
def platform : Config :=
  { memSize := 0x1000, regBase := 0, codeBitOrder := .lsbFirst }

end Config

/-! ## Fixed constants (00_scope.md R8) -/

/-- Width of a block's literal-count field. -/
def litcountBits : Nat := 16
/-- Reset value of BLOCK_MAX. -/
def blockMaxReset : Word := 0x8000#32
/-- Largest legal literal count per block. -/
def blockMaxLimit : Nat := 0xFFFF
/-- Size of the code-length alphabet. -/
def cltSyms : Nat := 19
/-- Size of the literal-symbol alphabet. -/
def litAlphabet : Nat := 0x1FE
/-- Smallest literal depth. -/
def depthMin : Nat := 2
/-- Largest literal depth. -/
def depthMax : Nat := 17
/-- Width of one transmitted literal depth. -/
def depthFieldBits : Nat := 4
/-- Width of the literal-table count field. -/
def litnBits : Nat := 9
/-- Width of one code-length value. -/
def cltLenBits : Nat := 4
/-- Number of symbols in the encoder's literal table. -/
def encNsym : Nat := 256
/-- Depth of every symbol in the encoder's literal table. -/
def encDepth : Nat := 8
/-- The encoder's shortcut code length. -/
def encCltLen : Nat := 5
/-- Largest BW_PUT and BR_GET field. -/
def nbitsMax : Nat := 24
/-- Largest SRC_LEN a command takes. -/
def srcLenMax : Nat := 0x1FFFFFFF
/-- Length of the payload header. -/
def phdrBytes : Nat := 9

/-! ## Types that free values range over -/

/-- The decoding tree (41_huffman.md R145): a binary trie whose leaves carry a symbol. `absent` is a place that no
transmitted string reaches, so the empty tree is `absent`. -/
inductive Trie where
  | absent
  | leaf (sym : Nat)
  | node (zero one : Trie)
deriving DecidableEq, Repr, Inhabited

/-- The fields of LAST_CLT (10_state.md R45). Its other bits read 0. -/
structure CltInfo where
  /-- Bit 0, SHORT. -/
  short : Bool
  /-- Bits [7:4], LEN. -/
  len : BitVec 4
  /-- Bit 8, VALID. -/
  valid : Bool
deriving DecidableEq, Repr, Inhabited

namespace Config

/-! ## Free values

Each constant has no body: nothing can be proved about the value it gives. Those that an event draws afresh take the
state's `draws` counter (log 19). -/

/-- How many host steps may pass between an accepted START and the engine's step (44_control.md R216,
93_implementation_defined.md U7; log 6). -/
opaque engineDelay : Nat → Nat

/-- How many of the stopped command's writes have been performed, before it is cut down to their number
(93_implementation_defined.md U1; log 7). -/
opaque abortPrefix : Nat → Nat

/-- OUT_LEN after ABORT (93_implementation_defined.md U2; log 7). -/
opaque abortOutLen : Nat → BitVec 32
/-- BR_POS after ABORT (U2; log 7). -/
opaque abortBrPos : Nat → BitVec 32
/-- BW_ACC after ABORT (U2; log 7). -/
opaque abortBwAcc : Nat → BitVec 32
/-- BW_CNT after ABORT, within its width (U2; log 7). -/
opaque abortBwCnt : Nat → BitVec 5
/-- RESULT after ABORT (U2; log 7). -/
opaque abortResult : Nat → BitVec 32
/-- HDR_USIZE after ABORT (U2; log 7). -/
opaque abortHdrUsize : Nat → BitVec 32
/-- BLK_COUNT after ABORT (U2; log 7). -/
opaque abortBlkCount : Nat → BitVec 32
/-- LAST_LITS after ABORT, within its width (U2; log 7). -/
opaque abortLastLits : Nat → BitVec 16
/-- LAST_LITN after ABORT, within its width (U2; log 7). -/
opaque abortLastLitn : Nat → BitVec 9
/-- LAST_CLT after ABORT, within its fields (U2; log 7). -/
opaque abortLastClt : Nat → CltInfo
/-- STATUS.PACKED after ABORT (U2; log 7). -/
opaque abortPacked : Nat → Bool

/-- Entry `i` of LIT_LEN after a stop or SOFT_RESET, before it is made a legal depth (93_implementation_defined.md U3,
41_huffman.md R140; log 8). -/
opaque hiddenDepth : Nat → Nat → BitVec 4
/-- Whether entry `i` of LIT_LEN is absent after a stop or SOFT_RESET (U3; log 8). -/
opaque hiddenAbsent : Nat → Nat → Bool
/-- Entry `i` of CLT_LEN after a stop or SOFT_RESET (U3, 41_huffman.md R141; log 8). -/
opaque hiddenCltLen : Nat → Nat → BitVec 4
/-- TREE after a stop or SOFT_RESET (U3; log 8). -/
opaque hiddenTree : Nat → Trie
/-- LATCH after SOFT_RESET (U3; log 8). -/
opaque hiddenLatch : Nat → BitVec 32
/-- PRODUCED after a stop or SOFT_RESET (U3; log 8). -/
opaque hiddenProduced : Nat → Nat

/-- What a read of a result or cursor register returns during BUSY, before it is cut to the register's bits
(70_reset_and_hazards.md R266, 93_implementation_defined.md U5; log 11). -/
opaque busyRead : Nat → BitVec 32
/-- Which of the possible bytes a host read of an unwritten destination byte returns during BUSY (U5; log 11). -/
opaque busyPick : Nat → Nat
/-- What a host read of a destination byte returns during BUSY after the host wrote it (U6; log 11). -/
opaque busyByte : Nat → BitVec 8
/-- Byte `j` of the source range as the engine sees it, once the host wrote that range during BUSY
(70_reset_and_hazards.md R265, U6; log 12). -/
opaque racedSrcByte : Nat → Nat → BitVec 8
/-- The byte left at a destination address the host wrote during BUSY (R265, U6; log 13). -/
opaque racedDstByte : Nat → Nat → BitVec 8

/-- ERR_POS for a position that does not fit 32 bits: the spec states no value (00_scope.md R9; log 9). A function of
the position, so that a command stays a function of registers and memory (70_reset_and_hazards.md R271). -/
opaque wideErrPos : Nat → BitVec 32

/-- Byte `k` that BW_PUT emits when BW_CNT + NBITS exceeds 31, outside Put's entry condition (40_bitstream.md R121;
log 10). The arguments are BW_ACC, BW_CNT, the low NBITS bits of ARG (10_state.md R35), NBITS and `k`. -/
opaque widePutByte : BitVec 32 → BitVec 5 → BitVec 32 → Nat → Nat → BitVec 8
/-- BW_ACC after a BW_PUT outside Put's entry condition, before it is cut below `2^BW_CNT` (10_state.md R38; log 10). -/
opaque openPutAcc : BitVec 32 → BitVec 5 → BitVec 32 → Nat → BitVec 32
/-- BW_CNT after a BW_PUT with BW_CNT + NBITS above 31, in 0..7 (10_state.md R39; log 10). -/
opaque widePutCnt : BitVec 32 → BitVec 5 → BitVec 32 → Nat → BitVec 3

end Config
end Sys2Proof
end

