-- ==== Sys2Proof/Machine/State.lean ====
section
/-! DEFINITION. The state of the block and of its two agents as plain data (10_state.md, 20_memory.md R60), the reasons
a step of the model can stop, and the state after reset (70_reset_and_hazards.md R260). -/

namespace Sys2Proof.Machine

/-- Buffer memory: cells at strictly rising addresses, none equal to what an unlisted address reads as. -/
abbrev Memory := List Host.Cell

/-- PHASE (10_state.md R47). -/
inductive Phase where
  | idle
  | run
deriving DecidableEq, Repr

/-- The fault codes of STATUS.ERRCODE (60_exceptions.md R230). The reserved codes 0x0D..0xFF are never written. -/
inductive FaultCode where
  | noFault
  | badOpcode
  | badLength
  | range
  | overlap
  | dstOverflow
  | srcExhausted
  | targetOverrun
  | malformedTree
  | codeUnterminated
  | unsupportedSymbol
  | badFlag
  | aborted
deriving DecidableEq, Repr

/-- The arguments of `raise Fault(code, sub, pos)` (60_exceptions.md R234). -/
structure FaultReport where
  code : FaultCode
  sub : Byte
  /-- The position, a number of bits or bytes, before it is written to ERR_POS (60_exceptions.md R232). -/
  pos : Nat
deriving DecidableEq, Repr

/-- One access of the host (30_encoding.md R99), or the hardware reset input (70_reset_and_hazards.md R260). -/
inductive HostOp where
  /-- A bus write of `width` bytes at bus address `addr`. -/
  | busWrite (addr width : Nat) (value : Word)
  /-- A bus read of `width` bytes at bus address `addr`. -/
  | busRead (addr width : Nat)
  /-- A write of one byte of buffer memory. -/
  | memWrite (addr : Nat) (value : Byte)
  /-- A read of one byte of buffer memory. -/
  | memRead (addr : Nat)
  /-- `poll`: read STATUS until BUSY = 0. -/
  | poll
  /-- The hardware reset input, with the contents the platform then gives buffer memory (70_reset_and_hazards.md
  R262; log 17). -/
  | hardwareReset (contents : List Host.Cell)
deriving DecidableEq, Repr

/-- What the host's last access was answered. -/
inductive BusReply where
  /-- No access yet. -/
  | none
  /-- The value of a register read. -/
  | word (v : Word)
  /-- The value of a buffer-memory read. -/
  | byte (b : Byte)
  /-- An access that returns no value was taken. -/
  | done
  /-- Not an aligned 32-bit access to the window (10_state.md R21). -/
  | busError
  /-- A bus address outside the window, which the block does not decode (10_state.md R20; log 16). -/
  | notDecoded
deriving DecidableEq, Repr

/-- Everything the spec gives the machine, and the model's own fields (log 18). -/
structure State where
  /-- The build's parameters (00_scope.md R7). -/
  cfg : Config
  /-- CTRL.IRQ_EN (10_state.md R25). -/
  irqEn : Bool
  /-- CMD (R26). -/
  cmd : Word
  /-- PHASE (R47). STATUS.BUSY is this, seen as a bit. -/
  phase : Phase
  /-- STATUS.DONE (R27). -/
  done : Bool
  /-- STATUS.ERR (R27). -/
  err : Bool
  /-- STATUS.WERR (R27). -/
  werr : Bool
  /-- STATUS.PACKED (R27). -/
  packed : Bool
  /-- STATUS.ERRCODE (R27). -/
  errCode : FaultCode
  /-- STATUS.ERRSUB (R27). -/
  errSub : Byte
  /-- ERR_POS (R28). -/
  errPos : Word
  /-- SRC_ADDR (R29). -/
  srcAddr : Word
  /-- SRC_LEN (R30). -/
  srcLen : Word
  /-- DST_ADDR (R31). -/
  dstAddr : Word
  /-- DST_CAP (R32). -/
  dstCap : Word
  /-- TARGET_LEN (R33). -/
  targetLen : Word
  /-- BLOCK_MAX (R34). -/
  blockMax : Word
  /-- ARG (R35). -/
  arg : Word
  /-- RESULT (R36). -/
  result : Word
  /-- OUT_LEN (R37). -/
  outLen : Word
  /-- BW_ACC (R38). -/
  bwAcc : Word
  /-- BW_CNT (R39). Bits [31:5] read 0. -/
  bwCnt : BitVec 5
  /-- BR_POS (R40). -/
  brPos : Word
  /-- HDR_USIZE (R41). -/
  hdrUsize : Word
  /-- BLK_COUNT (R42). -/
  blkCount : Word
  /-- LAST_LITS (R43). Bits [31:16] read 0. -/
  lastLits : BitVec 16
  /-- LAST_LITN (R44). Bits [31:9] read 0. -/
  lastLitn : BitVec 9
  /-- LAST_CLT (R45). -/
  lastClt : CltInfo
  /-- LIT_LEN[0..0x1FD] (R47, 41_huffman.md R140). -/
  litLen : List Nat
  /-- CLT_LEN[0..18] (R47, 41_huffman.md R141). -/
  cltLen : List Nat
  /-- TREE (R47, 41_huffman.md R145). -/
  tree : Trie
  /-- LATCH (R47). -/
  latch : Word
  /-- PRODUCED (R47, 42_block_codec.md R163). -/
  produced : Nat
  /-- Buffer memory (20_memory.md R60). -/
  mem : Memory
  /-- The model's own: host accesses still to come, oldest first (log 5). -/
  pending : List HostOp
  /-- The model's own: the answer to the last host access. -/
  reply : BusReply
  /-- The model's own: host steps that may still come before the engine's step (log 6). -/
  engineDue : Nat
  /-- The model's own: `some k` once the host wrote the source range during BUSY; the engine then sees the free bytes
  of draw `k` (log 12). -/
  srcDraw : Option Nat
  /-- The model's own: destination addresses the host wrote during BUSY (log 13). -/
  dstTouched : List Nat
  /-- The model's own: the counter that free values are applied to (log 19). -/
  draws : Nat
deriving DecidableEq, Repr

/-- Why the machine stops. No instruction raises one. -/
inductive Fault where
  /-- Raised by a host access to a buffer-memory address at or beyond MEM_SIZE, which does not exist
  (20_memory.md R60; log 15). Safe: the model stops where a platform might answer. -/
  | noSuchAddress (addr : Nat)
deriving DecidableEq, Repr

/-- Why an instruction has no meaning. -/
inductive Refusal where
  /-- Raised by an arm of exec whose instruction has no meaning yet; no arm is left so. Safe. -/
  | notModelled (mnemonic : String)
deriving DecidableEq, Repr

/-- The state after the hardware reset input (70_reset_and_hazards.md R260, 10_state.md R22). DESIGN CHOICE, each
named in the log: the parameters (log 1), memory that reads 0x00 throughout (log 3), the unspecified hidden tables
(log 4) and the model's own fields (log 18). -/
def State.reset : State :=
  { cfg := Config.platform
    irqEn := false
    cmd := 0#32
    phase := .idle
    done := false
    err := false
    werr := false
    packed := false
    errCode := .noFault
    errSub := 0#8
    errPos := 0#32
    srcAddr := 0#32
    srcLen := 0#32
    dstAddr := 0#32
    dstCap := 0#32
    targetLen := 0#32
    blockMax := blockMaxReset
    arg := 0#32
    result := 0#32
    outLen := 0#32
    bwAcc := 0#32
    bwCnt := 0#5
    brPos := 0#32
    hdrUsize := 0#32
    blkCount := 0#32
    lastLits := 0#16
    lastLitn := 0#9
    lastClt := { short := false, len := 0#4, valid := false }
    litLen := List.replicate litAlphabet 0
    cltLen := List.replicate cltSyms 0
    tree := .absent
    latch := 0#32
    produced := 0
    mem := []
    pending := []
    reply := .none
    engineDue := 0
    srcDraw := none
    dstTouched := []
    draws := 0 }

end Sys2Proof.Machine
end

