-- ==== Sys2Proof/Machine/Ops.lean ====
section
/-! DEFINITION. The named operations over memory and registers: one byte of buffer memory (20_memory.md R61, R68), fault
entry and completion (60_exceptions.md R234, R236), and how a command's run becomes the next state. -/

namespace Sys2Proof.Machine

/-! ## Buffer memory -/

/-- What an address that no cell lists reads as. DESIGN CHOICE (log 3, unsafe for runs from `State.reset`). -/
def unlistedByte : Byte := 0#8

/-- `MemRead(a, 1)` (20_memory.md R61). -/
def memRead : Memory → Nat → Byte
  | [], _ => unlistedByte
  | (k, b) :: rest, a => if k = a then b else memRead rest a

/-- `MemWrite(a, 1, v)` (20_memory.md R61, R68), keeping the canonical form. -/
def memWrite : Memory → Nat → Byte → Memory
  | [], a, v => if v = unlistedByte then [] else [(a, v)]
  | (k, b) :: rest, a, v =>
    if a < k then
      if v = unlistedByte then (k, b) :: rest else (a, v) :: (k, b) :: rest
    else if a = k then
      if v = unlistedByte then rest else (a, v) :: rest
    else (k, b) :: memWrite rest a v

/-- The canonical form: addresses strictly rising, no cell equal to what an unlisted address reads as. -/
abbrev Memory.wf (m : Memory) : Prop :=
  (m.map Prod.fst).Pairwise (· < ·) ∧ ∀ c ∈ m, c.2 ≠ unlistedByte

/-- Every listed address exists in a buffer memory of `size` bytes (20_memory.md R60). -/
abbrev Memory.within (m : Memory) (size : Nat) : Prop :=
  ∀ c ∈ m, c.1 < size

/-- A sequence of writes, in order. -/
def applyWrites : Memory → List Host.Cell → Memory
  | m, [] => m
  | m, (a, v) :: rest => applyWrites (memWrite m a v) rest

/-- The writes that put bytes at consecutive addresses from `base` on. -/
def cellsAt : Nat → List Byte → List Host.Cell
  | _, [] => []
  | base, b :: bs => (base, b) :: cellsAt (base + 1) bs

/-- Buffer memory with the contents a platform gives it: the cells that name an existing address, later ones winning
(70_reset_and_hazards.md R262; log 17). -/
def memoryOf (size : Nat) (contents : List Host.Cell) : Memory :=
  applyWrites [] (contents.filter fun c => c.1 < size)

/-- Every destination byte the host wrote during BUSY is left with any value (70_reset_and_hazards.md R265; log 13). -/
def scramble (draw : Nat) : List Nat → Memory → Memory
  | [], m => m
  | a :: rest, m => scramble draw rest (memWrite m a (Config.racedDstByte draw a))

/-! ## Registers -/

/-- STATUS.BUSY: 1 exactly when PHASE = RUN (10_state.md R47). -/
def State.busy (s : State) : Bool := decide (s.phase = .run)

/-- The value ERR_POS takes for a position (60_exceptions.md R232). One that does not fit is left open (log 9). -/
def errPosWord (pos : Nat) : Word :=
  if pos < 2 ^ 32 then BitVec.ofNat 32 pos else Config.wideErrPos pos

/-- The same state with another buffer memory. -/
def State.withMem (m : Memory) (s : State) : State := { s with mem := m }

/-- CTRL.IRQ_EN takes a written bit 3 (10_state.md R25). -/
def State.setIrqEn (ie : Bool) (s : State) : State := { s with irqEn := ie }

/-- STATUS.WERR is set (10_state.md R46, 60_exceptions.md R247). -/
def State.noteWriteError (s : State) : State := { s with werr := true }

/-- Fault entry (60_exceptions.md R234): the three fault registers, ERR, and the block idle again. -/
def State.raise (f : FaultReport) (s : State) : State :=
  { s with
    errCode := f.code, errSub := f.sub, errPos := errPosWord f.pos
    err := true, phase := .idle }

/-- Successful completion (60_exceptions.md R236). -/
def State.complete (s : State) : State := { s with done := true, phase := .idle }

/-- The part of an accepted START that the host's write performs (44_control.md R210): the status of the last command
is cleared, the command word latched and the engine made ready. `engineDue` is drawn (log 6). -/
def State.accept (s : State) : State :=
  { s with
    done := false, err := false, packed := false
    errCode := .noFault, errSub := 0#8, errPos := 0#32
    phase := .run, latch := s.cmd
    engineDue := Config.engineDelay s.draws, srcDraw := none, dstTouched := []
    draws := s.draws + 1 }

/-- The model's own record of one command ends with the command (logs 12, 13, 19). -/
def State.retire (s : State) : State :=
  { s with engineDue := 0, srcDraw := none, dstTouched := [], draws := s.draws + 1 }

/-- The cursor and block counters that DECODE, ENCODE, PDECODE and PENCODE set to 0 at the start of their body
(10_state.md R37, R42 to R45). -/
def State.clearCounts (s : State) : State :=
  { s with
    outLen := 0#32, blkCount := 0#32, lastLits := 0#16, lastLitn := 0#9
    lastClt := { short := false, len := 0#4, valid := false } }

/-- OUT_LEN takes the number of destination bytes written. -/
def State.setOutLen (n : Nat) (s : State) : State := { s with outLen := BitVec.ofNat 32 n }

/-- Every register of 10_state.md R22 at its reset value (70_reset_and_hazards.md R260), and PHASE idle. Buffer memory,
the hidden tables and the host's side are not registers. -/
def State.resetRegs (s : State) : State :=
  { s with
    irqEn := false, cmd := 0#32, phase := .idle
    done := false, err := false, werr := false, packed := false
    errCode := .noFault, errSub := 0#8, errPos := 0#32
    srcAddr := 0#32, srcLen := 0#32, dstAddr := 0#32, dstCap := 0#32, targetLen := 0#32
    blockMax := blockMaxReset, arg := 0#32
    result := 0#32, outLen := 0#32, bwAcc := 0#32, bwCnt := 0#5, brPos := 0#32
    hdrUsize := 0#32, blkCount := 0#32, lastLits := 0#16, lastLitn := 0#9
    lastClt := { short := false, len := 0#4, valid := false } }

/-- A legal depth: 0 or 2..17 (41_huffman.md R140). -/
def depthOf (absent : Bool) (d : BitVec 4) : Nat := if absent then 0 else d.toNat + depthMin

/-- Any legal LIT_LEN (93_implementation_defined.md U3; log 8). -/
@[irreducible] def hiddenLitTable (draw : Nat) : List Nat :=
  (List.range litAlphabet).map fun i => depthOf (Config.hiddenAbsent draw i) (Config.hiddenDepth draw i)

/-- Any legal CLT_LEN (93_implementation_defined.md U3; log 8). -/
@[irreducible] def hiddenCltTable (draw : Nat) : List Nat :=
  (List.range cltSyms).map fun i => (Config.hiddenCltLen draw i).toNat

/-- LIT_LEN, CLT_LEN, TREE and PRODUCED become unspecified, each within its bounds (44_control.md R214,
93_implementation_defined.md U3; log 8). -/
def State.forgetTables (s : State) : State :=
  { s with
    litLen := hiddenLitTable s.draws, cltLen := hiddenCltTable s.draws
    tree := Config.hiddenTree s.draws
    produced := Config.hiddenProduced s.draws }

/-- LATCH becomes unspecified (44_control.md R214; log 8). -/
def State.forgetLatch (s : State) : State := { s with latch := Config.hiddenLatch s.draws }

/-- The registers that hold unspecified values after ABORT, each within its width (44_control.md R213,
93_implementation_defined.md U2; log 7). -/
def State.forgetCursors (s : State) : State :=
  { s with
    outLen := Config.abortOutLen s.draws, brPos := Config.abortBrPos s.draws
    bwAcc := Config.abortBwAcc s.draws, bwCnt := Config.abortBwCnt s.draws
    result := Config.abortResult s.draws, hdrUsize := Config.abortHdrUsize s.draws
    blkCount := Config.abortBlkCount s.draws, lastLits := Config.abortLastLits s.draws
    lastLitn := Config.abortLastLitn s.draws, lastClt := Config.abortLastClt s.draws
    packed := Config.abortPacked s.draws }

/-- The host's oldest access is taken: one host step fewer before the engine's (log 6). -/
def State.takeHost (rest : List HostOp) (s : State) : State :=
  { s with pending := rest, engineDue := s.engineDue - 1 }

/-- The host's access is answered. -/
def State.answer (r : BusReply) (s : State) : State := { s with reply := r }

/-- One free value has been drawn (log 19). -/
def State.drew (s : State) : State := { s with draws := s.draws + 1 }

/-! ## A command's run -/

/-- What running a command gives: its registers, the MemWrites it performs in the order its pseudocode gives, and the
fault it raises. `regs.mem` is still the memory of START: by 20_memory.md R66 and R67 a command never reads a byte it
writes. -/
structure Run where
  regs : State
  writes : List Host.Cell
  fault : Option FaultReport
deriving DecidableEq, Repr

/-- Fault entry, or completion (60_exceptions.md R234, R236). -/
def State.conclude (f : Option FaultReport) (s : State) : State :=
  match f with
  | none => s.complete
  | some r => s.raise r

/-- The state after the engine's step: every write of the run is performed, then the run concludes
(60_exceptions.md R234 to R236, 44_control.md R216). -/
def Run.finish (r : Run) : State :=
  ((r.regs.withMem
      (scramble r.regs.draws r.regs.dstTouched (applyWrites r.regs.mem r.writes))).retire).conclude r.fault

/-- The buffer memory a stopped run leaves: the first `k` of its writes for an unspecified `k` (44_control.md R213,
R214, 93_implementation_defined.md U1; log 7). -/
def Run.stoppedMemory (r : Run) (s : State) : Memory :=
  scramble s.draws s.dstTouched
    (applyWrites s.mem (r.writes.take (Config.abortPrefix s.draws % (r.writes.length + 1))))

end Sys2Proof.Machine
end

