-- ==== Sys2Proof/Machine/Operands.lean ====
section
/-! DEFINITION. Where a command's operands come from (30_encoding.md R83): the ranges (20_memory.md R65 to R67), the
source as a stream of bytes, and the common prologue (44_control.md R210). -/

namespace Sys2Proof.Machine

/-- Commands that use the source range (20_memory.md R66, 44_control.md R210). -/
def usesSrc : Instr → Bool
  | .decode => true
  | .encode => true
  | .copy => true
  | .pdecode => true
  | .pencode _ => true
  | .brGet _ => true
  | .nop => false
  | .bwReset => false
  | .bwPut _ => false
  | .bwFlush => false
  | .brReset => false
  | .start _ => false
  | .abort _ => false
  | .softReset => false

/-- Commands that use the destination range (20_memory.md R66, 44_control.md R210). -/
def usesDst : Instr → Bool
  | .decode => true
  | .encode => true
  | .copy => true
  | .pdecode => true
  | .pencode _ => true
  | .bwPut _ => true
  | .bwFlush => true
  | .nop => false
  | .bwReset => false
  | .brReset => false
  | .brGet _ => false
  | .start _ => false
  | .abort _ => false
  | .softReset => false

/-- Commands that split blocks by BLOCK_MAX: ENCODE, and PENCODE with RAW = 0 (10_state.md R34). -/
def usesBlockMax : Instr → Bool
  | .encode => true
  | .pencode raw => !raw
  | .nop => false
  | .decode => false
  | .copy => false
  | .pdecode => false
  | .bwReset => false
  | .bwPut _ => false
  | .bwFlush => false
  | .brReset => false
  | .brGet _ => false
  | .start _ => false
  | .abort _ => false
  | .softReset => false

/-- NBITS, for the commands that have it (30_encoding.md R83). -/
def nbitsOf : Instr → Option Nat
  | .bwPut n => some n.toNat
  | .brGet n => some n.toNat
  | .nop => none
  | .decode => none
  | .encode => none
  | .copy => none
  | .pdecode => none
  | .pencode _ => none
  | .bwReset => none
  | .bwFlush => none
  | .brReset => none
  | .start _ => none
  | .abort _ => none
  | .softReset => none

/-- The prologue's check of NBITS: 1..24 where the command has one (44_control.md R210). -/
def nbitsBad (i : Instr) : Bool :=
  match nbitsOf i with
  | none => false
  | some n => !(decide (1 ≤ n) && decide (n ≤ nbitsMax))

/-- `[base, base + len)` lies in buffer memory, computed exactly (20_memory.md R65). -/
def rangeValid (memSize base len : Nat) : Bool := decide (base + len ≤ memSize)

/-- Two non-empty ranges share a byte (20_memory.md R67). -/
def rangesOverlap (a n b m : Nat) : Bool :=
  decide (0 < n ∧ 0 < m ∧ a < b + m ∧ b < a + n)

/-- The prologue's checks in their order; the first that fails gives the fault (44_control.md R210, 60_exceptions.md
R233). BAD_OPCODE comes before them: it is the decoder's (`decodeCommand`). -/
def prologue (i : Instr) (s : State) : Option FaultReport :=
  if nbitsBad i then some ⟨.badLength, 1, 0⟩
  else if usesBlockMax i && !(decide (1 ≤ s.blockMax.toNat) && decide (s.blockMax.toNat ≤ blockMaxLimit)) then
    some ⟨.badLength, 2, 0⟩
  else if usesSrc i && decide (srcLenMax < s.srcLen.toNat) then some ⟨.badLength, 3, 0⟩
  else if usesSrc i && !rangeValid s.cfg.memSize s.srcAddr.toNat s.srcLen.toNat then some ⟨.range, 1, 0⟩
  else if usesDst i && !rangeValid s.cfg.memSize s.dstAddr.toNat s.dstCap.toNat then some ⟨.range, 2, 0⟩
  else if usesSrc i && usesDst i
      && rangesOverlap s.srcAddr.toNat s.srcLen.toNat s.dstAddr.toNat s.dstCap.toNat then
    some ⟨.overlap, 0, 0⟩
  else none

/-- A command's run: the prologue's fault, with nothing else changed, or its body (44_control.md R210). -/
def runCommand (i : Instr) (body : State → Run) (s : State) : Run :=
  match prologue i s with
  | some f => { regs := s, writes := [], fault := some f }
  | none => body s

/-- A run with no fault and no write. -/
def quietRun (s : State) : Run := { regs := s, writes := [], fault := none }

/-- A run that raises a fault before it writes anything. -/
def faultRun (s : State) (code : FaultCode) (sub : Byte) (pos : Nat) : Run :=
  { regs := s, writes := [], fault := some ⟨code, sub, pos⟩ }

/-- A sequence of bytes that a command reads: `StreamByte` and `SL` of 40_bitstream.md R123. -/
structure Stream where
  byte : Nat → Byte
  len : Nat

/-- The source range as a stream: byte `j` is `MemRead(SRC_ADDR + j, 1)`. When the host wrote the range during BUSY the
engine sees any contents (70_reset_and_hazards.md R265; log 12). -/
def State.srcStream (s : State) : Stream :=
  { byte := fun j =>
      match s.srcDraw with
      | none => memRead s.mem (s.srcAddr.toNat + j)
      | some k => Config.racedSrcByte k j
    len := s.srcLen.toNat }

/-- The stream from its byte `n` on. -/
def Stream.skip (n : Nat) (t : Stream) : Stream :=
  { byte := fun j => t.byte (n + j), len := t.len - n }

/-- The first `n` bytes of a stream. -/
def Stream.take (n : Nat) (t : Stream) : List Byte := (List.range n).map t.byte

/-- Address `a` is in the source range of a command that uses one (20_memory.md R66). -/
def State.inSrc (i : Instr) (s : State) (a : Nat) : Bool :=
  usesSrc i && decide (s.srcAddr.toNat ≤ a ∧ a < s.srcAddr.toNat + s.srcLen.toNat)

/-- Address `a` is in the destination range of a command that uses one (20_memory.md R66). -/
def State.inDst (i : Instr) (s : State) (a : Nat) : Bool :=
  usesDst i && decide (s.dstAddr.toNat ≤ a ∧ a < s.dstAddr.toNat + s.dstCap.toNat)

end Sys2Proof.Machine
end

