-- ==== Sys2Proof/Machine/BitStream.lean ====
section
/-! DEFINITION. The bit writer and reader (40_bitstream.md R120 to R125) and the five commands that expose them (R126 to
R130). -/

namespace Sys2Proof.Machine

/-! ## The writer -/

/-- The writer (BW_ACC, BW_CNT) with the bytes it has emitted, newest first (40_bitstream.md R121). -/
structure Writer where
  acc : Nat
  cnt : Nat
  outRev : List Byte
deriving DecidableEq, Repr

/-- A fresh writer. -/
def Writer.new : Writer := { acc := 0, cnt := 0, outRev := [] }

/-- The bytes emitted, in order. -/
def Writer.out (w : Writer) : List Byte := w.outRev.reverse

/-- Emit the low byte and shift the accumulator, `k` times (the loop of 40_bitstream.md R121). -/
def Writer.drain : Nat → Writer → Writer
  | 0, w => w
  | k + 1, w =>
    Writer.drain k
      { acc := w.acc >>> 8, cnt := w.cnt - 8, outRev := BitVec.ofNat 8 w.acc :: w.outRev }

/-- `Put(v, n)` (40_bitstream.md R121). The loop `while BW_CNT >= 8` runs `(BW_CNT + n) div 8` times. -/
def Writer.put (v n : Nat) (w : Writer) : Writer :=
  Writer.drain ((w.cnt + n) / 8)
    { acc := w.acc ||| ((v % 2 ^ n) <<< w.cnt), cnt := w.cnt + n, outRev := w.outRev }

/-- `Flush()` (40_bitstream.md R122). -/
def Writer.flush (w : Writer) : Writer :=
  { acc := 0, cnt := 0, outRev := if 0 < w.cnt then BitVec.ofNat 8 w.acc :: w.outRev else w.outRev }

/-- The writer of a state, with nothing emitted yet. -/
def State.writer (s : State) : Writer :=
  { acc := s.bwAcc.toNat, cnt := s.bwCnt.toNat, outRev := [] }

/-- BW_ACC and BW_CNT take the writer's values. -/
def State.setWriter (w : Writer) (s : State) : State :=
  { s with bwAcc := BitVec.ofNat 32 w.acc, bwCnt := BitVec.ofNat 5 w.cnt }

/-! ## The reader -/

/-- Stream bit `i`: bit `i mod 8` of stream byte `i div 8` (40_bitstream.md R120). -/
def Stream.bit (t : Stream) (i : Nat) : Bool := (t.byte (i / 8)).getLsbD (i % 8)

/-- The field of width `n` at stream position `pos`, its bit 0 first (30_encoding.md R86, 00_scope.md R12). -/
def Stream.field (t : Stream) : Nat → Nat → Nat
  | _, 0 => 0
  | pos, n + 1 => (t.bit pos).toNat + 2 * Stream.field t (pos + 1) n

/-- `Get(n)` at position `pos` (40_bitstream.md R123): all bits or a fault. The position moves by `n` on success. -/
def Stream.get (t : Stream) (pos n : Nat) : Except FaultReport Nat :=
  if 8 * t.len < pos + n then .error ⟨.srcExhausted, 1, pos⟩ else .ok (t.field pos n)

/-- What reading several fields in a row gives: the values read, the position reached and the fault that stopped it. -/
structure FieldRun where
  vals : List Nat
  pos : Nat
  fault : Option FaultReport
deriving DecidableEq, Repr

/-- `k` fields of `n` bits each, one `Get` after another. -/
def Stream.fields (t : Stream) (n : Nat) : Nat → Nat → FieldRun
  | 0, pos => { vals := [], pos := pos, fault := none }
  | k + 1, pos =>
    match t.get pos n with
    | .error f => { vals := [], pos := pos, fault := some f }
    | .ok v =>
      let r := Stream.fields t n k (pos + n)
      { vals := v :: r.vals, pos := r.pos, fault := r.fault }

/-! ## BW_RESET (40_bitstream.md R126) -/

/-- BW_RESET's body. -/
def bodyBwReset (s : State) : Run :=
  quietRun ((s.setWriter Writer.new).setOutLen 0)

/-- BW_RESET's run. -/
def runBwReset (s : State) : Run := runCommand .bwReset bodyBwReset s

/-- BW_RESET: start a new writer stream. -/
def execBwReset (s : State) : Host.Outcome State Fault Refusal := .next (runBwReset s).finish

/-! ## BW_PUT (40_bitstream.md R127) -/

/-- The bytes a BW_PUT of `n` bits will emit. -/
def putEmits (n : Nat) (s : State) : Nat := (s.bwCnt.toNat + n) / 8

/-- The low `n` bits of ARG, all of ARG that BW_PUT uses (10_state.md R35). -/
def putArg (n : Nat) (s : State) : Word := BitVec.ofNat 32 (s.arg.toNat % 2 ^ n)

/-- A free BW_ACC below `2^cnt`, for a BW_PUT from outside Put's entry condition (10_state.md R38; log 10). -/
def openPutAcc (n cnt : Nat) (s : State) : Nat :=
  (Config.openPutAcc s.bwAcc s.bwCnt (putArg n s) n).toNat % 2 ^ cnt

/-- What BW_PUT leaves and emits where BW_CNT + n does not fit BW_CNT, which only an ABORT can bring about: the bytes and
the writer are left open, the writer within the bounds of 10_state.md R38 and R39; the number of bytes is R127's
(log 10). -/
def widePut (n : Nat) (s : State) : Writer :=
  let cnt := (Config.widePutCnt s.bwAcc s.bwCnt (putArg n s) n).toNat
  { acc := openPutAcc n cnt s, cnt := cnt
    outRev := ((List.range (putEmits n s)).map fun k =>
      Config.widePutByte s.bwAcc s.bwCnt (putArg n s) n k).reverse }

/-- What BW_PUT leaves and emits: Put's (40_bitstream.md R121). DESIGN CHOICE (log 10): from a writer outside Put's entry
condition, which only an ABORT can leave, the pseudocode is followed as it stands, stray bits of BW_ACC included, while
its counts fit; an accumulator it would leave at or above `2^BW_CNT`, against R121's exit condition and 10_state.md R38,
is left open below it. -/
def putWriter (n : Nat) (s : State) : Writer :=
  if 31 < s.bwCnt.toNat + n then widePut n s
  else
    let w := s.writer.put s.arg.toNat n
    if w.acc < 2 ^ w.cnt then w else { w with acc := openPutAcc n w.cnt s }

/-- BW_PUT's body. DESIGN CHOICE (log 25): with no byte to emit and OUT_LEN beyond DST_CAP it faults DST_OVERFLOW, as the
pseudocode of 40_bitstream.md R127 says, against R127's corner case. -/
def bodyBwPut (nbits : BitVec 5) (s : State) : Run :=
  let n := nbits.toNat
  let e := putEmits n s
  if s.dstCap.toNat < s.outLen.toNat + e then faultRun s .dstOverflow 0 (s.outLen.toNat + e)
  else
    let w := putWriter n s
    { regs := (s.setWriter w).setOutLen (s.outLen.toNat + e)
      writes := cellsAt (s.dstAddr.toNat + s.outLen.toNat) w.out
      fault := none }

/-- BW_PUT's run. -/
def runBwPut (nbits : BitVec 5) (s : State) : Run := runCommand (.bwPut nbits) (bodyBwPut nbits) s

/-- BW_PUT: append NBITS bits of ARG. -/
def execBwPut (nbits : BitVec 5) (s : State) : Host.Outcome State Fault Refusal :=
  .next (runBwPut nbits s).finish

/-! ## BW_FLUSH (40_bitstream.md R128) -/

/-- BW_FLUSH's body. DESIGN CHOICE (log 25): with BW_CNT = 0 and OUT_LEN beyond DST_CAP it faults DST_OVERFLOW and keeps
BW_ACC, as the pseudocode of 40_bitstream.md R128 says, against R128's corner case. From a writer that an ABORT left with
stray bits the low byte of BW_ACC is emitted as it is (log 10). -/
def bodyBwFlush (s : State) : Run :=
  let e := if 0 < s.bwCnt.toNat then 1 else 0
  if s.dstCap.toNat < s.outLen.toNat + e then faultRun s .dstOverflow 0 (s.outLen.toNat + e)
  else
    let w := s.writer.flush
    { regs := (s.setWriter w).setOutLen (s.outLen.toNat + e)
      writes := cellsAt (s.dstAddr.toNat + s.outLen.toNat) w.out
      fault := none }

/-- BW_FLUSH's run. -/
def runBwFlush (s : State) : Run := runCommand .bwFlush bodyBwFlush s

/-- BW_FLUSH: emit the final partial byte. -/
def execBwFlush (s : State) : Host.Outcome State Fault Refusal := .next (runBwFlush s).finish

/-! ## BR_RESET (40_bitstream.md R129) -/

/-- BR_RESET's body. -/
def bodyBrReset (s : State) : Run := quietRun { s with brPos := 0#32 }

/-- BR_RESET's run. -/
def runBrReset (s : State) : Run := runCommand .brReset bodyBrReset s

/-- BR_RESET: start reading the source range from its first bit. -/
def execBrReset (s : State) : Host.Outcome State Fault Refusal := .next (runBrReset s).finish

/-! ## BR_GET (40_bitstream.md R130) -/

/-- BR_GET's body. -/
def bodyBrGet (nbits : BitVec 5) (s : State) : Run :=
  match s.srcStream.get s.brPos.toNat nbits.toNat with
  | .error f => { regs := s, writes := [], fault := some f }
  | .ok v =>
    quietRun
      { s with result := BitVec.ofNat 32 v, brPos := BitVec.ofNat 32 (s.brPos.toNat + nbits.toNat) }

/-- BR_GET's run. -/
def runBrGet (nbits : BitVec 5) (s : State) : Run := runCommand (.brGet nbits) (bodyBrGet nbits) s

/-- BR_GET: read NBITS bits. -/
def execBrGet (nbits : BitVec 5) (s : State) : Host.Outcome State Fault Refusal :=
  .next (runBrGet nbits s).finish

end Sys2Proof.Machine
end

