-- ==== Sys2Proof/Machine/Huffman.lean ====
section
/-! DEFINITION. Canonical Huffman tables, the decoding tree and the walk (41_huffman.md R140 to R151). -/

namespace Sys2Proof.Machine

/-- A symbol with its code value and length (41_huffman.md R142). -/
structure Codeword where
  sym : Nat
  code : Nat
  len : Nat
deriving DecidableEq, Repr

/-- The symbols of one length, rising. -/
def symbolsOfLength (lens : List Nat) (l : Nat) : List Nat :=
  lens.zipIdx.filterMap fun p => if p.1 = l then some p.2 else none

/-- The longest length of a table. -/
def longest : List Nat → Nat
  | [] => 0
  | l :: rest => max l (longest rest)

/-- The present symbols with their lengths, sorted ascending by (length, symbol) (41_huffman.md R142): length by length
from 1 up. -/
def sortedSymbols (lens : List Nat) : List (Nat × Nat) :=
  (List.range' 1 (longest lens)).flatMap fun l => (symbolsOfLength lens l).map fun i => (i, l)

/-- The loop of Canon from its second symbol on, after a code value `code` of length `prev` (41_huffman.md R142). -/
def canonFrom : Nat → Nat → List (Nat × Nat) → Option (List Codeword)
  | _, _, [] => some []
  | code, prev, (i, l) :: rest =>
    let c := (code + 1) <<< (l - prev)
    if 2 ^ l ≤ c then none
    else (canonFrom c l rest).map fun cs => { sym := i, code := c, len := l } :: cs

/-- `Canon(lens)`, `none` for ⊥ (41_huffman.md R142, R143). The first code value is 0, which fits every length. -/
def canon (lens : List Nat) : Option (List Codeword) :=
  match sortedSymbols lens with
  | [] => some []
  | (i, l) :: rest => (canonFrom 0 l rest).map fun cs => { sym := i, code := 0, len := l } :: cs

/-- `T(c, l)`, the transmitted string, first bit first (41_huffman.md R144). -/
def transmitted (order : CodeBitOrder) (code len : Nat) : List Bool :=
  match order with
  | .lsbFirst => (List.range len).map fun k => code.testBit k
  | .msbFirst => (List.range len).map fun k => code.testBit (len - 1 - k)

/-- A string with its symbol added to a trie. `none` when the string is a proper prefix of one already there, has one
there as a prefix, or is there already. -/
def trieInsert (sym : Nat) : List Bool → Trie → Option Trie
  | [], .absent => some (.leaf sym)
  | [], .leaf _ => none
  | [], .node _ _ => none
  | b :: bs, .absent =>
    (trieInsert sym bs .absent).map fun t => if b then .node .absent t else .node t .absent
  | _ :: _, .leaf _ => none
  | b :: bs, .node z o =>
    if b then (trieInsert sym bs o).map fun t => .node z t
    else (trieInsert sym bs z).map fun t => .node t o

/-- The trie of the transmitted strings of a code, `none` when one is a proper prefix of another (41_huffman.md
R145). -/
def trieOf (order : CodeBitOrder) : List Codeword → Trie → Option Trie
  | [], t => some t
  | c :: cs, t =>
    match trieInsert c.sym (transmitted order c.code c.len) t with
    | none => none
    | some t' => trieOf order cs t'

/-- `BuildTree()` (41_huffman.md R145): the tree, or the sub-code of MALFORMED_TREE. -/
def buildTree (order : CodeBitOrder) (litLen : List Nat) : Except Byte Trie :=
  match canon litLen with
  | none => .error 3
  | some cs =>
    match trieOf order cs .absent with
    | none => .error 4
    | some t => .ok t

/-- The walk below its root: the bits read have led to this place of the tree (41_huffman.md R147). -/
def descend (t : Stream) : Trie → Nat → Except FaultReport Nat × Nat
  | .leaf s, pos => (.ok s, pos)
  | .absent, pos => (.error ⟨.codeUnterminated, 0, pos⟩, pos)
  | .node z o, pos =>
    match t.get pos 1 with
    | .error f => (.error f, pos)
    | .ok b => if b = 0 then descend t z (pos + 1) else descend t o (pos + 1)

/-- `Walk()` (41_huffman.md R147): the symbol or the fault, and the position reached. A tree whose root is no internal
node is left by the first bit. -/
def walk (t : Stream) (tree : Trie) (pos : Nat) : Except FaultReport Nat × Nat :=
  match tree with
  | .node z o => descend t (.node z o) pos
  | .absent =>
    match t.get pos 1 with
    | .error f => (.error f, pos)
    | .ok _ => (.error ⟨.codeUnterminated, 0, pos + 1⟩, pos + 1)
  | .leaf _ =>
    match t.get pos 1 with
    | .error f => (.error f, pos)
    | .ok _ => (.error ⟨.codeUnterminated, 0, pos + 1⟩, pos + 1)

/-- `ENC_LENS`, the encoder's fixed depth table (41_huffman.md R150). -/
def encLens : List Nat := List.replicate encNsym encDepth ++ List.replicate (litAlphabet - encNsym) 0

end Sys2Proof.Machine
end

