-- ==== Sys2Proof/Machine/BlockCodec.lean ====
section
/-! DEFINITION. The block codec (42_block_codec.md): Encode (R160 to R162), Decode (R163 to R165), and the commands DECODE
(R166), ENCODE (R167) and COPY (R168). -/

namespace Sys2Proof.Machine

/-! ## Encode -/

/-- A bit string put one bit at a time (41_huffman.md R144). -/
def Writer.putBits (bits : List Bool) (w : Writer) : Writer :=
  bits.foldl (fun w b => w.put b.toNat 1) w

/-- `Put(v, n)` done `k` times. -/
def Writer.putTimes (v n : Nat) : Nat → Writer → Writer
  | 0, w => w
  | k + 1, w => Writer.putTimes v n k (w.put v n)

/-- A block's header: literal count, shortcut descriptor, literal table (42_block_codec.md R161 steps 1 to 3). -/
def Writer.putHeader (count : Nat) (w : Writer) : Writer :=
  Writer.putTimes (encDepth - depthMin) depthFieldBits encNsym
    ((((w.put count litcountBits).put 1 1).put encCltLen cltLenBits).put encNsym litnBits)

/-- A block's codewords (42_block_codec.md R161 step 4): the codeword of byte `d` is `(d, 8)`. -/
def Writer.putLiterals (order : CodeBitOrder) (lits : List Byte) (w : Writer) : Writer :=
  lits.foldl (fun w d => w.putBits (transmitted order d.toNat encDepth)) w

/-- The state of Encode between blocks: the writer, BLK_COUNT since its start and the last block's literal count. -/
structure EncodeRun where
  writer : Writer
  blocks : Nat
  lastLits : Nat
deriving DecidableEq, Repr

/-- One block of Encode (42_block_codec.md R161). -/
def encodeBlock (order : CodeBitOrder) (lits : List Byte) (e : EncodeRun) : EncodeRun :=
  { writer := (e.writer.putHeader lits.length).putLiterals order lits
    blocks := e.blocks + 1
    lastLits := lits.length }

/-- The block loop of Encode (42_block_codec.md R160, R161): blocks of `M` bytes, the remainder in the last. `fuel` is
the number of bytes, more than the blocks there can be. -/
def encodeBlocks (order : CodeBitOrder) (M : Nat) : Nat → List Byte → EncodeRun → EncodeRun
  | 0, _, e => e
  | _ + 1, [], e => e
  | fuel + 1, d :: ds, e =>
    encodeBlocks order M fuel ((d :: ds).drop M) (encodeBlock order ((d :: ds).take M) e)

/-- `Encode(D, M)` with its final Flush (42_block_codec.md R161). -/
def encodeStream (order : CodeBitOrder) (M : Nat) (data : List Byte) : EncodeRun :=
  let e := encodeBlocks order M data.length data { writer := Writer.new, blocks := 0, lastLits := 0 }
  { e with writer := e.writer.flush }

/-- The registers Encode leaves, from counters that the command has set to 0 (42_block_codec.md R161). -/
def State.loadEncode (e : EncodeRun) (s : State) : State :=
  { s with
    bwAcc := BitVec.ofNat 32 e.writer.acc, bwCnt := BitVec.ofNat 5 e.writer.cnt
    blkCount := BitVec.ofNat 32 e.blocks, lastLits := BitVec.ofNat 16 e.lastLits
    lastLitn := if e.blocks = 0 then s.lastLitn else BitVec.ofNat 9 encNsym
    lastClt :=
      if e.blocks = 0 then s.lastClt
      else { short := true, len := BitVec.ofNat 4 encCltLen, valid := true } }

/-! ## Decode -/

/-- The state of a running Decode: the registers and tables it writes and its output, newest byte first. -/
structure Cursor where
  brPos : Nat
  blkCount : Nat
  lastLits : Nat
  lastLitn : Nat
  lastClt : CltInfo
  litLen : List Nat
  cltLen : List Nat
  tree : Trie
  produced : Nat
  outRev : List Byte
deriving DecidableEq, Repr

/-- The output so far, in order. -/
def Cursor.out (c : Cursor) : List Byte := c.outRev.reverse

/-- A part of Decode: the cursor it ends with, or the fault it raises with the cursor as the fault finds it. -/
abbrev Decoding := Except (FaultReport × Cursor) Cursor

/-- A table after its first entries were overwritten. -/
def overlay (vals old : List Nat) : List Nat := vals ++ old.drop vals.length

/-- The literal count and its check (42_block_codec.md R163). -/
def readCount (t : Stream) (T : Nat) (c : Cursor) : Except (FaultReport × Cursor) (Nat × Cursor) :=
  match t.get c.brPos litcountBits with
  | .error f => .error (f, c)
  | .ok l =>
    let c := { c with brPos := c.brPos + litcountBits, blkCount := c.blkCount + 1, lastLits := l }
    if T - c.produced < l then .error (⟨.targetOverrun, 0, c.brPos⟩, c) else .ok (l, c)

/-- The shortcut form of the descriptor: one length for all symbols (30_encoding.md R90). -/
def readShortClt (t : Stream) (c : Cursor) : Decoding :=
  match t.get c.brPos cltLenBits with
  | .error f => .error (f, c)
  | .ok len =>
    .ok
      { c with
        brPos := c.brPos + cltLenBits, cltLen := List.replicate cltSyms len
        lastClt := { short := true, len := BitVec.ofNat 4 len, valid := true } }

/-- The explicit form of the descriptor: 19 lengths (30_encoding.md R90). -/
def readFullClt (t : Stream) (c : Cursor) : Decoding :=
  let r := t.fields cltLenBits cltSyms c.brPos
  match r.fault with
  | some f => .error (f, { c with brPos := r.pos, cltLen := overlay r.vals c.cltLen })
  | none =>
    .ok
      { c with
        brPos := r.pos, cltLen := r.vals
        lastClt := { short := false, len := 0#4, valid := true } }

/-- The code-length-table descriptor, in the form its flag selects (42_block_codec.md R163, 30_encoding.md R90). -/
def readDescriptor (t : Stream) (c : Cursor) : Decoding :=
  match t.get c.brPos 1 with
  | .error f => .error (f, c)
  | .ok short =>
    let c := { c with brPos := c.brPos + 1 }
    if short = 1 then readShortClt t c else readFullClt t c

/-- The validation of the code-length table, its only use (41_huffman.md R151). -/
def checkClt (c : Cursor) : Decoding :=
  match canon c.cltLen with
  | none => .error (⟨.malformedTree, 1, c.brPos⟩, c)
  | some _ => .ok c

/-- The code-length-table descriptor and its validation (42_block_codec.md R163, 41_huffman.md R151). -/
def readClt (t : Stream) (c : Cursor) : Decoding := do
  let c ← readDescriptor t c
  checkClt c

/-- The literal table (42_block_codec.md R163, 30_encoding.md R91). -/
def readLitTable (t : Stream) (c : Cursor) : Decoding :=
  match t.get c.brPos litnBits with
  | .error f => .error (f, c)
  | .ok n =>
    let c := { c with brPos := c.brPos + litnBits, lastLitn := n }
    if litAlphabet < n then .error (⟨.malformedTree, 2, c.brPos⟩, c)
    else
      let r := t.fields depthFieldBits n c.brPos
      let depths := r.vals.map (· + depthMin)
      match r.fault with
      | some f => .error (f, { c with brPos := r.pos, litLen := overlay depths c.litLen })
      | none => .ok { c with brPos := r.pos, litLen := depths ++ List.replicate (litAlphabet - n) 0 }

/-- BuildTree at the end of the literal table (41_huffman.md R145). -/
def placeTree (order : CodeBitOrder) (c : Cursor) : Decoding :=
  match buildTree order c.litLen with
  | .error sub => .error (⟨.malformedTree, sub, c.brPos⟩, c)
  | .ok tree => .ok { c with tree := tree }

/-- The codewords of a block: walk, check, emit, `L` times (42_block_codec.md R163, 41_huffman.md R147, R148). -/
def decodeLiterals (t : Stream) : Nat → Cursor → Decoding
  | 0, c => .ok c
  | l + 1, c =>
    match walk t c.tree c.brPos with
    | (.error f, pos) => .error (f, { c with brPos := pos })
    | (.ok s, pos) =>
      if 0x100 ≤ s then .error (⟨.unsupportedSymbol, 0, pos⟩, { c with brPos := pos })
      else
        decodeLiterals t l
          { c with brPos := pos, produced := c.produced + 1, outRev := BitVec.ofNat 8 s :: c.outRev }

/-- One block of Decode (42_block_codec.md R163). -/
def decodeBlock (order : CodeBitOrder) (t : Stream) (T : Nat) (c : Cursor) : Decoding := do
  let (l, c) ← readCount t T c
  let c ← readClt t c
  let c ← readLitTable t c
  let c ← placeTree order c
  decodeLiterals t l c

/-- The block loop of Decode (42_block_codec.md R163). `fuel` bounds the number of blocks. With `fuel = 8·SL + 1` the
first case is never met with output missing, because a block takes at least 30 bits (R164; log 22). -/
def decodeBlocks (order : CodeBitOrder) (t : Stream) (T : Nat) : Nat → Cursor → Decoding
  | 0, c => if c.produced < T then .error (⟨.srcExhausted, 1, c.brPos⟩, c) else .ok c
  | fuel + 1, c =>
    if c.produced < T then do
      let c ← decodeBlock order t T c
      decodeBlocks order t T fuel c
    else .ok c

/-- `Decode(T)` (42_block_codec.md R163), from a cursor whose PRODUCED and output are cleared. -/
def decodeStream (order : CodeBitOrder) (t : Stream) (T : Nat) (c : Cursor) : Decoding :=
  decodeBlocks order t T (8 * t.len + 1) { c with produced := 0, outRev := [] }

/-- The cursor of a state. -/
def State.cursor (s : State) : Cursor :=
  { brPos := s.brPos.toNat, blkCount := s.blkCount.toNat, lastLits := s.lastLits.toNat
    lastLitn := s.lastLitn.toNat, lastClt := s.lastClt, litLen := s.litLen, cltLen := s.cltLen
    tree := s.tree, produced := s.produced, outRev := [] }

/-- The registers and tables a cursor stands for. OUT_LEN counts the bytes emitted. -/
def State.loadCursor (c : Cursor) (s : State) : State :=
  { s with
    brPos := BitVec.ofNat 32 c.brPos, blkCount := BitVec.ofNat 32 c.blkCount
    lastLits := BitVec.ofNat 16 c.lastLits, lastLitn := BitVec.ofNat 9 c.lastLitn
    lastClt := c.lastClt, litLen := c.litLen, cltLen := c.cltLen, tree := c.tree
    produced := c.produced, outLen := BitVec.ofNat 32 c.outRev.length }

/-- The run that a Decode gives: its output at the start of the destination range. -/
def decodeRun (s : State) (t : Stream) (T : Nat) : Run :=
  match decodeStream s.cfg.codeBitOrder t T s.cursor with
  | .ok c => { regs := s.loadCursor c, writes := cellsAt s.dstAddr.toNat c.out, fault := none }
  | .error (f, c) => { regs := s.loadCursor c, writes := cellsAt s.dstAddr.toNat c.out, fault := some f }

/-- The cleared cursors with which DECODE and PDECODE begin (42_block_codec.md R166, 43_payload.md R193). -/
def State.clearDecode (s : State) : State := { s.clearCounts with brPos := 0#32 }

/-- Bytes written at the start of the destination range, OUT_LEN counting them. -/
def storeRun (s : State) (bytes : List Byte) : Run :=
  { regs := s.setOutLen bytes.length, writes := cellsAt s.dstAddr.toNat bytes, fault := none }

/-! ## DECODE (42_block_codec.md R166) -/

/-- DECODE's body. -/
def bodyDecode (s : State) : Run :=
  if s.dstCap.toNat < s.targetLen.toNat then faultRun s.clearDecode .dstOverflow 0 s.targetLen.toNat
  else decodeRun s.clearDecode s.srcStream s.targetLen.toNat

/-- DECODE's run. -/
def runDecode (s : State) : Run := runCommand .decode bodyDecode s

/-- DECODE: decode a codec stream of SRC_LEN bytes into TARGET_LEN bytes. -/
def execDecode (s : State) : Host.Outcome State Fault Refusal := .next (runDecode s).finish

/-! ## ENCODE (42_block_codec.md R167) -/

/-- ENCODE's body. -/
def bodyEncode (s : State) : Run :=
  let e := encodeStream s.cfg.codeBitOrder s.blockMax.toNat (s.srcStream.take s.srcLen.toNat)
  let s1 := s.clearCounts.loadEncode e
  if s.dstCap.toNat < e.writer.out.length then faultRun s1 .dstOverflow 0 e.writer.out.length
  else storeRun s1 e.writer.out

/-- ENCODE's run. -/
def runEncode (s : State) : Run := runCommand .encode bodyEncode s

/-- ENCODE: encode SRC_LEN bytes as a codec stream. -/
def execEncode (s : State) : Host.Outcome State Fault Refusal := .next (runEncode s).finish

/-! ## COPY (42_block_codec.md R168) -/

/-- COPY's body. -/
def bodyCopy (s : State) : Run :=
  let s1 := s.setOutLen 0
  if s.srcLen.toNat < s.targetLen.toNat then faultRun s1 .srcExhausted 2 s.targetLen.toNat
  else if s.dstCap.toNat < s.targetLen.toNat then faultRun s1 .dstOverflow 0 s.targetLen.toNat
  else storeRun s1 (s.srcStream.take s.targetLen.toNat)

/-- COPY's run. -/
def runCopy (s : State) : Run := runCommand .copy bodyCopy s

/-- COPY: copy TARGET_LEN bytes verbatim. -/
def execCopy (s : State) : Host.Outcome State Fault Refusal := .next (runCopy s).finish

end Sys2Proof.Machine
end

