-- ==== Sys2Proof/Machine/Payload.lean ====
section
/-! DEFINITION. Payload framing (43_payload.md): the 9-byte header (R190, R191), the keep-smaller rule (R192), and the
commands PDECODE (R193) and PENCODE (R194). -/

namespace Sys2Proof.Machine

/-- `ParseHdr(h)`: USIZE, big-endian, and FLAG (43_payload.md R190). The four reserved bytes are not read. -/
def parseHdr (t : Stream) : Word × Byte :=
  (t.byte 0 ++ t.byte 1 ++ t.byte 2 ++ t.byte 3, t.byte 8)

/-- `EmitHdr(u, p)` (43_payload.md R191). -/
def emitHdr (u : Word) (packed : Bool) : List Byte :=
  [u.extractLsb' 24 8, u.extractLsb' 16 8, u.extractLsb' 8 8, u.extractLsb' 0 8,
    0#8, 0#8, 0#8, 0#8, if packed then 1#8 else 0#8]

/-! ## PDECODE (43_payload.md R193) -/

/-- PDECODE after its header is read: the flag check, the capacity check, and the branch on the flag. -/
def bodyPdecodePayload (usize : Word) (flag : Byte) (s : State) : Run :=
  if 1 < flag.toNat then faultRun s .badFlag 0 0
  else
    let s1 := { s with packed := decide (flag = 1#8) }
    if s.dstCap.toNat < usize.toNat then faultRun s1 .dstOverflow 0 usize.toNat
    else if flag = 0#8 then
      if s.srcLen.toNat < phdrBytes + usize.toNat then faultRun s1 .srcExhausted 2 (phdrBytes + usize.toNat)
      else storeRun s1 ((s.srcStream.skip phdrBytes).take usize.toNat)
    else decodeRun s1 (s.srcStream.skip phdrBytes) usize.toNat

/-- PDECODE's body. -/
def bodyPdecode (s : State) : Run :=
  let s1 := s.clearDecode
  if s.srcLen.toNat < phdrBytes then faultRun s1 .srcExhausted 2 phdrBytes
  else
    let h := parseHdr s.srcStream
    bodyPdecodePayload h.1 h.2 { s1 with hdrUsize := h.1 }

/-- PDECODE's run. -/
def runPdecode (s : State) : Run := runCommand .pdecode bodyPdecode s

/-- PDECODE: read a payload header and its payload. -/
def execPdecode (s : State) : Host.Outcome State Fault Refusal := .next (runPdecode s).finish

/-! ## PENCODE (43_payload.md R194) -/

/-- PENCODE's capacity check and its output: header, then the kept form. -/
def storePayload (s : State) (packed : Bool) (payload : List Byte) : Run :=
  if s.dstCap.toNat < phdrBytes + payload.length then
    faultRun s .dstOverflow 0 (phdrBytes + payload.length)
  else storeRun { s with packed := packed } (emitHdr s.srcLen packed ++ payload)

/-- The keep-smaller rule (43_payload.md R192): the compressed form only if strictly shorter. -/
def keepsCompressed (compressed data : List Byte) : Bool := decide (compressed.length < data.length)

/-- PENCODE's body. -/
def bodyPencode (raw : Bool) (s : State) : Run :=
  let data := s.srcStream.take s.srcLen.toNat
  let s1 := { s.clearCounts with hdrUsize := s.srcLen }
  if raw then storePayload s1 false data
  else
    let e := encodeStream s.cfg.codeBitOrder s.blockMax.toNat data
    let packed := keepsCompressed e.writer.out data
    storePayload (s1.loadEncode e) packed (if packed then e.writer.out else data)

/-- PENCODE's run. -/
def runPencode (raw : Bool) (s : State) : Run := runCommand (.pencode raw) (bodyPencode raw) s

/-- PENCODE: frame SRC_LEN bytes as a payload, applying the keep-smaller rule unless RAW = 1. -/
def execPencode (raw : Bool) (s : State) : Host.Outcome State Fault Refusal := .next (runPencode raw s).finish

end Sys2Proof.Machine
end

