-- ==== Sys2Proof/Machine/Control.lean ====
section
/-! DEFINITION. Control (44_control.md): NOP (R212) and the CTRL actions START (R210, R211), ABORT (R213) and SOFT_RESET
(R214). -/

namespace Sys2Proof.Machine

/-! ## NOP (44_control.md R212) -/

/-- NOP's run: the prologue and an empty body. -/
def runNop (s : State) : Run := runCommand .nop quietRun s

/-- NOP: complete without effect. -/
def execNop (s : State) : Host.Outcome State Fault Refusal := .next (runNop s).finish

/-! ## The run of any command -/

/-- The run of an instruction. A CTRL action is no command, so it has an empty one. -/
def runOf (i : Instr) (s : State) : Run :=
  match i with
  | .nop => runNop s
  | .decode => runDecode s
  | .encode => runEncode s
  | .copy => runCopy s
  | .pdecode => runPdecode s
  | .pencode raw => runPencode raw s
  | .bwReset => runBwReset s
  | .bwPut n => runBwPut n s
  | .bwFlush => runBwFlush s
  | .brReset => runBrReset s
  | .brGet n => runBrGet n s
  | .start _ => quietRun s
  | .abort _ => quietRun s
  | .softReset => quietRun s

/-- The run of the latched word: BAD_OPCODE where it selects no row (44_control.md R210, 30_encoding.md R82). -/
def runLatched (s : State) : Run :=
  match decodeCommand s.latch with
  | .ok i => runOf i s
  | .error _ => faultRun s .badOpcode 0 0

/-- The buffer memory once the engine is stopped: an unspecified prefix of the running command's writes, and any value
at the destination bytes the host wrote (44_control.md R213, R214). -/
def State.stoppedMemory (s : State) : Memory := (runLatched s).stoppedMemory s

/-! ## START (44_control.md R210, R211) -/

/-- START: a CTRL write with START = 1, ABORT = 0, SOFT_RESET = 0. While BUSY it only sets WERR. -/
def execStart (ie : Bool) (s : State) : Host.Outcome State Fault Refusal :=
  if s.busy then .next (s.setIrqEn ie).noteWriteError else .next (s.setIrqEn ie).accept

/-! ## ABORT (44_control.md R213) -/

/-- The running command is stopped: memory, the free registers, then fault entry with ABORTED. -/
def State.abortRun (s : State) : State :=
  ((s.withMem s.stoppedMemory).forgetCursors.forgetTables.retire).raise ⟨.aborted, 0, 0⟩

/-- ABORT: stop the running command, or nothing but IRQ_EN when idle. -/
def execAbort (ie : Bool) (s : State) : Host.Outcome State Fault Refusal :=
  if s.busy then .next (s.setIrqEn ie).abortRun else .next (s.setIrqEn ie)

/-! ## SOFT_RESET (44_control.md R214) -/

/-- The buffer memory a reset of the block leaves: that of a stopped command, or unchanged when idle. -/
def State.resetMemory (s : State) : Memory := if s.busy then s.stoppedMemory else s.mem

/-- SOFT_RESET's effect: every register at its reset value, the hidden state unspecified. -/
def State.softReset (s : State) : State :=
  ((s.withMem s.resetMemory).resetRegs.forgetTables.forgetLatch).retire

/-- SOFT_RESET: a CTRL write with SOFT_RESET = 1, whatever its other bits are. -/
def execSoftReset (s : State) : Host.Outcome State Fault Refusal := .next s.softReset

end Sys2Proof.Machine
end

