-- ==== Sys2Proof/Machine/Dispatch.lean ====
section
/-! DEFINITION. The meaning of each instruction, one arm each. A command's arm is the engine's step on that command
(44_control.md R216). A CTRL action's arm is the host's write of it. -/

namespace Sys2Proof.Machine

def exec (i : Instr) (s : State) : Host.Outcome State Fault Refusal :=
  match i with
  | .nop => Sys2Proof.Machine.execNop s
  | .decode => Sys2Proof.Machine.execDecode s
  | .encode => Sys2Proof.Machine.execEncode s
  | .copy => Sys2Proof.Machine.execCopy s
  | .pdecode => Sys2Proof.Machine.execPdecode s
  | .pencode raw => Sys2Proof.Machine.execPencode raw s
  | .bwReset => Sys2Proof.Machine.execBwReset s
  | .bwPut n => Sys2Proof.Machine.execBwPut n s
  | .bwFlush => Sys2Proof.Machine.execBwFlush s
  | .brReset => Sys2Proof.Machine.execBrReset s
  | .brGet n => Sys2Proof.Machine.execBrGet n s
  | .start ie => Sys2Proof.Machine.execStart ie s
  | .abort ie => Sys2Proof.Machine.execAbort ie s
  | .softReset => Sys2Proof.Machine.execSoftReset s

end Sys2Proof.Machine
end

