-- ==== Sys2Proof/Machine/Flags.lean ====
section
/-! DEFINITION. STATUS and its flags (10_state.md R27, R50; 60_exceptions.md R230, R237). -/

namespace Sys2Proof.Machine

/-- The number of a fault code (60_exceptions.md R230). -/
def FaultCode.toByte : FaultCode → Byte
  | .noFault => 0x00#8
  | .badOpcode => 0x01#8
  | .badLength => 0x02#8
  | .range => 0x03#8
  | .overlap => 0x04#8
  | .dstOverflow => 0x05#8
  | .srcExhausted => 0x06#8
  | .targetOverrun => 0x07#8
  | .malformedTree => 0x08#8
  | .codeUnterminated => 0x09#8
  | .unsupportedSymbol => 0x0A#8
  | .badFlag => 0x0B#8
  | .aborted => 0x0C#8

/-- STATUS.IRQ and the IRQ output: `CTRL.IRQ_EN & (DONE | ERR)` (10_state.md R27, 60_exceptions.md R237). -/
def State.irq (s : State) : Bool := s.irqEn && (s.done || s.err)

/-- STATUS as a register value (10_state.md R27): bits 31:24, ERRSUB, ERRCODE, bits 7:6, IRQ, PACKED, WERR, ERR, DONE,
BUSY. -/
def State.statusWord (s : State) : Word :=
  0#8 ++ s.errSub ++ s.errCode.toByte ++ 0#2 ++ BitVec.ofBool s.irq ++ BitVec.ofBool s.packed
    ++ BitVec.ofBool s.werr ++ BitVec.ofBool s.err ++ BitVec.ofBool s.done ++ BitVec.ofBool s.busy

/-- A host write to STATUS clears the W1C bits written as 1: DONE, ERR, WERR (10_state.md R27). -/
def State.writeStatus (v : Word) (s : State) : State :=
  { s with
    done := s.done && !v.getLsbD 1
    err := s.err && !v.getLsbD 2
    werr := s.werr && !v.getLsbD 3 }

end Sys2Proof.Machine
end

