-- ==== Sys2Proof/Machine/Registers.lean ====
section
/-! DEFINITION. The register window (10_state.md R20 to R46): its map, what a register reads as, and what a host write to
one does. -/

namespace Sys2Proof.Machine

/-- The registers of 10_state.md R22. -/
inductive Reg where
  | id
  | caps
  | ctrl
  | cmd
  | status
  | errPos
  | srcAddr
  | srcLen
  | dstAddr
  | dstCap
  | targetLen
  | blockMax
  | arg
  | result
  | outLen
  | bwAcc
  | bwCnt
  | brPos
  | hdrUsize
  | blkCount
  | lastLits
  | lastLitn
  | lastClt
  /-- Offsets 0x5C..0xFC. -/
  | reserved
deriving DecidableEq, Repr

/-- The register at an offset of the window (10_state.md R22). -/
def regAt (offset : Nat) : Reg :=
  match offset / 4 with
  | 0x00 => .id
  | 0x01 => .caps
  | 0x02 => .ctrl
  | 0x03 => .cmd
  | 0x04 => .status
  | 0x05 => .errPos
  | 0x06 => .srcAddr
  | 0x07 => .srcLen
  | 0x08 => .dstAddr
  | 0x09 => .dstCap
  | 0x0A => .targetLen
  | 0x0B => .blockMax
  | 0x0C => .arg
  | 0x0D => .result
  | 0x0E => .outLen
  | 0x0F => .bwAcc
  | 0x10 => .bwCnt
  | 0x11 => .brPos
  | 0x12 => .hdrUsize
  | 0x13 => .blkCount
  | 0x14 => .lastLits
  | 0x15 => .lastLitn
  | 0x16 => .lastClt
  | _ => .reserved

/-- The offset of a register, the first one for the reserved offsets. -/
def Reg.offset : Reg → Nat
  | .id => 0x00
  | .caps => 0x04
  | .ctrl => 0x08
  | .cmd => 0x0C
  | .status => 0x10
  | .errPos => 0x14
  | .srcAddr => 0x18
  | .srcLen => 0x1C
  | .dstAddr => 0x20
  | .dstCap => 0x24
  | .targetLen => 0x28
  | .blockMax => 0x2C
  | .arg => 0x30
  | .result => 0x34
  | .outLen => 0x38
  | .bwAcc => 0x3C
  | .bwCnt => 0x40
  | .brPos => 0x44
  | .hdrUsize => 0x48
  | .blkCount => 0x4C
  | .lastLits => 0x50
  | .lastLitn => 0x54
  | .lastClt => 0x58
  | .reserved => 0x5C

/-- ID (10_state.md R23). -/
def idWord : Word := 0x48420007#32

/-- CAPS (10_state.md R24): NBITS_MAX in bits [12:8], CODE_ORDER in bit 0. -/
def capsWord (order : CodeBitOrder) : Word :=
  match order with
  | .lsbFirst => 0x00001800#32
  | .msbFirst => 0x00001801#32

/-- CTRL as read: IRQ_EN in bit 3, the action bits 0 (10_state.md R25). -/
def State.ctrlWord (s : State) : Word := 0#28 ++ BitVec.ofBool s.irqEn ++ 0#3

/-- LAST_CLT as read (10_state.md R45). -/
def cltWord (i : CltInfo) : Word := 0#23 ++ BitVec.ofBool i.valid ++ i.len ++ 0#3 ++ BitVec.ofBool i.short

/-- The stored value of a register (10_state.md R22 to R45). -/
def State.regWord (s : State) : Reg → Word
  | .id => idWord
  | .caps => capsWord s.cfg.codeBitOrder
  | .ctrl => s.ctrlWord
  | .cmd => s.cmd
  | .status => s.statusWord
  | .errPos => s.errPos
  | .srcAddr => s.srcAddr
  | .srcLen => s.srcLen
  | .dstAddr => s.dstAddr
  | .dstCap => s.dstCap
  | .targetLen => s.targetLen
  | .blockMax => s.blockMax
  | .arg => s.arg
  | .result => s.result
  | .outLen => s.outLen
  | .bwAcc => s.bwAcc
  | .bwCnt => s.bwCnt.zeroExtend 32
  | .brPos => s.brPos
  | .hdrUsize => s.hdrUsize
  | .blkCount => s.blkCount
  | .lastLits => s.lastLits.zeroExtend 32
  | .lastLitn => s.lastLitn.zeroExtend 32
  | .lastClt => cltWord s.lastClt
  | .reserved => 0#32

/-- The result and cursor registers, whose reads during BUSY return any value (70_reset_and_hazards.md R266; ERR_POS is
among them by log 11). -/
def Reg.openWhileBusy : Reg → Bool
  | .errPos => true
  | .result => true
  | .outLen => true
  | .bwAcc => true
  | .bwCnt => true
  | .brPos => true
  | .hdrUsize => true
  | .blkCount => true
  | .lastLits => true
  | .lastLitn => true
  | .lastClt => true
  | .id => false
  | .caps => false
  | .ctrl => false
  | .cmd => false
  | .status => false
  | .srcAddr => false
  | .srcLen => false
  | .dstAddr => false
  | .dstCap => false
  | .targetLen => false
  | .blockMax => false
  | .arg => false
  | .reserved => false

/-- The bits of a register that do not read as zero (93_implementation_defined.md U11). -/
def Reg.bits : Reg → Word
  | .caps => 0x00001F01#32
  | .ctrl => 0x00000008#32
  | .status => 0x00FFFF3F#32
  | .bwCnt => 0x0000001F#32
  | .lastLits => 0x0000FFFF#32
  | .lastLitn => 0x000001FF#32
  | .lastClt => 0x000001F1#32
  | .reserved => 0#32
  | .id => 0xFFFFFFFF#32
  | .cmd => 0xFFFFFFFF#32
  | .errPos => 0xFFFFFFFF#32
  | .srcAddr => 0xFFFFFFFF#32
  | .srcLen => 0xFFFFFFFF#32
  | .dstAddr => 0xFFFFFFFF#32
  | .dstCap => 0xFFFFFFFF#32
  | .targetLen => 0xFFFFFFFF#32
  | .blockMax => 0xFFFFFFFF#32
  | .arg => 0xFFFFFFFF#32
  | .result => 0xFFFFFFFF#32
  | .outLen => 0xFFFFFFFF#32
  | .bwAcc => 0xFFFFFFFF#32
  | .brPos => 0xFFFFFFFF#32
  | .hdrUsize => 0xFFFFFFFF#32
  | .blkCount => 0xFFFFFFFF#32

/-- A host read of a register: its stored value, or any value of its bits for the open registers during BUSY
(70_reset_and_hazards.md R266, 93_implementation_defined.md U5). -/
def State.readReg (r : Reg) (s : State) : State :=
  if s.busy && r.openWhileBusy then (s.answer (.word (Config.busyRead s.draws &&& r.bits))).drew
  else s.answer (.word (s.regWord r))

/-- The RW registers other than CTRL (10_state.md R46). -/
def Reg.isOperand : Reg → Bool
  | .cmd => true
  | .srcAddr => true
  | .srcLen => true
  | .dstAddr => true
  | .dstCap => true
  | .targetLen => true
  | .blockMax => true
  | .arg => true
  | .id => false
  | .caps => false
  | .ctrl => false
  | .status => false
  | .errPos => false
  | .result => false
  | .outLen => false
  | .bwAcc => false
  | .bwCnt => false
  | .brPos => false
  | .hdrUsize => false
  | .blkCount => false
  | .lastLits => false
  | .lastLitn => false
  | .lastClt => false
  | .reserved => false

/-- A stored operand register. Registers that are no operand keep their value: RO and reserved ones ignore writes
(10_state.md R22), CTRL and STATUS are written by their own rules. -/
def State.setOperand (r : Reg) (v : Word) (s : State) : State :=
  match r with
  | .cmd => { s with cmd := v }
  | .srcAddr => { s with srcAddr := v }
  | .srcLen => { s with srcLen := v }
  | .dstAddr => { s with dstAddr := v }
  | .dstCap => { s with dstCap := v }
  | .targetLen => { s with targetLen := v }
  | .blockMax => { s with blockMax := v }
  | .arg => { s with arg := v }
  | .id => s
  | .caps => s
  | .ctrl => s
  | .status => s
  | .errPos => s
  | .result => s
  | .outLen => s
  | .bwAcc => s
  | .bwCnt => s
  | .brPos => s
  | .hdrUsize => s
  | .blkCount => s
  | .lastLits => s
  | .lastLitn => s
  | .lastClt => s
  | .reserved => s

/-- A host write to a register other than CTRL: STATUS clears W1C bits; an operand register takes the value, or during
BUSY ignores it and sets WERR (10_state.md R46); the rest ignore it (R22). -/
def State.writeReg (r : Reg) (v : Word) (s : State) : State :=
  if r = .status then s.writeStatus v
  else if r.isOperand && s.busy then s.noteWriteError
  else s.setOperand r v

end Sys2Proof.Machine
end

