-- ==== Sys2Proof/Machine/HostBus.lean ====
section
/-! DEFINITION. The host's accesses (10_state.md R20 to R22, R46; 20_memory.md R60, R68; 70_reset_and_hazards.md R265,
R266) and the hardware reset input (R260). -/

namespace Sys2Proof.Machine

/-! ## The register window -/

/-- What a bus access addresses. -/
inductive BusTarget where
  /-- No byte of the access is in the window (log 16). -/
  | elsewhere
  /-- In the window, and not an aligned 32-bit access (10_state.md R21). -/
  | illegal
  | reg (r : Reg)
deriving DecidableEq, Repr

/-- The window's address decoder (10_state.md R20, R21). -/
def busTarget (base addr width : Nat) : BusTarget :=
  if base + 0x100 ≤ addr ∨ addr + width ≤ base then .elsewhere
  else if base ≤ addr ∧ width = 4 ∧ (addr - base) % 4 = 0 then .reg (regAt (addr - base))
  else .illegal

/-- A host write to CTRL: the action its bits [2:0] encode, or with none of them only IRQ_EN (30_encoding.md R85). -/
def writeCtrl (v : Word) (s : State) : Host.Outcome State Fault Refusal :=
  match decodeCtrl v with
  | .ok i => exec i s
  | .error _ => .next (s.setIrqEn (irqEnField v))

/-- A host write to a register. -/
def writeRegister (r : Reg) (v : Word) (s : State) : Host.Outcome State Fault Refusal :=
  if r = .ctrl then writeCtrl v s else .next (s.writeReg r v)

/-! ## Buffer memory -/

/-- Address `a` is in the running command's source range. -/
def State.ownsSrc (s : State) (a : Nat) : Bool :=
  s.busy && match decodeCommand s.latch with
    | .ok i => s.inSrc i a
    | .error _ => false

/-- Address `a` is in the running command's destination range. -/
def State.ownsDst (s : State) (a : Nat) : Bool :=
  s.busy && match decodeCommand s.latch with
    | .ok i => s.inDst i a
    | .error _ => false

/-- The values a read of a destination byte may return during BUSY: the old byte, and every value the running command
writes there (70_reset_and_hazards.md R265). -/
def State.busyBytes (s : State) (a : Nat) : List Byte :=
  memRead s.mem a :: ((runLatched s).writes.filter fun c => c.1 = a).map Prod.snd

/-- A host read of buffer memory (20_memory.md R68, 70_reset_and_hazards.md R265; log 11). DESIGN CHOICE (log 24): the
host's address is the engine's, which 20_memory.md R69 leaves to the platform. -/
def hostMemRead (a : Nat) (s : State) : Host.Outcome State Fault Refusal :=
  if s.cfg.memSize ≤ a then .fault (.noSuchAddress a)
  else if s.ownsDst a then
    if a ∈ s.dstTouched then .next (s.answer (.byte (Config.busyByte s.draws))).drew
    else
      let bytes := s.busyBytes a
      .next (s.answer (.byte (bytes.getD (Config.busyPick s.draws % bytes.length) unlistedByte))).drew
  else .next (s.answer (.byte (memRead s.mem a)))

/-- The host wrote the source range during BUSY: from now on the engine sees any contents (log 12). -/
def State.raceSrc (s : State) : State := { s with srcDraw := some s.draws, draws := s.draws + 1 }

/-- The host wrote a destination byte during BUSY (log 13). -/
def State.raceDst (a : Nat) (s : State) : State := { s with dstTouched := a :: s.dstTouched }

/-- A host write of buffer memory (20_memory.md R68, 70_reset_and_hazards.md R265). DESIGN CHOICE (log 24): the host's
address is the engine's, which 20_memory.md R69 leaves to the platform. -/
def hostMemWrite (a : Nat) (v : Byte) (s : State) : Host.Outcome State Fault Refusal :=
  if s.cfg.memSize ≤ a then .fault (.noSuchAddress a)
  else
    let s1 := (s.withMem (memWrite s.mem a v)).answer .done
    let s2 := if s.ownsSrc a then s1.raceSrc else s1
    .next (if s.ownsDst a then s2.raceDst a else s2)

/-! ## Reset -/

/-- The hardware reset input (70_reset_and_hazards.md R260, R262): SOFT_RESET's effect on the block, and the contents
the platform then gives buffer memory (log 17). -/
def State.hardwareReset (contents : List Host.Cell) (s : State) : State :=
  ((s.withMem (memoryOf s.cfg.memSize contents)).resetRegs.forgetTables.forgetLatch).retire.answer .done

/-! ## One host step -/

/-- One access of the host, already taken off `pending`. -/
def hostStep (op : HostOp) (s : State) : Host.Outcome State Fault Refusal :=
  match op with
  | .busWrite addr width v =>
    match busTarget s.cfg.regBase addr width with
    | .elsewhere => .next (s.answer .notDecoded)
    | .illegal => .next (s.answer .busError)
    | .reg r => writeRegister r v (s.answer .done)
  | .busRead addr width =>
    match busTarget s.cfg.regBase addr width with
    | .elsewhere => .next (s.answer .notDecoded)
    | .illegal => .next (s.answer .busError)
    | .reg r => .next (s.readReg r)
  | .memWrite a v => hostMemWrite a v s
  | .memRead a => hostMemRead a s
  | .poll =>
    let s1 := s.answer (.word s.statusWord)
    .next (if s.busy then { s1 with pending := .poll :: s1.pending } else s1)
  | .hardwareReset contents => .next (s.hardwareReset contents)

end Sys2Proof.Machine
end

