-- ==== Sys2Proof/Machine/Engine.lean ====
section
/-! DEFINITION. Whose turn it is, and the engine's step (44_control.md R216). -/

namespace Sys2Proof.Machine

/-- What the next step is. -/
inductive Turn where
  /-- The block is idle and the host does nothing: every register keeps its value (60_exceptions.md R246). -/
  | idle
  /-- The engine's step. -/
  | engine
  /-- A host step: its access and those after it. -/
  | host (op : HostOp) (rest : List HostOp)
deriving DecidableEq, Repr

/-- Host steps come in their order (20_memory.md R71). While PHASE = RUN the engine's step comes after the number of
host steps drawn at START, or at once when the host does nothing more (44_control.md R216, 70_reset_and_hazards.md
R270; log 6). -/
def State.turn (s : State) : Turn :=
  match s.phase, s.pending with
  | .idle, [] => .idle
  | .idle, op :: rest => .host op rest
  | .run, [] => .engine
  | .run, op :: rest => if s.engineDue = 0 then .engine else .host op rest

/-- The engine's step: the latched command's meaning, or BAD_OPCODE where the word selects no row (44_control.md R210,
R216). -/
def State.engineStep (s : State) : Host.Outcome State Fault Refusal :=
  match decodeCommand s.latch with
  | .ok i => exec i s
  | .error _ => .next (runLatched s).finish

end Sys2Proof.Machine
end

