-- ==== Sys2Proof/Machine/Step.lean ====
section
/-! DEFINITION. One step of the machine: the engine's or the host's. -/

namespace Sys2Proof.Machine

/-- One step (44_control.md R216). -/
def step (s : State) : Host.Outcome State Fault Refusal :=
  match s.turn with
  | .idle => .next s
  | .engine => s.engineStep
  | .host op rest => hostStep op (s.takeHost rest)

/-- The state with the word of one table row placed so that the very next step runs it: a command word in the latch of
a running engine whose step is due, a CTRL value as the host's next write (log 5, log 14). -/
def State.withFetchWord (s : State) (nbits w : Nat) : State :=
  match tableFormat nbits with
  | .cmd => { s with phase := .run, latch := BitVec.ofNat 32 w, engineDue := 0 }
  | .ctrl =>
    { s with
      pending := .busWrite (s.cfg.regBase + Reg.offset .ctrl) 4 (BitVec.ofNat 32 w) :: s.pending
      engineDue := max 1 s.engineDue }

end Sys2Proof.Machine
end

