-- ==== Sys2Proof/Machine/HostProgram.lean ====
section
/-! DEFINITION. Host programs as lists of host accesses: the statements of 30_encoding.md R99 and the pseudo-instructions
of R100. -/

namespace Sys2Proof.Machine

/-- `w NAME, value`. -/
def progW (c : Config) (r : Reg) (v : Word) : List HostOp := [.busWrite (c.regBase + r.offset) 4 v]

/-- `r NAME`. -/
def progR (c : Config) (r : Reg) : List HostOp := [.busRead (c.regBase + r.offset) 4]

/-- `mw addr, [b0, b1, ...]`. -/
def progMw (addr : Nat) (bytes : List Byte) : List HostOp :=
  (cellsAt addr bytes).map fun c => .memWrite c.1 c.2

/-- `mr addr, n`. -/
def progMr (addr n : Nat) : List HostOp := (List.range n).map fun k => .memRead (addr + k)

/-- `cmd MNEMONIC`, with NBITS or RAW as the instruction has them. -/
def progCmd (c : Config) (i : Instr) : List HostOp := progW c .cmd (encode i)

/-- `go`: START, with the IRQ_EN value the program keeps. -/
def progGo (c : Config) (ie : Bool) : List HostOp := progW c .ctrl (encode (.start ie))

/-- `run ...`: `cmd ...`, `go`, `poll`. -/
def progRun (c : Config) (ie : Bool) (i : Instr) : List HostOp := progCmd c i ++ progGo c ie ++ [.poll]

/-- `abort`. -/
def progAbort (c : Config) (ie : Bool) : List HostOp := progW c .ctrl (encode (.abort ie))

/-- `sreset`. -/
def progSreset (c : Config) : List HostOp := progW c .ctrl (encode .softReset)

/-- `ack`: DONE, ERR and WERR cleared. -/
def progAck (c : Config) : List HostOp := progW c .status 0x0000000E#32

/-- The state with a program for the host to run (log 5). -/
def State.load (prog : List HostOp) (s : State) : State := { s with pending := s.pending ++ prog }

end Sys2Proof.Machine
end

