-- ==== Sys2Proof/Safety.lean ====
section
/-! DEFINITION. What counts as a legal state and as a host that keeps the hazard rules, in the terms the statements
use. -/

namespace Sys2Proof.Machine

/-! ## Legal states -/

/-- A legal entry of LIT_LEN: absent, or a depth in 2..17 (41_huffman.md R140). -/
abbrev LegalDepth (d : Nat) : Prop := d = 0 ∨ (depthMin ≤ d ∧ d ≤ depthMax)

/-- Buffer memory is in canonical form and holds existing addresses only (20_memory.md R60), and so do the addresses
kept of destination bytes the host wrote. -/
abbrev State.MemOk (s : State) : Prop :=
  Memory.wf s.mem ∧ Memory.within s.mem s.cfg.memSize ∧ ∀ a ∈ s.dstTouched, a < s.cfg.memSize

/-- The hidden tables have their sizes and legal entries (41_huffman.md R140, R141). -/
abbrev State.TablesOk (s : State) : Prop :=
  s.litLen.length = litAlphabet ∧ (∀ d ∈ s.litLen, LegalDepth d) ∧
    s.cltLen.length = cltSyms ∧ ∀ l ∈ s.cltLen, l ≤ 15

/-- The status of a running command is what its START left (70_reset_and_hazards.md R266, 20_memory.md R74). -/
abbrev State.RunOk (s : State) : Prop :=
  s.phase = .run →
    s.done = false ∧ s.err = false ∧ s.packed = false ∧ s.errCode = .noFault ∧ s.latch = s.cmd

/-- DONE and ERR report different outcomes of the last command (60_exceptions.md R234, R236). -/
abbrev State.StatusOk (s : State) : Prop :=
  ¬(s.done = true ∧ s.err = true) ∧ (s.done = true → s.errCode = .noFault) ∧
    (s.err = true → s.errCode ≠ .noFault) ∧
    (s.errCode = .noFault → s.errSub = 0#8 ∧ s.errPos = 0#32)

/-- The host's races are those of the running command: the destination bytes it wrote lie in that command's destination
range, and an idle block has none on record (70_reset_and_hazards.md R265). -/
abbrev State.RaceOk (s : State) : Prop :=
  (∀ a ∈ s.dstTouched, s.ownsDst a = true) ∧ (s.srcDraw ≠ none → s.busy = true)

/-- The invariant every step keeps. -/
abbrev State.Inv (s : State) : Prop := s.MemOk ∧ s.TablesOk ∧ s.RunOk ∧ s.StatusOk ∧ s.RaceOk

/-- The bit writer between commands (10_state.md R38, R39). An ABORT may leave it otherwise (log 7). -/
abbrev State.WriterOk (s : State) : Prop :=
  s.bwCnt.toNat ≤ 7 ∧ s.bwAcc.toNat < 2 ^ s.bwCnt.toNat

/-! ## Operands of a command that the prologue lets through (44_control.md R210) -/

/-- The source range is short enough and lies in buffer memory. -/
abbrev State.SrcOk (s : State) : Prop :=
  s.srcLen.toNat ≤ srcLenMax ∧ s.srcAddr.toNat + s.srcLen.toNat ≤ s.cfg.memSize

/-- The destination range lies in buffer memory. -/
abbrev State.DstOk (s : State) : Prop := s.dstAddr.toNat + s.dstCap.toNat ≤ s.cfg.memSize

/-- The two ranges share no byte (20_memory.md R67). -/
abbrev State.Disjoint (s : State) : Prop :=
  s.srcLen.toNat = 0 ∨ s.dstCap.toNat = 0 ∨ s.dstAddr.toNat + s.dstCap.toNat ≤ s.srcAddr.toNat ∨
    s.srcAddr.toNat + s.srcLen.toNat ≤ s.dstAddr.toNat

/-- BLOCK_MAX is a legal block size (10_state.md R34). -/
abbrev State.BlockMaxOk (s : State) : Prop := 1 ≤ s.blockMax.toNat ∧ s.blockMax.toNat ≤ blockMaxLimit

/-! ## Hazards -/

/-- The host has written neither range of the running command (70_reset_and_hazards.md R265). -/
abbrev State.Quiet (s : State) : Prop := s.srcDraw = none ∧ s.dstTouched = []

/-- A host access that keeps the hazard rules in this state (70_reset_and_hazards.md R265, R266). -/
def hazardFree (op : HostOp) (s : State) : Bool :=
  match op with
  | .busWrite addr width v =>
    match busTarget s.cfg.regBase addr width with
    | .elsewhere => true
    | .illegal => true
    | .reg r =>
      !(s.busy && (r.isOperand || (decide (r = .ctrl) &&
        match decodeCtrl v with
        | .ok (.start _) => true
        | _ => false)))
  | .busRead addr width =>
    match busTarget s.cfg.regBase addr width with
    | .elsewhere => true
    | .illegal => true
    | .reg r => !(s.busy && r.openWhileBusy)
  | .memWrite a _ => !(s.ownsSrc a || s.ownsDst a)
  | .memRead a => !(s.ownsDst a)
  | .poll => true
  | .hardwareReset _ => true

/-- The next step is the host's ABORT of a running command (44_control.md R213). -/
def State.abortsNext (s : State) : Bool :=
  match s.turn with
  | .host (.busWrite addr width v) _ =>
    s.busy && decide (busTarget s.cfg.regBase addr width = .reg .ctrl) &&
      (match decodeCtrl v with
      | .ok (.abort _) => true
      | _ => false)
  | _ => false

/-! ## What a command cannot depend on -/

/-- The hidden tables as one value (10_state.md R47). -/
structure Tables where
  litLen : List Nat
  cltLen : List Nat
  tree : Trie
  produced : Nat
deriving DecidableEq, Repr

/-- The same state with other hidden tables. -/
def State.withTables (t : Tables) (s : State) : State :=
  { s with litLen := t.litLen, cltLen := t.cltLen, tree := t.tree, produced := t.produced }

/-- The host's side and the model's own counters as one value. -/
structure Side where
  latch : Word
  pending : List HostOp
  reply : BusReply
  engineDue : Nat
  draws : Nat
deriving DecidableEq, Repr

/-- The same state with another host side. -/
def State.withSide (x : Side) (s : State) : State :=
  { s with latch := x.latch, pending := x.pending, reply := x.reply, engineDue := x.engineDue, draws := x.draws }

/-- `ceil(n / M)`, the number of blocks of `n` bytes (42_block_codec.md R160). -/
def blockCount (n M : Nat) : Nat := (n + M - 1) / M

/-- One bit string is a proper prefix of another (41_huffman.md R145). -/
def properPrefix (a b : List Bool) : Bool := a.isPrefixOf b && decide (a.length < b.length)

end Sys2Proof.Machine
end

