-- ==== Sys2Proof/Certificates/Slice0/Obligations.lean ====
section
/-! DEFINITION. The statements about the model. `s.Quiet` says that the host has written neither range of the running
command (70_reset_and_hazards.md R265). Every command's step also counts one draw and clears the model's own record of
the command (`engineDue`, `srcDraw`, `dstTouched`), which are no registers of the block (log 18). -/

open Sys2Proof Sys2Proof.Machine

/-! ## Encodings -/

/-- Every instruction decodes from its own word, with every operand at every value, and a command word has one meaning:
it is the word of the instruction it decodes to, so that no bit of it is dropped (30_encoding.md R80 to R85). -/
def Obligations.DecodeEncodeRoundTrip : Prop :=
  (∀ i : Instr, decode i.format (encode i) = .ok i) ∧
  ∀ (w : Word) (i : Instr), decodeCommand w = .ok i → i.format = .cmd ∧ encode i = w

/-- 30_encoding.md R82: which words are illegal, and what START with one does. Legality reads the word alone. START
latches the word, and the engine's step on it reports BAD_OPCODE and changes nothing else. -/
def Obligations.IllegalWordFaultsBadOpcode : Prop :=
  ∀ w : Word,
    ((∃ i, decodeCommand w = .ok i) ↔
      (w.toNat % 16 ≤ 0xA ∧ w.toNat / 2 ^ 10 = 0 ∧
        (w.toNat % 16 ≠ 7 → w.toNat % 16 ≠ 0xA → w.toNat / 2 ^ 4 % 32 = 0) ∧
        (w.toNat % 16 ≠ 5 → w.toNat / 2 ^ 9 % 2 = 0))) ∧
    ((∀ i, decodeCommand w ≠ .ok i) →
      (∀ (ie : Bool) (s : State), s.busy = false → s.cmd = w →
        ∃ t : State, exec (.start ie) s = .next t ∧ t.busy = true ∧ t.latch = w ∧ t.Quiet) ∧
      ∀ s : State, s.turn = .engine → s.Quiet → s.latch = w →
        step s = .next
          { s with
            errCode := .badOpcode, errSub := 0#8, errPos := 0#32, err := true, phase := .idle
            engineDue := 0, draws := s.draws + 1 })

/-- 30_encoding.md R85: SOFT_RESET, then ABORT, then START act; bit 3 is IRQ_EN; a write with bits [2:0] = 0 only stores
IRQ_EN. -/
def Obligations.CtrlActionPriority : Prop :=
  (∀ v : Word, v.getLsbD 2 = true → decodeCtrl v = .ok .softReset) ∧
  (∀ v : Word, v.getLsbD 2 = false → v.getLsbD 1 = true → decodeCtrl v = .ok (.abort (v.getLsbD 3))) ∧
  (∀ v : Word, v.getLsbD 2 = false → v.getLsbD 1 = false → v.getLsbD 0 = true →
    decodeCtrl v = .ok (.start (v.getLsbD 3))) ∧
  (∀ (v : Word) (s : State), v.getLsbD 2 = false → v.getLsbD 1 = false → v.getLsbD 0 = false →
    writeRegister .ctrl v s = .next { s with irqEn := v.getLsbD 3 })

/-- A few words written out from 30_encoding.md R80, R81, R85 and R100 decode to their instructions. -/
def Obligations.SampleWordsDecode : Prop :=
  decodeCommand 0x00000001#32 = .ok .decode ∧ decodeCommand 0x00000205#32 = .ok (.pencode true) ∧
  decodeCommand 0x00000187#32 = .ok (.bwPut 24#5) ∧ decodeCommand 0x0000009A#32 = .ok (.brGet 9#5) ∧
  decodeCtrl 0x00000009#32 = .ok (.start true) ∧ decodeCtrl 0x00000007#32 = .ok .softReset

/-! ## The step -/

/-- The engine's step runs the latched command, legal or not as written (44_control.md R216). -/
def Obligations.StepRunsLatchedCommand : Prop :=
  ∀ (s : State) (i : Instr), s.turn = .engine → decodeCommand s.latch = .ok i → step s = exec i s

/-- A host write of a CTRL action runs that action, on the state with the access taken off `pending` and answered
(44_control.md R210, R213, R214). -/
def Obligations.StepRunsCtrlAction : Prop :=
  ∀ (s : State) (i : Instr) (v : Word) (rest : List HostOp),
    s.turn = .host (.busWrite (s.cfg.regBase + 0x08) 4 v) rest → decodeCtrl v = .ok i →
      step s = exec i { s with pending := rest, engineDue := s.engineDue - 1, reply := .done }

/-- The only stop of the machine is a host access to a buffer-memory address at or beyond MEM_SIZE (20_memory.md R60;
the stop itself is the model's choice, log 15). -/
def Obligations.OnlyMissingAddressesStop : Prop :=
  ∀ s : State,
    (∀ r, step s ≠ .refused r) ∧
    ∀ f, step s = .fault f →
      ∃ a rest, f = .noSuchAddress a ∧ s.cfg.memSize ≤ a ∧
        (s.turn = .host (.memRead a) rest ∨ ∃ v, s.turn = .host (.memWrite a v) rest)

/-- The engine is weakly fair (44_control.md R216, 70_reset_and_hazards.md R270; the count is the model's, log 6): its
step ends the command, and every host step during RUN either ends it or brings the engine's step nearer. -/
def Obligations.EngineIsFair : Prop :=
  ∀ s t : State, step s = .next t →
    (s.turn = .engine → t.phase = .idle) ∧
    (∀ op rest, s.phase = .run → s.turn = .host op rest → t.phase = .run → t.engineDue < s.engineDue)

/-! ## Bit stream -/

/-- 40_bitstream.md R121: on exit from Put the writer is again below its count, the count is at most 7, and the bytes
emitted are `(BW_CNT + n) div 8` many. -/
def Obligations.PutKeepsWriter : Prop :=
  ∀ (v n : Nat) (w : Writer), w.cnt ≤ 7 → w.acc < 2 ^ w.cnt →
    (w.put v n).cnt = (w.cnt + n) % 8 ∧ (w.put v n).acc < 2 ^ (w.put v n).cnt ∧
      (w.put v n).out.length = w.out.length + (w.cnt + n) / 8

/-- 40_bitstream.md R125, the round-trip law: a reader that starts at position 0 of the flushed stream and gets the
fields' widths in order succeeds at every Get, reads the fields' values and ends at the sum of the widths. -/
def Obligations.BitStreamRoundTrip : Prop :=
  ∀ fields : List (Nat × Nat), (∀ f ∈ fields, 1 ≤ f.2 ∧ f.2 ≤ 24) →
    let out := (fields.foldl (fun w f => w.put f.1 f.2) Writer.new).flush.out
    let t : Stream := { byte := fun j => out.getD j 0#8, len := out.length }
    fields.foldlM (init := (([] : List Nat), 0)) (fun r f => do
        let v ← t.get r.2 f.2
        pure (r.1 ++ [v], r.2 + f.2)) =
      .ok (fields.map fun f => f.1 % 2 ^ f.2, (fields.map Prod.snd).sum)

/-- NOP completes without effect (44_control.md R212). BW_RESET clears the writer and its cursor (40_bitstream.md R126),
BR_RESET clears BR_POS (R129), and neither changes anything else. -/
def Obligations.NopAndCursorResetsComplete : Prop :=
  ∀ s : State, s.Quiet →
    exec .nop s = .next { s with done := true, phase := .idle, engineDue := 0, draws := s.draws + 1 } ∧
    exec .bwReset s = .next
      { s with
        bwAcc := 0#32, bwCnt := 0#5, outLen := 0#32
        done := true, phase := .idle, engineDue := 0, draws := s.draws + 1 } ∧
    exec .brReset s = .next
      { s with brPos := 0#32, done := true, phase := .idle, engineDue := 0, draws := s.draws + 1 }

/-- BW_PUT (40_bitstream.md R127): the accumulator with the low NBITS bits of ARG above it emits its whole bytes at
DST_ADDR + OUT_LEN and keeps the rest. Nothing else changes. -/
def Obligations.BwPutAppendsBits : Prop :=
  ∀ (n : BitVec 5) (s : State), s.Quiet → Memory.wf s.mem → s.DstOk → s.WriterOk →
    1 ≤ n.toNat → n.toNat ≤ 24 →
    s.outLen.toNat + (s.bwCnt.toNat + n.toNat) / 8 ≤ s.dstCap.toNat →
    let e := (s.bwCnt.toNat + n.toNat) / 8
    let total := s.bwAcc.toNat + (s.arg.toNat % 2 ^ n.toNat) * 2 ^ s.bwCnt.toNat
    let base := s.dstAddr.toNat + s.outLen.toNat
    ∃ m : Memory,
      exec (.bwPut n) s = .next
        { s with
          mem := m, bwAcc := BitVec.ofNat 32 (total / 2 ^ (8 * e))
          bwCnt := BitVec.ofNat 5 ((s.bwCnt.toNat + n.toNat) % 8)
          outLen := BitVec.ofNat 32 (s.outLen.toNat + e)
          done := true, phase := .idle, engineDue := 0, draws := s.draws + 1 } ∧
      (∀ k < e, memRead m (base + k) = BitVec.ofNat 8 (total / 2 ^ (8 * k))) ∧
      ∀ a, (a < base ∨ base + e ≤ a) → memRead m a = memRead s.mem a

/-- BW_PUT from any writer, also one an ABORT left (40_bitstream.md R127, 10_state.md R35, R38, R39): with room it
completes, the count of bytes and their place are R127's, and it leaves a legal writer. On every path it uses the low
NBITS bits of ARG only. What the bytes and the writer become outside Put's entry condition is the model's choice
(log 10). -/
def Obligations.BwPutCompletesAfterAbort : Prop :=
  (∀ (n : BitVec 5) (s : State), s.Quiet → s.DstOk → 1 ≤ n.toNat → n.toNat ≤ 24 →
    s.outLen.toNat + (s.bwCnt.toNat + n.toNat) / 8 ≤ s.dstCap.toNat →
    let e := (s.bwCnt.toNat + n.toNat) / 8
    let base := s.dstAddr.toNat + s.outLen.toNat
    ∃ (m : Memory) (acc : Word) (cnt : BitVec 5),
      exec (.bwPut n) s = .next
        { s with
          mem := m, bwAcc := acc, bwCnt := cnt, outLen := BitVec.ofNat 32 (s.outLen.toNat + e)
          done := true, phase := .idle, engineDue := 0, draws := s.draws + 1 } ∧
      cnt.toNat ≤ 7 ∧ acc.toNat < 2 ^ cnt.toNat ∧
      ∀ a, (a < base ∨ base + e ≤ a) → memRead m a = memRead s.mem a) ∧
  ∀ (n : BitVec 5) (s : State) (x : Word), x.toNat % 2 ^ n.toNat = s.arg.toNat % 2 ^ n.toNat →
    ∃ t : State, exec (.bwPut n) s = .next t ∧ exec (.bwPut n) { s with arg := x } = .next { t with arg := x }

/-- BW_FLUSH (40_bitstream.md R128, R122): the partial byte, if any, goes to DST_ADDR + OUT_LEN, and the writer is
cleared. That it does so with the low byte of BW_ACC as it is also from a writer an ABORT left is the model's choice
(log 10). -/
def Obligations.BwFlushEmitsPartialByte : Prop :=
  ∀ s : State, s.Quiet → Memory.wf s.mem → s.DstOk →
    s.outLen.toNat + (if 0 < s.bwCnt.toNat then 1 else 0) ≤ s.dstCap.toNat →
    let e := if 0 < s.bwCnt.toNat then 1 else 0
    let base := s.dstAddr.toNat + s.outLen.toNat
    ∃ m : Memory,
      exec .bwFlush s = .next
        { s with
          mem := m, bwAcc := 0#32, bwCnt := 0#5, outLen := BitVec.ofNat 32 (s.outLen.toNat + e)
          done := true, phase := .idle, engineDue := 0, draws := s.draws + 1 } ∧
      (0 < s.bwCnt.toNat → memRead m base = BitVec.ofNat 8 s.bwAcc.toNat) ∧
      ∀ a, (a < base ∨ base + e ≤ a) → memRead m a = memRead s.mem a

/-- BW_PUT and BW_FLUSH fault DST_OVERFLOW before they change anything (40_bitstream.md R127, R128, 60_exceptions.md
R232), ERR_POS being OUT_LEN plus the bytes they would emit, where that fits 32 bits. That they fault also where they
would emit no byte and OUT_LEN is beyond DST_CAP is the model's choice (log 25). -/
def Obligations.WriterOverflowChangesNothing : Prop :=
  ∀ s : State, s.Quiet → s.DstOk →
    let faulted := fun need : Nat =>
      { s with
        errCode := .dstOverflow, errSub := 0#8, errPos := BitVec.ofNat 32 need, err := true
        phase := .idle, engineDue := 0, draws := s.draws + 1 }
    (∀ (n : BitVec 5) (need : Nat), 1 ≤ n.toNat → n.toNat ≤ 24 →
      need = s.outLen.toNat + (s.bwCnt.toNat + n.toNat) / 8 → s.dstCap.toNat < need → need < 2 ^ 32 →
      exec (.bwPut n) s = .next (faulted need)) ∧
    (∀ need : Nat, need = s.outLen.toNat + (if 0 < s.bwCnt.toNat then 1 else 0) →
      s.dstCap.toNat < need → need < 2 ^ 32 →
      exec .bwFlush s = .next (faulted need))

/-- BR_GET (40_bitstream.md R130, R123, R120): RESULT is the NBITS stream bits from BR_POS, first bit lowest; BR_POS moves
by NBITS; nothing else changes, memory included. -/
def Obligations.BrGetReadsField : Prop :=
  ∀ (n : BitVec 5) (s : State), s.Quiet → s.SrcOk → 1 ≤ n.toNat → n.toNat ≤ 24 →
    s.brPos.toNat + n.toNat ≤ 8 * s.srcLen.toNat →
    ∃ r : Word,
      (∀ k, r.getLsbD k = (decide (k < n.toNat) &&
        (memRead s.mem (s.srcAddr.toNat + (s.brPos.toNat + k) / 8)).getLsbD ((s.brPos.toNat + k) % 8))) ∧
      exec (.brGet n) s = .next
        { s with
          result := r, brPos := BitVec.ofNat 32 (s.brPos.toNat + n.toNat)
          done := true, phase := .idle, engineDue := 0, draws := s.draws + 1 }

/-- BR_GET with too few bits left faults SRC_EXHAUSTED at BR_POS and leaves RESULT and BR_POS (40_bitstream.md R123,
R130). -/
def Obligations.BrGetExhaustedConsumesNothing : Prop :=
  ∀ (n : BitVec 5) (s : State), s.Quiet → s.SrcOk → 1 ≤ n.toNat → n.toNat ≤ 24 →
    8 * s.srcLen.toNat < s.brPos.toNat + n.toNat →
    exec (.brGet n) s = .next
      { s with
        errCode := .srcExhausted, errSub := 1#8, errPos := s.brPos, err := true
        phase := .idle, engineDue := 0, draws := s.draws + 1 }

/-! ## Canonical Huffman codes -/

/-- 41_huffman.md R143: Canon overflows exactly when the Kraft sum exceeds 1, here multiplied by `2^longest`. -/
def Obligations.CanonOverflowsIffKraftSumExceedsOne : Prop :=
  ∀ lens : List Nat,
    canon lens = none ↔
      2 ^ longest lens < ((lens.filter fun l => 0 < l).map fun l => 2 ^ (longest lens - l)).sum

/-- 41_huffman.md R149: with K symbols of depth D and K ≤ 2^D, the code value is the symbol. -/
def Obligations.UniformDepthCodeIsSymbol : Prop :=
  ∀ K D r : Nat, 1 ≤ D → K ≤ 2 ^ D →
    canon (List.replicate K D ++ List.replicate r 0) =
      some ((List.range K).map fun i => { sym := i, code := i, len := D })

/-- 41_huffman.md R145: BuildTree faults with sub-code 4 exactly when the code does not overflow and one transmitted
string is a proper prefix of another, and with sub-code 3 exactly when it overflows. -/
def Obligations.BuildTreeFaultsExactly : Prop :=
  ∀ (order : CodeBitOrder) (lens : List Nat),
    (buildTree order lens = .error 3 ↔ canon lens = none) ∧
    (buildTree order lens = .error 4 ↔
      ∃ cs, canon lens = some cs ∧
        ∃ a ∈ cs, ∃ b ∈ cs,
          properPrefix (transmitted order a.code a.len) (transmitted order b.code b.len) = true)

/-- 41_huffman.md R146: under MSB_FIRST sub-code 4 never occurs. Under LSB_FIRST it does not occur when every present
symbol has the same depth. It can occur for mixed depths, though it need not: the depths of vector H4 build a tree under
MSB_FIRST only. -/
def Obligations.PrefixFaultOnlyForMixedDepthsLsbFirst : Prop :=
  (∀ lens : List Nat,
    buildTree .msbFirst lens ≠ .error 4 ∧
    ∀ D, (∀ l ∈ lens, l = 0 ∨ l = D) → buildTree .lsbFirst lens ≠ .error 4) ∧
  (∃ tree, buildTree .msbFirst [2, 3, 3, 3, 3] = .ok tree) ∧ buildTree .lsbFirst [2, 3, 3, 3, 3] = .error 4

/-- 41_huffman.md R147, the walk of a built tree. Where the stream holds a codeword's transmitted string, it ends at its
symbol, just after its last bit. Where the bits read so far lead to an internal node (the root, or a proper prefix of a
transmitted string) and the next bit leaves the tree, it faults CODE_UNTERMINATED just after that bit; where the stream
ends there, it faults SRC_EXHAUSTED at its end. -/
def Obligations.WalkFindsCodeword : Prop :=
  ∀ (order : CodeBitOrder) (lens : List Nat) (cs : List Codeword) (tree : Trie) (t : Stream) (pos : Nat),
    canon lens = some cs → buildTree order lens = .ok tree →
    let bits := fun n : Nat => (List.range n).map fun k => t.bit (pos + k)
    let string := fun c : Codeword => transmitted order c.code c.len
    let internal := fun n : Nat => n = 0 ∨ ∃ c ∈ cs, properPrefix (bits n) (string c) = true
    (∀ c ∈ cs, pos + c.len ≤ 8 * t.len → bits c.len = string c → walk t tree pos = (.ok c.sym, pos + c.len)) ∧
    (∀ n, pos + n + 1 ≤ 8 * t.len → internal n → (∀ c ∈ cs, (bits (n + 1)).isPrefixOf (string c) = false) →
      walk t tree pos = (.error ⟨.codeUnterminated, 0, pos + n + 1⟩, pos + n + 1)) ∧
    ∀ n, pos + n = 8 * t.len → internal n → walk t tree pos = (.error ⟨.srcExhausted, 1, pos + n⟩, pos + n)

/-! ## The block codec -/

/-- 42_block_codec.md R162: the encoded length in bytes, and that it is never shorter than its input. -/
def Obligations.EncodedLength : Prop :=
  ∀ (order : CodeBitOrder) (M : Nat) (data : List Byte), 1 ≤ M → M ≤ 0xFFFF →
    let out := (encodeStream order M data).writer.out
    out.length = data.length + (527 * blockCount data.length M + 3) / 4 ∧
    (data.length = 0 → out.length = 0) ∧ (1 ≤ data.length → data.length + 132 ≤ out.length) ∧
    ¬ out.length < data.length

/-- 42_block_codec.md R169, the round trip: Decode of an encoded stream produces the data and ends at the stream's last
block bit, under both bit orders. -/
def Obligations.DecodeOfEncodeIsIdentity : Prop :=
  ∀ (order : CodeBitOrder) (M : Nat) (data : List Byte) (c : Cursor), 1 ≤ M → M ≤ 0xFFFF → c.brPos = 0 →
    let out := (encodeStream order M data).writer.out
    let t : Stream := { byte := fun j => out.getD j 0#8, len := out.length }
    ∃ c', decodeStream order t data.length c = .ok c' ∧ c'.out = data ∧
      c'.brPos = 1054 * blockCount data.length M + 8 * data.length ∧
      c'.blkCount = c.blkCount + blockCount data.length M

/-- 42_block_codec.md R164: the block loop ends by itself. More fuel than `8·SL + 1` changes nothing, and with target 0
nothing is read. -/
def Obligations.DecodeEndsWithinStream : Prop :=
  ∀ (order : CodeBitOrder) (t : Stream) (T : Nat) (c : Cursor) (fuel : Nat),
    (c.brPos ≤ 8 * t.len → 8 * t.len + 1 ≤ fuel →
      decodeBlocks order t T fuel c = decodeBlocks order t T (8 * t.len + 1) c) ∧
    decodeStream order t 0 c = .ok { c with produced := 0, outRev := [] }

/-- 42_block_codec.md R163: a Decode that succeeds has produced exactly its target and read inside its stream. One that
faults has produced no more than its target. -/
def Obligations.DecodeProducesItsTarget : Prop :=
  ∀ (order : CodeBitOrder) (t : Stream) (T : Nat) (c : Cursor), c.brPos ≤ 8 * t.len →
    (∀ c', decodeStream order t T c = .ok c' →
      c'.produced = T ∧ c'.out.length = T ∧ c'.brPos ≤ 8 * t.len) ∧
    ∀ f c', decodeStream order t T c = .error (f, c') →
      c'.out.length = c'.produced ∧ c'.produced ≤ T ∧ c'.brPos ≤ 8 * t.len ∧ f.pos = c'.brPos

/-- 42_block_codec.md R165: bits after the last one consumed, and further bytes, have no effect on a Decode that
succeeds. -/
def Obligations.DecodeIgnoresWhatFollows : Prop :=
  ∀ (order : CodeBitOrder) (t t' : Stream) (T : Nat) (c c' : Cursor),
    decodeStream order t T c = .ok c' → c'.brPos ≤ 8 * t'.len →
    (∀ i < c'.brPos, t'.bit i = t.bit i) →
    decodeStream order t' T c = .ok c'

/-- DECODE (42_block_codec.md R166): where Decode succeeds on the source bytes the command completes with the output at
DST_ADDR and the cursor's values in the registers. -/
def Obligations.DecodeCommandResult : Prop :=
  ∀ (s : State) (c : Cursor), s.Quiet → Memory.wf s.mem → s.SrcOk → s.DstOk → s.Disjoint →
    s.targetLen.toNat ≤ s.dstCap.toNat →
    decodeStream s.cfg.codeBitOrder
      { byte := fun j => memRead s.mem (s.srcAddr.toNat + j), len := s.srcLen.toNat } s.targetLen.toNat
      { brPos := 0, blkCount := 0, lastLits := 0, lastLitn := 0, lastClt := ⟨false, 0#4, false⟩
        litLen := s.litLen, cltLen := s.cltLen, tree := s.tree, produced := 0, outRev := [] } = .ok c →
    ∃ m : Memory,
      exec .decode s = .next
        { s with
          mem := m, outLen := s.targetLen, brPos := BitVec.ofNat 32 c.brPos
          blkCount := BitVec.ofNat 32 c.blkCount, lastLits := BitVec.ofNat 16 c.lastLits
          lastLitn := BitVec.ofNat 9 c.lastLitn, lastClt := c.lastClt, litLen := c.litLen
          cltLen := c.cltLen, tree := c.tree, produced := s.targetLen.toNat
          done := true, phase := .idle, engineDue := 0, draws := s.draws + 1 } ∧
      (∀ j < s.targetLen.toNat, memRead m (s.dstAddr.toNat + j) = c.out.getD j 0#8) ∧
      ∀ a, (a < s.dstAddr.toNat ∨ s.dstAddr.toNat + s.targetLen.toNat ≤ a) →
        memRead m a = memRead s.mem a

/-- DECODE (42_block_codec.md R166, 60_exceptions.md R234, R235): where Decode faults, the fault is reported with its
position, the registers and the first OUT_LEN destination bytes are as the fault finds them, and the rest of memory is
unchanged. A target beyond DST_CAP faults before any access. -/
def Obligations.DecodeCommandFaultIsPrecise : Prop :=
  ∀ (s : State), s.Quiet → Memory.wf s.mem → s.SrcOk → s.DstOk → s.Disjoint →
    (s.targetLen.toNat ≤ s.dstCap.toNat → ∀ (f : FaultReport) (c : Cursor),
      decodeStream s.cfg.codeBitOrder
        { byte := fun j => memRead s.mem (s.srcAddr.toNat + j), len := s.srcLen.toNat } s.targetLen.toNat
        { brPos := 0, blkCount := 0, lastLits := 0, lastLitn := 0, lastClt := ⟨false, 0#4, false⟩
          litLen := s.litLen, cltLen := s.cltLen, tree := s.tree, produced := 0, outRev := [] }
        = .error (f, c) →
      ∃ m : Memory,
        exec .decode s = .next
          { s with
            mem := m, outLen := BitVec.ofNat 32 c.produced, brPos := BitVec.ofNat 32 c.brPos
            blkCount := BitVec.ofNat 32 c.blkCount, lastLits := BitVec.ofNat 16 c.lastLits
            lastLitn := BitVec.ofNat 9 c.lastLitn, lastClt := c.lastClt, litLen := c.litLen
            cltLen := c.cltLen, tree := c.tree, produced := c.produced
            errCode := f.code, errSub := f.sub, errPos := BitVec.ofNat 32 c.brPos, err := true
            phase := .idle, engineDue := 0, draws := s.draws + 1 } ∧
        (∀ j < c.produced, memRead m (s.dstAddr.toNat + j) = c.out.getD j 0#8) ∧
        ∀ a, (a < s.dstAddr.toNat ∨ s.dstAddr.toNat + c.produced ≤ a) → memRead m a = memRead s.mem a) ∧
    (s.dstCap.toNat < s.targetLen.toNat →
      exec .decode s = .next
        { s with
          outLen := 0#32, brPos := 0#32, blkCount := 0#32, lastLits := 0#16, lastLitn := 0#9
          lastClt := ⟨false, 0#4, false⟩
          errCode := .dstOverflow, errSub := 0#8, errPos := s.targetLen, err := true
          phase := .idle, engineDue := 0, draws := s.draws + 1 })

/-- DECODE of a source range that holds an encoded stream completes and restores the data (42_block_codec.md R166,
R169). -/
def Obligations.DecodeCommandRestoresEncodedData : Prop :=
  ∀ (s : State) (M : Nat) (data : List Byte), s.Quiet → Memory.wf s.mem → s.SrcOk → s.DstOk → s.Disjoint →
    1 ≤ M → M ≤ 0xFFFF → s.targetLen.toNat = data.length → data.length ≤ s.dstCap.toNat →
    (List.range s.srcLen.toNat).map (fun j => memRead s.mem (s.srcAddr.toNat + j)) =
      (encodeStream s.cfg.codeBitOrder M data).writer.out →
    ∃ t : State, exec .decode s = .next t ∧ t.done = true ∧ t.err = s.err ∧ t.phase = .idle ∧
      (List.range data.length).map (fun j => memRead t.mem (s.dstAddr.toNat + j)) = data ∧
      t.outLen = s.targetLen ∧
      t.brPos.toNat = 1054 * blockCount data.length M + 8 * data.length ∧
      t.blkCount.toNat = blockCount data.length M

/-- ENCODE (42_block_codec.md R167, R160 to R162): where the encoded form fits it is stored at DST_ADDR, and the cursor,
the writer and the block registers are as Encode leaves them. -/
def Obligations.EncodeCommandResult : Prop :=
  ∀ s : State, s.Quiet → Memory.wf s.mem → s.SrcOk → s.DstOk → s.Disjoint → s.BlockMaxOk →
    let n := s.srcLen.toNat
    let M := s.blockMax.toNat
    let size := n + (527 * blockCount n M + 3) / 4
    let data := (List.range n).map fun j => memRead s.mem (s.srcAddr.toNat + j)
    let out := (encodeStream s.cfg.codeBitOrder M data).writer.out
    size ≤ s.dstCap.toNat →
    ∃ m : Memory,
      exec .encode s = .next
        { s with
          mem := m, outLen := BitVec.ofNat 32 size, bwAcc := 0#32, bwCnt := 0#5
          blkCount := BitVec.ofNat 32 (blockCount n M)
          lastLits := BitVec.ofNat 16 (n - (blockCount n M - 1) * M)
          lastLitn := if n = 0 then 0#9 else 0x100#9
          lastClt := if n = 0 then ⟨false, 0#4, false⟩ else ⟨true, 5#4, true⟩
          done := true, phase := .idle, engineDue := 0, draws := s.draws + 1 } ∧
      (∀ j < size, memRead m (s.dstAddr.toNat + j) = out.getD j 0#8) ∧
      ∀ a, (a < s.dstAddr.toNat ∨ s.dstAddr.toNat + size ≤ a) → memRead m a = memRead s.mem a

/-- COPY (42_block_codec.md R168): TARGET_LEN bytes are copied verbatim, and nothing else changes. -/
def Obligations.CopyCommandResult : Prop :=
  ∀ s : State, s.Quiet → Memory.wf s.mem → s.SrcOk → s.DstOk → s.Disjoint →
    s.targetLen.toNat ≤ s.srcLen.toNat → s.targetLen.toNat ≤ s.dstCap.toNat →
    ∃ m : Memory,
      exec .copy s = .next
        { s with
          mem := m, outLen := s.targetLen
          done := true, phase := .idle, engineDue := 0, draws := s.draws + 1 } ∧
      (∀ j < s.targetLen.toNat,
        memRead m (s.dstAddr.toNat + j) = memRead s.mem (s.srcAddr.toNat + j)) ∧
      ∀ a, (a < s.dstAddr.toNat ∨ s.dstAddr.toNat + s.targetLen.toNat ≤ a) →
        memRead m a = memRead s.mem a

/-- COPY's two faults in their order, both before any memory access (42_block_codec.md R168). -/
def Obligations.CopyCommandFaultsInOrder : Prop :=
  ∀ s : State, s.Quiet → s.SrcOk → s.DstOk → s.Disjoint →
    (s.srcLen.toNat < s.targetLen.toNat →
      exec .copy s = .next
        { s with
          outLen := 0#32, errCode := .srcExhausted, errSub := 2#8, errPos := s.targetLen, err := true
          phase := .idle, engineDue := 0, draws := s.draws + 1 }) ∧
    (s.targetLen.toNat ≤ s.srcLen.toNat → s.dstCap.toNat < s.targetLen.toNat →
      exec .copy s = .next
        { s with
          outLen := 0#32, errCode := .dstOverflow, errSub := 0#8, errPos := s.targetLen, err := true
          phase := .idle, engineDue := 0, draws := s.draws + 1 })

/-! ## Payload framing -/

/-- PDECODE of a raw payload (43_payload.md R190, R193): USIZE bytes after the header are copied, the reserved bytes are
not read, and the registers are as R193 says. -/
def Obligations.PdecodeRawPayload : Prop :=
  ∀ s : State, s.Quiet → Memory.wf s.mem → s.SrcOk → s.DstOk → s.Disjoint →
    let b := fun j => memRead s.mem (s.srcAddr.toNat + j)
    let usize := (b 0).toNat * 2 ^ 24 + (b 1).toNat * 2 ^ 16 + (b 2).toNat * 2 ^ 8 + (b 3).toNat
    9 ≤ s.srcLen.toNat → b 8 = 0x00#8 → usize ≤ s.dstCap.toNat → 9 + usize ≤ s.srcLen.toNat →
    ∃ m : Memory,
      exec .pdecode s = .next
        { s with
          mem := m, outLen := BitVec.ofNat 32 usize, hdrUsize := BitVec.ofNat 32 usize, packed := false
          brPos := 0#32, blkCount := 0#32, lastLits := 0#16, lastLitn := 0#9
          lastClt := ⟨false, 0#4, false⟩
          done := true, phase := .idle, engineDue := 0, draws := s.draws + 1 } ∧
      (∀ j < usize, memRead m (s.dstAddr.toNat + j) = b (9 + j)) ∧
      ∀ a, (a < s.dstAddr.toNat ∨ s.dstAddr.toNat + usize ≤ a) → memRead m a = memRead s.mem a

/-- PDECODE of a codec payload (43_payload.md R193): the stream begins at source byte 9, and BR_POS counts from there.
Where Decode succeeds the command completes with its output. Where Decode faults, the fault is reported with its
position, and the registers and the bytes produced so far are as the fault finds them, PACKED and HDR_USIZE included
(60_exceptions.md R234, R235). -/
def Obligations.PdecodeCodecPayload : Prop :=
  ∀ s : State, s.Quiet → Memory.wf s.mem → s.SrcOk → s.DstOk → s.Disjoint →
    let b := fun j => memRead s.mem (s.srcAddr.toNat + j)
    let usize := (b 0).toNat * 2 ^ 24 + (b 1).toNat * 2 ^ 16 + (b 2).toNat * 2 ^ 8 + (b 3).toNat
    let decoded :=
      decodeStream s.cfg.codeBitOrder { byte := fun j => b (9 + j), len := s.srcLen.toNat - 9 } usize
        { brPos := 0, blkCount := 0, lastLits := 0, lastLitn := 0, lastClt := ⟨false, 0#4, false⟩
          litLen := s.litLen, cltLen := s.cltLen, tree := s.tree, produced := 0, outRev := [] }
    9 ≤ s.srcLen.toNat → b 8 = 0x01#8 → usize ≤ s.dstCap.toNat →
    (∀ c : Cursor, decoded = .ok c →
      ∃ m : Memory,
        exec .pdecode s = .next
          { s with
            mem := m, outLen := BitVec.ofNat 32 usize, hdrUsize := BitVec.ofNat 32 usize, packed := true
            brPos := BitVec.ofNat 32 c.brPos, blkCount := BitVec.ofNat 32 c.blkCount
            lastLits := BitVec.ofNat 16 c.lastLits, lastLitn := BitVec.ofNat 9 c.lastLitn
            lastClt := c.lastClt, litLen := c.litLen, cltLen := c.cltLen, tree := c.tree, produced := usize
            done := true, phase := .idle, engineDue := 0, draws := s.draws + 1 } ∧
        (∀ j < usize, memRead m (s.dstAddr.toNat + j) = c.out.getD j 0#8) ∧
        ∀ a, (a < s.dstAddr.toNat ∨ s.dstAddr.toNat + usize ≤ a) → memRead m a = memRead s.mem a) ∧
    ∀ (f : FaultReport) (c : Cursor), decoded = .error (f, c) →
      ∃ m : Memory,
        exec .pdecode s = .next
          { s with
            mem := m, outLen := BitVec.ofNat 32 c.produced, hdrUsize := BitVec.ofNat 32 usize, packed := true
            brPos := BitVec.ofNat 32 c.brPos, blkCount := BitVec.ofNat 32 c.blkCount
            lastLits := BitVec.ofNat 16 c.lastLits, lastLitn := BitVec.ofNat 9 c.lastLitn
            lastClt := c.lastClt, litLen := c.litLen, cltLen := c.cltLen, tree := c.tree, produced := c.produced
            errCode := f.code, errSub := f.sub, errPos := BitVec.ofNat 32 c.brPos, err := true
            phase := .idle, engineDue := 0, draws := s.draws + 1 } ∧
        (∀ j < c.produced, memRead m (s.dstAddr.toNat + j) = c.out.getD j 0#8) ∧
        ∀ a, (a < s.dstAddr.toNat ∨ s.dstAddr.toNat + c.produced ≤ a) → memRead m a = memRead s.mem a

/-- PDECODE's header-level faults in their order, none of which writes memory (43_payload.md R193): a short header, a bad
flag, too small a destination, too short a raw payload (where the needed count fits 32 bits). -/
def Obligations.PdecodeHeaderFaultsInOrder : Prop :=
  ∀ s : State, s.Quiet → s.SrcOk → s.DstOk → s.Disjoint →
    let b := fun j => memRead s.mem (s.srcAddr.toNat + j)
    let usize := (b 0).toNat * 2 ^ 24 + (b 1).toNat * 2 ^ 16 + (b 2).toNat * 2 ^ 8 + (b 3).toNat
    let faulted := fun (hdr : Word) (packed : Bool) (code : FaultCode) (sub : Byte) (pos : Nat) =>
      { s with
        outLen := 0#32, brPos := 0#32, blkCount := 0#32, lastLits := 0#16, lastLitn := 0#9
        lastClt := ⟨false, 0#4, false⟩, hdrUsize := hdr, packed := packed
        errCode := code, errSub := sub, errPos := BitVec.ofNat 32 pos, err := true
        phase := .idle, engineDue := 0, draws := s.draws + 1 }
    (s.srcLen.toNat < 9 →
      exec .pdecode s = .next (faulted s.hdrUsize s.packed .srcExhausted 2#8 9)) ∧
    (9 ≤ s.srcLen.toNat → 1 < (b 8).toNat →
      exec .pdecode s = .next (faulted (BitVec.ofNat 32 usize) s.packed .badFlag 0#8 0)) ∧
    (9 ≤ s.srcLen.toNat → (b 8).toNat ≤ 1 → s.dstCap.toNat < usize →
      exec .pdecode s = .next
        (faulted (BitVec.ofNat 32 usize) (decide (b 8 = 0x01#8)) .dstOverflow 0#8 usize)) ∧
    (9 ≤ s.srcLen.toNat → b 8 = 0x00#8 → usize ≤ s.dstCap.toNat → s.srcLen.toNat < 9 + usize →
      9 + usize < 2 ^ 32 →
      exec .pdecode s = .next (faulted (BitVec.ofNat 32 usize) false .srcExhausted 2#8 (9 + usize)))

/-- PENCODE (43_payload.md R191, R192, R194, 42_block_codec.md R162): with either RAW value the payload is stored raw
behind its header, PACKED is 0, and RAW only decides whether the encode attempt leaves its registers. -/
def Obligations.PencodeStoresRawPayload : Prop :=
  ∀ (raw : Bool) (s : State), s.Quiet → Memory.wf s.mem → s.SrcOk → s.DstOk → s.Disjoint →
    (raw = false → s.BlockMaxOk) →
    let n := s.srcLen.toNat
    let M := s.blockMax.toNat
    let tried := !raw && decide (0 < n)
    9 + n ≤ s.dstCap.toNat →
    ∃ m : Memory,
      exec (.pencode raw) s = .next
        { s with
          mem := m, outLen := BitVec.ofNat 32 (9 + n), hdrUsize := s.srcLen, packed := false
          bwAcc := if raw then s.bwAcc else 0#32, bwCnt := if raw then s.bwCnt else 0#5
          blkCount := if raw then 0#32 else BitVec.ofNat 32 (blockCount n M)
          lastLits := if raw then 0#16 else BitVec.ofNat 16 (n - (blockCount n M - 1) * M)
          lastLitn := if tried then 0x100#9 else 0#9
          lastClt := if tried then ⟨true, 5#4, true⟩ else ⟨false, 0#4, false⟩
          done := true, phase := .idle, engineDue := 0, draws := s.draws + 1 } ∧
      (∀ j < 4, memRead m (s.dstAddr.toNat + j) = BitVec.ofNat 8 (n / 2 ^ (24 - 8 * j))) ∧
      (∀ j, 4 ≤ j → j < 9 → memRead m (s.dstAddr.toNat + j) = 0#8) ∧
      (∀ j < n, memRead m (s.dstAddr.toNat + 9 + j) = memRead s.mem (s.srcAddr.toNat + j)) ∧
      ∀ a, (a < s.dstAddr.toNat ∨ s.dstAddr.toNat + (9 + n) ≤ a) → memRead m a = memRead s.mem a

/-- 43_payload.md R195, the framing round trip: PENCODE on the data, then PDECODE on the bytes it produced, gives the
data, with PACKED as PENCODE left it. -/
def Obligations.FramingRoundTrip : Prop :=
  ∀ (raw : Bool) (s t u : State), s.Quiet → Memory.wf s.mem → s.SrcOk → s.DstOk → s.Disjoint →
    (raw = false → s.BlockMaxOk) → s.srcLen.toNat ≤ srcLenMax - 9 →
    exec (.pencode raw) s = .next t → t.err = false →
    u.Quiet → u.SrcOk → u.DstOk → u.Disjoint → u.cfg = t.cfg → u.mem = t.mem →
    u.srcAddr = s.dstAddr → u.srcLen = t.outLen → s.srcLen.toNat ≤ u.dstCap.toNat →
    ∃ v : State, exec .pdecode u = .next v ∧ v.done = true ∧ v.err = u.err ∧ v.packed = t.packed ∧
      v.outLen = s.srcLen ∧
      ∀ j < s.srcLen.toNat, memRead v.mem (u.dstAddr.toNat + j) = memRead s.mem (s.srcAddr.toNat + j)

/-- ENCODE and PENCODE with too little room fault DST_OVERFLOW, write no byte, and report the bytes they needed, where
that fits 32 bits (42_block_codec.md R167, 43_payload.md R194). The other registers are as the attempt left them. -/
def Obligations.EncodersOverflowWriteNothing : Prop :=
  ∀ s : State, s.Quiet → s.SrcOk → s.DstOk → s.Disjoint →
    let n := s.srcLen.toNat
    let M := s.blockMax.toNat
    let size := n + (527 * blockCount n M + 3) / 4
    (s.BlockMaxOk → s.dstCap.toNat < size → size < 2 ^ 32 →
      exec .encode s = .next
        { s with
          outLen := 0#32, bwAcc := 0#32, bwCnt := 0#5, blkCount := BitVec.ofNat 32 (blockCount n M)
          lastLits := BitVec.ofNat 16 (n - (blockCount n M - 1) * M), lastLitn := 0x100#9
          lastClt := ⟨true, 5#4, true⟩
          errCode := .dstOverflow, errSub := 0#8, errPos := BitVec.ofNat 32 size, err := true
          phase := .idle, engineDue := 0, draws := s.draws + 1 }) ∧
    (∀ raw : Bool, (raw = false → s.BlockMaxOk) → s.dstCap.toNat < 9 + n →
      exec (.pencode raw) s = .next
        { s with
          outLen := 0#32, hdrUsize := s.srcLen
          bwAcc := if raw then s.bwAcc else 0#32, bwCnt := if raw then s.bwCnt else 0#5
          blkCount := if raw then 0#32 else BitVec.ofNat 32 (blockCount n M)
          lastLits := if raw then 0#16 else BitVec.ofNat 16 (n - (blockCount n M - 1) * M)
          lastLitn := if !raw && decide (0 < n) then 0x100#9 else 0#9
          lastClt := if !raw && decide (0 < n) then ⟨true, 5#4, true⟩ else ⟨false, 0#4, false⟩
          errCode := .dstOverflow, errSub := 0#8, errPos := BitVec.ofNat 32 (9 + n), err := true
          phase := .idle, engineDue := 0, draws := s.draws + 1 })

/-! ## Control, the prologue and faults -/

/-- The prologue (44_control.md R210, 60_exceptions.md R233): the first check that fails, in R210's order, is the one
reported, and such a fault leaves every register but STATUS and ERR_POS, and memory, as they were. -/
def Obligations.PrologueReportsFirstFailure : Prop :=
  ∀ (i : Instr) (s : State), i.format = .cmd → s.Quiet →
    let n : Option Nat := match i with
      | .bwPut k => some k.toNat
      | .brGet k => some k.toNat
      | _ => none
    let blocks := i = .encode ∨ i = .pencode false
    let src := i = .decode ∨ i = .encode ∨ i = .copy ∨ i = .pdecode ∨ (∃ r, i = .pencode r) ∨ ∃ k, i = .brGet k
    let dst := i = .decode ∨ i = .encode ∨ i = .copy ∨ i = .pdecode ∨ (∃ r, i = .pencode r) ∨
      (∃ k, i = .bwPut k) ∨ i = .bwFlush
    let faulted := fun (code : FaultCode) (sub : Byte) =>
      { s with
        errCode := code, errSub := sub, errPos := 0#32, err := true
        phase := .idle, engineDue := 0, draws := s.draws + 1 }
    ((∃ k, n = some k ∧ ¬(1 ≤ k ∧ k ≤ 24)) → exec i s = .next (faulted .badLength 1#8)) ∧
    (blocks → ¬s.BlockMaxOk → exec i s = .next (faulted .badLength 2#8)) ∧
    ((∀ k, n = some k → 1 ≤ k ∧ k ≤ 24) → (blocks → s.BlockMaxOk) →
      (src → 0x1FFFFFFF < s.srcLen.toNat → exec i s = .next (faulted .badLength 3#8)) ∧
      ((src → s.srcLen.toNat ≤ 0x1FFFFFFF) →
        (src → s.cfg.memSize < s.srcAddr.toNat + s.srcLen.toNat →
          exec i s = .next (faulted .range 1#8)) ∧
        ((src → s.srcAddr.toNat + s.srcLen.toNat ≤ s.cfg.memSize) →
          (dst → s.cfg.memSize < s.dstAddr.toNat + s.dstCap.toNat →
            exec i s = .next (faulted .range 2#8)) ∧
          ((dst → s.DstOk) → src → dst → ¬s.Disjoint →
            exec i s = .next (faulted .overlap 0#8)))))

/-- START (44_control.md R210, R211, 10_state.md R27). Accepted, it clears the last command's status, keeps WERR, latches
the command word and makes the engine ready; how long the engine waits is open (log 6). While BUSY it only sets WERR. It
stores IRQ_EN in both cases. -/
def Obligations.StartLatchesOrSetsWerr : Prop :=
  ∀ (ie : Bool) (s : State),
    (s.busy = false →
      ∃ k : Nat, exec (.start ie) s = .next
        { s with
          irqEn := ie, done := false, err := false, packed := false, errCode := .noFault, errSub := 0#8
          errPos := 0#32, phase := .run, latch := s.cmd
          engineDue := k, srcDraw := none, dstTouched := [], draws := s.draws + 1 }) ∧
    (s.busy = true → exec (.start ie) s = .next { s with irqEn := ie, werr := true })

/-- ABORT of a running command (44_control.md R213, 60_exceptions.md R234): fault entry with ABORTED; memory holds some
prefix of the command's writes, but for the destination bytes the host raced (70_reset_and_hazards.md R265), and every
byte outside the destination range that is none of those keeps its value; the registers R213 names and the hidden tables
hold some values; nothing else changes. That WERR is unchanged also where the CTRL write has START set as well is the
model's reading (log 23), and that the hidden tables are open is too (log 8). While idle it only stores IRQ_EN. -/
def Obligations.AbortStopsRunningCommand : Prop :=
  ∀ (ie : Bool) (s : State),
    (s.busy = false → exec (.abort ie) s = .next { s with irqEn := ie }) ∧
    (s.busy = true →
      let writes := (runLatched { s with irqEn := ie }).writes
      ∃ t : State, exec (.abort ie) s = .next t ∧
        t = { s with
          irqEn := ie, errCode := .aborted, errSub := 0#8, errPos := 0#32, err := true, phase := .idle
          mem := t.mem, outLen := t.outLen, brPos := t.brPos, bwAcc := t.bwAcc, bwCnt := t.bwCnt
          result := t.result, hdrUsize := t.hdrUsize, blkCount := t.blkCount, lastLits := t.lastLits
          lastLitn := t.lastLitn, lastClt := t.lastClt, packed := t.packed
          litLen := t.litLen, cltLen := t.cltLen, tree := t.tree, produced := t.produced
          engineDue := 0, srcDraw := none, dstTouched := [], draws := s.draws + 1 } ∧
        (∃ k ≤ writes.length,
          (s.dstTouched = [] → t.mem = applyWrites s.mem (writes.take k)) ∧
          ∀ a, a ∉ s.dstTouched → memRead t.mem a = memRead (applyWrites s.mem (writes.take k)) a) ∧
        ∀ a, a ∉ s.dstTouched → (a < s.dstAddr.toNat ∨ s.dstAddr.toNat + s.dstCap.toNat ≤ a) →
          memRead t.mem a = memRead s.mem a)

/-- SOFT_RESET (44_control.md R214, 70_reset_and_hazards.md R260): every register takes its reset value and PHASE is
idle; the hidden tables stay legal; memory is unchanged when idle. When a command was running memory holds some prefix of
its writes, but for the destination bytes the host raced (R265), and every byte outside the destination range that is
none of those keeps its value. The host's queue and the parameters stay. -/
def Obligations.SoftResetRestoresResetValues : Prop :=
  ∀ s : State,
    ∃ t : State, exec .softReset s = .next t ∧
      t = { State.reset with
        cfg := s.cfg, mem := t.mem, litLen := t.litLen, cltLen := t.cltLen, tree := t.tree
        latch := t.latch, produced := t.produced
        pending := s.pending, reply := s.reply, draws := s.draws + 1 } ∧
      t.TablesOk ∧ (s.busy = false → t.mem = s.mem) ∧
      (s.busy = true →
        (∃ k ≤ (runLatched s).writes.length,
          (s.dstTouched = [] → t.mem = applyWrites s.mem ((runLatched s).writes.take k)) ∧
          ∀ a, a ∉ s.dstTouched →
            memRead t.mem a = memRead (applyWrites s.mem ((runLatched s).writes.take k)) a) ∧
        ∀ a, a ∉ s.dstTouched → (a < s.dstAddr.toNat ∨ s.dstAddr.toNat + s.dstCap.toNat ≤ a) →
          memRead t.mem a = memRead s.mem a)

/-- The hardware reset input has SOFT_RESET's effect on every register (70_reset_and_hazards.md R260), and the IRQ output
is low after it (R261). What memory then holds is the platform's (log 17). -/
def Obligations.HardwareResetRestoresResetValues : Prop :=
  ∀ (contents : List Host.Cell) (s : State),
    ∃ t : State, hostStep (.hardwareReset contents) s = .next t ∧
      (∀ r, r ≠ .caps → t.regWord r = State.reset.regWord r) ∧
      t.regWord .caps = s.regWord .caps ∧ t.phase = .idle ∧ t.irq = false ∧ t.TablesOk

/-- The values of 10_state.md R22's reset column, for both builds (70_reset_and_hazards.md R260, R261). -/
def Obligations.ResetValues : Prop :=
  State.reset.regWord .id = 0x48420007#32 ∧ State.reset.regWord .blockMax = 0x00008000#32 ∧
  (∀ r, r ≠ .id → r ≠ .caps → r ≠ .blockMax → State.reset.regWord r = 0#32) ∧
  capsWord .lsbFirst = 0x00001800#32 ∧ capsWord .msbFirst = 0x00001801#32 ∧
  State.reset.regWord .caps = capsWord State.reset.cfg.codeBitOrder ∧ State.reset.irq = false

/-! ## The register window -/

/-- The layout of STATUS (10_state.md R27), the numbers of the fault codes in it (60_exceptions.md R230) and the IRQ
output (R237). -/
def Obligations.StatusWordLayout : Prop :=
  (∀ s : State,
    s.statusWord.getLsbD 0 = decide (s.phase = .run) ∧ s.statusWord.getLsbD 1 = s.done ∧
    s.statusWord.getLsbD 2 = s.err ∧ s.statusWord.getLsbD 3 = s.werr ∧
    s.statusWord.getLsbD 4 = s.packed ∧ s.statusWord.getLsbD 5 = (s.irqEn && (s.done || s.err)) ∧
    s.statusWord.extractLsb' 6 2 = 0#2 ∧ s.statusWord.extractLsb' 8 8 = s.errCode.toByte ∧
    s.statusWord.extractLsb' 16 8 = s.errSub ∧ s.statusWord.extractLsb' 24 8 = 0#8 ∧
    s.irq = (s.irqEn && (s.done || s.err))) ∧
  [FaultCode.noFault, .badOpcode, .badLength, .range, .overlap, .dstOverflow, .srcExhausted, .targetOverrun,
    .malformedTree, .codeUnterminated, .unsupportedSymbol, .badFlag, .aborted].map FaultCode.toByte =
  [0x00#8, 0x01#8, 0x02#8, 0x03#8, 0x04#8, 0x05#8, 0x06#8, 0x07#8, 0x08#8, 0x09#8, 0x0A#8, 0x0B#8, 0x0C#8]

/-- 10_state.md R21: an access to the window that is not an aligned 32-bit access is a bus error and changes no state of
the block. That an access lying partly in the window is such an access is the model's reading (log 16). -/
def Obligations.UnalignedAccessIsABusError : Prop :=
  ∀ (s : State) (addr width : Nat) (v : Word),
    addr < s.cfg.regBase + 0x100 → s.cfg.regBase < addr + width →
    ¬(s.cfg.regBase ≤ addr ∧ width = 4 ∧ (addr - s.cfg.regBase) % 4 = 0) →
    hostStep (.busWrite addr width v) s = .next { s with reply := .busError } ∧
    hostStep (.busRead addr width) s = .next { s with reply := .busError }

/-- Aligned 32-bit reads (10_state.md R22 to R45, 70_reset_and_hazards.md R266), offset by offset of R22's map. ID, CAPS,
CTRL, CMD, STATUS and the operands always answer their stored value, CTRL with IRQ_EN in bit 3 and STATUS with BUSY = 1
during BUSY. The result and cursor registers answer theirs when idle, laid out as R39 and R43 to R45 say, and some value
within their bits during BUSY; that ERR_POS is one of these is the model's reading (log 11). Reserved offsets answer 0.
Nothing but the answer and the draw count changes. `regWord` is what the idle read answers. -/
def Obligations.RegisterReads : Prop :=
  ∀ s : State,
    let read := fun off => hostStep (.busRead (s.cfg.regBase + off) 4) s
    let stored : List (Nat × Word) :=
      [(0x00, 0x48420007#32), (0x04, if s.cfg.codeBitOrder = .lsbFirst then 0x00001800#32 else 0x00001801#32),
        (0x08, if s.irqEn then 0x00000008#32 else 0#32), (0x0C, s.cmd), (0x10, s.statusWord),
        (0x18, s.srcAddr), (0x1C, s.srcLen), (0x20, s.dstAddr), (0x24, s.dstCap), (0x28, s.targetLen),
        (0x2C, s.blockMax), (0x30, s.arg)]
    let cursors : List (Nat × Word × Word) :=
      [(0x14, s.errPos, 0xFFFFFFFF#32), (0x34, s.result, 0xFFFFFFFF#32), (0x38, s.outLen, 0xFFFFFFFF#32),
        (0x3C, s.bwAcc, 0xFFFFFFFF#32), (0x40, BitVec.ofNat 32 s.bwCnt.toNat, 0x0000001F#32),
        (0x44, s.brPos, 0xFFFFFFFF#32), (0x48, s.hdrUsize, 0xFFFFFFFF#32), (0x4C, s.blkCount, 0xFFFFFFFF#32),
        (0x50, BitVec.ofNat 32 s.lastLits.toNat, 0x0000FFFF#32),
        (0x54, BitVec.ofNat 32 s.lastLitn.toNat, 0x000001FF#32),
        (0x58, BitVec.ofNat 32
          (s.lastClt.short.toNat + s.lastClt.len.toNat * 2 ^ 4 + s.lastClt.valid.toNat * 2 ^ 8), 0x000001F1#32)]
    (∀ p ∈ stored, read p.1 = .next { s with reply := .word p.2 }) ∧
    (∀ p ∈ cursors,
      (s.busy = false → read p.1 = .next { s with reply := .word p.2.1 }) ∧
      (s.busy = true →
        ∃ v : Word, v &&& ~~~ p.2.2 = 0#32 ∧ read p.1 = .next { s with reply := .word v, draws := s.draws + 1 })) ∧
    (s.busy = true → s.statusWord.getLsbD 0 = true) ∧
    (∀ off, 0x5C ≤ off → off < 0x100 → off % 4 = 0 → read off = .next { s with reply := .word 0#32 }) ∧
    ∀ r : Reg,
      (s.busy = false ∨ r.openWhileBusy = false → read r.offset = .next { s with reply := .word (s.regWord r) }) ∧
      s.regWord r &&& ~~~ r.bits = 0#32

/-- Aligned 32-bit writes (10_state.md R22, R27, R46), offset by offset of R22's map: an operand register takes the value
when idle, and nothing else changes; when busy it keeps its own and WERR is set. STATUS clears the W1C bits written as 1,
busy or not. Read-only and reserved registers ignore the write and do not set WERR. -/
def Obligations.RegisterWrites : Prop :=
  ∀ (s : State) (v : Word),
    let write := fun off => hostStep (.busWrite (s.cfg.regBase + off) 4 v) s
    let operands : List (Nat × State) :=
      [(0x0C, { s with cmd := v }), (0x18, { s with srcAddr := v }), (0x1C, { s with srcLen := v }),
        (0x20, { s with dstAddr := v }), (0x24, { s with dstCap := v }), (0x28, { s with targetLen := v }),
        (0x2C, { s with blockMax := v }), (0x30, { s with arg := v })]
    (∀ p ∈ operands,
      (s.busy = true → write p.1 = .next { s with reply := .done, werr := true }) ∧
      (s.busy = false → write p.1 = .next { p.2 with reply := .done })) ∧
    write 0x10 = .next
      { s with
        reply := .done, done := s.done && !v.getLsbD 1, err := s.err && !v.getLsbD 2
        werr := s.werr && !v.getLsbD 3 } ∧
    (∀ off ∈ [0x00, 0x04, 0x14, 0x34, 0x38, 0x3C, 0x40, 0x44, 0x48, 0x4C, 0x50, 0x54, 0x58],
      write off = .next { s with reply := .done }) ∧
    ∀ off, 0x5C ≤ off → off < 0x100 → off % 4 = 0 → write off = .next { s with reply := .done }

/-! ## Memory -/

/-- 20_memory.md R68, for bytes outside the running command's ranges: a read returns the byte last written and changes
nothing; a write changes only that byte. -/
def Obligations.HostMemoryAccess : Prop :=
  ∀ (s : State) (a : Nat) (v : Byte), Memory.wf s.mem → a < s.cfg.memSize →
    s.ownsSrc a = false → s.ownsDst a = false →
    hostStep (.memRead a) s = .next { s with reply := .byte (memRead s.mem a) } ∧
    ∃ m : Memory, hostStep (.memWrite a v) s = .next { s with mem := m, reply := .done } ∧
      memRead m a = v ∧ ∀ b, b ≠ a → memRead m b = memRead s.mem b

/-- 20_memory.md R66, 10_state.md R32: no command changes a byte of memory outside its destination range, and one that
uses none changes no byte, the bytes the host raced apart (70_reset_and_hazards.md R265). This holds for every command,
its faults included. -/
def Obligations.CommandWritesOnlyItsDestination : Prop :=
  ∀ (i : Instr) (s t : State), i.format = .cmd → exec i s = .next t →
    ∀ a, a ∉ s.dstTouched →
      (usesDst i = false ∨ a < s.dstAddr.toNat ∨ s.dstAddr.toNat + s.dstCap.toNat ≤ a) →
      memRead t.mem a = memRead s.mem a

/-- 70_reset_and_hazards.md R265: a destination byte the host wrote during BUSY may hold any value after the command, and
no other byte is affected by that. -/
def Obligations.RacedDestinationBytesStayLocal : Prop :=
  ∀ (i : Instr) (s t u : State), i.format = .cmd → exec i s = .next t →
    exec i { s with dstTouched := [] } = .next u →
    (∀ a, a ∉ s.dstTouched → memRead t.mem a = memRead u.mem a) ∧
    { t with mem := u.mem } = u

/-- No command changes an operand register, CTRL.IRQ_EN, WERR, a parameter, or the host's side (10_state.md R46, R50);
RESULT is changed by BR_GET only (10_state.md R36). -/
def Obligations.CommandsKeepOperandsAndControl : Prop :=
  ∀ (i : Instr) (s t : State), i.format = .cmd → exec i s = .next t →
    t.cmd = s.cmd ∧ t.srcAddr = s.srcAddr ∧ t.srcLen = s.srcLen ∧ t.dstAddr = s.dstAddr ∧
    t.dstCap = s.dstCap ∧ t.targetLen = s.targetLen ∧ t.blockMax = s.blockMax ∧ t.arg = s.arg ∧
    t.irqEn = s.irqEn ∧ t.werr = s.werr ∧ t.cfg = s.cfg ∧ t.latch = s.latch ∧
    t.pending = s.pending ∧ t.reply = s.reply ∧ ((∀ n, i ≠ .brGet n) → t.result = s.result)

/-! ## Whole-machine rules -/

/-- 10_state.md R47: LIT_LEN, CLT_LEN, TREE and PRODUCED are never observable. A step, the host's or the engine's, and
every instruction, taken with other hidden tables gives the same state but for the hidden tables, the answer to the host
included; and a step stops with other tables where it stops with these. -/
def Obligations.HiddenTablesAreUnobservable : Prop :=
  ∀ (s : State) (x : Tables),
    (∀ t, step s = .next t → ∃ y : Tables, step (s.withTables x) = .next (t.withTables y)) ∧
    (∀ f, step s = .fault f → step (s.withTables x) = .fault f) ∧
    ∀ i : Instr, ∃ (t : State) (y : Tables), exec i s = .next t ∧ exec i (s.withTables x) = .next (t.withTables y)

/-- 70_reset_and_hazards.md R271: what a command leaves in registers and memory depends on the registers and memory
before START only, not on the host's queue or the model's counters. -/
def Obligations.CommandsDependOnRegistersAndMemory : Prop :=
  ∀ (i : Instr) (s : State) (x : Side), i.format = .cmd → s.Quiet →
    ∃ (t : State) (y : Side), exec i s = .next t ∧ exec i (s.withSide x) = .next (t.withSide y)

/-- A host access that keeps the hazard rules (70_reset_and_hazards.md R265, R266, 60_exceptions.md R247) sets no WERR and
puts no race on record (the record is the model's, logs 12 and 13). During BUSY it ends the command, which only ABORT,
SOFT_RESET and the hardware reset input do, or it leaves everything the running command reads and writes as it was:
LATCH, the operand and result registers, the parameters, the hidden tables and every byte of the command's ranges. It
may then change only IRQ_EN, the W1C bits of STATUS, other bytes of memory, and the host's own queue and answer. -/
def Obligations.HazardFreeHostDisturbsNothing : Prop :=
  ∀ (op : HostOp) (s t : State), hazardFree op s = true → hostStep op s = .next t →
    (t.werr = true → s.werr = true) ∧ (s.Quiet → t.Quiet) ∧
    (s.busy = true →
      (t.busy = false ∧
        ((∃ contents, op = .hardwareReset contents) ∨
          ∃ v i, op = .busWrite (s.cfg.regBase + 0x08) 4 v ∧ decodeCtrl v = .ok i ∧
            (i = .softReset ∨ ∃ ie, i = .abort ie))) ∨
      (t = { s with
          irqEn := t.irqEn, done := t.done, err := t.err, werr := t.werr
          mem := t.mem, pending := t.pending, reply := t.reply } ∧
        ∀ a, s.ownsSrc a = true ∨ s.ownsDst a = true → memRead t.mem a = memRead s.mem a))

/-- The invariant holds after reset. -/
def Obligations.ResetIsLegal : Prop :=
  State.reset.Inv ∧ State.reset.WriterOk ∧ State.reset.cfg.Legal

/-- Every step keeps the invariant: memory canonical and inside MEM_SIZE (20_memory.md R60, R65), the tables legal
(41_huffman.md R140, R141), the status of a running command as START left it (70_reset_and_hazards.md R266, 20_memory.md
R74), DONE, ERR and the fault registers consistent (60_exceptions.md R234, R236), and the host's
races on record those of the running command's destination range (70_reset_and_hazards.md R265; the record is the
model's, logs 12 and 13). -/
def Obligations.StepKeepsInvariant : Prop :=
  ∀ s t : State, s.Inv → step s = .next t → t.Inv

/-- 10_state.md R38, R39: every step keeps BW_CNT at most 7 and BW_ACC below 2^BW_CNT, but for an ABORT of a running
command, after which they are open (44_control.md R213; log 7). -/
def Obligations.StepKeepsWriter : Prop :=
  ∀ s t : State, s.WriterOk → s.abortsNext = false → step s = .next t → t.WriterOk

/-! ## A block of Decode, fault by fault -/

/-- 42_block_codec.md R163, 41_huffman.md R145, R148, R151: what one block of Decode does with the bits at its position,
in the order of its checks. With L, the descriptor's lengths, N and the depths as the stream's fields give them, it faults
SRC_EXHAUSTED at its start where the literal count does not fit, TARGET_OVERRUN where L exceeds what is missing,
MALFORMED_TREE 1 where the descriptor's code overflows, 2 where N is 0x1FF, 3 or 4 as BuildTree says, each with the cursor
at the position R232 names; else it decodes L codewords. Each codeword is walked; a walk's fault is Decode's, a symbol at
or above 0x100 faults UNSUPPORTED_SYMBOL after its last bit, a byte is emitted. Blocks follow one another until the target
is met, and the first that faults ends Decode. -/
def Obligations.DecodeBlockFaultsInOrder : Prop :=
  (∀ (order : CodeBitOrder) (t : Stream) (T : Nat) (c : Cursor),
    let p := c.brPos
    let L := t.field p 16
    let short := t.field (p + 16) 1
    let len := t.field (p + 17) 4
    let lens := if short = 1 then List.replicate 19 len else (List.range 19).map fun i => t.field (p + 17 + 4 * i) 4
    let d := if short = 1 then p + 21 else p + 93
    let N := t.field d 9
    let depths := ((List.range N).map fun i => t.field (d + 9 + 4 * i) 4 + 2) ++ List.replicate (0x1FE - N) 0
    let b := d + 9 + 4 * N
    let c1 := { c with brPos := p + 16, blkCount := c.blkCount + 1, lastLits := L }
    let c2 := { c1 with
      brPos := d, cltLen := lens
      lastClt := if short = 1 then ⟨true, BitVec.ofNat 4 len, true⟩ else ⟨false, 0#4, true⟩ }
    let c3 := { c2 with brPos := d + 9, lastLitn := N }
    let c4 := { c3 with brPos := b, litLen := depths }
    (8 * t.len < p + 16 → decodeBlock order t T c = .error (⟨.srcExhausted, 1, p⟩, c)) ∧
    (p + 16 ≤ 8 * t.len → T - c.produced < L →
      decodeBlock order t T c = .error (⟨.targetOverrun, 0, p + 16⟩, c1)) ∧
    (L ≤ T - c.produced → d ≤ 8 * t.len →
      (canon lens = none → decodeBlock order t T c = .error (⟨.malformedTree, 1, d⟩, c2)) ∧
      (canon lens ≠ none →
        (8 * t.len < d + 9 → decodeBlock order t T c = .error (⟨.srcExhausted, 1, d⟩, c2)) ∧
        (d + 9 ≤ 8 * t.len → N = 0x1FF → decodeBlock order t T c = .error (⟨.malformedTree, 2, d + 9⟩, c3)) ∧
        (b ≤ 8 * t.len → N ≤ 0x1FE →
          (∀ sub, buildTree order depths = .error sub →
            decodeBlock order t T c = .error (⟨.malformedTree, sub, b⟩, c4)) ∧
          ∀ tree, buildTree order depths = .ok tree →
            decodeBlock order t T c = decodeLiterals t L { c4 with tree := tree })))) ∧
  (∀ (t : Stream) (n q : Nat) (c : Cursor),
    decodeLiterals t 0 c = .ok c ∧
    (∀ f, walk t c.tree c.brPos = (.error f, q) →
      decodeLiterals t (n + 1) c = .error (f, { c with brPos := q })) ∧
    ∀ sym, walk t c.tree c.brPos = (.ok sym, q) →
      (0x100 ≤ sym →
        decodeLiterals t (n + 1) c = .error (⟨.unsupportedSymbol, 0, q⟩, { c with brPos := q })) ∧
      (sym < 0x100 →
        decodeLiterals t (n + 1) c = decodeLiterals t n
          { c with brPos := q, produced := c.produced + 1, outRev := BitVec.ofNat 8 sym :: c.outRev })) ∧
  ∀ (order : CodeBitOrder) (t : Stream) (T fuel : Nat) (c : Cursor),
    (T ≤ c.produced → decodeBlocks order t T (fuel + 1) c = .ok c) ∧
    (c.produced < T →
      (∀ e, decodeBlock order t T c = .error e → decodeBlocks order t T (fuel + 1) c = .error e) ∧
      ∀ c', decodeBlock order t T c = .ok c' → decodeBlocks order t T (fuel + 1) c = decodeBlocks order t T fuel c')
end

