-- ==== Sys2Proof/Laws/Memory.lean ====
section
/-! SUPPORT. The laws of buffer memory: read after write, the canonical form and the address bound under every memory
operation. -/

namespace Sys2Proof.Machine

/-! ## One byte -/

@[simp] theorem memRead_nil (a : Nat) : memRead [] a = unlistedByte := rfl

theorem memRead_cons (k : Nat) (b : Byte) (rest : Memory) (a : Nat) :
    memRead ((k, b) :: rest) a = if k = a then b else memRead rest a := rfl

/-- An address below every listed one reads as unlisted. -/
theorem memRead_of_lt {m : Memory} {a : Nat} (h : ∀ c ∈ m, a < c.1) : memRead m a = unlistedByte := by
  induction m with
  | nil => rfl
  | cons c rest ih =>
    obtain ⟨k, b⟩ := c
    have hk : a < k := h (k, b) (by simp)
    rw [memRead_cons, if_neg (by omega)]
    exact ih fun c hc => h c (by simp [hc])

/-- A write leaves every other address alone. -/
theorem memRead_memWrite_other (m : Memory) {a b : Nat} (v : Byte) (h : b ≠ a) :
    memRead (memWrite m a v) b = memRead m b := by
  induction m with
  | nil =>
    by_cases hv : v = unlistedByte
    · simp [memWrite, hv]
    · simp [memWrite, hv, memRead_cons, Ne.symm h]
  | cons c rest ih =>
    obtain ⟨k, w⟩ := c
    simp only [memWrite]
    split
    · split
      · rfl
      · rw [memRead_cons, if_neg (Ne.symm h)]
    · split
      · next hk =>
        subst hk
        split
        · rw [memRead_cons, if_neg (Ne.symm h)]
        · rw [memRead_cons, if_neg (Ne.symm h), memRead_cons, if_neg (Ne.symm h)]
      · rw [memRead_cons, memRead_cons, ih]

theorem Memory.wf_nil : Memory.wf [] := by simp [Memory.wf]

/-- The canonical form of a longer list. -/
theorem Memory.wf_cons {k : Nat} {b : Byte} {rest : Memory} :
    Memory.wf ((k, b) :: rest) ↔ (∀ c ∈ rest, k < c.1) ∧ b ≠ unlistedByte ∧ Memory.wf rest := by
  simp only [Memory.wf, List.map_cons, List.pairwise_cons, List.mem_map, List.mem_cons,
    forall_eq_or_imp]
  constructor
  · rintro ⟨⟨h1, h2⟩, h3, h4⟩
    exact ⟨fun c hc => h1 c.1 ⟨c, hc, rfl⟩, h3, h2, h4⟩
  · rintro ⟨h1, h3, h2, h4⟩
    exact ⟨⟨by rintro _ ⟨c, hc, rfl⟩; exact h1 c hc, h2⟩, h3, h4⟩

/-- A read after a write to the same address gives the value written. -/
theorem memRead_memWrite_same {m : Memory} (hm : Memory.wf m) (a : Nat) (v : Byte) :
    memRead (memWrite m a v) a = v := by
  induction m with
  | nil =>
    by_cases hv : v = unlistedByte
    · simp [memWrite, hv]
    · simp [memWrite, hv, memRead_cons]
  | cons c rest ih =>
    obtain ⟨k, w⟩ := c
    obtain ⟨hlt, hw, hrest⟩ := Memory.wf_cons.1 hm
    simp only [memWrite]
    split
    · next hak =>
      split
      · next hv =>
        rw [hv]
        refine memRead_of_lt ?_
        intro c hc
        rcases List.mem_cons.1 hc with rfl | hc
        · exact hak
        · exact lt_trans hak (hlt c hc)
      · simp [memRead_cons]
    · split
      · next hk =>
        subst hk
        split
        · next hv => rw [hv]; exact memRead_of_lt hlt
        · simp [memRead_cons]
      · next hk =>
        rw [memRead_cons, if_neg (Ne.symm hk)]
        exact ih hrest

/-- A write lists no address but its own beside those already listed. -/
theorem mem_memWrite {m : Memory} {a : Nat} {v : Byte} {c : Host.Cell} (h : c ∈ memWrite m a v) :
    c = (a, v) ∨ c ∈ m := by
  induction m with
  | nil =>
    simp only [memWrite] at h
    split at h
    · simp at h
    · exact .inl (by simpa using h)
  | cons d rest ih =>
    obtain ⟨k, w⟩ := d
    simp only [memWrite] at h
    split at h
    · split at h
      · exact .inr h
      · rcases List.mem_cons.1 h with h | h
        · exact .inl h
        · exact .inr h
    · split at h
      · split at h
        · exact .inr (by simp [h])
        · rcases List.mem_cons.1 h with h | h
          · exact .inl h
          · exact .inr (by simp [h])
      · rcases List.mem_cons.1 h with h | h
        · exact .inr (by simp [h])
        · rcases ih h with h | h
          · exact .inl h
          · exact .inr (by simp [h])

/-- A write keeps the canonical form. -/
theorem memWrite_wf {m : Memory} (hm : Memory.wf m) (a : Nat) (v : Byte) : Memory.wf (memWrite m a v) := by
  induction m with
  | nil =>
    by_cases hv : v = unlistedByte
    · simp [memWrite, hv, Memory.wf]
    · simp [memWrite, hv, Memory.wf]
  | cons c rest ih =>
    obtain ⟨k, w⟩ := c
    obtain ⟨hlt, hw, hrest⟩ := Memory.wf_cons.1 hm
    simp only [memWrite]
    split
    · next hak =>
      split
      · exact hm
      · next hv =>
        refine Memory.wf_cons.2 ⟨?_, hv, hm⟩
        intro c hc
        rcases List.mem_cons.1 hc with rfl | hc
        · exact hak
        · exact lt_trans hak (hlt c hc)
    · split
      · next hk =>
        subst hk
        split
        · exact hrest
        · next hv => exact Memory.wf_cons.2 ⟨hlt, hv, hrest⟩
      · next hle hk =>
        refine Memory.wf_cons.2 ⟨?_, hw, ih hrest⟩
        intro c hc
        rcases mem_memWrite hc with rfl | hc
        · exact lt_of_le_of_ne (Nat.le_of_not_lt hle) (Ne.symm hk)
        · exact hlt c hc

/-- A write to an existing address keeps the address bound. -/
theorem memWrite_within {m : Memory} {size a : Nat} (hm : Memory.within m size) (ha : a < size) (v : Byte) :
    Memory.within (memWrite m a v) size := by
  intro c hc
  rcases mem_memWrite hc with rfl | hc
  · exact ha
  · exact hm c hc

/-- Equal canonical memories are equal data: two that read alike everywhere are the same list. -/
theorem memory_ext {m n : Memory} (hm : Memory.wf m) (hn : Memory.wf n)
    (h : ∀ a, memRead m a = memRead n a) : m = n := by
  induction m generalizing n with
  | nil =>
    cases n with
    | nil => rfl
    | cons d rest =>
      obtain ⟨k, w⟩ := d
      have := h k
      simp only [memRead_nil, memRead_cons, if_true] at this
      exact absurd this.symm (Memory.wf_cons.1 hn).2.1
  | cons c rest ih =>
    obtain ⟨k, b⟩ := c
    obtain ⟨hlt, hb, hrest⟩ := Memory.wf_cons.1 hm
    cases n with
    | nil =>
      have := h k
      simp only [memRead_nil, memRead_cons, if_true] at this
      exact absurd this hb
    | cons d rest' =>
      obtain ⟨k', b'⟩ := d
      obtain ⟨hlt', hb', hrest'⟩ := Memory.wf_cons.1 hn
      have hk : k = k' := by
        rcases Nat.lt_trichotomy k k' with hlt1 | heq | hgt
        · have := h k
          rw [memRead_cons, if_pos rfl, memRead_cons, if_neg (by omega),
            memRead_of_lt fun c hc => lt_trans hlt1 (hlt' c hc)] at this
          exact absurd this hb
        · exact heq
        · have := h k'
          rw [memRead_cons, if_neg (by omega), memRead_cons, if_pos rfl,
            memRead_of_lt fun c hc => lt_trans hgt (hlt c hc)] at this
          exact absurd this.symm hb'
      subst hk
      have hbb : b = b' := by
        have := h k
        simpa only [memRead_cons, if_true] using this
      subst hbb
      congr 1
      refine ih hrest hrest' fun a => ?_
      by_cases ha : k = a
      · subst ha
        rw [memRead_of_lt hlt, memRead_of_lt hlt']
      · have := h a
        rwa [memRead_cons, if_neg ha, memRead_cons, if_neg ha] at this

/-! ## Sequences of writes -/

@[simp] theorem applyWrites_nil (m : Memory) : applyWrites m [] = m := rfl

@[simp] theorem applyWrites_cons (m : Memory) (a : Nat) (v : Byte) (rest : List Host.Cell) :
    applyWrites m ((a, v) :: rest) = applyWrites (memWrite m a v) rest := rfl

theorem applyWrites_append (m : Memory) (xs ys : List Host.Cell) :
    applyWrites m (xs ++ ys) = applyWrites (applyWrites m xs) ys := by
  induction xs generalizing m with
  | nil => rfl
  | cons c rest ih => exact ih (memWrite m c.1 c.2)

theorem applyWrites_wf {m : Memory} (hm : Memory.wf m) (ws : List Host.Cell) : Memory.wf (applyWrites m ws) := by
  induction ws generalizing m with
  | nil => exact hm
  | cons c rest ih => exact ih (memWrite_wf hm c.1 c.2)

theorem applyWrites_within {m : Memory} {size : Nat} (hm : Memory.within m size) {ws : List Host.Cell}
    (hw : ∀ c ∈ ws, c.1 < size) : Memory.within (applyWrites m ws) size := by
  induction ws generalizing m with
  | nil => exact hm
  | cons c rest ih =>
    exact ih (memWrite_within hm (hw c (by simp)) c.2) fun d hd => hw d (by simp [hd])

/-- A sequence of writes leaves every address it does not name alone. -/
theorem memRead_applyWrites_other (m : Memory) {ws : List Host.Cell} {a : Nat} (h : ∀ c ∈ ws, c.1 ≠ a) :
    memRead (applyWrites m ws) a = memRead m a := by
  induction ws generalizing m with
  | nil => rfl
  | cons c rest ih =>
    rw [show applyWrites m (c :: rest) = applyWrites (memWrite m c.1 c.2) rest from rfl,
      ih _ fun d hd => h d (by simp [hd]), memRead_memWrite_other _ _ (Ne.symm (h c (by simp)))]

/-! ## Consecutive bytes -/

@[simp] theorem cellsAt_length (base : Nat) (bs : List Byte) : (cellsAt base bs).length = bs.length := by
  induction bs generalizing base with
  | nil => rfl
  | cons b bs ih => simp [cellsAt, ih]

/-- The cells of consecutive bytes lie where the bytes do. -/
theorem mem_cellsAt {base : Nat} {bs : List Byte} {c : Host.Cell} (h : c ∈ cellsAt base bs) :
    base ≤ c.1 ∧ c.1 < base + bs.length := by
  induction bs generalizing base with
  | nil => simp [cellsAt] at h
  | cons b bs ih =>
    rcases List.mem_cons.1 h with rfl | h
    · simp
    · have := ih h
      simp only [List.length_cons]
      omega

/-- Storing consecutive bytes leaves every address outside them alone. -/
theorem memRead_store_other (m : Memory) {base : Nat} {bs : List Byte} {a : Nat}
    (h : a < base ∨ base + bs.length ≤ a) : memRead (applyWrites m (cellsAt base bs)) a = memRead m a := by
  refine memRead_applyWrites_other m fun c hc => ?_
  have := mem_cellsAt hc
  omega

/-- Storing consecutive bytes puts byte `j` at `base + j`. -/
theorem memRead_store_same {m : Memory} (hm : Memory.wf m) (base : Nat) (bs : List Byte) (j : Nat)
    (hj : j < bs.length) : memRead (applyWrites m (cellsAt base bs)) (base + j) = bs.getD j 0#8 := by
  induction bs generalizing m base j with
  | nil => simp at hj
  | cons b bs ih =>
    rw [cellsAt, applyWrites_cons]
    cases j with
    | zero =>
      rw [memRead_store_other _ (by omega), Nat.add_zero, memRead_memWrite_same hm]
      rfl
    | succ j =>
      have hj' : j < bs.length := by simpa using hj
      have := ih (memWrite_wf hm base b) (base + 1) j hj'
      rw [show base + (j + 1) = base + 1 + j by omega, this]
      rfl

/-! ## Raced bytes and given contents -/

theorem scramble_wf {m : Memory} (hm : Memory.wf m) (draw : Nat) (as : List Nat) :
    Memory.wf (scramble draw as m) := by
  induction as generalizing m with
  | nil => exact hm
  | cons a rest ih => exact ih (memWrite_wf hm a _)

theorem scramble_within {m : Memory} {size : Nat} (hm : Memory.within m size) (draw : Nat) {as : List Nat}
    (h : ∀ a ∈ as, a < size) : Memory.within (scramble draw as m) size := by
  induction as generalizing m with
  | nil => exact hm
  | cons a rest ih =>
    exact ih (memWrite_within hm (h a (by simp)) _) fun b hb => h b (by simp [hb])

@[simp] theorem scramble_nil (draw : Nat) (m : Memory) : scramble draw [] m = m := rfl

/-- Raced bytes are the only ones that take any value. -/
theorem memRead_scramble_other (draw : Nat) {as : List Nat} (m : Memory) {a : Nat} (h : a ∉ as) :
    memRead (scramble draw as m) a = memRead m a := by
  induction as generalizing m with
  | nil => rfl
  | cons b rest ih =>
    have hne : a ≠ b := fun e => h (by simp [e])
    rw [scramble, ih _ fun hr => h (by simp [hr]), memRead_memWrite_other _ _ hne]

theorem memoryOf_wf (size : Nat) (contents : List Host.Cell) : Memory.wf (memoryOf size contents) :=
  applyWrites_wf Memory.wf_nil _

theorem memoryOf_within (size : Nat) (contents : List Host.Cell) :
    Memory.within (memoryOf size contents) size := by
  refine applyWrites_within (by simp) ?_
  intro c hc
  simpa using (List.mem_filter.1 hc).2

end Sys2Proof.Machine
end

