-- ==== Sys2Proof/Laws/State.lean ====
section
/-! SUPPORT. The fields of a state after each named update: one lemma per field per update, so that no proof unfolds a
record update. -/

namespace Sys2Proof.Machine

/-! ## `withMem` -/

@[simp] theorem State.withMem_cfg (m : Memory) (s : State) : (s.withMem m).cfg = s.cfg := rfl
@[simp] theorem State.withMem_irqEn (m : Memory) (s : State) : (s.withMem m).irqEn = s.irqEn := rfl
@[simp] theorem State.withMem_cmd (m : Memory) (s : State) : (s.withMem m).cmd = s.cmd := rfl
@[simp] theorem State.withMem_phase (m : Memory) (s : State) : (s.withMem m).phase = s.phase := rfl
@[simp] theorem State.withMem_done (m : Memory) (s : State) : (s.withMem m).done = s.done := rfl
@[simp] theorem State.withMem_err (m : Memory) (s : State) : (s.withMem m).err = s.err := rfl
@[simp] theorem State.withMem_werr (m : Memory) (s : State) : (s.withMem m).werr = s.werr := rfl
@[simp] theorem State.withMem_packed (m : Memory) (s : State) : (s.withMem m).packed = s.packed := rfl
@[simp] theorem State.withMem_errCode (m : Memory) (s : State) : (s.withMem m).errCode = s.errCode := rfl
@[simp] theorem State.withMem_errSub (m : Memory) (s : State) : (s.withMem m).errSub = s.errSub := rfl
@[simp] theorem State.withMem_errPos (m : Memory) (s : State) : (s.withMem m).errPos = s.errPos := rfl
@[simp] theorem State.withMem_srcAddr (m : Memory) (s : State) : (s.withMem m).srcAddr = s.srcAddr := rfl
@[simp] theorem State.withMem_srcLen (m : Memory) (s : State) : (s.withMem m).srcLen = s.srcLen := rfl
@[simp] theorem State.withMem_dstAddr (m : Memory) (s : State) : (s.withMem m).dstAddr = s.dstAddr := rfl
@[simp] theorem State.withMem_dstCap (m : Memory) (s : State) : (s.withMem m).dstCap = s.dstCap := rfl
@[simp] theorem State.withMem_targetLen (m : Memory) (s : State) : (s.withMem m).targetLen = s.targetLen := rfl
@[simp] theorem State.withMem_blockMax (m : Memory) (s : State) : (s.withMem m).blockMax = s.blockMax := rfl
@[simp] theorem State.withMem_arg (m : Memory) (s : State) : (s.withMem m).arg = s.arg := rfl
@[simp] theorem State.withMem_result (m : Memory) (s : State) : (s.withMem m).result = s.result := rfl
@[simp] theorem State.withMem_outLen (m : Memory) (s : State) : (s.withMem m).outLen = s.outLen := rfl
@[simp] theorem State.withMem_bwAcc (m : Memory) (s : State) : (s.withMem m).bwAcc = s.bwAcc := rfl
@[simp] theorem State.withMem_bwCnt (m : Memory) (s : State) : (s.withMem m).bwCnt = s.bwCnt := rfl
@[simp] theorem State.withMem_brPos (m : Memory) (s : State) : (s.withMem m).brPos = s.brPos := rfl
@[simp] theorem State.withMem_hdrUsize (m : Memory) (s : State) : (s.withMem m).hdrUsize = s.hdrUsize := rfl
@[simp] theorem State.withMem_blkCount (m : Memory) (s : State) : (s.withMem m).blkCount = s.blkCount := rfl
@[simp] theorem State.withMem_lastLits (m : Memory) (s : State) : (s.withMem m).lastLits = s.lastLits := rfl
@[simp] theorem State.withMem_lastLitn (m : Memory) (s : State) : (s.withMem m).lastLitn = s.lastLitn := rfl
@[simp] theorem State.withMem_lastClt (m : Memory) (s : State) : (s.withMem m).lastClt = s.lastClt := rfl
@[simp] theorem State.withMem_litLen (m : Memory) (s : State) : (s.withMem m).litLen = s.litLen := rfl
@[simp] theorem State.withMem_cltLen (m : Memory) (s : State) : (s.withMem m).cltLen = s.cltLen := rfl
@[simp] theorem State.withMem_tree (m : Memory) (s : State) : (s.withMem m).tree = s.tree := rfl
@[simp] theorem State.withMem_latch (m : Memory) (s : State) : (s.withMem m).latch = s.latch := rfl
@[simp] theorem State.withMem_produced (m : Memory) (s : State) : (s.withMem m).produced = s.produced := rfl
@[simp] theorem State.withMem_mem (m : Memory) (s : State) : (s.withMem m).mem = m := rfl
@[simp] theorem State.withMem_pending (m : Memory) (s : State) : (s.withMem m).pending = s.pending := rfl
@[simp] theorem State.withMem_reply (m : Memory) (s : State) : (s.withMem m).reply = s.reply := rfl
@[simp] theorem State.withMem_engineDue (m : Memory) (s : State) : (s.withMem m).engineDue = s.engineDue := rfl
@[simp] theorem State.withMem_srcDraw (m : Memory) (s : State) : (s.withMem m).srcDraw = s.srcDraw := rfl
@[simp] theorem State.withMem_dstTouched (m : Memory) (s : State) : (s.withMem m).dstTouched = s.dstTouched := rfl
@[simp] theorem State.withMem_draws (m : Memory) (s : State) : (s.withMem m).draws = s.draws := rfl

/-! ## `setIrqEn` -/

@[simp] theorem State.setIrqEn_cfg (ie : Bool) (s : State) : (s.setIrqEn ie).cfg = s.cfg := rfl
@[simp] theorem State.setIrqEn_irqEn (ie : Bool) (s : State) : (s.setIrqEn ie).irqEn = ie := rfl
@[simp] theorem State.setIrqEn_cmd (ie : Bool) (s : State) : (s.setIrqEn ie).cmd = s.cmd := rfl
@[simp] theorem State.setIrqEn_phase (ie : Bool) (s : State) : (s.setIrqEn ie).phase = s.phase := rfl
@[simp] theorem State.setIrqEn_done (ie : Bool) (s : State) : (s.setIrqEn ie).done = s.done := rfl
@[simp] theorem State.setIrqEn_err (ie : Bool) (s : State) : (s.setIrqEn ie).err = s.err := rfl
@[simp] theorem State.setIrqEn_werr (ie : Bool) (s : State) : (s.setIrqEn ie).werr = s.werr := rfl
@[simp] theorem State.setIrqEn_packed (ie : Bool) (s : State) : (s.setIrqEn ie).packed = s.packed := rfl
@[simp] theorem State.setIrqEn_errCode (ie : Bool) (s : State) : (s.setIrqEn ie).errCode = s.errCode := rfl
@[simp] theorem State.setIrqEn_errSub (ie : Bool) (s : State) : (s.setIrqEn ie).errSub = s.errSub := rfl
@[simp] theorem State.setIrqEn_errPos (ie : Bool) (s : State) : (s.setIrqEn ie).errPos = s.errPos := rfl
@[simp] theorem State.setIrqEn_srcAddr (ie : Bool) (s : State) : (s.setIrqEn ie).srcAddr = s.srcAddr := rfl
@[simp] theorem State.setIrqEn_srcLen (ie : Bool) (s : State) : (s.setIrqEn ie).srcLen = s.srcLen := rfl
@[simp] theorem State.setIrqEn_dstAddr (ie : Bool) (s : State) : (s.setIrqEn ie).dstAddr = s.dstAddr := rfl
@[simp] theorem State.setIrqEn_dstCap (ie : Bool) (s : State) : (s.setIrqEn ie).dstCap = s.dstCap := rfl
@[simp] theorem State.setIrqEn_targetLen (ie : Bool) (s : State) : (s.setIrqEn ie).targetLen = s.targetLen := rfl
@[simp] theorem State.setIrqEn_blockMax (ie : Bool) (s : State) : (s.setIrqEn ie).blockMax = s.blockMax := rfl
@[simp] theorem State.setIrqEn_arg (ie : Bool) (s : State) : (s.setIrqEn ie).arg = s.arg := rfl
@[simp] theorem State.setIrqEn_result (ie : Bool) (s : State) : (s.setIrqEn ie).result = s.result := rfl
@[simp] theorem State.setIrqEn_outLen (ie : Bool) (s : State) : (s.setIrqEn ie).outLen = s.outLen := rfl
@[simp] theorem State.setIrqEn_bwAcc (ie : Bool) (s : State) : (s.setIrqEn ie).bwAcc = s.bwAcc := rfl
@[simp] theorem State.setIrqEn_bwCnt (ie : Bool) (s : State) : (s.setIrqEn ie).bwCnt = s.bwCnt := rfl
@[simp] theorem State.setIrqEn_brPos (ie : Bool) (s : State) : (s.setIrqEn ie).brPos = s.brPos := rfl
@[simp] theorem State.setIrqEn_hdrUsize (ie : Bool) (s : State) : (s.setIrqEn ie).hdrUsize = s.hdrUsize := rfl
@[simp] theorem State.setIrqEn_blkCount (ie : Bool) (s : State) : (s.setIrqEn ie).blkCount = s.blkCount := rfl
@[simp] theorem State.setIrqEn_lastLits (ie : Bool) (s : State) : (s.setIrqEn ie).lastLits = s.lastLits := rfl
@[simp] theorem State.setIrqEn_lastLitn (ie : Bool) (s : State) : (s.setIrqEn ie).lastLitn = s.lastLitn := rfl
@[simp] theorem State.setIrqEn_lastClt (ie : Bool) (s : State) : (s.setIrqEn ie).lastClt = s.lastClt := rfl
@[simp] theorem State.setIrqEn_litLen (ie : Bool) (s : State) : (s.setIrqEn ie).litLen = s.litLen := rfl
@[simp] theorem State.setIrqEn_cltLen (ie : Bool) (s : State) : (s.setIrqEn ie).cltLen = s.cltLen := rfl
@[simp] theorem State.setIrqEn_tree (ie : Bool) (s : State) : (s.setIrqEn ie).tree = s.tree := rfl
@[simp] theorem State.setIrqEn_latch (ie : Bool) (s : State) : (s.setIrqEn ie).latch = s.latch := rfl
@[simp] theorem State.setIrqEn_produced (ie : Bool) (s : State) : (s.setIrqEn ie).produced = s.produced := rfl
@[simp] theorem State.setIrqEn_mem (ie : Bool) (s : State) : (s.setIrqEn ie).mem = s.mem := rfl
@[simp] theorem State.setIrqEn_pending (ie : Bool) (s : State) : (s.setIrqEn ie).pending = s.pending := rfl
@[simp] theorem State.setIrqEn_reply (ie : Bool) (s : State) : (s.setIrqEn ie).reply = s.reply := rfl
@[simp] theorem State.setIrqEn_engineDue (ie : Bool) (s : State) : (s.setIrqEn ie).engineDue = s.engineDue := rfl
@[simp] theorem State.setIrqEn_srcDraw (ie : Bool) (s : State) : (s.setIrqEn ie).srcDraw = s.srcDraw := rfl
@[simp] theorem State.setIrqEn_dstTouched (ie : Bool) (s : State) : (s.setIrqEn ie).dstTouched = s.dstTouched := rfl
@[simp] theorem State.setIrqEn_draws (ie : Bool) (s : State) : (s.setIrqEn ie).draws = s.draws := rfl

/-! ## `noteWriteError` -/

@[simp] theorem State.noteWriteError_cfg (s : State) : s.noteWriteError.cfg = s.cfg := rfl
@[simp] theorem State.noteWriteError_irqEn (s : State) : s.noteWriteError.irqEn = s.irqEn := rfl
@[simp] theorem State.noteWriteError_cmd (s : State) : s.noteWriteError.cmd = s.cmd := rfl
@[simp] theorem State.noteWriteError_phase (s : State) : s.noteWriteError.phase = s.phase := rfl
@[simp] theorem State.noteWriteError_done (s : State) : s.noteWriteError.done = s.done := rfl
@[simp] theorem State.noteWriteError_err (s : State) : s.noteWriteError.err = s.err := rfl
@[simp] theorem State.noteWriteError_werr (s : State) : s.noteWriteError.werr = true := rfl
@[simp] theorem State.noteWriteError_packed (s : State) : s.noteWriteError.packed = s.packed := rfl
@[simp] theorem State.noteWriteError_errCode (s : State) : s.noteWriteError.errCode = s.errCode := rfl
@[simp] theorem State.noteWriteError_errSub (s : State) : s.noteWriteError.errSub = s.errSub := rfl
@[simp] theorem State.noteWriteError_errPos (s : State) : s.noteWriteError.errPos = s.errPos := rfl
@[simp] theorem State.noteWriteError_srcAddr (s : State) : s.noteWriteError.srcAddr = s.srcAddr := rfl
@[simp] theorem State.noteWriteError_srcLen (s : State) : s.noteWriteError.srcLen = s.srcLen := rfl
@[simp] theorem State.noteWriteError_dstAddr (s : State) : s.noteWriteError.dstAddr = s.dstAddr := rfl
@[simp] theorem State.noteWriteError_dstCap (s : State) : s.noteWriteError.dstCap = s.dstCap := rfl
@[simp] theorem State.noteWriteError_targetLen (s : State) : s.noteWriteError.targetLen = s.targetLen := rfl
@[simp] theorem State.noteWriteError_blockMax (s : State) : s.noteWriteError.blockMax = s.blockMax := rfl
@[simp] theorem State.noteWriteError_arg (s : State) : s.noteWriteError.arg = s.arg := rfl
@[simp] theorem State.noteWriteError_result (s : State) : s.noteWriteError.result = s.result := rfl
@[simp] theorem State.noteWriteError_outLen (s : State) : s.noteWriteError.outLen = s.outLen := rfl
@[simp] theorem State.noteWriteError_bwAcc (s : State) : s.noteWriteError.bwAcc = s.bwAcc := rfl
@[simp] theorem State.noteWriteError_bwCnt (s : State) : s.noteWriteError.bwCnt = s.bwCnt := rfl
@[simp] theorem State.noteWriteError_brPos (s : State) : s.noteWriteError.brPos = s.brPos := rfl
@[simp] theorem State.noteWriteError_hdrUsize (s : State) : s.noteWriteError.hdrUsize = s.hdrUsize := rfl
@[simp] theorem State.noteWriteError_blkCount (s : State) : s.noteWriteError.blkCount = s.blkCount := rfl
@[simp] theorem State.noteWriteError_lastLits (s : State) : s.noteWriteError.lastLits = s.lastLits := rfl
@[simp] theorem State.noteWriteError_lastLitn (s : State) : s.noteWriteError.lastLitn = s.lastLitn := rfl
@[simp] theorem State.noteWriteError_lastClt (s : State) : s.noteWriteError.lastClt = s.lastClt := rfl
@[simp] theorem State.noteWriteError_litLen (s : State) : s.noteWriteError.litLen = s.litLen := rfl
@[simp] theorem State.noteWriteError_cltLen (s : State) : s.noteWriteError.cltLen = s.cltLen := rfl
@[simp] theorem State.noteWriteError_tree (s : State) : s.noteWriteError.tree = s.tree := rfl
@[simp] theorem State.noteWriteError_latch (s : State) : s.noteWriteError.latch = s.latch := rfl
@[simp] theorem State.noteWriteError_produced (s : State) : s.noteWriteError.produced = s.produced := rfl
@[simp] theorem State.noteWriteError_mem (s : State) : s.noteWriteError.mem = s.mem := rfl
@[simp] theorem State.noteWriteError_pending (s : State) : s.noteWriteError.pending = s.pending := rfl
@[simp] theorem State.noteWriteError_reply (s : State) : s.noteWriteError.reply = s.reply := rfl
@[simp] theorem State.noteWriteError_engineDue (s : State) : s.noteWriteError.engineDue = s.engineDue := rfl
@[simp] theorem State.noteWriteError_srcDraw (s : State) : s.noteWriteError.srcDraw = s.srcDraw := rfl
@[simp] theorem State.noteWriteError_dstTouched (s : State) : s.noteWriteError.dstTouched = s.dstTouched := rfl
@[simp] theorem State.noteWriteError_draws (s : State) : s.noteWriteError.draws = s.draws := rfl

/-! ## `raise` -/

@[simp] theorem State.raise_cfg (f : FaultReport) (s : State) : (s.raise f).cfg = s.cfg := rfl
@[simp] theorem State.raise_irqEn (f : FaultReport) (s : State) : (s.raise f).irqEn = s.irqEn := rfl
@[simp] theorem State.raise_cmd (f : FaultReport) (s : State) : (s.raise f).cmd = s.cmd := rfl
@[simp] theorem State.raise_phase (f : FaultReport) (s : State) : (s.raise f).phase = .idle := rfl
@[simp] theorem State.raise_done (f : FaultReport) (s : State) : (s.raise f).done = s.done := rfl
@[simp] theorem State.raise_err (f : FaultReport) (s : State) : (s.raise f).err = true := rfl
@[simp] theorem State.raise_werr (f : FaultReport) (s : State) : (s.raise f).werr = s.werr := rfl
@[simp] theorem State.raise_packed (f : FaultReport) (s : State) : (s.raise f).packed = s.packed := rfl
@[simp] theorem State.raise_errCode (f : FaultReport) (s : State) : (s.raise f).errCode = f.code := rfl
@[simp] theorem State.raise_errSub (f : FaultReport) (s : State) : (s.raise f).errSub = f.sub := rfl
@[simp] theorem State.raise_errPos (f : FaultReport) (s : State) : (s.raise f).errPos = errPosWord f.pos := rfl
@[simp] theorem State.raise_srcAddr (f : FaultReport) (s : State) : (s.raise f).srcAddr = s.srcAddr := rfl
@[simp] theorem State.raise_srcLen (f : FaultReport) (s : State) : (s.raise f).srcLen = s.srcLen := rfl
@[simp] theorem State.raise_dstAddr (f : FaultReport) (s : State) : (s.raise f).dstAddr = s.dstAddr := rfl
@[simp] theorem State.raise_dstCap (f : FaultReport) (s : State) : (s.raise f).dstCap = s.dstCap := rfl
@[simp] theorem State.raise_targetLen (f : FaultReport) (s : State) : (s.raise f).targetLen = s.targetLen := rfl
@[simp] theorem State.raise_blockMax (f : FaultReport) (s : State) : (s.raise f).blockMax = s.blockMax := rfl
@[simp] theorem State.raise_arg (f : FaultReport) (s : State) : (s.raise f).arg = s.arg := rfl
@[simp] theorem State.raise_result (f : FaultReport) (s : State) : (s.raise f).result = s.result := rfl
@[simp] theorem State.raise_outLen (f : FaultReport) (s : State) : (s.raise f).outLen = s.outLen := rfl
@[simp] theorem State.raise_bwAcc (f : FaultReport) (s : State) : (s.raise f).bwAcc = s.bwAcc := rfl
@[simp] theorem State.raise_bwCnt (f : FaultReport) (s : State) : (s.raise f).bwCnt = s.bwCnt := rfl
@[simp] theorem State.raise_brPos (f : FaultReport) (s : State) : (s.raise f).brPos = s.brPos := rfl
@[simp] theorem State.raise_hdrUsize (f : FaultReport) (s : State) : (s.raise f).hdrUsize = s.hdrUsize := rfl
@[simp] theorem State.raise_blkCount (f : FaultReport) (s : State) : (s.raise f).blkCount = s.blkCount := rfl
@[simp] theorem State.raise_lastLits (f : FaultReport) (s : State) : (s.raise f).lastLits = s.lastLits := rfl
@[simp] theorem State.raise_lastLitn (f : FaultReport) (s : State) : (s.raise f).lastLitn = s.lastLitn := rfl
@[simp] theorem State.raise_lastClt (f : FaultReport) (s : State) : (s.raise f).lastClt = s.lastClt := rfl
@[simp] theorem State.raise_litLen (f : FaultReport) (s : State) : (s.raise f).litLen = s.litLen := rfl
@[simp] theorem State.raise_cltLen (f : FaultReport) (s : State) : (s.raise f).cltLen = s.cltLen := rfl
@[simp] theorem State.raise_tree (f : FaultReport) (s : State) : (s.raise f).tree = s.tree := rfl
@[simp] theorem State.raise_latch (f : FaultReport) (s : State) : (s.raise f).latch = s.latch := rfl
@[simp] theorem State.raise_produced (f : FaultReport) (s : State) : (s.raise f).produced = s.produced := rfl
@[simp] theorem State.raise_mem (f : FaultReport) (s : State) : (s.raise f).mem = s.mem := rfl
@[simp] theorem State.raise_pending (f : FaultReport) (s : State) : (s.raise f).pending = s.pending := rfl
@[simp] theorem State.raise_reply (f : FaultReport) (s : State) : (s.raise f).reply = s.reply := rfl
@[simp] theorem State.raise_engineDue (f : FaultReport) (s : State) : (s.raise f).engineDue = s.engineDue := rfl
@[simp] theorem State.raise_srcDraw (f : FaultReport) (s : State) : (s.raise f).srcDraw = s.srcDraw := rfl
@[simp] theorem State.raise_dstTouched (f : FaultReport) (s : State) : (s.raise f).dstTouched = s.dstTouched := rfl
@[simp] theorem State.raise_draws (f : FaultReport) (s : State) : (s.raise f).draws = s.draws := rfl

/-! ## `complete` -/

@[simp] theorem State.complete_cfg (s : State) : s.complete.cfg = s.cfg := rfl
@[simp] theorem State.complete_irqEn (s : State) : s.complete.irqEn = s.irqEn := rfl
@[simp] theorem State.complete_cmd (s : State) : s.complete.cmd = s.cmd := rfl
@[simp] theorem State.complete_phase (s : State) : s.complete.phase = .idle := rfl
@[simp] theorem State.complete_done (s : State) : s.complete.done = true := rfl
@[simp] theorem State.complete_err (s : State) : s.complete.err = s.err := rfl
@[simp] theorem State.complete_werr (s : State) : s.complete.werr = s.werr := rfl
@[simp] theorem State.complete_packed (s : State) : s.complete.packed = s.packed := rfl
@[simp] theorem State.complete_errCode (s : State) : s.complete.errCode = s.errCode := rfl
@[simp] theorem State.complete_errSub (s : State) : s.complete.errSub = s.errSub := rfl
@[simp] theorem State.complete_errPos (s : State) : s.complete.errPos = s.errPos := rfl
@[simp] theorem State.complete_srcAddr (s : State) : s.complete.srcAddr = s.srcAddr := rfl
@[simp] theorem State.complete_srcLen (s : State) : s.complete.srcLen = s.srcLen := rfl
@[simp] theorem State.complete_dstAddr (s : State) : s.complete.dstAddr = s.dstAddr := rfl
@[simp] theorem State.complete_dstCap (s : State) : s.complete.dstCap = s.dstCap := rfl
@[simp] theorem State.complete_targetLen (s : State) : s.complete.targetLen = s.targetLen := rfl
@[simp] theorem State.complete_blockMax (s : State) : s.complete.blockMax = s.blockMax := rfl
@[simp] theorem State.complete_arg (s : State) : s.complete.arg = s.arg := rfl
@[simp] theorem State.complete_result (s : State) : s.complete.result = s.result := rfl
@[simp] theorem State.complete_outLen (s : State) : s.complete.outLen = s.outLen := rfl
@[simp] theorem State.complete_bwAcc (s : State) : s.complete.bwAcc = s.bwAcc := rfl
@[simp] theorem State.complete_bwCnt (s : State) : s.complete.bwCnt = s.bwCnt := rfl
@[simp] theorem State.complete_brPos (s : State) : s.complete.brPos = s.brPos := rfl
@[simp] theorem State.complete_hdrUsize (s : State) : s.complete.hdrUsize = s.hdrUsize := rfl
@[simp] theorem State.complete_blkCount (s : State) : s.complete.blkCount = s.blkCount := rfl
@[simp] theorem State.complete_lastLits (s : State) : s.complete.lastLits = s.lastLits := rfl
@[simp] theorem State.complete_lastLitn (s : State) : s.complete.lastLitn = s.lastLitn := rfl
@[simp] theorem State.complete_lastClt (s : State) : s.complete.lastClt = s.lastClt := rfl
@[simp] theorem State.complete_litLen (s : State) : s.complete.litLen = s.litLen := rfl
@[simp] theorem State.complete_cltLen (s : State) : s.complete.cltLen = s.cltLen := rfl
@[simp] theorem State.complete_tree (s : State) : s.complete.tree = s.tree := rfl
@[simp] theorem State.complete_latch (s : State) : s.complete.latch = s.latch := rfl
@[simp] theorem State.complete_produced (s : State) : s.complete.produced = s.produced := rfl
@[simp] theorem State.complete_mem (s : State) : s.complete.mem = s.mem := rfl
@[simp] theorem State.complete_pending (s : State) : s.complete.pending = s.pending := rfl
@[simp] theorem State.complete_reply (s : State) : s.complete.reply = s.reply := rfl
@[simp] theorem State.complete_engineDue (s : State) : s.complete.engineDue = s.engineDue := rfl
@[simp] theorem State.complete_srcDraw (s : State) : s.complete.srcDraw = s.srcDraw := rfl
@[simp] theorem State.complete_dstTouched (s : State) : s.complete.dstTouched = s.dstTouched := rfl
@[simp] theorem State.complete_draws (s : State) : s.complete.draws = s.draws := rfl

/-! ## `accept` -/

@[simp] theorem State.accept_cfg (s : State) : s.accept.cfg = s.cfg := rfl
@[simp] theorem State.accept_irqEn (s : State) : s.accept.irqEn = s.irqEn := rfl
@[simp] theorem State.accept_cmd (s : State) : s.accept.cmd = s.cmd := rfl
@[simp] theorem State.accept_phase (s : State) : s.accept.phase = .run := rfl
@[simp] theorem State.accept_done (s : State) : s.accept.done = false := rfl
@[simp] theorem State.accept_err (s : State) : s.accept.err = false := rfl
@[simp] theorem State.accept_werr (s : State) : s.accept.werr = s.werr := rfl
@[simp] theorem State.accept_packed (s : State) : s.accept.packed = false := rfl
@[simp] theorem State.accept_errCode (s : State) : s.accept.errCode = .noFault := rfl
@[simp] theorem State.accept_errSub (s : State) : s.accept.errSub = 0#8 := rfl
@[simp] theorem State.accept_errPos (s : State) : s.accept.errPos = 0#32 := rfl
@[simp] theorem State.accept_srcAddr (s : State) : s.accept.srcAddr = s.srcAddr := rfl
@[simp] theorem State.accept_srcLen (s : State) : s.accept.srcLen = s.srcLen := rfl
@[simp] theorem State.accept_dstAddr (s : State) : s.accept.dstAddr = s.dstAddr := rfl
@[simp] theorem State.accept_dstCap (s : State) : s.accept.dstCap = s.dstCap := rfl
@[simp] theorem State.accept_targetLen (s : State) : s.accept.targetLen = s.targetLen := rfl
@[simp] theorem State.accept_blockMax (s : State) : s.accept.blockMax = s.blockMax := rfl
@[simp] theorem State.accept_arg (s : State) : s.accept.arg = s.arg := rfl
@[simp] theorem State.accept_result (s : State) : s.accept.result = s.result := rfl
@[simp] theorem State.accept_outLen (s : State) : s.accept.outLen = s.outLen := rfl
@[simp] theorem State.accept_bwAcc (s : State) : s.accept.bwAcc = s.bwAcc := rfl
@[simp] theorem State.accept_bwCnt (s : State) : s.accept.bwCnt = s.bwCnt := rfl
@[simp] theorem State.accept_brPos (s : State) : s.accept.brPos = s.brPos := rfl
@[simp] theorem State.accept_hdrUsize (s : State) : s.accept.hdrUsize = s.hdrUsize := rfl
@[simp] theorem State.accept_blkCount (s : State) : s.accept.blkCount = s.blkCount := rfl
@[simp] theorem State.accept_lastLits (s : State) : s.accept.lastLits = s.lastLits := rfl
@[simp] theorem State.accept_lastLitn (s : State) : s.accept.lastLitn = s.lastLitn := rfl
@[simp] theorem State.accept_lastClt (s : State) : s.accept.lastClt = s.lastClt := rfl
@[simp] theorem State.accept_litLen (s : State) : s.accept.litLen = s.litLen := rfl
@[simp] theorem State.accept_cltLen (s : State) : s.accept.cltLen = s.cltLen := rfl
@[simp] theorem State.accept_tree (s : State) : s.accept.tree = s.tree := rfl
@[simp] theorem State.accept_latch (s : State) : s.accept.latch = s.cmd := rfl
@[simp] theorem State.accept_produced (s : State) : s.accept.produced = s.produced := rfl
@[simp] theorem State.accept_mem (s : State) : s.accept.mem = s.mem := rfl
@[simp] theorem State.accept_pending (s : State) : s.accept.pending = s.pending := rfl
@[simp] theorem State.accept_reply (s : State) : s.accept.reply = s.reply := rfl
@[simp] theorem State.accept_engineDue (s : State) : s.accept.engineDue = Config.engineDelay s.draws := rfl
@[simp] theorem State.accept_srcDraw (s : State) : s.accept.srcDraw = none := rfl
@[simp] theorem State.accept_dstTouched (s : State) : s.accept.dstTouched = [] := rfl
@[simp] theorem State.accept_draws (s : State) : s.accept.draws = s.draws + 1 := rfl

/-! ## `retire` -/

@[simp] theorem State.retire_cfg (s : State) : s.retire.cfg = s.cfg := rfl
@[simp] theorem State.retire_irqEn (s : State) : s.retire.irqEn = s.irqEn := rfl
@[simp] theorem State.retire_cmd (s : State) : s.retire.cmd = s.cmd := rfl
@[simp] theorem State.retire_phase (s : State) : s.retire.phase = s.phase := rfl
@[simp] theorem State.retire_done (s : State) : s.retire.done = s.done := rfl
@[simp] theorem State.retire_err (s : State) : s.retire.err = s.err := rfl
@[simp] theorem State.retire_werr (s : State) : s.retire.werr = s.werr := rfl
@[simp] theorem State.retire_packed (s : State) : s.retire.packed = s.packed := rfl
@[simp] theorem State.retire_errCode (s : State) : s.retire.errCode = s.errCode := rfl
@[simp] theorem State.retire_errSub (s : State) : s.retire.errSub = s.errSub := rfl
@[simp] theorem State.retire_errPos (s : State) : s.retire.errPos = s.errPos := rfl
@[simp] theorem State.retire_srcAddr (s : State) : s.retire.srcAddr = s.srcAddr := rfl
@[simp] theorem State.retire_srcLen (s : State) : s.retire.srcLen = s.srcLen := rfl
@[simp] theorem State.retire_dstAddr (s : State) : s.retire.dstAddr = s.dstAddr := rfl
@[simp] theorem State.retire_dstCap (s : State) : s.retire.dstCap = s.dstCap := rfl
@[simp] theorem State.retire_targetLen (s : State) : s.retire.targetLen = s.targetLen := rfl
@[simp] theorem State.retire_blockMax (s : State) : s.retire.blockMax = s.blockMax := rfl
@[simp] theorem State.retire_arg (s : State) : s.retire.arg = s.arg := rfl
@[simp] theorem State.retire_result (s : State) : s.retire.result = s.result := rfl
@[simp] theorem State.retire_outLen (s : State) : s.retire.outLen = s.outLen := rfl
@[simp] theorem State.retire_bwAcc (s : State) : s.retire.bwAcc = s.bwAcc := rfl
@[simp] theorem State.retire_bwCnt (s : State) : s.retire.bwCnt = s.bwCnt := rfl
@[simp] theorem State.retire_brPos (s : State) : s.retire.brPos = s.brPos := rfl
@[simp] theorem State.retire_hdrUsize (s : State) : s.retire.hdrUsize = s.hdrUsize := rfl
@[simp] theorem State.retire_blkCount (s : State) : s.retire.blkCount = s.blkCount := rfl
@[simp] theorem State.retire_lastLits (s : State) : s.retire.lastLits = s.lastLits := rfl
@[simp] theorem State.retire_lastLitn (s : State) : s.retire.lastLitn = s.lastLitn := rfl
@[simp] theorem State.retire_lastClt (s : State) : s.retire.lastClt = s.lastClt := rfl
@[simp] theorem State.retire_litLen (s : State) : s.retire.litLen = s.litLen := rfl
@[simp] theorem State.retire_cltLen (s : State) : s.retire.cltLen = s.cltLen := rfl
@[simp] theorem State.retire_tree (s : State) : s.retire.tree = s.tree := rfl
@[simp] theorem State.retire_latch (s : State) : s.retire.latch = s.latch := rfl
@[simp] theorem State.retire_produced (s : State) : s.retire.produced = s.produced := rfl
@[simp] theorem State.retire_mem (s : State) : s.retire.mem = s.mem := rfl
@[simp] theorem State.retire_pending (s : State) : s.retire.pending = s.pending := rfl
@[simp] theorem State.retire_reply (s : State) : s.retire.reply = s.reply := rfl
@[simp] theorem State.retire_engineDue (s : State) : s.retire.engineDue = 0 := rfl
@[simp] theorem State.retire_srcDraw (s : State) : s.retire.srcDraw = none := rfl
@[simp] theorem State.retire_dstTouched (s : State) : s.retire.dstTouched = [] := rfl
@[simp] theorem State.retire_draws (s : State) : s.retire.draws = s.draws + 1 := rfl

/-! ## `clearCounts` -/

@[simp] theorem State.clearCounts_cfg (s : State) : s.clearCounts.cfg = s.cfg := rfl
@[simp] theorem State.clearCounts_irqEn (s : State) : s.clearCounts.irqEn = s.irqEn := rfl
@[simp] theorem State.clearCounts_cmd (s : State) : s.clearCounts.cmd = s.cmd := rfl
@[simp] theorem State.clearCounts_phase (s : State) : s.clearCounts.phase = s.phase := rfl
@[simp] theorem State.clearCounts_done (s : State) : s.clearCounts.done = s.done := rfl
@[simp] theorem State.clearCounts_err (s : State) : s.clearCounts.err = s.err := rfl
@[simp] theorem State.clearCounts_werr (s : State) : s.clearCounts.werr = s.werr := rfl
@[simp] theorem State.clearCounts_packed (s : State) : s.clearCounts.packed = s.packed := rfl
@[simp] theorem State.clearCounts_errCode (s : State) : s.clearCounts.errCode = s.errCode := rfl
@[simp] theorem State.clearCounts_errSub (s : State) : s.clearCounts.errSub = s.errSub := rfl
@[simp] theorem State.clearCounts_errPos (s : State) : s.clearCounts.errPos = s.errPos := rfl
@[simp] theorem State.clearCounts_srcAddr (s : State) : s.clearCounts.srcAddr = s.srcAddr := rfl
@[simp] theorem State.clearCounts_srcLen (s : State) : s.clearCounts.srcLen = s.srcLen := rfl
@[simp] theorem State.clearCounts_dstAddr (s : State) : s.clearCounts.dstAddr = s.dstAddr := rfl
@[simp] theorem State.clearCounts_dstCap (s : State) : s.clearCounts.dstCap = s.dstCap := rfl
@[simp] theorem State.clearCounts_targetLen (s : State) : s.clearCounts.targetLen = s.targetLen := rfl
@[simp] theorem State.clearCounts_blockMax (s : State) : s.clearCounts.blockMax = s.blockMax := rfl
@[simp] theorem State.clearCounts_arg (s : State) : s.clearCounts.arg = s.arg := rfl
@[simp] theorem State.clearCounts_result (s : State) : s.clearCounts.result = s.result := rfl
@[simp] theorem State.clearCounts_outLen (s : State) : s.clearCounts.outLen = 0#32 := rfl
@[simp] theorem State.clearCounts_bwAcc (s : State) : s.clearCounts.bwAcc = s.bwAcc := rfl
@[simp] theorem State.clearCounts_bwCnt (s : State) : s.clearCounts.bwCnt = s.bwCnt := rfl
@[simp] theorem State.clearCounts_brPos (s : State) : s.clearCounts.brPos = s.brPos := rfl
@[simp] theorem State.clearCounts_hdrUsize (s : State) : s.clearCounts.hdrUsize = s.hdrUsize := rfl
@[simp] theorem State.clearCounts_blkCount (s : State) : s.clearCounts.blkCount = 0#32 := rfl
@[simp] theorem State.clearCounts_lastLits (s : State) : s.clearCounts.lastLits = 0#16 := rfl
@[simp] theorem State.clearCounts_lastLitn (s : State) : s.clearCounts.lastLitn = 0#9 := rfl
@[simp] theorem State.clearCounts_lastClt (s : State) :
    s.clearCounts.lastClt = { short := false, len := 0#4, valid := false } := rfl
@[simp] theorem State.clearCounts_litLen (s : State) : s.clearCounts.litLen = s.litLen := rfl
@[simp] theorem State.clearCounts_cltLen (s : State) : s.clearCounts.cltLen = s.cltLen := rfl
@[simp] theorem State.clearCounts_tree (s : State) : s.clearCounts.tree = s.tree := rfl
@[simp] theorem State.clearCounts_latch (s : State) : s.clearCounts.latch = s.latch := rfl
@[simp] theorem State.clearCounts_produced (s : State) : s.clearCounts.produced = s.produced := rfl
@[simp] theorem State.clearCounts_mem (s : State) : s.clearCounts.mem = s.mem := rfl
@[simp] theorem State.clearCounts_pending (s : State) : s.clearCounts.pending = s.pending := rfl
@[simp] theorem State.clearCounts_reply (s : State) : s.clearCounts.reply = s.reply := rfl
@[simp] theorem State.clearCounts_engineDue (s : State) : s.clearCounts.engineDue = s.engineDue := rfl
@[simp] theorem State.clearCounts_srcDraw (s : State) : s.clearCounts.srcDraw = s.srcDraw := rfl
@[simp] theorem State.clearCounts_dstTouched (s : State) : s.clearCounts.dstTouched = s.dstTouched := rfl
@[simp] theorem State.clearCounts_draws (s : State) : s.clearCounts.draws = s.draws := rfl

/-! ## `setOutLen` -/

@[simp] theorem State.setOutLen_cfg (n : Nat) (s : State) : (s.setOutLen n).cfg = s.cfg := rfl
@[simp] theorem State.setOutLen_irqEn (n : Nat) (s : State) : (s.setOutLen n).irqEn = s.irqEn := rfl
@[simp] theorem State.setOutLen_cmd (n : Nat) (s : State) : (s.setOutLen n).cmd = s.cmd := rfl
@[simp] theorem State.setOutLen_phase (n : Nat) (s : State) : (s.setOutLen n).phase = s.phase := rfl
@[simp] theorem State.setOutLen_done (n : Nat) (s : State) : (s.setOutLen n).done = s.done := rfl
@[simp] theorem State.setOutLen_err (n : Nat) (s : State) : (s.setOutLen n).err = s.err := rfl
@[simp] theorem State.setOutLen_werr (n : Nat) (s : State) : (s.setOutLen n).werr = s.werr := rfl
@[simp] theorem State.setOutLen_packed (n : Nat) (s : State) : (s.setOutLen n).packed = s.packed := rfl
@[simp] theorem State.setOutLen_errCode (n : Nat) (s : State) : (s.setOutLen n).errCode = s.errCode := rfl
@[simp] theorem State.setOutLen_errSub (n : Nat) (s : State) : (s.setOutLen n).errSub = s.errSub := rfl
@[simp] theorem State.setOutLen_errPos (n : Nat) (s : State) : (s.setOutLen n).errPos = s.errPos := rfl
@[simp] theorem State.setOutLen_srcAddr (n : Nat) (s : State) : (s.setOutLen n).srcAddr = s.srcAddr := rfl
@[simp] theorem State.setOutLen_srcLen (n : Nat) (s : State) : (s.setOutLen n).srcLen = s.srcLen := rfl
@[simp] theorem State.setOutLen_dstAddr (n : Nat) (s : State) : (s.setOutLen n).dstAddr = s.dstAddr := rfl
@[simp] theorem State.setOutLen_dstCap (n : Nat) (s : State) : (s.setOutLen n).dstCap = s.dstCap := rfl
@[simp] theorem State.setOutLen_targetLen (n : Nat) (s : State) : (s.setOutLen n).targetLen = s.targetLen := rfl
@[simp] theorem State.setOutLen_blockMax (n : Nat) (s : State) : (s.setOutLen n).blockMax = s.blockMax := rfl
@[simp] theorem State.setOutLen_arg (n : Nat) (s : State) : (s.setOutLen n).arg = s.arg := rfl
@[simp] theorem State.setOutLen_result (n : Nat) (s : State) : (s.setOutLen n).result = s.result := rfl
@[simp] theorem State.setOutLen_outLen (n : Nat) (s : State) : (s.setOutLen n).outLen = BitVec.ofNat 32 n := rfl
@[simp] theorem State.setOutLen_bwAcc (n : Nat) (s : State) : (s.setOutLen n).bwAcc = s.bwAcc := rfl
@[simp] theorem State.setOutLen_bwCnt (n : Nat) (s : State) : (s.setOutLen n).bwCnt = s.bwCnt := rfl
@[simp] theorem State.setOutLen_brPos (n : Nat) (s : State) : (s.setOutLen n).brPos = s.brPos := rfl
@[simp] theorem State.setOutLen_hdrUsize (n : Nat) (s : State) : (s.setOutLen n).hdrUsize = s.hdrUsize := rfl
@[simp] theorem State.setOutLen_blkCount (n : Nat) (s : State) : (s.setOutLen n).blkCount = s.blkCount := rfl
@[simp] theorem State.setOutLen_lastLits (n : Nat) (s : State) : (s.setOutLen n).lastLits = s.lastLits := rfl
@[simp] theorem State.setOutLen_lastLitn (n : Nat) (s : State) : (s.setOutLen n).lastLitn = s.lastLitn := rfl
@[simp] theorem State.setOutLen_lastClt (n : Nat) (s : State) : (s.setOutLen n).lastClt = s.lastClt := rfl
@[simp] theorem State.setOutLen_litLen (n : Nat) (s : State) : (s.setOutLen n).litLen = s.litLen := rfl
@[simp] theorem State.setOutLen_cltLen (n : Nat) (s : State) : (s.setOutLen n).cltLen = s.cltLen := rfl
@[simp] theorem State.setOutLen_tree (n : Nat) (s : State) : (s.setOutLen n).tree = s.tree := rfl
@[simp] theorem State.setOutLen_latch (n : Nat) (s : State) : (s.setOutLen n).latch = s.latch := rfl
@[simp] theorem State.setOutLen_produced (n : Nat) (s : State) : (s.setOutLen n).produced = s.produced := rfl
@[simp] theorem State.setOutLen_mem (n : Nat) (s : State) : (s.setOutLen n).mem = s.mem := rfl
@[simp] theorem State.setOutLen_pending (n : Nat) (s : State) : (s.setOutLen n).pending = s.pending := rfl
@[simp] theorem State.setOutLen_reply (n : Nat) (s : State) : (s.setOutLen n).reply = s.reply := rfl
@[simp] theorem State.setOutLen_engineDue (n : Nat) (s : State) : (s.setOutLen n).engineDue = s.engineDue := rfl
@[simp] theorem State.setOutLen_srcDraw (n : Nat) (s : State) : (s.setOutLen n).srcDraw = s.srcDraw := rfl
@[simp] theorem State.setOutLen_dstTouched (n : Nat) (s : State) : (s.setOutLen n).dstTouched = s.dstTouched := rfl
@[simp] theorem State.setOutLen_draws (n : Nat) (s : State) : (s.setOutLen n).draws = s.draws := rfl

/-! ## `resetRegs` -/

@[simp] theorem State.resetRegs_cfg (s : State) : s.resetRegs.cfg = s.cfg := rfl
@[simp] theorem State.resetRegs_irqEn (s : State) : s.resetRegs.irqEn = false := rfl
@[simp] theorem State.resetRegs_cmd (s : State) : s.resetRegs.cmd = 0#32 := rfl
@[simp] theorem State.resetRegs_phase (s : State) : s.resetRegs.phase = .idle := rfl
@[simp] theorem State.resetRegs_done (s : State) : s.resetRegs.done = false := rfl
@[simp] theorem State.resetRegs_err (s : State) : s.resetRegs.err = false := rfl
@[simp] theorem State.resetRegs_werr (s : State) : s.resetRegs.werr = false := rfl
@[simp] theorem State.resetRegs_packed (s : State) : s.resetRegs.packed = false := rfl
@[simp] theorem State.resetRegs_errCode (s : State) : s.resetRegs.errCode = .noFault := rfl
@[simp] theorem State.resetRegs_errSub (s : State) : s.resetRegs.errSub = 0#8 := rfl
@[simp] theorem State.resetRegs_errPos (s : State) : s.resetRegs.errPos = 0#32 := rfl
@[simp] theorem State.resetRegs_srcAddr (s : State) : s.resetRegs.srcAddr = 0#32 := rfl
@[simp] theorem State.resetRegs_srcLen (s : State) : s.resetRegs.srcLen = 0#32 := rfl
@[simp] theorem State.resetRegs_dstAddr (s : State) : s.resetRegs.dstAddr = 0#32 := rfl
@[simp] theorem State.resetRegs_dstCap (s : State) : s.resetRegs.dstCap = 0#32 := rfl
@[simp] theorem State.resetRegs_targetLen (s : State) : s.resetRegs.targetLen = 0#32 := rfl
@[simp] theorem State.resetRegs_blockMax (s : State) : s.resetRegs.blockMax = blockMaxReset := rfl
@[simp] theorem State.resetRegs_arg (s : State) : s.resetRegs.arg = 0#32 := rfl
@[simp] theorem State.resetRegs_result (s : State) : s.resetRegs.result = 0#32 := rfl
@[simp] theorem State.resetRegs_outLen (s : State) : s.resetRegs.outLen = 0#32 := rfl
@[simp] theorem State.resetRegs_bwAcc (s : State) : s.resetRegs.bwAcc = 0#32 := rfl
@[simp] theorem State.resetRegs_bwCnt (s : State) : s.resetRegs.bwCnt = 0#5 := rfl
@[simp] theorem State.resetRegs_brPos (s : State) : s.resetRegs.brPos = 0#32 := rfl
@[simp] theorem State.resetRegs_hdrUsize (s : State) : s.resetRegs.hdrUsize = 0#32 := rfl
@[simp] theorem State.resetRegs_blkCount (s : State) : s.resetRegs.blkCount = 0#32 := rfl
@[simp] theorem State.resetRegs_lastLits (s : State) : s.resetRegs.lastLits = 0#16 := rfl
@[simp] theorem State.resetRegs_lastLitn (s : State) : s.resetRegs.lastLitn = 0#9 := rfl
@[simp] theorem State.resetRegs_lastClt (s : State) :
    s.resetRegs.lastClt = { short := false, len := 0#4, valid := false } := rfl
@[simp] theorem State.resetRegs_litLen (s : State) : s.resetRegs.litLen = s.litLen := rfl
@[simp] theorem State.resetRegs_cltLen (s : State) : s.resetRegs.cltLen = s.cltLen := rfl
@[simp] theorem State.resetRegs_tree (s : State) : s.resetRegs.tree = s.tree := rfl
@[simp] theorem State.resetRegs_latch (s : State) : s.resetRegs.latch = s.latch := rfl
@[simp] theorem State.resetRegs_produced (s : State) : s.resetRegs.produced = s.produced := rfl
@[simp] theorem State.resetRegs_mem (s : State) : s.resetRegs.mem = s.mem := rfl
@[simp] theorem State.resetRegs_pending (s : State) : s.resetRegs.pending = s.pending := rfl
@[simp] theorem State.resetRegs_reply (s : State) : s.resetRegs.reply = s.reply := rfl
@[simp] theorem State.resetRegs_engineDue (s : State) : s.resetRegs.engineDue = s.engineDue := rfl
@[simp] theorem State.resetRegs_srcDraw (s : State) : s.resetRegs.srcDraw = s.srcDraw := rfl
@[simp] theorem State.resetRegs_dstTouched (s : State) : s.resetRegs.dstTouched = s.dstTouched := rfl
@[simp] theorem State.resetRegs_draws (s : State) : s.resetRegs.draws = s.draws := rfl

/-! ## `forgetTables` -/

@[simp] theorem State.forgetTables_cfg (s : State) : s.forgetTables.cfg = s.cfg := rfl
@[simp] theorem State.forgetTables_irqEn (s : State) : s.forgetTables.irqEn = s.irqEn := rfl
@[simp] theorem State.forgetTables_cmd (s : State) : s.forgetTables.cmd = s.cmd := rfl
@[simp] theorem State.forgetTables_phase (s : State) : s.forgetTables.phase = s.phase := rfl
@[simp] theorem State.forgetTables_done (s : State) : s.forgetTables.done = s.done := rfl
@[simp] theorem State.forgetTables_err (s : State) : s.forgetTables.err = s.err := rfl
@[simp] theorem State.forgetTables_werr (s : State) : s.forgetTables.werr = s.werr := rfl
@[simp] theorem State.forgetTables_packed (s : State) : s.forgetTables.packed = s.packed := rfl
@[simp] theorem State.forgetTables_errCode (s : State) : s.forgetTables.errCode = s.errCode := rfl
@[simp] theorem State.forgetTables_errSub (s : State) : s.forgetTables.errSub = s.errSub := rfl
@[simp] theorem State.forgetTables_errPos (s : State) : s.forgetTables.errPos = s.errPos := rfl
@[simp] theorem State.forgetTables_srcAddr (s : State) : s.forgetTables.srcAddr = s.srcAddr := rfl
@[simp] theorem State.forgetTables_srcLen (s : State) : s.forgetTables.srcLen = s.srcLen := rfl
@[simp] theorem State.forgetTables_dstAddr (s : State) : s.forgetTables.dstAddr = s.dstAddr := rfl
@[simp] theorem State.forgetTables_dstCap (s : State) : s.forgetTables.dstCap = s.dstCap := rfl
@[simp] theorem State.forgetTables_targetLen (s : State) : s.forgetTables.targetLen = s.targetLen := rfl
@[simp] theorem State.forgetTables_blockMax (s : State) : s.forgetTables.blockMax = s.blockMax := rfl
@[simp] theorem State.forgetTables_arg (s : State) : s.forgetTables.arg = s.arg := rfl
@[simp] theorem State.forgetTables_result (s : State) : s.forgetTables.result = s.result := rfl
@[simp] theorem State.forgetTables_outLen (s : State) : s.forgetTables.outLen = s.outLen := rfl
@[simp] theorem State.forgetTables_bwAcc (s : State) : s.forgetTables.bwAcc = s.bwAcc := rfl
@[simp] theorem State.forgetTables_bwCnt (s : State) : s.forgetTables.bwCnt = s.bwCnt := rfl
@[simp] theorem State.forgetTables_brPos (s : State) : s.forgetTables.brPos = s.brPos := rfl
@[simp] theorem State.forgetTables_hdrUsize (s : State) : s.forgetTables.hdrUsize = s.hdrUsize := rfl
@[simp] theorem State.forgetTables_blkCount (s : State) : s.forgetTables.blkCount = s.blkCount := rfl
@[simp] theorem State.forgetTables_lastLits (s : State) : s.forgetTables.lastLits = s.lastLits := rfl
@[simp] theorem State.forgetTables_lastLitn (s : State) : s.forgetTables.lastLitn = s.lastLitn := rfl
@[simp] theorem State.forgetTables_lastClt (s : State) : s.forgetTables.lastClt = s.lastClt := rfl
@[simp] theorem State.forgetTables_litLen (s : State) : s.forgetTables.litLen = hiddenLitTable s.draws := rfl
@[simp] theorem State.forgetTables_cltLen (s : State) : s.forgetTables.cltLen = hiddenCltTable s.draws := rfl
@[simp] theorem State.forgetTables_tree (s : State) : s.forgetTables.tree = Config.hiddenTree s.draws := rfl
@[simp] theorem State.forgetTables_latch (s : State) : s.forgetTables.latch = s.latch := rfl
@[simp] theorem State.forgetTables_produced (s : State) :
    s.forgetTables.produced = Config.hiddenProduced s.draws := rfl
@[simp] theorem State.forgetTables_mem (s : State) : s.forgetTables.mem = s.mem := rfl
@[simp] theorem State.forgetTables_pending (s : State) : s.forgetTables.pending = s.pending := rfl
@[simp] theorem State.forgetTables_reply (s : State) : s.forgetTables.reply = s.reply := rfl
@[simp] theorem State.forgetTables_engineDue (s : State) : s.forgetTables.engineDue = s.engineDue := rfl
@[simp] theorem State.forgetTables_srcDraw (s : State) : s.forgetTables.srcDraw = s.srcDraw := rfl
@[simp] theorem State.forgetTables_dstTouched (s : State) : s.forgetTables.dstTouched = s.dstTouched := rfl
@[simp] theorem State.forgetTables_draws (s : State) : s.forgetTables.draws = s.draws := rfl

/-! ## `forgetLatch` -/

@[simp] theorem State.forgetLatch_cfg (s : State) : s.forgetLatch.cfg = s.cfg := rfl
@[simp] theorem State.forgetLatch_irqEn (s : State) : s.forgetLatch.irqEn = s.irqEn := rfl
@[simp] theorem State.forgetLatch_cmd (s : State) : s.forgetLatch.cmd = s.cmd := rfl
@[simp] theorem State.forgetLatch_phase (s : State) : s.forgetLatch.phase = s.phase := rfl
@[simp] theorem State.forgetLatch_done (s : State) : s.forgetLatch.done = s.done := rfl
@[simp] theorem State.forgetLatch_err (s : State) : s.forgetLatch.err = s.err := rfl
@[simp] theorem State.forgetLatch_werr (s : State) : s.forgetLatch.werr = s.werr := rfl
@[simp] theorem State.forgetLatch_packed (s : State) : s.forgetLatch.packed = s.packed := rfl
@[simp] theorem State.forgetLatch_errCode (s : State) : s.forgetLatch.errCode = s.errCode := rfl
@[simp] theorem State.forgetLatch_errSub (s : State) : s.forgetLatch.errSub = s.errSub := rfl
@[simp] theorem State.forgetLatch_errPos (s : State) : s.forgetLatch.errPos = s.errPos := rfl
@[simp] theorem State.forgetLatch_srcAddr (s : State) : s.forgetLatch.srcAddr = s.srcAddr := rfl
@[simp] theorem State.forgetLatch_srcLen (s : State) : s.forgetLatch.srcLen = s.srcLen := rfl
@[simp] theorem State.forgetLatch_dstAddr (s : State) : s.forgetLatch.dstAddr = s.dstAddr := rfl
@[simp] theorem State.forgetLatch_dstCap (s : State) : s.forgetLatch.dstCap = s.dstCap := rfl
@[simp] theorem State.forgetLatch_targetLen (s : State) : s.forgetLatch.targetLen = s.targetLen := rfl
@[simp] theorem State.forgetLatch_blockMax (s : State) : s.forgetLatch.blockMax = s.blockMax := rfl
@[simp] theorem State.forgetLatch_arg (s : State) : s.forgetLatch.arg = s.arg := rfl
@[simp] theorem State.forgetLatch_result (s : State) : s.forgetLatch.result = s.result := rfl
@[simp] theorem State.forgetLatch_outLen (s : State) : s.forgetLatch.outLen = s.outLen := rfl
@[simp] theorem State.forgetLatch_bwAcc (s : State) : s.forgetLatch.bwAcc = s.bwAcc := rfl
@[simp] theorem State.forgetLatch_bwCnt (s : State) : s.forgetLatch.bwCnt = s.bwCnt := rfl
@[simp] theorem State.forgetLatch_brPos (s : State) : s.forgetLatch.brPos = s.brPos := rfl
@[simp] theorem State.forgetLatch_hdrUsize (s : State) : s.forgetLatch.hdrUsize = s.hdrUsize := rfl
@[simp] theorem State.forgetLatch_blkCount (s : State) : s.forgetLatch.blkCount = s.blkCount := rfl
@[simp] theorem State.forgetLatch_lastLits (s : State) : s.forgetLatch.lastLits = s.lastLits := rfl
@[simp] theorem State.forgetLatch_lastLitn (s : State) : s.forgetLatch.lastLitn = s.lastLitn := rfl
@[simp] theorem State.forgetLatch_lastClt (s : State) : s.forgetLatch.lastClt = s.lastClt := rfl
@[simp] theorem State.forgetLatch_litLen (s : State) : s.forgetLatch.litLen = s.litLen := rfl
@[simp] theorem State.forgetLatch_cltLen (s : State) : s.forgetLatch.cltLen = s.cltLen := rfl
@[simp] theorem State.forgetLatch_tree (s : State) : s.forgetLatch.tree = s.tree := rfl
@[simp] theorem State.forgetLatch_latch (s : State) : s.forgetLatch.latch = Config.hiddenLatch s.draws := rfl
@[simp] theorem State.forgetLatch_produced (s : State) : s.forgetLatch.produced = s.produced := rfl
@[simp] theorem State.forgetLatch_mem (s : State) : s.forgetLatch.mem = s.mem := rfl
@[simp] theorem State.forgetLatch_pending (s : State) : s.forgetLatch.pending = s.pending := rfl
@[simp] theorem State.forgetLatch_reply (s : State) : s.forgetLatch.reply = s.reply := rfl
@[simp] theorem State.forgetLatch_engineDue (s : State) : s.forgetLatch.engineDue = s.engineDue := rfl
@[simp] theorem State.forgetLatch_srcDraw (s : State) : s.forgetLatch.srcDraw = s.srcDraw := rfl
@[simp] theorem State.forgetLatch_dstTouched (s : State) : s.forgetLatch.dstTouched = s.dstTouched := rfl
@[simp] theorem State.forgetLatch_draws (s : State) : s.forgetLatch.draws = s.draws := rfl

/-! ## `forgetCursors` -/

@[simp] theorem State.forgetCursors_cfg (s : State) : s.forgetCursors.cfg = s.cfg := rfl
@[simp] theorem State.forgetCursors_irqEn (s : State) : s.forgetCursors.irqEn = s.irqEn := rfl
@[simp] theorem State.forgetCursors_cmd (s : State) : s.forgetCursors.cmd = s.cmd := rfl
@[simp] theorem State.forgetCursors_phase (s : State) : s.forgetCursors.phase = s.phase := rfl
@[simp] theorem State.forgetCursors_done (s : State) : s.forgetCursors.done = s.done := rfl
@[simp] theorem State.forgetCursors_err (s : State) : s.forgetCursors.err = s.err := rfl
@[simp] theorem State.forgetCursors_werr (s : State) : s.forgetCursors.werr = s.werr := rfl
@[simp] theorem State.forgetCursors_packed (s : State) : s.forgetCursors.packed = Config.abortPacked s.draws := rfl
@[simp] theorem State.forgetCursors_errCode (s : State) : s.forgetCursors.errCode = s.errCode := rfl
@[simp] theorem State.forgetCursors_errSub (s : State) : s.forgetCursors.errSub = s.errSub := rfl
@[simp] theorem State.forgetCursors_errPos (s : State) : s.forgetCursors.errPos = s.errPos := rfl
@[simp] theorem State.forgetCursors_srcAddr (s : State) : s.forgetCursors.srcAddr = s.srcAddr := rfl
@[simp] theorem State.forgetCursors_srcLen (s : State) : s.forgetCursors.srcLen = s.srcLen := rfl
@[simp] theorem State.forgetCursors_dstAddr (s : State) : s.forgetCursors.dstAddr = s.dstAddr := rfl
@[simp] theorem State.forgetCursors_dstCap (s : State) : s.forgetCursors.dstCap = s.dstCap := rfl
@[simp] theorem State.forgetCursors_targetLen (s : State) : s.forgetCursors.targetLen = s.targetLen := rfl
@[simp] theorem State.forgetCursors_blockMax (s : State) : s.forgetCursors.blockMax = s.blockMax := rfl
@[simp] theorem State.forgetCursors_arg (s : State) : s.forgetCursors.arg = s.arg := rfl
@[simp] theorem State.forgetCursors_result (s : State) : s.forgetCursors.result = Config.abortResult s.draws := rfl
@[simp] theorem State.forgetCursors_outLen (s : State) : s.forgetCursors.outLen = Config.abortOutLen s.draws := rfl
@[simp] theorem State.forgetCursors_bwAcc (s : State) : s.forgetCursors.bwAcc = Config.abortBwAcc s.draws := rfl
@[simp] theorem State.forgetCursors_bwCnt (s : State) : s.forgetCursors.bwCnt = Config.abortBwCnt s.draws := rfl
@[simp] theorem State.forgetCursors_brPos (s : State) : s.forgetCursors.brPos = Config.abortBrPos s.draws := rfl
@[simp] theorem State.forgetCursors_hdrUsize (s : State) :
    s.forgetCursors.hdrUsize = Config.abortHdrUsize s.draws := rfl
@[simp] theorem State.forgetCursors_blkCount (s : State) :
    s.forgetCursors.blkCount = Config.abortBlkCount s.draws := rfl
@[simp] theorem State.forgetCursors_lastLits (s : State) :
    s.forgetCursors.lastLits = Config.abortLastLits s.draws := rfl
@[simp] theorem State.forgetCursors_lastLitn (s : State) :
    s.forgetCursors.lastLitn = Config.abortLastLitn s.draws := rfl
@[simp] theorem State.forgetCursors_lastClt (s : State) : s.forgetCursors.lastClt = Config.abortLastClt s.draws := rfl
@[simp] theorem State.forgetCursors_litLen (s : State) : s.forgetCursors.litLen = s.litLen := rfl
@[simp] theorem State.forgetCursors_cltLen (s : State) : s.forgetCursors.cltLen = s.cltLen := rfl
@[simp] theorem State.forgetCursors_tree (s : State) : s.forgetCursors.tree = s.tree := rfl
@[simp] theorem State.forgetCursors_latch (s : State) : s.forgetCursors.latch = s.latch := rfl
@[simp] theorem State.forgetCursors_produced (s : State) : s.forgetCursors.produced = s.produced := rfl
@[simp] theorem State.forgetCursors_mem (s : State) : s.forgetCursors.mem = s.mem := rfl
@[simp] theorem State.forgetCursors_pending (s : State) : s.forgetCursors.pending = s.pending := rfl
@[simp] theorem State.forgetCursors_reply (s : State) : s.forgetCursors.reply = s.reply := rfl
@[simp] theorem State.forgetCursors_engineDue (s : State) : s.forgetCursors.engineDue = s.engineDue := rfl
@[simp] theorem State.forgetCursors_srcDraw (s : State) : s.forgetCursors.srcDraw = s.srcDraw := rfl
@[simp] theorem State.forgetCursors_dstTouched (s : State) : s.forgetCursors.dstTouched = s.dstTouched := rfl
@[simp] theorem State.forgetCursors_draws (s : State) : s.forgetCursors.draws = s.draws := rfl

/-! ## `takeHost` -/

@[simp] theorem State.takeHost_cfg (rest : List HostOp) (s : State) : (s.takeHost rest).cfg = s.cfg := rfl
@[simp] theorem State.takeHost_irqEn (rest : List HostOp) (s : State) : (s.takeHost rest).irqEn = s.irqEn := rfl
@[simp] theorem State.takeHost_cmd (rest : List HostOp) (s : State) : (s.takeHost rest).cmd = s.cmd := rfl
@[simp] theorem State.takeHost_phase (rest : List HostOp) (s : State) : (s.takeHost rest).phase = s.phase := rfl
@[simp] theorem State.takeHost_done (rest : List HostOp) (s : State) : (s.takeHost rest).done = s.done := rfl
@[simp] theorem State.takeHost_err (rest : List HostOp) (s : State) : (s.takeHost rest).err = s.err := rfl
@[simp] theorem State.takeHost_werr (rest : List HostOp) (s : State) : (s.takeHost rest).werr = s.werr := rfl
@[simp] theorem State.takeHost_packed (rest : List HostOp) (s : State) : (s.takeHost rest).packed = s.packed := rfl
@[simp] theorem State.takeHost_errCode (rest : List HostOp) (s : State) : (s.takeHost rest).errCode = s.errCode := rfl
@[simp] theorem State.takeHost_errSub (rest : List HostOp) (s : State) : (s.takeHost rest).errSub = s.errSub := rfl
@[simp] theorem State.takeHost_errPos (rest : List HostOp) (s : State) : (s.takeHost rest).errPos = s.errPos := rfl
@[simp] theorem State.takeHost_srcAddr (rest : List HostOp) (s : State) : (s.takeHost rest).srcAddr = s.srcAddr := rfl
@[simp] theorem State.takeHost_srcLen (rest : List HostOp) (s : State) : (s.takeHost rest).srcLen = s.srcLen := rfl
@[simp] theorem State.takeHost_dstAddr (rest : List HostOp) (s : State) : (s.takeHost rest).dstAddr = s.dstAddr := rfl
@[simp] theorem State.takeHost_dstCap (rest : List HostOp) (s : State) : (s.takeHost rest).dstCap = s.dstCap := rfl
@[simp] theorem State.takeHost_targetLen (rest : List HostOp) (s : State) :
    (s.takeHost rest).targetLen = s.targetLen := rfl
@[simp] theorem State.takeHost_blockMax (rest : List HostOp) (s : State) :
    (s.takeHost rest).blockMax = s.blockMax := rfl
@[simp] theorem State.takeHost_arg (rest : List HostOp) (s : State) : (s.takeHost rest).arg = s.arg := rfl
@[simp] theorem State.takeHost_result (rest : List HostOp) (s : State) : (s.takeHost rest).result = s.result := rfl
@[simp] theorem State.takeHost_outLen (rest : List HostOp) (s : State) : (s.takeHost rest).outLen = s.outLen := rfl
@[simp] theorem State.takeHost_bwAcc (rest : List HostOp) (s : State) : (s.takeHost rest).bwAcc = s.bwAcc := rfl
@[simp] theorem State.takeHost_bwCnt (rest : List HostOp) (s : State) : (s.takeHost rest).bwCnt = s.bwCnt := rfl
@[simp] theorem State.takeHost_brPos (rest : List HostOp) (s : State) : (s.takeHost rest).brPos = s.brPos := rfl
@[simp] theorem State.takeHost_hdrUsize (rest : List HostOp) (s : State) :
    (s.takeHost rest).hdrUsize = s.hdrUsize := rfl
@[simp] theorem State.takeHost_blkCount (rest : List HostOp) (s : State) :
    (s.takeHost rest).blkCount = s.blkCount := rfl
@[simp] theorem State.takeHost_lastLits (rest : List HostOp) (s : State) :
    (s.takeHost rest).lastLits = s.lastLits := rfl
@[simp] theorem State.takeHost_lastLitn (rest : List HostOp) (s : State) :
    (s.takeHost rest).lastLitn = s.lastLitn := rfl
@[simp] theorem State.takeHost_lastClt (rest : List HostOp) (s : State) : (s.takeHost rest).lastClt = s.lastClt := rfl
@[simp] theorem State.takeHost_litLen (rest : List HostOp) (s : State) : (s.takeHost rest).litLen = s.litLen := rfl
@[simp] theorem State.takeHost_cltLen (rest : List HostOp) (s : State) : (s.takeHost rest).cltLen = s.cltLen := rfl
@[simp] theorem State.takeHost_tree (rest : List HostOp) (s : State) : (s.takeHost rest).tree = s.tree := rfl
@[simp] theorem State.takeHost_latch (rest : List HostOp) (s : State) : (s.takeHost rest).latch = s.latch := rfl
@[simp] theorem State.takeHost_produced (rest : List HostOp) (s : State) :
    (s.takeHost rest).produced = s.produced := rfl
@[simp] theorem State.takeHost_mem (rest : List HostOp) (s : State) : (s.takeHost rest).mem = s.mem := rfl
@[simp] theorem State.takeHost_pending (rest : List HostOp) (s : State) : (s.takeHost rest).pending = rest := rfl
@[simp] theorem State.takeHost_reply (rest : List HostOp) (s : State) : (s.takeHost rest).reply = s.reply := rfl
@[simp] theorem State.takeHost_engineDue (rest : List HostOp) (s : State) :
    (s.takeHost rest).engineDue = s.engineDue - 1 := rfl
@[simp] theorem State.takeHost_srcDraw (rest : List HostOp) (s : State) : (s.takeHost rest).srcDraw = s.srcDraw := rfl
@[simp] theorem State.takeHost_dstTouched (rest : List HostOp) (s : State) :
    (s.takeHost rest).dstTouched = s.dstTouched := rfl
@[simp] theorem State.takeHost_draws (rest : List HostOp) (s : State) : (s.takeHost rest).draws = s.draws := rfl

/-! ## `answer` -/

@[simp] theorem State.answer_cfg (r : BusReply) (s : State) : (s.answer r).cfg = s.cfg := rfl
@[simp] theorem State.answer_irqEn (r : BusReply) (s : State) : (s.answer r).irqEn = s.irqEn := rfl
@[simp] theorem State.answer_cmd (r : BusReply) (s : State) : (s.answer r).cmd = s.cmd := rfl
@[simp] theorem State.answer_phase (r : BusReply) (s : State) : (s.answer r).phase = s.phase := rfl
@[simp] theorem State.answer_done (r : BusReply) (s : State) : (s.answer r).done = s.done := rfl
@[simp] theorem State.answer_err (r : BusReply) (s : State) : (s.answer r).err = s.err := rfl
@[simp] theorem State.answer_werr (r : BusReply) (s : State) : (s.answer r).werr = s.werr := rfl
@[simp] theorem State.answer_packed (r : BusReply) (s : State) : (s.answer r).packed = s.packed := rfl
@[simp] theorem State.answer_errCode (r : BusReply) (s : State) : (s.answer r).errCode = s.errCode := rfl
@[simp] theorem State.answer_errSub (r : BusReply) (s : State) : (s.answer r).errSub = s.errSub := rfl
@[simp] theorem State.answer_errPos (r : BusReply) (s : State) : (s.answer r).errPos = s.errPos := rfl
@[simp] theorem State.answer_srcAddr (r : BusReply) (s : State) : (s.answer r).srcAddr = s.srcAddr := rfl
@[simp] theorem State.answer_srcLen (r : BusReply) (s : State) : (s.answer r).srcLen = s.srcLen := rfl
@[simp] theorem State.answer_dstAddr (r : BusReply) (s : State) : (s.answer r).dstAddr = s.dstAddr := rfl
@[simp] theorem State.answer_dstCap (r : BusReply) (s : State) : (s.answer r).dstCap = s.dstCap := rfl
@[simp] theorem State.answer_targetLen (r : BusReply) (s : State) : (s.answer r).targetLen = s.targetLen := rfl
@[simp] theorem State.answer_blockMax (r : BusReply) (s : State) : (s.answer r).blockMax = s.blockMax := rfl
@[simp] theorem State.answer_arg (r : BusReply) (s : State) : (s.answer r).arg = s.arg := rfl
@[simp] theorem State.answer_result (r : BusReply) (s : State) : (s.answer r).result = s.result := rfl
@[simp] theorem State.answer_outLen (r : BusReply) (s : State) : (s.answer r).outLen = s.outLen := rfl
@[simp] theorem State.answer_bwAcc (r : BusReply) (s : State) : (s.answer r).bwAcc = s.bwAcc := rfl
@[simp] theorem State.answer_bwCnt (r : BusReply) (s : State) : (s.answer r).bwCnt = s.bwCnt := rfl
@[simp] theorem State.answer_brPos (r : BusReply) (s : State) : (s.answer r).brPos = s.brPos := rfl
@[simp] theorem State.answer_hdrUsize (r : BusReply) (s : State) : (s.answer r).hdrUsize = s.hdrUsize := rfl
@[simp] theorem State.answer_blkCount (r : BusReply) (s : State) : (s.answer r).blkCount = s.blkCount := rfl
@[simp] theorem State.answer_lastLits (r : BusReply) (s : State) : (s.answer r).lastLits = s.lastLits := rfl
@[simp] theorem State.answer_lastLitn (r : BusReply) (s : State) : (s.answer r).lastLitn = s.lastLitn := rfl
@[simp] theorem State.answer_lastClt (r : BusReply) (s : State) : (s.answer r).lastClt = s.lastClt := rfl
@[simp] theorem State.answer_litLen (r : BusReply) (s : State) : (s.answer r).litLen = s.litLen := rfl
@[simp] theorem State.answer_cltLen (r : BusReply) (s : State) : (s.answer r).cltLen = s.cltLen := rfl
@[simp] theorem State.answer_tree (r : BusReply) (s : State) : (s.answer r).tree = s.tree := rfl
@[simp] theorem State.answer_latch (r : BusReply) (s : State) : (s.answer r).latch = s.latch := rfl
@[simp] theorem State.answer_produced (r : BusReply) (s : State) : (s.answer r).produced = s.produced := rfl
@[simp] theorem State.answer_mem (r : BusReply) (s : State) : (s.answer r).mem = s.mem := rfl
@[simp] theorem State.answer_pending (r : BusReply) (s : State) : (s.answer r).pending = s.pending := rfl
@[simp] theorem State.answer_reply (r : BusReply) (s : State) : (s.answer r).reply = r := rfl
@[simp] theorem State.answer_engineDue (r : BusReply) (s : State) : (s.answer r).engineDue = s.engineDue := rfl
@[simp] theorem State.answer_srcDraw (r : BusReply) (s : State) : (s.answer r).srcDraw = s.srcDraw := rfl
@[simp] theorem State.answer_dstTouched (r : BusReply) (s : State) : (s.answer r).dstTouched = s.dstTouched := rfl
@[simp] theorem State.answer_draws (r : BusReply) (s : State) : (s.answer r).draws = s.draws := rfl

/-! ## `drew` -/

@[simp] theorem State.drew_cfg (s : State) : s.drew.cfg = s.cfg := rfl
@[simp] theorem State.drew_irqEn (s : State) : s.drew.irqEn = s.irqEn := rfl
@[simp] theorem State.drew_cmd (s : State) : s.drew.cmd = s.cmd := rfl
@[simp] theorem State.drew_phase (s : State) : s.drew.phase = s.phase := rfl
@[simp] theorem State.drew_done (s : State) : s.drew.done = s.done := rfl
@[simp] theorem State.drew_err (s : State) : s.drew.err = s.err := rfl
@[simp] theorem State.drew_werr (s : State) : s.drew.werr = s.werr := rfl
@[simp] theorem State.drew_packed (s : State) : s.drew.packed = s.packed := rfl
@[simp] theorem State.drew_errCode (s : State) : s.drew.errCode = s.errCode := rfl
@[simp] theorem State.drew_errSub (s : State) : s.drew.errSub = s.errSub := rfl
@[simp] theorem State.drew_errPos (s : State) : s.drew.errPos = s.errPos := rfl
@[simp] theorem State.drew_srcAddr (s : State) : s.drew.srcAddr = s.srcAddr := rfl
@[simp] theorem State.drew_srcLen (s : State) : s.drew.srcLen = s.srcLen := rfl
@[simp] theorem State.drew_dstAddr (s : State) : s.drew.dstAddr = s.dstAddr := rfl
@[simp] theorem State.drew_dstCap (s : State) : s.drew.dstCap = s.dstCap := rfl
@[simp] theorem State.drew_targetLen (s : State) : s.drew.targetLen = s.targetLen := rfl
@[simp] theorem State.drew_blockMax (s : State) : s.drew.blockMax = s.blockMax := rfl
@[simp] theorem State.drew_arg (s : State) : s.drew.arg = s.arg := rfl
@[simp] theorem State.drew_result (s : State) : s.drew.result = s.result := rfl
@[simp] theorem State.drew_outLen (s : State) : s.drew.outLen = s.outLen := rfl
@[simp] theorem State.drew_bwAcc (s : State) : s.drew.bwAcc = s.bwAcc := rfl
@[simp] theorem State.drew_bwCnt (s : State) : s.drew.bwCnt = s.bwCnt := rfl
@[simp] theorem State.drew_brPos (s : State) : s.drew.brPos = s.brPos := rfl
@[simp] theorem State.drew_hdrUsize (s : State) : s.drew.hdrUsize = s.hdrUsize := rfl
@[simp] theorem State.drew_blkCount (s : State) : s.drew.blkCount = s.blkCount := rfl
@[simp] theorem State.drew_lastLits (s : State) : s.drew.lastLits = s.lastLits := rfl
@[simp] theorem State.drew_lastLitn (s : State) : s.drew.lastLitn = s.lastLitn := rfl
@[simp] theorem State.drew_lastClt (s : State) : s.drew.lastClt = s.lastClt := rfl
@[simp] theorem State.drew_litLen (s : State) : s.drew.litLen = s.litLen := rfl
@[simp] theorem State.drew_cltLen (s : State) : s.drew.cltLen = s.cltLen := rfl
@[simp] theorem State.drew_tree (s : State) : s.drew.tree = s.tree := rfl
@[simp] theorem State.drew_latch (s : State) : s.drew.latch = s.latch := rfl
@[simp] theorem State.drew_produced (s : State) : s.drew.produced = s.produced := rfl
@[simp] theorem State.drew_mem (s : State) : s.drew.mem = s.mem := rfl
@[simp] theorem State.drew_pending (s : State) : s.drew.pending = s.pending := rfl
@[simp] theorem State.drew_reply (s : State) : s.drew.reply = s.reply := rfl
@[simp] theorem State.drew_engineDue (s : State) : s.drew.engineDue = s.engineDue := rfl
@[simp] theorem State.drew_srcDraw (s : State) : s.drew.srcDraw = s.srcDraw := rfl
@[simp] theorem State.drew_dstTouched (s : State) : s.drew.dstTouched = s.dstTouched := rfl
@[simp] theorem State.drew_draws (s : State) : s.drew.draws = s.draws + 1 := rfl

/-! ## `setWriter` -/

@[simp] theorem State.setWriter_cfg (w : Writer) (s : State) : (s.setWriter w).cfg = s.cfg := rfl
@[simp] theorem State.setWriter_irqEn (w : Writer) (s : State) : (s.setWriter w).irqEn = s.irqEn := rfl
@[simp] theorem State.setWriter_cmd (w : Writer) (s : State) : (s.setWriter w).cmd = s.cmd := rfl
@[simp] theorem State.setWriter_phase (w : Writer) (s : State) : (s.setWriter w).phase = s.phase := rfl
@[simp] theorem State.setWriter_done (w : Writer) (s : State) : (s.setWriter w).done = s.done := rfl
@[simp] theorem State.setWriter_err (w : Writer) (s : State) : (s.setWriter w).err = s.err := rfl
@[simp] theorem State.setWriter_werr (w : Writer) (s : State) : (s.setWriter w).werr = s.werr := rfl
@[simp] theorem State.setWriter_packed (w : Writer) (s : State) : (s.setWriter w).packed = s.packed := rfl
@[simp] theorem State.setWriter_errCode (w : Writer) (s : State) : (s.setWriter w).errCode = s.errCode := rfl
@[simp] theorem State.setWriter_errSub (w : Writer) (s : State) : (s.setWriter w).errSub = s.errSub := rfl
@[simp] theorem State.setWriter_errPos (w : Writer) (s : State) : (s.setWriter w).errPos = s.errPos := rfl
@[simp] theorem State.setWriter_srcAddr (w : Writer) (s : State) : (s.setWriter w).srcAddr = s.srcAddr := rfl
@[simp] theorem State.setWriter_srcLen (w : Writer) (s : State) : (s.setWriter w).srcLen = s.srcLen := rfl
@[simp] theorem State.setWriter_dstAddr (w : Writer) (s : State) : (s.setWriter w).dstAddr = s.dstAddr := rfl
@[simp] theorem State.setWriter_dstCap (w : Writer) (s : State) : (s.setWriter w).dstCap = s.dstCap := rfl
@[simp] theorem State.setWriter_targetLen (w : Writer) (s : State) : (s.setWriter w).targetLen = s.targetLen := rfl
@[simp] theorem State.setWriter_blockMax (w : Writer) (s : State) : (s.setWriter w).blockMax = s.blockMax := rfl
@[simp] theorem State.setWriter_arg (w : Writer) (s : State) : (s.setWriter w).arg = s.arg := rfl
@[simp] theorem State.setWriter_result (w : Writer) (s : State) : (s.setWriter w).result = s.result := rfl
@[simp] theorem State.setWriter_outLen (w : Writer) (s : State) : (s.setWriter w).outLen = s.outLen := rfl
@[simp] theorem State.setWriter_bwAcc (w : Writer) (s : State) : (s.setWriter w).bwAcc = BitVec.ofNat 32 w.acc := rfl
@[simp] theorem State.setWriter_bwCnt (w : Writer) (s : State) : (s.setWriter w).bwCnt = BitVec.ofNat 5 w.cnt := rfl
@[simp] theorem State.setWriter_brPos (w : Writer) (s : State) : (s.setWriter w).brPos = s.brPos := rfl
@[simp] theorem State.setWriter_hdrUsize (w : Writer) (s : State) : (s.setWriter w).hdrUsize = s.hdrUsize := rfl
@[simp] theorem State.setWriter_blkCount (w : Writer) (s : State) : (s.setWriter w).blkCount = s.blkCount := rfl
@[simp] theorem State.setWriter_lastLits (w : Writer) (s : State) : (s.setWriter w).lastLits = s.lastLits := rfl
@[simp] theorem State.setWriter_lastLitn (w : Writer) (s : State) : (s.setWriter w).lastLitn = s.lastLitn := rfl
@[simp] theorem State.setWriter_lastClt (w : Writer) (s : State) : (s.setWriter w).lastClt = s.lastClt := rfl
@[simp] theorem State.setWriter_litLen (w : Writer) (s : State) : (s.setWriter w).litLen = s.litLen := rfl
@[simp] theorem State.setWriter_cltLen (w : Writer) (s : State) : (s.setWriter w).cltLen = s.cltLen := rfl
@[simp] theorem State.setWriter_tree (w : Writer) (s : State) : (s.setWriter w).tree = s.tree := rfl
@[simp] theorem State.setWriter_latch (w : Writer) (s : State) : (s.setWriter w).latch = s.latch := rfl
@[simp] theorem State.setWriter_produced (w : Writer) (s : State) : (s.setWriter w).produced = s.produced := rfl
@[simp] theorem State.setWriter_mem (w : Writer) (s : State) : (s.setWriter w).mem = s.mem := rfl
@[simp] theorem State.setWriter_pending (w : Writer) (s : State) : (s.setWriter w).pending = s.pending := rfl
@[simp] theorem State.setWriter_reply (w : Writer) (s : State) : (s.setWriter w).reply = s.reply := rfl
@[simp] theorem State.setWriter_engineDue (w : Writer) (s : State) : (s.setWriter w).engineDue = s.engineDue := rfl
@[simp] theorem State.setWriter_srcDraw (w : Writer) (s : State) : (s.setWriter w).srcDraw = s.srcDraw := rfl
@[simp] theorem State.setWriter_dstTouched (w : Writer) (s : State) : (s.setWriter w).dstTouched = s.dstTouched := rfl
@[simp] theorem State.setWriter_draws (w : Writer) (s : State) : (s.setWriter w).draws = s.draws := rfl

/-! ## `loadEncode` -/

@[simp] theorem State.loadEncode_cfg (e : EncodeRun) (s : State) : (s.loadEncode e).cfg = s.cfg := rfl
@[simp] theorem State.loadEncode_irqEn (e : EncodeRun) (s : State) : (s.loadEncode e).irqEn = s.irqEn := rfl
@[simp] theorem State.loadEncode_cmd (e : EncodeRun) (s : State) : (s.loadEncode e).cmd = s.cmd := rfl
@[simp] theorem State.loadEncode_phase (e : EncodeRun) (s : State) : (s.loadEncode e).phase = s.phase := rfl
@[simp] theorem State.loadEncode_done (e : EncodeRun) (s : State) : (s.loadEncode e).done = s.done := rfl
@[simp] theorem State.loadEncode_err (e : EncodeRun) (s : State) : (s.loadEncode e).err = s.err := rfl
@[simp] theorem State.loadEncode_werr (e : EncodeRun) (s : State) : (s.loadEncode e).werr = s.werr := rfl
@[simp] theorem State.loadEncode_packed (e : EncodeRun) (s : State) : (s.loadEncode e).packed = s.packed := rfl
@[simp] theorem State.loadEncode_errCode (e : EncodeRun) (s : State) : (s.loadEncode e).errCode = s.errCode := rfl
@[simp] theorem State.loadEncode_errSub (e : EncodeRun) (s : State) : (s.loadEncode e).errSub = s.errSub := rfl
@[simp] theorem State.loadEncode_errPos (e : EncodeRun) (s : State) : (s.loadEncode e).errPos = s.errPos := rfl
@[simp] theorem State.loadEncode_srcAddr (e : EncodeRun) (s : State) : (s.loadEncode e).srcAddr = s.srcAddr := rfl
@[simp] theorem State.loadEncode_srcLen (e : EncodeRun) (s : State) : (s.loadEncode e).srcLen = s.srcLen := rfl
@[simp] theorem State.loadEncode_dstAddr (e : EncodeRun) (s : State) : (s.loadEncode e).dstAddr = s.dstAddr := rfl
@[simp] theorem State.loadEncode_dstCap (e : EncodeRun) (s : State) : (s.loadEncode e).dstCap = s.dstCap := rfl
@[simp] theorem State.loadEncode_targetLen (e : EncodeRun) (s : State) :
    (s.loadEncode e).targetLen = s.targetLen := rfl
@[simp] theorem State.loadEncode_blockMax (e : EncodeRun) (s : State) : (s.loadEncode e).blockMax = s.blockMax := rfl
@[simp] theorem State.loadEncode_arg (e : EncodeRun) (s : State) : (s.loadEncode e).arg = s.arg := rfl
@[simp] theorem State.loadEncode_result (e : EncodeRun) (s : State) : (s.loadEncode e).result = s.result := rfl
@[simp] theorem State.loadEncode_outLen (e : EncodeRun) (s : State) : (s.loadEncode e).outLen = s.outLen := rfl
@[simp] theorem State.loadEncode_bwAcc (e : EncodeRun) (s : State) :
    (s.loadEncode e).bwAcc = BitVec.ofNat 32 e.writer.acc := rfl
@[simp] theorem State.loadEncode_bwCnt (e : EncodeRun) (s : State) :
    (s.loadEncode e).bwCnt = BitVec.ofNat 5 e.writer.cnt := rfl
@[simp] theorem State.loadEncode_brPos (e : EncodeRun) (s : State) : (s.loadEncode e).brPos = s.brPos := rfl
@[simp] theorem State.loadEncode_hdrUsize (e : EncodeRun) (s : State) : (s.loadEncode e).hdrUsize = s.hdrUsize := rfl
@[simp] theorem State.loadEncode_blkCount (e : EncodeRun) (s : State) :
    (s.loadEncode e).blkCount = BitVec.ofNat 32 e.blocks := rfl
@[simp] theorem State.loadEncode_lastLits (e : EncodeRun) (s : State) :
    (s.loadEncode e).lastLits = BitVec.ofNat 16 e.lastLits := rfl
@[simp] theorem State.loadEncode_lastLitn (e : EncodeRun) (s : State) :
    (s.loadEncode e).lastLitn = if e.blocks = 0 then s.lastLitn else BitVec.ofNat 9 encNsym := rfl
@[simp] theorem State.loadEncode_lastClt (e : EncodeRun) (s : State) :
    (s.loadEncode e).lastClt = if e.blocks = 0 then s.lastClt else { short := true, len := BitVec.ofNat 4 encCltLen, valid := true } := rfl
@[simp] theorem State.loadEncode_litLen (e : EncodeRun) (s : State) : (s.loadEncode e).litLen = s.litLen := rfl
@[simp] theorem State.loadEncode_cltLen (e : EncodeRun) (s : State) : (s.loadEncode e).cltLen = s.cltLen := rfl
@[simp] theorem State.loadEncode_tree (e : EncodeRun) (s : State) : (s.loadEncode e).tree = s.tree := rfl
@[simp] theorem State.loadEncode_latch (e : EncodeRun) (s : State) : (s.loadEncode e).latch = s.latch := rfl
@[simp] theorem State.loadEncode_produced (e : EncodeRun) (s : State) : (s.loadEncode e).produced = s.produced := rfl
@[simp] theorem State.loadEncode_mem (e : EncodeRun) (s : State) : (s.loadEncode e).mem = s.mem := rfl
@[simp] theorem State.loadEncode_pending (e : EncodeRun) (s : State) : (s.loadEncode e).pending = s.pending := rfl
@[simp] theorem State.loadEncode_reply (e : EncodeRun) (s : State) : (s.loadEncode e).reply = s.reply := rfl
@[simp] theorem State.loadEncode_engineDue (e : EncodeRun) (s : State) :
    (s.loadEncode e).engineDue = s.engineDue := rfl
@[simp] theorem State.loadEncode_srcDraw (e : EncodeRun) (s : State) : (s.loadEncode e).srcDraw = s.srcDraw := rfl
@[simp] theorem State.loadEncode_dstTouched (e : EncodeRun) (s : State) :
    (s.loadEncode e).dstTouched = s.dstTouched := rfl
@[simp] theorem State.loadEncode_draws (e : EncodeRun) (s : State) : (s.loadEncode e).draws = s.draws := rfl

/-! ## `loadCursor` -/

@[simp] theorem State.loadCursor_cfg (c : Cursor) (s : State) : (s.loadCursor c).cfg = s.cfg := rfl
@[simp] theorem State.loadCursor_irqEn (c : Cursor) (s : State) : (s.loadCursor c).irqEn = s.irqEn := rfl
@[simp] theorem State.loadCursor_cmd (c : Cursor) (s : State) : (s.loadCursor c).cmd = s.cmd := rfl
@[simp] theorem State.loadCursor_phase (c : Cursor) (s : State) : (s.loadCursor c).phase = s.phase := rfl
@[simp] theorem State.loadCursor_done (c : Cursor) (s : State) : (s.loadCursor c).done = s.done := rfl
@[simp] theorem State.loadCursor_err (c : Cursor) (s : State) : (s.loadCursor c).err = s.err := rfl
@[simp] theorem State.loadCursor_werr (c : Cursor) (s : State) : (s.loadCursor c).werr = s.werr := rfl
@[simp] theorem State.loadCursor_packed (c : Cursor) (s : State) : (s.loadCursor c).packed = s.packed := rfl
@[simp] theorem State.loadCursor_errCode (c : Cursor) (s : State) : (s.loadCursor c).errCode = s.errCode := rfl
@[simp] theorem State.loadCursor_errSub (c : Cursor) (s : State) : (s.loadCursor c).errSub = s.errSub := rfl
@[simp] theorem State.loadCursor_errPos (c : Cursor) (s : State) : (s.loadCursor c).errPos = s.errPos := rfl
@[simp] theorem State.loadCursor_srcAddr (c : Cursor) (s : State) : (s.loadCursor c).srcAddr = s.srcAddr := rfl
@[simp] theorem State.loadCursor_srcLen (c : Cursor) (s : State) : (s.loadCursor c).srcLen = s.srcLen := rfl
@[simp] theorem State.loadCursor_dstAddr (c : Cursor) (s : State) : (s.loadCursor c).dstAddr = s.dstAddr := rfl
@[simp] theorem State.loadCursor_dstCap (c : Cursor) (s : State) : (s.loadCursor c).dstCap = s.dstCap := rfl
@[simp] theorem State.loadCursor_targetLen (c : Cursor) (s : State) : (s.loadCursor c).targetLen = s.targetLen := rfl
@[simp] theorem State.loadCursor_blockMax (c : Cursor) (s : State) : (s.loadCursor c).blockMax = s.blockMax := rfl
@[simp] theorem State.loadCursor_arg (c : Cursor) (s : State) : (s.loadCursor c).arg = s.arg := rfl
@[simp] theorem State.loadCursor_result (c : Cursor) (s : State) : (s.loadCursor c).result = s.result := rfl
@[simp] theorem State.loadCursor_outLen (c : Cursor) (s : State) :
    (s.loadCursor c).outLen = BitVec.ofNat 32 c.outRev.length := rfl
@[simp] theorem State.loadCursor_bwAcc (c : Cursor) (s : State) : (s.loadCursor c).bwAcc = s.bwAcc := rfl
@[simp] theorem State.loadCursor_bwCnt (c : Cursor) (s : State) : (s.loadCursor c).bwCnt = s.bwCnt := rfl
@[simp] theorem State.loadCursor_brPos (c : Cursor) (s : State) :
    (s.loadCursor c).brPos = BitVec.ofNat 32 c.brPos := rfl
@[simp] theorem State.loadCursor_hdrUsize (c : Cursor) (s : State) : (s.loadCursor c).hdrUsize = s.hdrUsize := rfl
@[simp] theorem State.loadCursor_blkCount (c : Cursor) (s : State) :
    (s.loadCursor c).blkCount = BitVec.ofNat 32 c.blkCount := rfl
@[simp] theorem State.loadCursor_lastLits (c : Cursor) (s : State) :
    (s.loadCursor c).lastLits = BitVec.ofNat 16 c.lastLits := rfl
@[simp] theorem State.loadCursor_lastLitn (c : Cursor) (s : State) :
    (s.loadCursor c).lastLitn = BitVec.ofNat 9 c.lastLitn := rfl
@[simp] theorem State.loadCursor_lastClt (c : Cursor) (s : State) : (s.loadCursor c).lastClt = c.lastClt := rfl
@[simp] theorem State.loadCursor_litLen (c : Cursor) (s : State) : (s.loadCursor c).litLen = c.litLen := rfl
@[simp] theorem State.loadCursor_cltLen (c : Cursor) (s : State) : (s.loadCursor c).cltLen = c.cltLen := rfl
@[simp] theorem State.loadCursor_tree (c : Cursor) (s : State) : (s.loadCursor c).tree = c.tree := rfl
@[simp] theorem State.loadCursor_latch (c : Cursor) (s : State) : (s.loadCursor c).latch = s.latch := rfl
@[simp] theorem State.loadCursor_produced (c : Cursor) (s : State) : (s.loadCursor c).produced = c.produced := rfl
@[simp] theorem State.loadCursor_mem (c : Cursor) (s : State) : (s.loadCursor c).mem = s.mem := rfl
@[simp] theorem State.loadCursor_pending (c : Cursor) (s : State) : (s.loadCursor c).pending = s.pending := rfl
@[simp] theorem State.loadCursor_reply (c : Cursor) (s : State) : (s.loadCursor c).reply = s.reply := rfl
@[simp] theorem State.loadCursor_engineDue (c : Cursor) (s : State) : (s.loadCursor c).engineDue = s.engineDue := rfl
@[simp] theorem State.loadCursor_srcDraw (c : Cursor) (s : State) : (s.loadCursor c).srcDraw = s.srcDraw := rfl
@[simp] theorem State.loadCursor_dstTouched (c : Cursor) (s : State) :
    (s.loadCursor c).dstTouched = s.dstTouched := rfl
@[simp] theorem State.loadCursor_draws (c : Cursor) (s : State) : (s.loadCursor c).draws = s.draws := rfl

/-! ## `clearDecode` -/

@[simp] theorem State.clearDecode_cfg (s : State) : s.clearDecode.cfg = s.cfg := rfl
@[simp] theorem State.clearDecode_irqEn (s : State) : s.clearDecode.irqEn = s.irqEn := rfl
@[simp] theorem State.clearDecode_cmd (s : State) : s.clearDecode.cmd = s.cmd := rfl
@[simp] theorem State.clearDecode_phase (s : State) : s.clearDecode.phase = s.phase := rfl
@[simp] theorem State.clearDecode_done (s : State) : s.clearDecode.done = s.done := rfl
@[simp] theorem State.clearDecode_err (s : State) : s.clearDecode.err = s.err := rfl
@[simp] theorem State.clearDecode_werr (s : State) : s.clearDecode.werr = s.werr := rfl
@[simp] theorem State.clearDecode_packed (s : State) : s.clearDecode.packed = s.packed := rfl
@[simp] theorem State.clearDecode_errCode (s : State) : s.clearDecode.errCode = s.errCode := rfl
@[simp] theorem State.clearDecode_errSub (s : State) : s.clearDecode.errSub = s.errSub := rfl
@[simp] theorem State.clearDecode_errPos (s : State) : s.clearDecode.errPos = s.errPos := rfl
@[simp] theorem State.clearDecode_srcAddr (s : State) : s.clearDecode.srcAddr = s.srcAddr := rfl
@[simp] theorem State.clearDecode_srcLen (s : State) : s.clearDecode.srcLen = s.srcLen := rfl
@[simp] theorem State.clearDecode_dstAddr (s : State) : s.clearDecode.dstAddr = s.dstAddr := rfl
@[simp] theorem State.clearDecode_dstCap (s : State) : s.clearDecode.dstCap = s.dstCap := rfl
@[simp] theorem State.clearDecode_targetLen (s : State) : s.clearDecode.targetLen = s.targetLen := rfl
@[simp] theorem State.clearDecode_blockMax (s : State) : s.clearDecode.blockMax = s.blockMax := rfl
@[simp] theorem State.clearDecode_arg (s : State) : s.clearDecode.arg = s.arg := rfl
@[simp] theorem State.clearDecode_result (s : State) : s.clearDecode.result = s.result := rfl
@[simp] theorem State.clearDecode_outLen (s : State) : s.clearDecode.outLen = 0#32 := rfl
@[simp] theorem State.clearDecode_bwAcc (s : State) : s.clearDecode.bwAcc = s.bwAcc := rfl
@[simp] theorem State.clearDecode_bwCnt (s : State) : s.clearDecode.bwCnt = s.bwCnt := rfl
@[simp] theorem State.clearDecode_brPos (s : State) : s.clearDecode.brPos = 0#32 := rfl
@[simp] theorem State.clearDecode_hdrUsize (s : State) : s.clearDecode.hdrUsize = s.hdrUsize := rfl
@[simp] theorem State.clearDecode_blkCount (s : State) : s.clearDecode.blkCount = 0#32 := rfl
@[simp] theorem State.clearDecode_lastLits (s : State) : s.clearDecode.lastLits = 0#16 := rfl
@[simp] theorem State.clearDecode_lastLitn (s : State) : s.clearDecode.lastLitn = 0#9 := rfl
@[simp] theorem State.clearDecode_lastClt (s : State) :
    s.clearDecode.lastClt = { short := false, len := 0#4, valid := false } := rfl
@[simp] theorem State.clearDecode_litLen (s : State) : s.clearDecode.litLen = s.litLen := rfl
@[simp] theorem State.clearDecode_cltLen (s : State) : s.clearDecode.cltLen = s.cltLen := rfl
@[simp] theorem State.clearDecode_tree (s : State) : s.clearDecode.tree = s.tree := rfl
@[simp] theorem State.clearDecode_latch (s : State) : s.clearDecode.latch = s.latch := rfl
@[simp] theorem State.clearDecode_produced (s : State) : s.clearDecode.produced = s.produced := rfl
@[simp] theorem State.clearDecode_mem (s : State) : s.clearDecode.mem = s.mem := rfl
@[simp] theorem State.clearDecode_pending (s : State) : s.clearDecode.pending = s.pending := rfl
@[simp] theorem State.clearDecode_reply (s : State) : s.clearDecode.reply = s.reply := rfl
@[simp] theorem State.clearDecode_engineDue (s : State) : s.clearDecode.engineDue = s.engineDue := rfl
@[simp] theorem State.clearDecode_srcDraw (s : State) : s.clearDecode.srcDraw = s.srcDraw := rfl
@[simp] theorem State.clearDecode_dstTouched (s : State) : s.clearDecode.dstTouched = s.dstTouched := rfl
@[simp] theorem State.clearDecode_draws (s : State) : s.clearDecode.draws = s.draws := rfl

/-! ## `writeStatus` -/

@[simp] theorem State.writeStatus_cfg (v : Word) (s : State) : (s.writeStatus v).cfg = s.cfg := rfl
@[simp] theorem State.writeStatus_irqEn (v : Word) (s : State) : (s.writeStatus v).irqEn = s.irqEn := rfl
@[simp] theorem State.writeStatus_cmd (v : Word) (s : State) : (s.writeStatus v).cmd = s.cmd := rfl
@[simp] theorem State.writeStatus_phase (v : Word) (s : State) : (s.writeStatus v).phase = s.phase := rfl
@[simp] theorem State.writeStatus_done (v : Word) (s : State) :
    (s.writeStatus v).done = (s.done && !v.getLsbD 1) := rfl
@[simp] theorem State.writeStatus_err (v : Word) (s : State) : (s.writeStatus v).err = (s.err && !v.getLsbD 2) := rfl
@[simp] theorem State.writeStatus_werr (v : Word) (s : State) :
    (s.writeStatus v).werr = (s.werr && !v.getLsbD 3) := rfl
@[simp] theorem State.writeStatus_packed (v : Word) (s : State) : (s.writeStatus v).packed = s.packed := rfl
@[simp] theorem State.writeStatus_errCode (v : Word) (s : State) : (s.writeStatus v).errCode = s.errCode := rfl
@[simp] theorem State.writeStatus_errSub (v : Word) (s : State) : (s.writeStatus v).errSub = s.errSub := rfl
@[simp] theorem State.writeStatus_errPos (v : Word) (s : State) : (s.writeStatus v).errPos = s.errPos := rfl
@[simp] theorem State.writeStatus_srcAddr (v : Word) (s : State) : (s.writeStatus v).srcAddr = s.srcAddr := rfl
@[simp] theorem State.writeStatus_srcLen (v : Word) (s : State) : (s.writeStatus v).srcLen = s.srcLen := rfl
@[simp] theorem State.writeStatus_dstAddr (v : Word) (s : State) : (s.writeStatus v).dstAddr = s.dstAddr := rfl
@[simp] theorem State.writeStatus_dstCap (v : Word) (s : State) : (s.writeStatus v).dstCap = s.dstCap := rfl
@[simp] theorem State.writeStatus_targetLen (v : Word) (s : State) : (s.writeStatus v).targetLen = s.targetLen := rfl
@[simp] theorem State.writeStatus_blockMax (v : Word) (s : State) : (s.writeStatus v).blockMax = s.blockMax := rfl
@[simp] theorem State.writeStatus_arg (v : Word) (s : State) : (s.writeStatus v).arg = s.arg := rfl
@[simp] theorem State.writeStatus_result (v : Word) (s : State) : (s.writeStatus v).result = s.result := rfl
@[simp] theorem State.writeStatus_outLen (v : Word) (s : State) : (s.writeStatus v).outLen = s.outLen := rfl
@[simp] theorem State.writeStatus_bwAcc (v : Word) (s : State) : (s.writeStatus v).bwAcc = s.bwAcc := rfl
@[simp] theorem State.writeStatus_bwCnt (v : Word) (s : State) : (s.writeStatus v).bwCnt = s.bwCnt := rfl
@[simp] theorem State.writeStatus_brPos (v : Word) (s : State) : (s.writeStatus v).brPos = s.brPos := rfl
@[simp] theorem State.writeStatus_hdrUsize (v : Word) (s : State) : (s.writeStatus v).hdrUsize = s.hdrUsize := rfl
@[simp] theorem State.writeStatus_blkCount (v : Word) (s : State) : (s.writeStatus v).blkCount = s.blkCount := rfl
@[simp] theorem State.writeStatus_lastLits (v : Word) (s : State) : (s.writeStatus v).lastLits = s.lastLits := rfl
@[simp] theorem State.writeStatus_lastLitn (v : Word) (s : State) : (s.writeStatus v).lastLitn = s.lastLitn := rfl
@[simp] theorem State.writeStatus_lastClt (v : Word) (s : State) : (s.writeStatus v).lastClt = s.lastClt := rfl
@[simp] theorem State.writeStatus_litLen (v : Word) (s : State) : (s.writeStatus v).litLen = s.litLen := rfl
@[simp] theorem State.writeStatus_cltLen (v : Word) (s : State) : (s.writeStatus v).cltLen = s.cltLen := rfl
@[simp] theorem State.writeStatus_tree (v : Word) (s : State) : (s.writeStatus v).tree = s.tree := rfl
@[simp] theorem State.writeStatus_latch (v : Word) (s : State) : (s.writeStatus v).latch = s.latch := rfl
@[simp] theorem State.writeStatus_produced (v : Word) (s : State) : (s.writeStatus v).produced = s.produced := rfl
@[simp] theorem State.writeStatus_mem (v : Word) (s : State) : (s.writeStatus v).mem = s.mem := rfl
@[simp] theorem State.writeStatus_pending (v : Word) (s : State) : (s.writeStatus v).pending = s.pending := rfl
@[simp] theorem State.writeStatus_reply (v : Word) (s : State) : (s.writeStatus v).reply = s.reply := rfl
@[simp] theorem State.writeStatus_engineDue (v : Word) (s : State) : (s.writeStatus v).engineDue = s.engineDue := rfl
@[simp] theorem State.writeStatus_srcDraw (v : Word) (s : State) : (s.writeStatus v).srcDraw = s.srcDraw := rfl
@[simp] theorem State.writeStatus_dstTouched (v : Word) (s : State) :
    (s.writeStatus v).dstTouched = s.dstTouched := rfl
@[simp] theorem State.writeStatus_draws (v : Word) (s : State) : (s.writeStatus v).draws = s.draws := rfl

/-! ## `raceSrc` -/

@[simp] theorem State.raceSrc_cfg (s : State) : s.raceSrc.cfg = s.cfg := rfl
@[simp] theorem State.raceSrc_irqEn (s : State) : s.raceSrc.irqEn = s.irqEn := rfl
@[simp] theorem State.raceSrc_cmd (s : State) : s.raceSrc.cmd = s.cmd := rfl
@[simp] theorem State.raceSrc_phase (s : State) : s.raceSrc.phase = s.phase := rfl
@[simp] theorem State.raceSrc_done (s : State) : s.raceSrc.done = s.done := rfl
@[simp] theorem State.raceSrc_err (s : State) : s.raceSrc.err = s.err := rfl
@[simp] theorem State.raceSrc_werr (s : State) : s.raceSrc.werr = s.werr := rfl
@[simp] theorem State.raceSrc_packed (s : State) : s.raceSrc.packed = s.packed := rfl
@[simp] theorem State.raceSrc_errCode (s : State) : s.raceSrc.errCode = s.errCode := rfl
@[simp] theorem State.raceSrc_errSub (s : State) : s.raceSrc.errSub = s.errSub := rfl
@[simp] theorem State.raceSrc_errPos (s : State) : s.raceSrc.errPos = s.errPos := rfl
@[simp] theorem State.raceSrc_srcAddr (s : State) : s.raceSrc.srcAddr = s.srcAddr := rfl
@[simp] theorem State.raceSrc_srcLen (s : State) : s.raceSrc.srcLen = s.srcLen := rfl
@[simp] theorem State.raceSrc_dstAddr (s : State) : s.raceSrc.dstAddr = s.dstAddr := rfl
@[simp] theorem State.raceSrc_dstCap (s : State) : s.raceSrc.dstCap = s.dstCap := rfl
@[simp] theorem State.raceSrc_targetLen (s : State) : s.raceSrc.targetLen = s.targetLen := rfl
@[simp] theorem State.raceSrc_blockMax (s : State) : s.raceSrc.blockMax = s.blockMax := rfl
@[simp] theorem State.raceSrc_arg (s : State) : s.raceSrc.arg = s.arg := rfl
@[simp] theorem State.raceSrc_result (s : State) : s.raceSrc.result = s.result := rfl
@[simp] theorem State.raceSrc_outLen (s : State) : s.raceSrc.outLen = s.outLen := rfl
@[simp] theorem State.raceSrc_bwAcc (s : State) : s.raceSrc.bwAcc = s.bwAcc := rfl
@[simp] theorem State.raceSrc_bwCnt (s : State) : s.raceSrc.bwCnt = s.bwCnt := rfl
@[simp] theorem State.raceSrc_brPos (s : State) : s.raceSrc.brPos = s.brPos := rfl
@[simp] theorem State.raceSrc_hdrUsize (s : State) : s.raceSrc.hdrUsize = s.hdrUsize := rfl
@[simp] theorem State.raceSrc_blkCount (s : State) : s.raceSrc.blkCount = s.blkCount := rfl
@[simp] theorem State.raceSrc_lastLits (s : State) : s.raceSrc.lastLits = s.lastLits := rfl
@[simp] theorem State.raceSrc_lastLitn (s : State) : s.raceSrc.lastLitn = s.lastLitn := rfl
@[simp] theorem State.raceSrc_lastClt (s : State) : s.raceSrc.lastClt = s.lastClt := rfl
@[simp] theorem State.raceSrc_litLen (s : State) : s.raceSrc.litLen = s.litLen := rfl
@[simp] theorem State.raceSrc_cltLen (s : State) : s.raceSrc.cltLen = s.cltLen := rfl
@[simp] theorem State.raceSrc_tree (s : State) : s.raceSrc.tree = s.tree := rfl
@[simp] theorem State.raceSrc_latch (s : State) : s.raceSrc.latch = s.latch := rfl
@[simp] theorem State.raceSrc_produced (s : State) : s.raceSrc.produced = s.produced := rfl
@[simp] theorem State.raceSrc_mem (s : State) : s.raceSrc.mem = s.mem := rfl
@[simp] theorem State.raceSrc_pending (s : State) : s.raceSrc.pending = s.pending := rfl
@[simp] theorem State.raceSrc_reply (s : State) : s.raceSrc.reply = s.reply := rfl
@[simp] theorem State.raceSrc_engineDue (s : State) : s.raceSrc.engineDue = s.engineDue := rfl
@[simp] theorem State.raceSrc_srcDraw (s : State) : s.raceSrc.srcDraw = some s.draws := rfl
@[simp] theorem State.raceSrc_dstTouched (s : State) : s.raceSrc.dstTouched = s.dstTouched := rfl
@[simp] theorem State.raceSrc_draws (s : State) : s.raceSrc.draws = s.draws + 1 := rfl

/-! ## `raceDst` -/

@[simp] theorem State.raceDst_cfg (a : Nat) (s : State) : (s.raceDst a).cfg = s.cfg := rfl
@[simp] theorem State.raceDst_irqEn (a : Nat) (s : State) : (s.raceDst a).irqEn = s.irqEn := rfl
@[simp] theorem State.raceDst_cmd (a : Nat) (s : State) : (s.raceDst a).cmd = s.cmd := rfl
@[simp] theorem State.raceDst_phase (a : Nat) (s : State) : (s.raceDst a).phase = s.phase := rfl
@[simp] theorem State.raceDst_done (a : Nat) (s : State) : (s.raceDst a).done = s.done := rfl
@[simp] theorem State.raceDst_err (a : Nat) (s : State) : (s.raceDst a).err = s.err := rfl
@[simp] theorem State.raceDst_werr (a : Nat) (s : State) : (s.raceDst a).werr = s.werr := rfl
@[simp] theorem State.raceDst_packed (a : Nat) (s : State) : (s.raceDst a).packed = s.packed := rfl
@[simp] theorem State.raceDst_errCode (a : Nat) (s : State) : (s.raceDst a).errCode = s.errCode := rfl
@[simp] theorem State.raceDst_errSub (a : Nat) (s : State) : (s.raceDst a).errSub = s.errSub := rfl
@[simp] theorem State.raceDst_errPos (a : Nat) (s : State) : (s.raceDst a).errPos = s.errPos := rfl
@[simp] theorem State.raceDst_srcAddr (a : Nat) (s : State) : (s.raceDst a).srcAddr = s.srcAddr := rfl
@[simp] theorem State.raceDst_srcLen (a : Nat) (s : State) : (s.raceDst a).srcLen = s.srcLen := rfl
@[simp] theorem State.raceDst_dstAddr (a : Nat) (s : State) : (s.raceDst a).dstAddr = s.dstAddr := rfl
@[simp] theorem State.raceDst_dstCap (a : Nat) (s : State) : (s.raceDst a).dstCap = s.dstCap := rfl
@[simp] theorem State.raceDst_targetLen (a : Nat) (s : State) : (s.raceDst a).targetLen = s.targetLen := rfl
@[simp] theorem State.raceDst_blockMax (a : Nat) (s : State) : (s.raceDst a).blockMax = s.blockMax := rfl
@[simp] theorem State.raceDst_arg (a : Nat) (s : State) : (s.raceDst a).arg = s.arg := rfl
@[simp] theorem State.raceDst_result (a : Nat) (s : State) : (s.raceDst a).result = s.result := rfl
@[simp] theorem State.raceDst_outLen (a : Nat) (s : State) : (s.raceDst a).outLen = s.outLen := rfl
@[simp] theorem State.raceDst_bwAcc (a : Nat) (s : State) : (s.raceDst a).bwAcc = s.bwAcc := rfl
@[simp] theorem State.raceDst_bwCnt (a : Nat) (s : State) : (s.raceDst a).bwCnt = s.bwCnt := rfl
@[simp] theorem State.raceDst_brPos (a : Nat) (s : State) : (s.raceDst a).brPos = s.brPos := rfl
@[simp] theorem State.raceDst_hdrUsize (a : Nat) (s : State) : (s.raceDst a).hdrUsize = s.hdrUsize := rfl
@[simp] theorem State.raceDst_blkCount (a : Nat) (s : State) : (s.raceDst a).blkCount = s.blkCount := rfl
@[simp] theorem State.raceDst_lastLits (a : Nat) (s : State) : (s.raceDst a).lastLits = s.lastLits := rfl
@[simp] theorem State.raceDst_lastLitn (a : Nat) (s : State) : (s.raceDst a).lastLitn = s.lastLitn := rfl
@[simp] theorem State.raceDst_lastClt (a : Nat) (s : State) : (s.raceDst a).lastClt = s.lastClt := rfl
@[simp] theorem State.raceDst_litLen (a : Nat) (s : State) : (s.raceDst a).litLen = s.litLen := rfl
@[simp] theorem State.raceDst_cltLen (a : Nat) (s : State) : (s.raceDst a).cltLen = s.cltLen := rfl
@[simp] theorem State.raceDst_tree (a : Nat) (s : State) : (s.raceDst a).tree = s.tree := rfl
@[simp] theorem State.raceDst_latch (a : Nat) (s : State) : (s.raceDst a).latch = s.latch := rfl
@[simp] theorem State.raceDst_produced (a : Nat) (s : State) : (s.raceDst a).produced = s.produced := rfl
@[simp] theorem State.raceDst_mem (a : Nat) (s : State) : (s.raceDst a).mem = s.mem := rfl
@[simp] theorem State.raceDst_pending (a : Nat) (s : State) : (s.raceDst a).pending = s.pending := rfl
@[simp] theorem State.raceDst_reply (a : Nat) (s : State) : (s.raceDst a).reply = s.reply := rfl
@[simp] theorem State.raceDst_engineDue (a : Nat) (s : State) : (s.raceDst a).engineDue = s.engineDue := rfl
@[simp] theorem State.raceDst_srcDraw (a : Nat) (s : State) : (s.raceDst a).srcDraw = s.srcDraw := rfl
@[simp] theorem State.raceDst_dstTouched (a : Nat) (s : State) : (s.raceDst a).dstTouched = a :: s.dstTouched := rfl
@[simp] theorem State.raceDst_draws (a : Nat) (s : State) : (s.raceDst a).draws = s.draws := rfl

end Sys2Proof.Machine
end

