-- ==== Sys2Proof/Laws/Ops.lean ====
section
/-! SUPPORT. What the shared operations of a command can do: fault entry and completion, the prologue, and a command's
run as the next state. -/

namespace Sys2Proof.Machine

/-! ## Fault entry and completion -/

theorem errPosWord_of_lt {p : Nat} (h : p < 2 ^ 32) : errPosWord p = BitVec.ofNat 32 p := if_pos h

@[simp] theorem errPosWord_toNat (w : Word) : errPosWord w.toNat = w := by
  rw [errPosWord_of_lt w.isLt]; simp

@[simp] theorem errPosWord_zero : errPosWord 0 = 0#32 := rfl

@[simp] theorem State.conclude_none (s : State) : s.conclude none = s.complete := rfl
@[simp] theorem State.conclude_some (f : FaultReport) (s : State) : s.conclude (some f) = s.raise f := rfl

/-- Fault entry as one record update. -/
theorem State.raise_eq (f : FaultReport) (s : State) :
    s.raise f =
      { s with
        errCode := f.code, errSub := f.sub, errPos := errPosWord f.pos, err := true, phase := .idle } := rfl

/-- Completion as one record update. -/
theorem State.complete_eq (s : State) : s.complete = { s with done := true, phase := .idle } := rfl

/-! ## A run as the next state -/

/-- A run without a fault: its writes are performed and the block completes. -/
theorem Run.finish_of_none {r : Run} (h : r.fault = none) :
    r.finish =
      { r.regs with
        mem := scramble r.regs.draws r.regs.dstTouched (applyWrites r.regs.mem r.writes)
        engineDue := 0, srcDraw := none, dstTouched := [], draws := r.regs.draws + 1
        done := true, phase := .idle } := by
  simp only [Run.finish, h]; rfl

/-- A run with a fault: its writes are performed and fault entry follows. -/
theorem Run.finish_of_some {r : Run} {f : FaultReport} (h : r.fault = some f) :
    r.finish =
      { r.regs with
        mem := scramble r.regs.draws r.regs.dstTouched (applyWrites r.regs.mem r.writes)
        engineDue := 0, srcDraw := none, dstTouched := [], draws := r.regs.draws + 1
        errCode := f.code, errSub := f.sub, errPos := errPosWord f.pos, err := true
        phase := .idle } := by
  simp only [Run.finish, h]; rfl

theorem Run.finish_mem (r : Run) :
    r.finish.mem = scramble r.regs.draws r.regs.dstTouched (applyWrites r.regs.mem r.writes) := by
  obtain ⟨regs, writes, fault⟩ := r
  cases fault <;> rfl

/-- The memory of a finished run whose destination the host left alone. -/
theorem Run.finish_mem_of_quiet {r : Run} (h : r.regs.dstTouched = []) :
    r.finish.mem = applyWrites r.regs.mem r.writes := by
  rw [Run.finish_mem, h, scramble_nil]

@[simp] theorem Run.finish_cfg (r : Run) : r.finish.cfg = r.regs.cfg := by
  obtain ⟨regs, writes, fault⟩ := r; cases fault <;> rfl
@[simp] theorem Run.finish_irqEn (r : Run) : r.finish.irqEn = r.regs.irqEn := by
  obtain ⟨regs, writes, fault⟩ := r; cases fault <;> rfl
@[simp] theorem Run.finish_cmd (r : Run) : r.finish.cmd = r.regs.cmd := by
  obtain ⟨regs, writes, fault⟩ := r; cases fault <;> rfl
@[simp] theorem Run.finish_phase (r : Run) : r.finish.phase = .idle := by
  obtain ⟨regs, writes, fault⟩ := r; cases fault <;> rfl
@[simp] theorem Run.finish_werr (r : Run) : r.finish.werr = r.regs.werr := by
  obtain ⟨regs, writes, fault⟩ := r; cases fault <;> rfl
@[simp] theorem Run.finish_packed (r : Run) : r.finish.packed = r.regs.packed := by
  obtain ⟨regs, writes, fault⟩ := r; cases fault <;> rfl
@[simp] theorem Run.finish_srcAddr (r : Run) : r.finish.srcAddr = r.regs.srcAddr := by
  obtain ⟨regs, writes, fault⟩ := r; cases fault <;> rfl
@[simp] theorem Run.finish_srcLen (r : Run) : r.finish.srcLen = r.regs.srcLen := by
  obtain ⟨regs, writes, fault⟩ := r; cases fault <;> rfl
@[simp] theorem Run.finish_dstAddr (r : Run) : r.finish.dstAddr = r.regs.dstAddr := by
  obtain ⟨regs, writes, fault⟩ := r; cases fault <;> rfl
@[simp] theorem Run.finish_dstCap (r : Run) : r.finish.dstCap = r.regs.dstCap := by
  obtain ⟨regs, writes, fault⟩ := r; cases fault <;> rfl
@[simp] theorem Run.finish_targetLen (r : Run) : r.finish.targetLen = r.regs.targetLen := by
  obtain ⟨regs, writes, fault⟩ := r; cases fault <;> rfl
@[simp] theorem Run.finish_blockMax (r : Run) : r.finish.blockMax = r.regs.blockMax := by
  obtain ⟨regs, writes, fault⟩ := r; cases fault <;> rfl
@[simp] theorem Run.finish_arg (r : Run) : r.finish.arg = r.regs.arg := by
  obtain ⟨regs, writes, fault⟩ := r; cases fault <;> rfl
@[simp] theorem Run.finish_result (r : Run) : r.finish.result = r.regs.result := by
  obtain ⟨regs, writes, fault⟩ := r; cases fault <;> rfl
@[simp] theorem Run.finish_outLen (r : Run) : r.finish.outLen = r.regs.outLen := by
  obtain ⟨regs, writes, fault⟩ := r; cases fault <;> rfl
@[simp] theorem Run.finish_bwAcc (r : Run) : r.finish.bwAcc = r.regs.bwAcc := by
  obtain ⟨regs, writes, fault⟩ := r; cases fault <;> rfl
@[simp] theorem Run.finish_bwCnt (r : Run) : r.finish.bwCnt = r.regs.bwCnt := by
  obtain ⟨regs, writes, fault⟩ := r; cases fault <;> rfl
@[simp] theorem Run.finish_brPos (r : Run) : r.finish.brPos = r.regs.brPos := by
  obtain ⟨regs, writes, fault⟩ := r; cases fault <;> rfl
@[simp] theorem Run.finish_hdrUsize (r : Run) : r.finish.hdrUsize = r.regs.hdrUsize := by
  obtain ⟨regs, writes, fault⟩ := r; cases fault <;> rfl
@[simp] theorem Run.finish_blkCount (r : Run) : r.finish.blkCount = r.regs.blkCount := by
  obtain ⟨regs, writes, fault⟩ := r; cases fault <;> rfl
@[simp] theorem Run.finish_lastLits (r : Run) : r.finish.lastLits = r.regs.lastLits := by
  obtain ⟨regs, writes, fault⟩ := r; cases fault <;> rfl
@[simp] theorem Run.finish_lastLitn (r : Run) : r.finish.lastLitn = r.regs.lastLitn := by
  obtain ⟨regs, writes, fault⟩ := r; cases fault <;> rfl
@[simp] theorem Run.finish_lastClt (r : Run) : r.finish.lastClt = r.regs.lastClt := by
  obtain ⟨regs, writes, fault⟩ := r; cases fault <;> rfl
@[simp] theorem Run.finish_litLen (r : Run) : r.finish.litLen = r.regs.litLen := by
  obtain ⟨regs, writes, fault⟩ := r; cases fault <;> rfl
@[simp] theorem Run.finish_cltLen (r : Run) : r.finish.cltLen = r.regs.cltLen := by
  obtain ⟨regs, writes, fault⟩ := r; cases fault <;> rfl
@[simp] theorem Run.finish_tree (r : Run) : r.finish.tree = r.regs.tree := by
  obtain ⟨regs, writes, fault⟩ := r; cases fault <;> rfl
@[simp] theorem Run.finish_latch (r : Run) : r.finish.latch = r.regs.latch := by
  obtain ⟨regs, writes, fault⟩ := r; cases fault <;> rfl
@[simp] theorem Run.finish_produced (r : Run) : r.finish.produced = r.regs.produced := by
  obtain ⟨regs, writes, fault⟩ := r; cases fault <;> rfl
@[simp] theorem Run.finish_pending (r : Run) : r.finish.pending = r.regs.pending := by
  obtain ⟨regs, writes, fault⟩ := r; cases fault <;> rfl
@[simp] theorem Run.finish_reply (r : Run) : r.finish.reply = r.regs.reply := by
  obtain ⟨regs, writes, fault⟩ := r; cases fault <;> rfl
@[simp] theorem Run.finish_engineDue (r : Run) : r.finish.engineDue = 0 := by
  obtain ⟨regs, writes, fault⟩ := r; cases fault <;> rfl
@[simp] theorem Run.finish_srcDraw (r : Run) : r.finish.srcDraw = none := by
  obtain ⟨regs, writes, fault⟩ := r; cases fault <;> rfl
@[simp] theorem Run.finish_dstTouched (r : Run) : r.finish.dstTouched = [] := by
  obtain ⟨regs, writes, fault⟩ := r; cases fault <;> rfl
@[simp] theorem Run.finish_draws (r : Run) : r.finish.draws = r.regs.draws + 1 := by
  obtain ⟨regs, writes, fault⟩ := r; cases fault <;> rfl

/-- The memory a stopped run leaves is that of some prefix of its writes. -/
theorem Run.stoppedMemory_eq (r : Run) {s : State} (h : s.dstTouched = []) :
    ∃ k ≤ r.writes.length, r.stoppedMemory s = applyWrites s.mem (r.writes.take k) := by
  refine ⟨_, Nat.le_of_lt_succ (Nat.mod_lt (Config.abortPrefix s.draws) (Nat.succ_pos _)), ?_⟩
  rw [Run.stoppedMemory, h, scramble_nil]

/-! ## The prologue -/

theorem rangeValid_iff {size base len : Nat} : rangeValid size base len = true ↔ base + len ≤ size := by
  simp [rangeValid]

theorem rangesOverlap_iff {a n b m : Nat} :
    rangesOverlap a n b m = true ↔ 0 < n ∧ 0 < m ∧ a < b + m ∧ b < a + n := by
  simp [rangesOverlap]

/-- Two ranges that do not overlap are disjoint in the sense of `Safety`. -/
theorem rangesOverlap_eq_false (s : State) :
    rangesOverlap s.srcAddr.toNat s.srcLen.toNat s.dstAddr.toNat s.dstCap.toNat = false ↔ s.Disjoint := by
  rw [Bool.eq_false_iff, ne_eq, rangesOverlap_iff]
  simp only [State.Disjoint]
  omega

/-- NBITS fails the prologue's check exactly when the command has one outside 1..24. -/
theorem nbitsBad_iff {i : Instr} : nbitsBad i = true ↔ ∃ n, nbitsOf i = some n ∧ ¬(1 ≤ n ∧ n ≤ 24) := by
  unfold nbitsBad
  cases nbitsOf i with
  | none => simp
  | some n => by_cases h1 : 1 ≤ n <;> by_cases h2 : n ≤ 24 <;> simp [nbitsMax, h1, h2] <;> omega

/-- Everything the prologue lets through. -/
theorem prologue_eq_none {i : Instr} {s : State} :
    prologue i s = none ↔
      (∀ n, nbitsOf i = some n → 1 ≤ n ∧ n ≤ 24) ∧ (usesBlockMax i = true → s.BlockMaxOk) ∧
      (usesSrc i = true → s.SrcOk) ∧ (usesDst i = true → s.DstOk) ∧
      (usesSrc i = true → usesDst i = true → s.Disjoint) := by
  have hn : nbitsBad i = false ↔ ∀ n, nbitsOf i = some n → 1 ≤ n ∧ n ≤ 24 := by
    rw [Bool.eq_false_iff, ne_eq, nbitsBad_iff]; push Not; rfl
  rw [← hn, ← rangesOverlap_eq_false]
  unfold prologue rangeValid
  simp only [State.SrcOk, State.DstOk, State.BlockMaxOk]
  split_ifs <;> simp_all [Nat.one_le_iff_ne_zero]
  omega

/-- The prologue's fault and the check it stands for, with the checks before it passed. -/
theorem prologue_eq_some {i : Instr} {s : State} {f : FaultReport} (h : prologue i s = some f) :
    f.pos = 0 ∧
      ((f.code = .badLength ∧ f.sub = 1#8) ∨ (f.code = .badLength ∧ f.sub = 2#8) ∨
        (f.code = .badLength ∧ f.sub = 3#8) ∨ (f.code = .range ∧ f.sub = 1#8) ∨
        (f.code = .range ∧ f.sub = 2#8) ∨ (f.code = .overlap ∧ f.sub = 0#8)) := by
  unfold prologue at h
  split_ifs at h <;> cases h <;> simp

theorem runCommand_of_none {i : Instr} {body : State → Run} {s : State} (h : prologue i s = none) :
    runCommand i body s = body s := by
  rw [runCommand, h]

theorem runCommand_of_some {i : Instr} {body : State → Run} {s : State} {f : FaultReport}
    (h : prologue i s = some f) : runCommand i body s = { regs := s, writes := [], fault := some f } := by
  rw [runCommand, h]

/-- A command's run is its prologue's fault or its body's. -/
theorem runCommand_cases (i : Instr) (body : State → Run) (s : State) :
    (prologue i s = none ∧ runCommand i body s = body s) ∨
      ∃ f, prologue i s = some f ∧ runCommand i body s = { regs := s, writes := [], fault := some f } := by
  cases h : prologue i s with
  | none => exact .inl ⟨rfl, runCommand_of_none h⟩
  | some f => exact .inr ⟨f, rfl, runCommand_of_some h⟩

/-! ## The source as a stream -/

theorem State.srcStream_of_quiet {s : State} (h : s.srcDraw = none) :
    s.srcStream = { byte := fun j => memRead s.mem (s.srcAddr.toNat + j), len := s.srcLen.toNat } := by
  simp only [State.srcStream, h]

@[simp] theorem State.srcStream_len (s : State) : s.srcStream.len = s.srcLen.toNat := rfl

@[simp] theorem Stream.take_length (n : Nat) (t : Stream) : (t.take n).length = n := by simp [Stream.take]

@[simp] theorem Stream.skip_byte (n : Nat) (t : Stream) (j : Nat) : (t.skip n).byte j = t.byte (n + j) := rfl
@[simp] theorem Stream.skip_len (n : Nat) (t : Stream) : (t.skip n).len = t.len - n := rfl

theorem Stream.take_getD (n : Nat) (t : Stream) {j : Nat} (h : j < n) (d : Byte) :
    (t.take n).getD j d = t.byte j := by
  simp [Stream.take, List.getD_eq_getElem?_getD, h]

/-! ## Every command is one run -/

/-- What exec answers on a command: the run's next state. -/
theorem exec_command {i : Instr} (h : i.format = .cmd) (s : State) : exec i s = .next (runOf i s).finish := by
  cases i <;> first | rfl | cases h

end Sys2Proof.Machine
end

