-- ==== Sys2Proof/Laws/BitStream.lean ====
section
/-! SUPPORT. The bit writer and the bit reader as lists of bits (30_encoding.md R86, 40_bitstream.md R120 to R125): Put
appends a field's bits, Flush pads to whole bytes, Get reads a field's bits back. -/

namespace Sys2Proof.Machine

/-! ## Bits of a number -/

/-- The low `n` bits of a number, bit 0 first. -/
def natBits (v n : Nat) : List Bool := (List.range n).map v.testBit

/-- The bits of a byte, bit 0 first. -/
def byteBits (b : Byte) : List Bool := natBits b.toNat 8

@[simp] theorem natBits_length (v n : Nat) : (natBits v n).length = n := by simp [natBits]
@[simp] theorem byteBits_length (b : Byte) : (byteBits b).length = 8 := by simp [byteBits]
@[simp] theorem natBits_zero (v : Nat) : natBits v 0 = [] := rfl

theorem natBits_add (v m n : Nat) : natBits v (m + n) = natBits v m ++ natBits (v >>> m) n := by
  simp [natBits, List.range_add, Function.comp_def]

theorem natBits_congr {v w n : Nat} (h : ∀ k < n, v.testBit k = w.testBit k) : natBits v n = natBits w n :=
  List.map_congr_left fun k hk => h k (by simpa using hk)

theorem natBits_mod (v n : Nat) : natBits (v % 2 ^ n) n = natBits v n :=
  natBits_congr fun k hk => by simp [hk]

theorem natBits_getD {v n k : Nat} (h : k < n) : (natBits v n).getD k false = v.testBit k := by
  simp [natBits, List.getD_eq_getElem?_getD, h]

/-- The bits of a number's low byte come first. -/
theorem natBits_byte (v n : Nat) : natBits v (8 + n) = byteBits (BitVec.ofNat 8 v) ++ natBits (v >>> 8) n := by
  rw [natBits_add]
  congr 1
  rw [byteBits, BitVec.toNat_ofNat, natBits_mod]

/-! ## The writer -/

/-- All bits appended so far: those of the emitted bytes, then those still in the accumulator. -/
def Writer.bits (w : Writer) : List Bool := w.out.flatMap byteBits ++ natBits w.acc w.cnt

@[simp] theorem Writer.out_new : Writer.new.out = [] := rfl
@[simp] theorem Writer.bits_new : Writer.new.bits = [] := rfl

/-- What the emitting loop leaves (40_bitstream.md R121). -/
theorem Writer.drain_eq (k : Nat) (w : Writer) :
    w.drain k =
      { acc := w.acc / 2 ^ (8 * k), cnt := w.cnt - 8 * k
        outRev := ((List.range k).map fun j => BitVec.ofNat 8 (w.acc / 2 ^ (8 * j))).reverse ++ w.outRev } := by
  induction k generalizing w with
  | zero => simp [Writer.drain]
  | succ k ih =>
    rw [Writer.drain, ih]
    simp only [Writer.mk.injEq]
    refine ⟨?_, by omega, ?_⟩
    · rw [Nat.shiftRight_eq_div_pow, Nat.div_div_eq_div_mul, ← pow_add]
      congr 2; omega
    · rw [List.range_succ_eq_map, List.map_cons, List.reverse_cons, List.append_assoc]
      congr 2
      · rw [List.map_map]
        refine List.map_congr_left fun j _ => ?_
        simp only [Function.comp_apply, Nat.shiftRight_eq_div_pow, Nat.div_div_eq_div_mul, ← pow_add]
        congr 3; omega
      · simp

/-- The accumulator with a field put above its bits is a sum. -/
theorem Writer.or_shift {acc cnt v n : Nat} (h : acc < 2 ^ cnt) :
    acc ||| ((v % 2 ^ n) <<< cnt) = acc + (v % 2 ^ n) * 2 ^ cnt := by
  rw [Nat.or_comm, ← Nat.shiftLeft_add_eq_or_of_lt h, Nat.shiftLeft_eq, Nat.add_comm]

/-- What Put leaves and emits, from a writer below its count (40_bitstream.md R121). -/
theorem Writer.put_eq {w : Writer} (h : w.acc < 2 ^ w.cnt) (v n : Nat) :
    w.put v n =
      { acc := (w.acc + (v % 2 ^ n) * 2 ^ w.cnt) / 2 ^ (8 * ((w.cnt + n) / 8))
        cnt := w.cnt + n - 8 * ((w.cnt + n) / 8)
        outRev :=
          ((List.range ((w.cnt + n) / 8)).map fun j =>
            BitVec.ofNat 8 ((w.acc + (v % 2 ^ n) * 2 ^ w.cnt) / 2 ^ (8 * j))).reverse ++ w.outRev } := by
  rw [Writer.put, Writer.drain_eq, Writer.or_shift h]

/-- The bytes a Put adds, in order. -/
theorem Writer.put_out {w : Writer} (h : w.acc < 2 ^ w.cnt) (v n : Nat) :
    (w.put v n).out =
      w.out ++ (List.range ((w.cnt + n) / 8)).map fun j =>
        BitVec.ofNat 8 ((w.acc + (v % 2 ^ n) * 2 ^ w.cnt) / 2 ^ (8 * j)) := by
  rw [Writer.put_eq h, Writer.out, Writer.out]
  simp

/-- The emitting loop changes no bit. -/
theorem Writer.bits_drain {k : Nat} {w : Writer} (h : 8 * k ≤ w.cnt) : (w.drain k).bits = w.bits := by
  induction k generalizing w with
  | zero => rfl
  | succ k ih =>
    rw [Writer.drain, ih (by simp only; omega)]
    simp only [Writer.bits, Writer.out, List.reverse_cons, List.flatMap_append, List.flatMap_cons,
      List.flatMap_nil, List.append_nil, List.append_assoc]
    obtain ⟨c, hc⟩ : ∃ c, w.cnt = 8 + c := ⟨w.cnt - 8, by omega⟩
    rw [hc, natBits_byte]
    simp

/-- Put appends its field's bits, bit 0 first (40_bitstream.md R121, 30_encoding.md R86). -/
theorem Writer.bits_put {w : Writer} (h : w.acc < 2 ^ w.cnt) (v n : Nat) :
    (w.put v n).bits = w.bits ++ natBits v n := by
  rw [Writer.put, Writer.bits_drain (by simp only; omega), Writer.bits, Writer.bits, natBits_add,
    List.append_assoc]
  simp only [Writer.out]
  congr 2
  · refine natBits_congr fun k hk => ?_
    simp [hk]
  · rw [Nat.shiftRight_or_distrib, Nat.shiftLeft_shiftRight, Nat.shiftRight_eq_div_pow,
      Nat.div_eq_of_lt h, Nat.zero_or, natBits_mod]

/-- Put leaves the writer below its count. -/
theorem Writer.put_acc_lt {w : Writer} (h : w.acc < 2 ^ w.cnt) (v n : Nat) :
    (w.put v n).acc < 2 ^ (w.put v n).cnt := by
  rw [Writer.put_eq h]
  simp only
  have hv : v % 2 ^ n < 2 ^ n := Nat.mod_lt _ (Nat.two_pow_pos n)
  rw [Nat.div_lt_iff_lt_mul (Nat.two_pow_pos _), ← pow_add, Nat.sub_add_cancel (Nat.mul_div_le _ 8),
    pow_add]
  have := Nat.mul_le_mul_right (2 ^ w.cnt) (Nat.succ_le_of_lt hv)
  rw [Nat.succ_mul, Nat.mul_comm (2 ^ n)] at this
  omega

theorem Writer.put_cnt_lt {w : Writer} (h : w.acc < 2 ^ w.cnt) (v n : Nat) : (w.put v n).cnt < 8 := by
  rw [Writer.put_eq h]
  simp only
  omega

/-- A property of a writer that holds when it is fresh or has just put a field. -/
def Writer.Ok (w : Writer) : Prop := w.cnt < 8 ∧ w.acc < 2 ^ w.cnt

theorem Writer.ok_new : Writer.new.Ok := ⟨by decide, by decide⟩

theorem Writer.Ok.put {w : Writer} (h : w.Ok) (v n : Nat) : (w.put v n).Ok :=
  ⟨Writer.put_cnt_lt h.2 v n, Writer.put_acc_lt h.2 v n⟩

/-! ## BW_PUT's writer from any state -/

theorem Writer.put_cnt (w : Writer) (v n : Nat) : (w.put v n).cnt = (w.cnt + n) % 8 := by
  rw [Writer.put, Writer.drain_eq]
  simp only
  omega

theorem Writer.put_out_length (w : Writer) (v n : Nat) :
    (w.put v n).out.length = w.out.length + (w.cnt + n) / 8 := by
  rw [Writer.put, Writer.drain_eq]
  simp [Writer.out, Nat.add_comm]

/-- BW_PUT leaves a legal writer from any writer (40_bitstream.md R121, 10_state.md R38, R39). -/
theorem putWriter_ok (n : Nat) (s : State) : (putWriter n s).Ok := by
  have hcut : ∀ cnt, openPutAcc n cnt s < 2 ^ cnt := fun cnt => Nat.mod_lt _ (Nat.two_pow_pos cnt)
  have hput : (s.writer.put s.arg.toNat n).cnt < 8 := by rw [Writer.put_cnt]; omega
  unfold putWriter
  split_ifs with h
  · exact ⟨(Config.widePutCnt s.bwAcc s.bwCnt (putArg n s) n).isLt, hcut _⟩
  · simp only
    split_ifs with h2
    · exact ⟨hput, h2⟩
    · exact ⟨hput, hcut _⟩

/-- BW_PUT emits the bytes R127 counts, from any writer. -/
theorem putWriter_out_length (n : Nat) (s : State) : (putWriter n s).out.length = putEmits n s := by
  have hput : (s.writer.put s.arg.toNat n).out.length = putEmits n s := by
    rw [Writer.put_out_length]; simp [State.writer, Writer.out, putEmits]
  unfold putWriter
  split_ifs with h
  · simp [widePut, Writer.out]
  · simp only
    split_ifs with h2
    · exact hput
    · exact hput

/-- From a legal writer BW_PUT is Put (40_bitstream.md R121). -/
theorem putWriter_of_ok {n : Nat} {s : State} (hn : n ≤ 24) (h : s.writer.Ok) :
    putWriter n s = s.writer.put s.arg.toNat n := by
  have hc : s.bwCnt.toNat < 8 := h.1
  rw [putWriter, if_neg (by omega)]
  exact if_pos (h.put _ _).2

/-- BW_PUT uses the low `n` bits of ARG only (10_state.md R35). -/
theorem putWriter_congr_arg {n : Nat} {s : State} {x : Word} (h : x.toNat % 2 ^ n = s.arg.toNat % 2 ^ n) :
    putWriter n { s with arg := x } = putWriter n s := by
  have ha : putArg n { s with arg := x } = putArg n s := congrArg (BitVec.ofNat 32) h
  have hw : widePut n { s with arg := x } = widePut n s := by
    simp only [widePut, openPutAcc, ha, putEmits]
  have ho : ∀ cnt, openPutAcc n cnt { s with arg := x } = openPutAcc n cnt s := fun cnt => by
    simp only [openPutAcc, ha]
  have hp : s.writer.put x.toNat n = s.writer.put s.arg.toNat n := by rw [Writer.put, h, ← Writer.put]
  have hs : ({ s with arg := x } : State).writer = s.writer := rfl
  simp only [putWriter, hw, ho, hs, hp]

/-- Flush emits the remaining bits with zeros above them (40_bitstream.md R122, 30_encoding.md R93). -/
theorem Writer.flush_bits {w : Writer} (h : w.Ok) :
    ∃ pad < 8, w.flush.out.flatMap byteBits = w.bits ++ List.replicate pad false := by
  obtain ⟨hc, ha⟩ := h
  by_cases hz : 0 < w.cnt
  · refine ⟨8 - w.cnt, by omega, ?_⟩
    simp only [Writer.flush, hz, if_true, Writer.out, List.reverse_cons, List.flatMap_append,
      List.flatMap_cons, List.flatMap_nil, List.append_nil, Writer.bits, List.append_assoc]
    congr 1
    have h8 : byteBits (BitVec.ofNat 8 w.acc) = natBits w.acc (w.cnt + (8 - w.cnt)) := by
      rw [byteBits, BitVec.toNat_ofNat, natBits_mod, show w.cnt + (8 - w.cnt) = 8 by omega]
    rw [h8, natBits_add, Nat.shiftRight_eq_div_pow, Nat.div_eq_of_lt ha]
    congr 1
    refine List.eq_replicate_iff.2 ⟨by simp, fun b hb => ?_⟩
    obtain ⟨k, -, rfl⟩ := List.mem_map.1 hb
    exact Nat.zero_testBit k
  · refine ⟨0, by omega, ?_⟩
    have h0 : w.cnt = 0 := by omega
    simp [Writer.flush, Writer.out, Writer.bits, h0]

/-- A flushed writer is empty. -/
theorem Writer.flush_eq (w : Writer) : w.flush.acc = 0 ∧ w.flush.cnt = 0 := ⟨rfl, rfl⟩

/-! ## The reader -/

/-- A list of bytes as a stream. -/
def Stream.ofBytes (bs : List Byte) : Stream := { byte := fun j => bs.getD j 0#8, len := bs.length }

theorem flatMap_byteBits_length (bs : List Byte) : (bs.flatMap byteBits).length = 8 * bs.length := by
  induction bs with
  | nil => rfl
  | cons b bs ih => rw [List.flatMap_cons, List.length_append, ih, byteBits_length, List.length_cons]; omega

/-- Stream bit `i` of a list of bytes (40_bitstream.md R120). -/
theorem Stream.ofBytes_bit {bs : List Byte} {i : Nat} (h : i < 8 * bs.length) :
    (Stream.ofBytes bs).bit i = (bs.flatMap byteBits).getD i false := by
  induction bs generalizing i with
  | nil => simp at h
  | cons b bs ih =>
    simp only [Stream.bit, Stream.ofBytes] at ih ⊢
    rw [List.flatMap_cons]
    by_cases hi : i < 8
    · rw [Nat.div_eq_of_lt hi, Nat.mod_eq_of_lt hi, List.getD_append _ _ _ _ (by simpa using hi), byteBits,
        natBits_getD hi]
      simp [BitVec.getLsbD]
    · obtain ⟨j, rfl⟩ : ∃ j, i = j + 8 := ⟨i - 8, by omega⟩
      rw [List.getD_append_right _ _ _ _ (by simp), byteBits_length, Nat.add_sub_cancel,
        ← ih (by simp only [List.length_cons] at h; omega)]
      rw [Nat.add_div_right _ (by norm_num), Nat.add_mod_right, List.getD_cons_succ]

/-- Bit `k` of a field is stream bit `pos + k` (30_encoding.md R86, 40_bitstream.md R123). -/
theorem Stream.field_testBit (t : Stream) (pos n k : Nat) :
    (t.field pos n).testBit k = (decide (k < n) && t.bit (pos + k)) := by
  induction n generalizing pos k with
  | zero => simp [Stream.field]
  | succ n ih =>
    rw [Stream.field]
    cases k with
    | zero =>
      cases t.bit pos <;> simp [Nat.testBit_zero, Nat.add_mod]
    | succ k =>
      rw [Nat.testBit_succ, show ((t.bit pos).toNat + 2 * t.field (pos + 1) n) / 2 = t.field (pos + 1) n by
        cases t.bit pos <;> simp <;> omega, ih, show pos + 1 + k = pos + (k + 1) by omega]
      simp

theorem Stream.field_lt (t : Stream) (pos n : Nat) : t.field pos n < 2 ^ n :=
  Nat.lt_pow_two_of_testBit _ fun k hk => by simp [Stream.field_testBit, Nat.not_lt.2 hk]

/-- A field depends on its own bits only. -/
theorem Stream.field_congr {t u : Stream} {pos n : Nat} (h : ∀ k < n, t.bit (pos + k) = u.bit (pos + k)) :
    t.field pos n = u.field pos n := by
  refine Nat.eq_of_testBit_eq fun k => ?_
  rw [Stream.field_testBit, Stream.field_testBit]
  by_cases hk : k < n
  · simp [hk, h k hk]
  · simp [hk]

/-- A field whose bits are a number's low bits is that number, cut to the field's width. -/
theorem Stream.field_eq_mod {t : Stream} {pos n v : Nat} (h : ∀ k < n, t.bit (pos + k) = v.testBit k) :
    t.field pos n = v % 2 ^ n := by
  refine Nat.eq_of_testBit_eq fun k => ?_
  rw [Stream.field_testBit, Nat.testBit_mod_two_pow]
  by_cases hk : k < n
  · simp [hk, h k hk]
  · simp [hk]

theorem Stream.field_one (t : Stream) (pos : Nat) : t.field pos 1 = (t.bit pos).toNat := by
  simp [Stream.field]

/-- Get answers the field, or faults with nothing consumed (40_bitstream.md R123). -/
theorem Stream.get_of_le {t : Stream} {pos n : Nat} (h : pos + n ≤ 8 * t.len) :
    t.get pos n = .ok (t.field pos n) := if_neg (by omega)

theorem Stream.get_of_lt {t : Stream} {pos n : Nat} (h : 8 * t.len < pos + n) :
    t.get pos n = .error ⟨.srcExhausted, 1, pos⟩ := if_pos h

theorem Stream.get_eq_ok {t : Stream} {pos n v : Nat} :
    t.get pos n = .ok v ↔ pos + n ≤ 8 * t.len ∧ v = t.field pos n := by
  unfold Stream.get
  split_ifs with h
  · simp; omega
  · simp only [Except.ok.injEq]; constructor
    · rintro rfl; exact ⟨by omega, rfl⟩
    · rintro ⟨-, rfl⟩; rfl

theorem Stream.get_eq_error {t : Stream} {pos n : Nat} {f : FaultReport} :
    t.get pos n = .error f ↔ 8 * t.len < pos + n ∧ f = ⟨.srcExhausted, 1, pos⟩ := by
  unfold Stream.get
  split_ifs with h
  · simp [h, eq_comm]
  · simp [h]

/-- What reading `k` fields in a row gives: all of them, with the position after the last, or the fields that are whole
and the fault at the position reached. -/
theorem Stream.fields_cases (t : Stream) (n k pos : Nat) :
    (pos + n * k ≤ 8 * t.len ∨ k = 0 →
      t.fields n k pos =
        { vals := (List.range k).map fun i => t.field (pos + n * i) n, pos := pos + n * k, fault := none }) ∧
    (8 * t.len < pos + n * k → 0 < k → pos ≤ 8 * t.len →
      ∃ j < k, pos + n * j ≤ 8 * t.len ∧ 8 * t.len < pos + n * (j + 1) ∧
        t.fields n k pos =
          { vals := (List.range j).map fun i => t.field (pos + n * i) n, pos := pos + n * j
            fault := some ⟨.srcExhausted, 1, pos + n * j⟩ }) := by
  induction k generalizing pos with
  | zero => exact ⟨fun _ => rfl, fun _ h => absurd h (by omega)⟩
  | succ k ih =>
    constructor
    · rintro (h | h)
      · have hle : pos + n ≤ 8 * t.len := by rw [Nat.mul_add_one] at h; omega
        have := (ih (pos + n)).1 (.inl (by rw [Nat.mul_add_one] at h; omega))
        rw [Stream.fields, Stream.get_of_le hle]
        simp only [this, FieldRun.mk.injEq, List.range_succ_eq_map, List.map_cons, List.map_map, and_true]
        refine ⟨?_, by rw [Nat.mul_add_one]; omega⟩
        congr 1
        refine List.map_congr_left fun i _ => ?_
        simp only [Function.comp_apply, Nat.succ_eq_add_one, Nat.mul_add_one]
        congr 1; omega
      · omega
    · intro h _ hp
      by_cases hle : pos + n ≤ 8 * t.len
      · by_cases hk : 0 < k
        · obtain ⟨j, hj, h1, h2, h3⟩ := (ih (pos + n)).2 (by rw [Nat.mul_add_one] at h; omega) hk hle
          refine ⟨j + 1, by omega, by rw [Nat.mul_add_one]; omega, by
            simp only [Nat.mul_add_one] at h2 ⊢; omega, ?_⟩
          rw [Stream.fields, Stream.get_of_le hle]
          simp only [h3, FieldRun.mk.injEq, List.range_succ_eq_map, List.map_cons, List.map_map,
            Option.some.injEq, FaultReport.mk.injEq, true_and]
          refine ⟨?_, by rw [Nat.mul_add_one]; omega, by rw [Nat.mul_add_one]; omega⟩
          congr 1
          refine List.map_congr_left fun i _ => ?_
          simp only [Function.comp_apply, Nat.succ_eq_add_one, Nat.mul_add_one]
          congr 1; omega
        · obtain rfl : k = 0 := by omega
          simp at h; omega
      · refine ⟨0, by omega, by simpa using hp, by simpa using hle, ?_⟩
        rw [Stream.fields, Stream.get_of_lt (by omega)]
        simp

end Sys2Proof.Machine
end

