-- ==== Sys2Proof/Laws/Huffman.lean ====
section
/-! SUPPORT. What the canonical-code functions can do (41_huffman.md R142 to R147): the order of the symbols, the code
values, the trie as a set of strings, and the walk. -/

namespace Sys2Proof.Machine

/-! ## The order of the symbols -/

theorem mem_symbolsOfLength {lens : List Nat} {l i : Nat} :
    i ∈ symbolsOfLength lens l ↔ lens[i]? = some l := by
  simp only [symbolsOfLength, List.mem_filterMap, Prod.exists, Option.ite_none_right_eq_some,
    Option.some.injEq]
  constructor
  · rintro ⟨a, b, h, rfl, rfl⟩
    exact List.mk_mem_zipIdx_iff_getElem?.1 h
  · intro h
    exact ⟨l, i, List.mk_mem_zipIdx_iff_getElem?.2 h, rfl, rfl⟩

theorem le_longest {lens : List Nat} {l : Nat} (h : l ∈ lens) : l ≤ longest lens := by
  induction lens with
  | nil => simp at h
  | cons a rest ih =>
    rcases List.mem_cons.1 h with rfl | h
    · exact Nat.le_max_left _ _
    · exact Nat.le_trans (ih h) (Nat.le_max_right _ _)

/-- The symbols sorted are the present ones with their lengths. -/
theorem mem_sortedSymbols {lens : List Nat} {i l : Nat} :
    (i, l) ∈ sortedSymbols lens ↔ lens[i]? = some l ∧ 0 < l := by
  simp only [sortedSymbols, List.mem_flatMap, List.mem_range', List.mem_map, Prod.mk.injEq,
    mem_symbolsOfLength]
  constructor
  · rintro ⟨a, ⟨k, hk, rfl⟩, b, hb, rfl, rfl⟩
    exact ⟨hb, by omega⟩
  · rintro ⟨h, hl⟩
    have hle := le_longest (List.mem_of_getElem? h)
    exact ⟨l, ⟨l - 1, by omega, by omega⟩, i, h, rfl, rfl⟩

theorem symbolsOfLength_pairwise (lens : List Nat) (l : Nat) : (symbolsOfLength lens l).Pairwise (· < ·) := by
  have h : (lens.zipIdx.map Prod.snd).Pairwise (· < ·) := by
    rw [List.zipIdx_map_snd]; exact List.pairwise_lt_range'
  rw [symbolsOfLength, List.pairwise_filterMap]
  rw [List.pairwise_map] at h
  refine h.imp fun {a b} hab x hx y hy => ?_
  simp only [Option.ite_none_right_eq_some, Option.some.injEq] at hx hy
  omega

/-- The order of the code: by length, then by symbol (41_huffman.md R142). -/
theorem sortedSymbols_pairwise (lens : List Nat) :
    (sortedSymbols lens).Pairwise fun a b => a.2 < b.2 ∨ (a.2 = b.2 ∧ a.1 < b.1) := by
  rw [sortedSymbols, List.pairwise_flatMap]
  constructor
  · intro l _
    rw [List.pairwise_map]
    exact (symbolsOfLength_pairwise lens l).imp fun h => .inr ⟨rfl, h⟩
  · refine List.Pairwise.imp (R := (· < ·)) (fun {a b} hab x hx y hy => ?_) List.pairwise_lt_range'
    obtain ⟨_, _, rfl⟩ := List.mem_map.1 hx
    obtain ⟨_, _, rfl⟩ := List.mem_map.1 hy
    exact .inl hab

theorem sortedSymbols_le (lens : List Nat) : (sortedSymbols lens).Pairwise fun a b => a.2 ≤ b.2 :=
  (sortedSymbols_pairwise lens).imp fun h => by omega

theorem sortedSymbols_nodup (lens : List Nat) : (sortedSymbols lens).Nodup :=
  (sortedSymbols_pairwise lens).imp fun {a b} h => by rintro rfl; omega

/-- Each present symbol is sorted once. -/
theorem sortedSymbols_perm (lens : List Nat) :
    (sortedSymbols lens).Perm ((lens.zipIdx.filter fun p => 0 < p.1).map Prod.swap) := by
  refine (List.perm_ext_iff_of_nodup (sortedSymbols_nodup lens) ?_).2 ?_
  · refine List.Nodup.map Prod.swap_injective (List.Nodup.filter _ ?_)
    refine List.Nodup.of_map Prod.snd ?_
    rw [List.zipIdx_map_snd]; exact List.nodup_range'
  · rintro ⟨i, l⟩
    rw [mem_sortedSymbols]
    simp only [List.mem_map, List.mem_filter, decide_eq_true_eq, Prod.exists, Prod.swap_prod_mk,
      Prod.mk.injEq]
    constructor
    · rintro ⟨h, hl⟩
      exact ⟨l, i, ⟨List.mk_mem_zipIdx_iff_getElem?.2 h, hl⟩, rfl, rfl⟩
    · rintro ⟨a, b, ⟨h, hl⟩, rfl, rfl⟩
      exact ⟨List.mk_mem_zipIdx_iff_getElem?.1 h, hl⟩

/-! ## Code values -/

/-- The code values Canon assigns after a code value: they keep the order's symbols and lengths, fit, and rise so that no
later one begins with an earlier one, read from the most significant bit. -/
theorem canonFrom_some {ss : List (Nat × Nat)} {code prev : Nat} {cs : List Codeword}
    (h : canonFrom code prev ss = some cs) (hs : ((0, prev) :: ss).Pairwise fun a b => a.2 ≤ b.2) :
    cs.map (fun c => (c.sym, c.len)) = ss ∧
      (∀ c ∈ cs, prev ≤ c.len ∧ c.code < 2 ^ c.len ∧ (code + 1) * 2 ^ (c.len - prev) ≤ c.code) ∧
      cs.Pairwise fun c d => c.len ≤ d.len ∧ (c.code + 1) * 2 ^ (d.len - c.len) ≤ d.code := by
  induction ss generalizing code prev cs with
  | nil => cases h; simp
  | cons a rest ih =>
    obtain ⟨i, l⟩ := a
    simp only [canonFrom] at h
    split at h
    · cases h
    next hlt =>
    rw [Option.map_eq_some_iff] at h
    obtain ⟨ds, hds, rfl⟩ := h
    rw [List.pairwise_cons] at hs
    obtain ⟨hp, hs⟩ := hs
    have hpl : prev ≤ l := hp (i, l) (by simp)
    have hs' : ((0, l) :: rest).Pairwise fun a b => a.2 ≤ b.2 := by
      rw [List.pairwise_cons] at hs ⊢; exact hs
    obtain ⟨h1, h2, h3⟩ := ih hds hs'
    refine ⟨by simp [h1], ?_, ?_⟩
    · intro c hc
      rcases List.mem_cons.1 hc with rfl | hc
      · exact ⟨hpl, Nat.lt_of_not_le hlt, by simp [Nat.shiftLeft_eq]⟩
      · obtain ⟨g1, g2, g3⟩ := h2 c hc
        refine ⟨Nat.le_trans hpl g1, g2, Nat.le_trans ?_ g3⟩
        rw [Nat.shiftLeft_eq, show c.len - prev = (l - prev) + (c.len - l) by omega, pow_add, ← Nat.mul_assoc]
        exact Nat.mul_le_mul_right _ (Nat.le_succ _)
    · rw [List.pairwise_cons]
      exact ⟨fun d hd => ⟨(h2 d hd).1, (h2 d hd).2.2⟩, h3⟩

/-- When the code overflows: the Kraft sum over `2 ^ L`, for any `L` no shorter than the lengths (41_huffman.md R143). -/
theorem canonFrom_eq_none {ss : List (Nat × Nat)} {code prev L : Nat}
    (hs : ((0, prev) :: ss).Pairwise fun a b => a.2 ≤ b.2) (hL : ∀ a ∈ ss, a.2 ≤ L) (hp : prev ≤ L)
    (hc : code < 2 ^ prev) :
    canonFrom code prev ss = none ↔
      2 ^ L < (code + 1) * 2 ^ (L - prev) + (ss.map fun a => 2 ^ (L - a.2)).sum := by
  induction ss generalizing code prev with
  | nil =>
    simp only [canonFrom, reduceCtorEq, List.map_nil, List.sum_nil, Nat.add_zero, false_iff, Nat.not_lt]
    calc (code + 1) * 2 ^ (L - prev) ≤ 2 ^ prev * 2 ^ (L - prev) := Nat.mul_le_mul_right _ hc
      _ = 2 ^ L := by rw [← pow_add]; congr 1; omega
  | cons a rest ih =>
    obtain ⟨i, l⟩ := a
    rw [List.pairwise_cons] at hs
    obtain ⟨hp', hs⟩ := hs
    have hpl : prev ≤ l := hp' (i, l) (by simp)
    have hlL : l ≤ L := hL (i, l) (by simp)
    have hs' : ((0, l) :: rest).Pairwise fun a b => a.2 ≤ b.2 := by
      rw [List.pairwise_cons] at hs ⊢; exact hs
    have hscale : (code + 1) * 2 ^ (L - prev) = ((code + 1) <<< (l - prev)) * 2 ^ (L - l) := by
      rw [Nat.shiftLeft_eq, Nat.mul_assoc, ← pow_add]; congr 2; omega
    have hpow : 2 ^ L = 2 ^ l * 2 ^ (L - l) := by rw [← pow_add]; congr 1; omega
    have hone : 0 < 2 ^ (L - l) := Nat.two_pow_pos _
    simp only [canonFrom, List.map_cons, List.sum_cons]
    rw [hscale]
    split
    next hle =>
      simp only [true_iff]
      have := Nat.mul_le_mul_right (2 ^ (L - l)) hle
      omega
    next hlt =>
      rw [Option.map_eq_none_iff, ih hs' (fun a ha => hL a (by simp [ha])) hlL (by omega), Nat.succ_mul]
      omega

/-! ## The trie as a set of strings -/

/-- The strings of a trie's leaves with their symbols. -/
def trieStrings : Trie → List (List Bool × Nat)
  | .absent => []
  | .leaf s => [([], s)]
  | .node z o =>
    (trieStrings z).map (fun p => (false :: p.1, p.2)) ++ (trieStrings o).map fun p => (true :: p.1, p.2)

/-- Every internal node has a leaf below it. -/
def triePruned : Trie → Prop
  | .absent => True
  | .leaf _ => True
  | .node z o => triePruned z ∧ triePruned o ∧ ¬(z = .absent ∧ o = .absent)

theorem mem_trieStrings_node {z o : Trie} {p : List Bool} {s : Nat} :
    (p, s) ∈ trieStrings (.node z o) ↔
      ∃ b q, p = b :: q ∧ (q, s) ∈ trieStrings (if b then o else z) := by
  simp only [trieStrings, List.mem_append, List.mem_map, Prod.exists, Prod.mk.injEq]
  constructor
  · rintro (⟨q, t, h, rfl, rfl⟩ | ⟨q, t, h, rfl, rfl⟩)
    · exact ⟨false, q, rfl, h⟩
    · exact ⟨true, q, rfl, h⟩
  · rintro ⟨b, q, rfl, h⟩
    cases b
    · exact .inl ⟨q, s, h, rfl, rfl⟩
    · exact .inr ⟨q, s, h, rfl, rfl⟩

theorem exists_trieString {t : Trie} (h : triePruned t) (hn : t ≠ .absent) : ∃ p s, (p, s) ∈ trieStrings t := by
  induction t with
  | absent => exact absurd rfl hn
  | leaf s => exact ⟨[], s, by simp [trieStrings]⟩
  | node z o ihz iho =>
    obtain ⟨hz, ho, hne⟩ := h
    by_cases hz0 : z = .absent
    · obtain ⟨p, s, hp⟩ := iho ho fun ho0 => hne ⟨hz0, ho0⟩
      exact ⟨true :: p, s, mem_trieStrings_node.2 ⟨true, p, rfl, hp⟩⟩
    · obtain ⟨p, s, hp⟩ := ihz hz hz0
      exact ⟨false :: p, s, mem_trieStrings_node.2 ⟨false, p, rfl, hp⟩⟩

/-- What adding a string to a trie gives. -/
theorem trieInsert_some {sym : Nat} {bs : List Bool} {t t' : Trie} (h : trieInsert sym bs t = some t') :
    t' ≠ .absent ∧ (triePruned t → triePruned t') ∧
      ∀ p s, (p, s) ∈ trieStrings t' ↔ (p = bs ∧ s = sym) ∨ (p, s) ∈ trieStrings t := by
  induction bs generalizing t t' with
  | nil =>
    cases t with
    | absent => cases h; simp [trieStrings, triePruned]
    | leaf s => cases h
    | node z o => cases h
  | cons b bs ih =>
    cases t with
    | absent =>
      simp only [trieInsert, Option.map_eq_some_iff] at h
      obtain ⟨u, hu, rfl⟩ := h
      obtain ⟨h1, h2, h3⟩ := ih hu
      cases b
      · refine ⟨by simp, fun _ => ⟨h2 trivial, trivial, fun h => h1 h.1⟩, fun p s => ?_⟩
        simp only [Bool.false_eq_true, if_false, mem_trieStrings_node]
        constructor
        · rintro ⟨b, q, rfl, hq⟩
          cases b
          · rcases (h3 q s).1 (by simpa using hq) with ⟨rfl, rfl⟩ | hq
            · simp
            · simp [trieStrings] at hq
          · simp [trieStrings] at hq
        · rintro (⟨rfl, rfl⟩ | h)
          · exact ⟨false, bs, rfl, by simpa using (h3 bs s).2 (.inl ⟨rfl, rfl⟩)⟩
          · simp [trieStrings] at h
      · refine ⟨by simp, fun _ => ⟨trivial, h2 trivial, fun h => h1 h.2⟩, fun p s => ?_⟩
        simp only [if_true, mem_trieStrings_node]
        constructor
        · rintro ⟨b, q, rfl, hq⟩
          cases b
          · simp [trieStrings] at hq
          · rcases (h3 q s).1 (by simpa using hq) with ⟨rfl, rfl⟩ | hq
            · simp
            · simp [trieStrings] at hq
        · rintro (⟨rfl, rfl⟩ | h)
          · exact ⟨true, bs, rfl, by simpa using (h3 bs s).2 (.inl ⟨rfl, rfl⟩)⟩
          · simp [trieStrings] at h
    | leaf s => cases h
    | node z o =>
      cases b
      · simp only [trieInsert, Bool.false_eq_true, if_false, Option.map_eq_some_iff] at h
        obtain ⟨u, hu, rfl⟩ := h
        obtain ⟨h1, h2, h3⟩ := ih hu
        refine ⟨by simp, fun hp => ⟨h2 hp.1, hp.2.1, fun h => h1 h.1⟩, fun p s => ?_⟩
        simp only [mem_trieStrings_node]
        constructor
        · rintro ⟨b, q, rfl, hq⟩
          cases b
          · rcases (h3 q s).1 (by simpa using hq) with ⟨rfl, rfl⟩ | hq
            · simp
            · exact .inr ⟨false, q, rfl, by simpa using hq⟩
          · exact .inr ⟨true, q, rfl, by simpa using hq⟩
        · rintro (⟨rfl, rfl⟩ | ⟨b, q, rfl, hq⟩)
          · exact ⟨false, bs, rfl, by simpa using (h3 bs s).2 (.inl ⟨rfl, rfl⟩)⟩
          · cases b
            · exact ⟨false, q, rfl, by simpa using (h3 q s).2 (.inr (by simpa using hq))⟩
            · exact ⟨true, q, rfl, by simpa using hq⟩
      · simp only [trieInsert, if_true, Option.map_eq_some_iff] at h
        obtain ⟨u, hu, rfl⟩ := h
        obtain ⟨h1, h2, h3⟩ := ih hu
        refine ⟨by simp, fun hp => ⟨hp.1, h2 hp.2.1, fun h => h1 h.2⟩, fun p s => ?_⟩
        simp only [mem_trieStrings_node]
        constructor
        · rintro ⟨b, q, rfl, hq⟩
          cases b
          · exact .inr ⟨false, q, rfl, by simpa using hq⟩
          · rcases (h3 q s).1 (by simpa using hq) with ⟨rfl, rfl⟩ | hq
            · simp
            · exact .inr ⟨true, q, rfl, by simpa using hq⟩
        · rintro (⟨rfl, rfl⟩ | ⟨b, q, rfl, hq⟩)
          · exact ⟨true, bs, rfl, by simpa using (h3 bs s).2 (.inl ⟨rfl, rfl⟩)⟩
          · cases b
            · exact ⟨false, q, rfl, by simpa using hq⟩
            · exact ⟨true, q, rfl, by simpa using (h3 q s).2 (.inr (by simpa using hq))⟩

/-- Adding a string fails exactly when it and a string of the trie are one a prefix of the other. -/
theorem trieInsert_eq_none {sym : Nat} {bs : List Bool} {t : Trie} (hp : triePruned t) :
    trieInsert sym bs t = none ↔ ∃ p s, (p, s) ∈ trieStrings t ∧ (p <+: bs ∨ bs <+: p) := by
  induction bs generalizing t with
  | nil =>
    cases t with
    | absent => simp [trieInsert, trieStrings]
    | leaf s => simp [trieInsert, trieStrings]
    | node z o =>
      obtain ⟨p, s, h⟩ := exists_trieString hp (by simp)
      simp only [trieInsert, true_iff]
      exact ⟨p, s, h, .inr (by simp)⟩
  | cons b bs ih =>
    cases t with
    | absent =>
      simp only [trieInsert, Option.map_eq_none_iff, trieStrings, List.not_mem_nil, false_and,
        exists_false, iff_false]
      rw [ih (t := .absent) trivial]
      simp [trieStrings]
    | leaf s => simp [trieInsert, trieStrings]
    | node z o =>
      obtain ⟨hz, ho, -⟩ := hp
      have key : trieInsert sym (b :: bs) (.node z o) = none ↔ trieInsert sym bs (if b then o else z) = none := by
        cases b <;> simp [trieInsert]
      rw [key, ih (by cases b <;> simpa)]
      constructor
      · rintro ⟨p, s, h, hpre⟩
        exact ⟨b :: p, s, mem_trieStrings_node.2 ⟨b, p, rfl, h⟩, by simpa [List.cons_prefix_cons] using hpre⟩
      · rintro ⟨p, s, h, hpre⟩
        obtain ⟨b', q, rfl, hq⟩ := mem_trieStrings_node.1 h
        rcases hpre with hpre | hpre <;> rw [List.cons_prefix_cons] at hpre <;> obtain ⟨rfl, hpre⟩ := hpre
        · exact ⟨q, s, hq, .inl hpre⟩
        · exact ⟨q, s, hq, .inr hpre⟩

/-- The trie of a code holds the transmitted strings and those of the trie it starts from. -/
theorem trieOf_some {order : CodeBitOrder} {cs : List Codeword} {t t' : Trie}
    (h : trieOf order cs t = some t') :
    (triePruned t → triePruned t') ∧
      ∀ p s, (p, s) ∈ trieStrings t' ↔
        (∃ c ∈ cs, p = transmitted order c.code c.len ∧ s = c.sym) ∨ (p, s) ∈ trieStrings t := by
  induction cs generalizing t with
  | nil => cases h; simp
  | cons c cs ih =>
    rw [trieOf] at h
    split at h
    · cases h
    next u hu =>
    obtain ⟨h1, h2, h3⟩ := trieInsert_some hu
    obtain ⟨g1, g2⟩ := ih h
    refine ⟨fun hp => g1 (h2 hp), fun p s => ?_⟩
    rw [g2, h3]
    simp only [List.mem_cons, exists_eq_or_imp, or_assoc, or_left_comm]

/-- The trie of a code cannot be built exactly when one string is a prefix of another, or of one already there. -/
theorem trieOf_eq_none {order : CodeBitOrder} {cs : List Codeword} {t : Trie} (hp : triePruned t) :
    trieOf order cs t = none ↔
      (∃ c ∈ cs, ∃ p s, (p, s) ∈ trieStrings t ∧
        (p <+: transmitted order c.code c.len ∨ transmitted order c.code c.len <+: p)) ∨
      ¬cs.Pairwise fun a b =>
        ¬(transmitted order a.code a.len <+: transmitted order b.code b.len ∨
          transmitted order b.code b.len <+: transmitted order a.code a.len) := by
  induction cs generalizing t with
  | nil => simp [trieOf]
  | cons c cs ih =>
    rw [trieOf]
    split
    next hn =>
      simp only [true_iff]
      exact .inl ⟨c, by simp, (trieInsert_eq_none hp).1 hn⟩
    next u hu =>
      have hno : ¬∃ p s, (p, s) ∈ trieStrings t ∧
          (p <+: transmitted order c.code c.len ∨ transmitted order c.code c.len <+: p) := by
        rw [← trieInsert_eq_none (sym := c.sym) hp, hu]; simp
      obtain ⟨h1, h2, h3⟩ := trieInsert_some hu
      rw [ih (h2 hp), List.pairwise_cons]
      constructor
      · rintro (⟨d, hd, p, s, hps, hpre⟩ | hpw)
        · rcases (h3 p s).1 hps with ⟨rfl, rfl⟩ | hps
          · exact .inr fun h => h.1 d hd hpre
          · exact .inl ⟨d, by simp [hd], p, s, hps, hpre⟩
        · exact .inr fun h => hpw h.2
      · rintro (⟨d, hd, p, s, hps, hpre⟩ | hpw)
        · rcases List.mem_cons.1 hd with rfl | hd
          · exact absurd ⟨p, s, hps, hpre⟩ hno
          · exact .inl ⟨d, hd, p, s, (h3 p s).2 (.inr hps), hpre⟩
        · by_cases hcs : ∀ d ∈ cs,
              ¬(transmitted order c.code c.len <+: transmitted order d.code d.len ∨
                transmitted order d.code d.len <+: transmitted order c.code c.len)
          · exact .inr fun h => hpw ⟨hcs, h⟩
          · push Not at hcs
            obtain ⟨d, hd, hpre⟩ := hcs
            exact .inl ⟨d, hd, _, _, (h3 _ _).2 (.inl ⟨rfl, rfl⟩), hpre⟩

@[simp] theorem transmitted_length (order : CodeBitOrder) (code len : Nat) :
    (transmitted order code len).length = len := by
  cases order <;> simp [transmitted]

/-! ## The walk -/

/-- The descent along a string of the trie that the stream holds ends at its leaf (41_huffman.md R147). -/
theorem descend_of_mem {t : Stream} {tree : Trie} {p : List Bool} {s pos : Nat} (h : (p, s) ∈ trieStrings tree)
    (hlen : pos + p.length ≤ 8 * t.len) (hbits : ∀ k (hk : k < p.length), t.bit (pos + k) = p[k]) :
    descend t tree pos = (.ok s, pos + p.length) := by
  induction tree generalizing p pos with
  | absent => simp [trieStrings] at h
  | leaf s' =>
    simp only [trieStrings, List.mem_singleton, Prod.mk.injEq] at h
    obtain ⟨rfl, rfl⟩ := h
    rfl
  | node z o ihz iho =>
    obtain ⟨b, q, rfl, hq⟩ := mem_trieStrings_node.1 h
    simp only [List.length_cons] at hlen
    have h0 : t.bit pos = b := hbits 0 (by simp)
    have htail : ∀ k (hk : k < q.length), t.bit (pos + 1 + k) = q[k] := fun k hk => by
      have := hbits (k + 1) (by simp [hk])
      rwa [show pos + (k + 1) = pos + 1 + k by omega, List.getElem_cons_succ] at this
    rw [descend, Stream.get_of_le (by omega), Stream.field_one, h0]
    cases b
    · simp only [Bool.toNat_false, if_true]
      rw [ihz hq (by omega) htail, List.length_cons]
      congr 1; omega
    · simp only [Bool.toNat_true, Nat.one_ne_zero, if_false]
      rw [iho hq (by omega) htail, List.length_cons]
      congr 1; omega

/-- Every end of a descent: a leaf, a place outside the tree, or the end of the stream, each with the position reached. -/
theorem descend_cases (t : Stream) (tree : Trie) (pos : Nat) :
    (∃ s n, descend t tree pos = (.ok s, pos + n)) ∨
      (∃ n, descend t tree pos = (.error ⟨.codeUnterminated, 0, pos + n⟩, pos + n)) ∨
      ∃ n, descend t tree pos = (.error ⟨.srcExhausted, 1, pos + n⟩, pos + n) ∧ 8 * t.len < pos + n + 1 := by
  induction tree generalizing pos with
  | absent => exact .inr (.inl ⟨0, rfl⟩)
  | leaf s => exact .inl ⟨s, 0, rfl⟩
  | node z o ihz iho =>
    by_cases hp : pos + 1 ≤ 8 * t.len
    · rw [descend, Stream.get_of_le hp, Stream.field_one]
      have step : ∀ c, ((∃ s n, descend t c (pos + 1) = (.ok s, pos + 1 + n)) ∨
          (∃ n, descend t c (pos + 1) = (.error ⟨.codeUnterminated, 0, pos + 1 + n⟩, pos + 1 + n)) ∨
          ∃ n, descend t c (pos + 1) = (.error ⟨.srcExhausted, 1, pos + 1 + n⟩, pos + 1 + n) ∧
            8 * t.len < pos + 1 + n + 1) →
          (∃ s n, descend t c (pos + 1) = (.ok s, pos + n)) ∨
          (∃ n, descend t c (pos + 1) = (.error ⟨.codeUnterminated, 0, pos + n⟩, pos + n)) ∨
          ∃ n, descend t c (pos + 1) = (.error ⟨.srcExhausted, 1, pos + n⟩, pos + n) ∧
            8 * t.len < pos + n + 1 := by
        rintro c (⟨s, n, h⟩ | ⟨n, h⟩ | ⟨n, h, hlt⟩)
        · exact .inl ⟨s, 1 + n, by rw [h, Nat.add_assoc]⟩
        · exact .inr (.inl ⟨1 + n, by rw [h, Nat.add_assoc]⟩)
        · exact .inr (.inr ⟨1 + n, by rw [h, Nat.add_assoc], by omega⟩)
      cases t.bit pos
      · exact step z (ihz (pos + 1))
      · exact step o (iho (pos + 1))
    · refine .inr (.inr ⟨0, ?_, by omega⟩)
      rw [descend, Stream.get_of_lt (by omega)]
      rfl

/-- The next `n` bits of a stream. -/
def Stream.bits (t : Stream) (pos n : Nat) : List Bool := (List.range n).map fun k => t.bit (pos + k)

theorem Stream.bits_succ (t : Stream) (pos n : Nat) : t.bits pos (n + 1) = t.bit pos :: t.bits (pos + 1) n := by
  simp only [Stream.bits, List.range_succ_eq_map, List.map_cons, List.map_map]
  congr 1
  exact List.map_congr_left fun k _ => by simp only [Function.comp]; congr 1; omega

theorem Stream.bits_snoc (t : Stream) (pos n : Nat) : t.bits pos (n + 1) = t.bits pos n ++ [t.bit (pos + n)] := by
  simp [Stream.bits, List.range_succ]

theorem descend_node {t : Stream} {z o : Trie} {pos : Nat} (h : pos + 1 ≤ 8 * t.len) :
    descend t (.node z o) pos = descend t (if t.bit pos then o else z) (pos + 1) := by
  rw [descend, Stream.get_of_le h, Stream.field_one]
  cases t.bit pos <;> rfl

/-- The descent along a proper prefix of a string of the trie reaches an internal node, whose strings are the rests of
those the prefix begins (41_huffman.md R147). -/
theorem descend_of_prefix {t : Stream} {n : Nat} {tree : Trie} {pos : Nat} {q : List Bool} {s : Nat}
    (hq : (q, s) ∈ trieStrings tree) (hp : t.bits pos n <+: q) (hn : n < q.length) (hlen : pos + n ≤ 8 * t.len)
    (ht : triePruned tree) :
    ∃ z o, descend t tree pos = descend t (.node z o) (pos + n) ∧ triePruned (.node z o) ∧
      ∀ p s, (p, s) ∈ trieStrings (.node z o) ↔ (t.bits pos n ++ p, s) ∈ trieStrings tree := by
  induction n generalizing tree pos q with
  | zero =>
    cases tree with
    | absent => simp [trieStrings] at hq
    | leaf s' =>
      simp only [trieStrings, List.mem_singleton, Prod.mk.injEq] at hq
      simp [hq.1] at hn
    | node z o => exact ⟨z, o, rfl, ht, fun _ _ => Iff.rfl⟩
  | succ n ih =>
    rw [Stream.bits_succ] at hp ⊢
    cases tree with
    | absent => simp [trieStrings] at hq
    | leaf s' =>
      simp only [trieStrings, List.mem_singleton, Prod.mk.injEq] at hq
      simp [hq.1] at hn
    | node z o =>
      obtain ⟨b, q', rfl, hq'⟩ := mem_trieStrings_node.1 hq
      obtain ⟨rfl, hp'⟩ := List.cons_prefix_cons.1 hp
      have hc : triePruned (if t.bit pos then o else z) := by
        cases t.bit pos
        · exact ht.1
        · exact ht.2.1
      obtain ⟨z', o', h1, h2, h3⟩ := ih hq' hp' (by simpa using hn) (by omega) hc
      refine ⟨z', o', ?_, h2, fun p s => ?_⟩
      · rw [descend_node (by omega), h1]; congr 1; omega
      · rw [h3, List.cons_append, mem_trieStrings_node]
        constructor
        · exact fun h => ⟨_, _, rfl, h⟩
        · rintro ⟨b, q, he, h⟩
          obtain ⟨rfl, rfl⟩ := List.cons.inj he
          exact h

/-- A bit that leads from an internal node to no string ends the descent with CODE_UNTERMINATED (41_huffman.md R147). -/
theorem descend_node_of_none {t : Stream} {z o : Trie} {pos : Nat} (h : pos + 1 ≤ 8 * t.len)
    (ht : triePruned (.node z o)) (hn : ∀ p s, (t.bit pos :: p, s) ∉ trieStrings (.node z o)) :
    descend t (.node z o) pos = (.error ⟨.codeUnterminated, 0, pos + 1⟩, pos + 1) := by
  rw [descend_node h]
  have hc : triePruned (if t.bit pos then o else z) := by
    cases t.bit pos
    · exact ht.1
    · exact ht.2.1
  have h0 : (if t.bit pos then o else z) = .absent := by
    by_contra hne
    obtain ⟨p, s, hp⟩ := exists_trieString hc hne
    exact hn p s (mem_trieStrings_node.2 ⟨_, _, rfl, hp⟩)
  rw [h0]; rfl

end Sys2Proof.Machine
end

