-- ==== Sys2Proof/Laws/BlockCodec.lean ====
section
/-! SUPPORT. What each part of Encode appends (42_block_codec.md R161), and what each part of Decode answers (R163): its
success as an equation, and what it leaves alone on every path. -/

namespace Sys2Proof.Machine

/-! ## Encode -/

theorem Writer.putBits_spec {w : Writer} (h : w.Ok) (bits : List Bool) :
    (w.putBits bits).Ok ∧ (w.putBits bits).bits = w.bits ++ bits := by
  induction bits generalizing w with
  | nil => exact ⟨h, by simp [Writer.putBits]⟩
  | cons b bits ih =>
    obtain ⟨h1, h2⟩ := ih (h.put b.toNat 1)
    refine ⟨h1, ?_⟩
    change ((w.put b.toNat 1).putBits bits).bits = _
    rw [h2, Writer.bits_put h.2, List.append_assoc]
    cases b <;> rfl

theorem Writer.putTimes_spec {w : Writer} (h : w.Ok) (v n k : Nat) :
    (Writer.putTimes v n k w).Ok ∧
      (Writer.putTimes v n k w).bits = w.bits ++ (List.replicate k (natBits v n)).flatten := by
  induction k generalizing w with
  | zero => exact ⟨h, by simp [Writer.putTimes]⟩
  | succ k ih =>
    obtain ⟨h1, h2⟩ := ih (h.put v n)
    refine ⟨h1, ?_⟩
    rw [Writer.putTimes, h2, Writer.bits_put h.2, List.append_assoc, List.replicate_succ, List.flatten_cons]

/-- The 1054 bits of a block's header (30_encoding.md R88, 41_huffman.md R150). -/
def headerBits (count : Nat) : List Bool :=
  natBits count 16 ++ (natBits 1 1 ++ (natBits 5 4 ++ (natBits 256 9 ++
    (List.replicate 256 (natBits 6 4)).flatten)))

theorem headerBits_length (count : Nat) : (headerBits count).length = 1054 := by
  have h : (List.replicate 256 (natBits 6 4)).flatten.length = 1024 := by
    rw [List.length_flatten, List.map_replicate, List.sum_replicate, natBits_length]; rfl
  simp only [headerBits, List.length_append, natBits_length, h]

theorem Writer.putHeader_spec {w : Writer} (h : w.Ok) (count : Nat) :
    (w.putHeader count).Ok ∧ (w.putHeader count).bits = w.bits ++ headerBits count := by
  have h1 := h.put count litcountBits
  have h2 := h1.put 1 1
  have h3 := h2.put encCltLen cltLenBits
  have h4 := h3.put encNsym litnBits
  obtain ⟨h5, h6⟩ := Writer.putTimes_spec h4 (encDepth - depthMin) depthFieldBits encNsym
  refine ⟨h5, ?_⟩
  rw [Writer.putHeader, h6, Writer.bits_put h3.2, Writer.bits_put h2.2, Writer.bits_put h1.2,
    Writer.bits_put h.2]
  simp only [List.append_assoc]
  rfl

theorem Writer.putLiterals_spec {w : Writer} (h : w.Ok) (order : CodeBitOrder) (lits : List Byte) :
    (w.putLiterals order lits).Ok ∧
      (w.putLiterals order lits).bits = w.bits ++ lits.flatMap fun d => transmitted order d.toNat 8 := by
  induction lits generalizing w with
  | nil => exact ⟨h, by simp [Writer.putLiterals]⟩
  | cons d lits ih =>
    obtain ⟨h1, h2⟩ := Writer.putBits_spec h (transmitted order d.toNat encDepth)
    obtain ⟨h3, h4⟩ := ih h1
    refine ⟨h3, ?_⟩
    change ((w.putBits (transmitted order d.toNat encDepth)).putLiterals order lits).bits = _
    rw [h4, h2, List.append_assoc, List.flatMap_cons]
    rfl

/-- The bits of one encoded block. -/
def blockBits (order : CodeBitOrder) (lits : List Byte) : List Bool :=
  headerBits lits.length ++ lits.flatMap fun d => transmitted order d.toNat 8

theorem blockBits_length (order : CodeBitOrder) (lits : List Byte) :
    (blockBits order lits).length = 1054 + 8 * lits.length := by
  have : (lits.flatMap fun d => transmitted order d.toNat 8).length = 8 * lits.length := by
    induction lits with
    | nil => rfl
    | cons d lits ih =>
      rw [List.flatMap_cons, List.length_append, transmitted_length, ih, List.length_cons]; omega
  rw [blockBits, List.length_append, headerBits_length, this]

/-- One block of Encode appends the block's bits (42_block_codec.md R161). -/
theorem encodeBlock_spec {order : CodeBitOrder} {lits : List Byte} {e : EncodeRun} (h : e.writer.Ok) :
    (encodeBlock order lits e).writer.Ok ∧
      (encodeBlock order lits e).writer.bits = e.writer.bits ++ blockBits order lits ∧
      (encodeBlock order lits e).blocks = e.blocks + 1 ∧
      (encodeBlock order lits e).lastLits = lits.length := by
  obtain ⟨h1, h2⟩ := Writer.putHeader_spec h lits.length
  obtain ⟨h3, h4⟩ := Writer.putLiterals_spec h1 order lits
  exact ⟨h3, by rw [encodeBlock, h4, h2, List.append_assoc]; rfl, rfl, rfl⟩

theorem encodeBlocks_nil (order : CodeBitOrder) (M fuel : Nat) (e : EncodeRun) :
    encodeBlocks order M fuel [] e = e := by
  cases fuel <;> rfl

/-- One round of the block loop: a block of at most `M` bytes, then the rest. -/
theorem encodeBlocks_step {order : CodeBitOrder} {M fuel : Nat} {data : List Byte} {e : EncodeRun}
    (h : data ≠ []) :
    encodeBlocks order M (fuel + 1) data e =
      encodeBlocks order M fuel (data.drop M) (encodeBlock order (data.take M) e) := by
  cases data with
  | nil => exact absurd rfl h
  | cons d ds => rfl

/-! ## Decode: the parts on success -/

theorem readCount_eq_ok {t : Stream} {T : Nat} {c : Cursor} {l : Nat} {c' : Cursor} :
    readCount t T c = .ok (l, c') ↔
      c.brPos + 16 ≤ 8 * t.len ∧ l = t.field c.brPos 16 ∧ l ≤ T - c.produced ∧
        c' = { c with brPos := c.brPos + 16, blkCount := c.blkCount + 1, lastLits := l } := by
  by_cases hle : c.brPos + 16 ≤ 8 * t.len
  · simp only [readCount, litcountBits, Stream.get_of_le hle, hle, true_and]
    generalize t.field c.brPos 16 = v
    split_ifs with hlt
    · simp only [false_iff]; rintro ⟨rfl, h2, -⟩; omega
    · simp only [Except.ok.injEq, Prod.mk.injEq]
      constructor
      · rintro ⟨rfl, rfl⟩; exact ⟨rfl, by omega, rfl⟩
      · rintro ⟨rfl, -, rfl⟩; exact ⟨rfl, rfl⟩
  · simp [readCount, litcountBits, Stream.get_of_lt (show 8 * t.len < c.brPos + 16 by omega), hle]

theorem readShortClt_eq_ok {t : Stream} {c c' : Cursor} :
    readShortClt t c = .ok c' ↔
      c.brPos + 4 ≤ 8 * t.len ∧
        c' = { c with
          brPos := c.brPos + 4, cltLen := List.replicate cltSyms (t.field c.brPos 4)
          lastClt := { short := true, len := BitVec.ofNat 4 (t.field c.brPos 4), valid := true } } := by
  unfold readShortClt
  cases h : t.get c.brPos cltLenBits with
  | error f =>
    have := (Stream.get_eq_error.1 h).1
    simp only [cltLenBits] at this
    simp; omega
  | ok v =>
    obtain ⟨h1, rfl⟩ := Stream.get_eq_ok.1 h
    simp only [cltLenBits] at h1 ⊢
    simp only [Except.ok.injEq, h1, true_and, eq_comm]

theorem readFullClt_eq_ok {t : Stream} {c c' : Cursor} :
    readFullClt t c = .ok c' ↔
      c.brPos + 76 ≤ 8 * t.len ∧
        c' = { c with
          brPos := c.brPos + 76, cltLen := (List.range 19).map fun i => t.field (c.brPos + 4 * i) 4
          lastClt := { short := false, len := 0#4, valid := true } } := by
  unfold readFullClt
  by_cases hle : c.brPos + 76 ≤ 8 * t.len
  · have := (t.fields_cases 4 19 c.brPos).1 (.inl hle)
    simp only [cltLenBits, cltSyms, this, Except.ok.injEq, hle, true_and, eq_comm]
  · simp only [hle, false_and, iff_false]
    cases hf : (t.fields cltLenBits cltSyms c.brPos).fault with
    | some f => simp
    | none =>
      exfalso
      by_cases hp : c.brPos ≤ 8 * t.len
      · obtain ⟨j, -, -, -, he⟩ := (t.fields_cases 4 19 c.brPos).2 (by omega) (by norm_num) hp
        simp [cltLenBits, cltSyms, he] at hf
      · rw [cltLenBits, cltSyms, Stream.fields, Stream.get_of_lt (by omega)] at hf
        cases hf

theorem readDescriptor_eq_ok {t : Stream} {c c' : Cursor} :
    readDescriptor t c = .ok c' ↔
      c.brPos + 1 ≤ 8 * t.len ∧
        (if t.bit c.brPos then readShortClt t { c with brPos := c.brPos + 1 }
          else readFullClt t { c with brPos := c.brPos + 1 }) = .ok c' := by
  unfold readDescriptor
  by_cases hle : c.brPos + 1 ≤ 8 * t.len
  · rw [Stream.get_of_le hle, Stream.field_one]
    cases t.bit c.brPos <;> simp [hle]
  · rw [Stream.get_of_lt (by omega)]
    simp [hle]

theorem checkClt_eq_ok {c c' : Cursor} : checkClt c = .ok c' ↔ canon c.cltLen ≠ none ∧ c' = c := by
  unfold checkClt
  cases canon c.cltLen <;> simp [eq_comm]

theorem readClt_eq_ok {t : Stream} {c c' : Cursor} :
    readClt t c = .ok c' ↔ readDescriptor t c = .ok c' ∧ canon c'.cltLen ≠ none := by
  unfold readClt
  simp only [bind, Except.bind]
  cases readDescriptor t c with
  | error p => simp
  | ok d =>
    simp only [checkClt_eq_ok, Except.ok.injEq]
    constructor
    · rintro ⟨h, rfl⟩; exact ⟨rfl, h⟩
    · rintro ⟨rfl, h⟩; exact ⟨h, rfl⟩

theorem readLitTable_eq_ok {t : Stream} {c c' : Cursor} :
    readLitTable t c = .ok c' ↔
      ∃ n, n = t.field c.brPos 9 ∧ n ≤ 510 ∧ c.brPos + 9 + 4 * n ≤ 8 * t.len ∧
        c' = { c with
          brPos := c.brPos + 9 + 4 * n, lastLitn := n
          litLen := ((List.range n).map fun i => t.field (c.brPos + 9 + 4 * i) 4 + 2) ++
            List.replicate (510 - n) 0 } := by
  by_cases h9 : c.brPos + 9 ≤ 8 * t.len
  · simp only [readLitTable, litnBits, Stream.get_of_le h9]
    generalize t.field c.brPos 9 = v
    split_ifs with hlt
    · simp only [false_iff]
      rintro ⟨n, rfl, h2, -, -⟩; simp only [litAlphabet] at hlt; omega
    · simp only [litAlphabet, Nat.not_lt] at hlt
      by_cases hle : c.brPos + 9 + 4 * v ≤ 8 * t.len
      · have := (t.fields_cases 4 v (c.brPos + 9)).1 (.inl hle)
        simp only [depthFieldBits, this, Except.ok.injEq, depthMin, litAlphabet, List.map_map]
        constructor
        · rintro rfl; exact ⟨_, rfl, hlt, hle, rfl⟩
        · rintro ⟨n, rfl, -, -, rfl⟩; rfl
      · obtain ⟨j, -, -, -, he⟩ :=
          (t.fields_cases 4 v (c.brPos + 9)).2 (by omega)
            (Nat.pos_of_ne_zero fun h0 => hle (by rw [h0]; omega)) h9
        simp only [depthFieldBits, he, reduceCtorEq, false_iff]
        rintro ⟨n, rfl, -, h3, -⟩; exact hle h3
  · simp only [readLitTable, litnBits, Stream.get_of_lt (show 8 * t.len < c.brPos + 9 by omega),
      reduceCtorEq, false_iff]
    rintro ⟨n, -, -, h1, -⟩; omega

theorem placeTree_eq_ok {order : CodeBitOrder} {c c' : Cursor} :
    placeTree order c = .ok c' ↔ ∃ tree, buildTree order c.litLen = .ok tree ∧ c' = { c with tree := tree } := by
  unfold placeTree
  cases buildTree order c.litLen with
  | error e => simp
  | ok tree => simp [eq_comm]

/-- A block whose parts before its literals were read decodes its literals with their tree. -/
theorem decodeBlock_of_parts {order : CodeBitOrder} {t : Stream} {T l : Nat} {c c1 c2 c3 : Cursor} {tree : Trie}
    (h1 : readCount t T c = .ok (l, c1)) (h2 : readClt t c1 = .ok c2) (h3 : readLitTable t c2 = .ok c3)
    (h4 : buildTree order c3.litLen = .ok tree) :
    decodeBlock order t T c = decodeLiterals t l { c3 with tree := tree } := by
  simp only [decodeBlock, bind, Except.bind, h1, h2, h3, placeTree, h4]

/-- One block of Decode succeeds exactly when its five parts do, each from where the one before it ended. -/
theorem decodeBlock_eq_ok {order : CodeBitOrder} {t : Stream} {T : Nat} {c c' : Cursor} :
    decodeBlock order t T c = .ok c' ↔
      ∃ l c1 c2 c3 c4, readCount t T c = .ok (l, c1) ∧ readClt t c1 = .ok c2 ∧ readLitTable t c2 = .ok c3 ∧
        placeTree order c3 = .ok c4 ∧ decodeLiterals t l c4 = .ok c' := by
  unfold decodeBlock
  simp only [bind, Except.bind]
  cases h1 : readCount t T c with
  | error e => simp
  | ok p =>
    obtain ⟨l, c1⟩ := p
    cases h2 : readClt t c1 with
    | error e => simp [h2]
    | ok c2 =>
      cases h3 : readLitTable t c2 with
      | error e => simp [h2, h3]
      | ok c3 =>
        cases h4 : placeTree order c3 with
        | error e => simp [h2, h3, h4]
        | ok c4 => simp [h2, h3, h4]

/-! ## Decode: what every part keeps -/

/-- The tables of a cursor have their sizes and legal entries (41_huffman.md R140, R141). -/
structure Cursor.TablesOk (c : Cursor) : Prop where
  litLength : c.litLen.length = litAlphabet
  litLegal : ∀ d ∈ c.litLen, LegalDepth d
  cltLength : c.cltLen.length = cltSyms
  cltLegal : ∀ l ∈ c.cltLen, l ≤ 15

theorem overlay_length {vals old : List Nat} (h : vals.length ≤ old.length) :
    (overlay vals old).length = old.length := by
  simp only [overlay, List.length_append, List.length_drop]; omega

theorem mem_overlay {vals old : List Nat} {x : Nat} (h : x ∈ overlay vals old) : x ∈ vals ∨ x ∈ old := by
  rcases List.mem_append.1 h with h | h
  · exact .inl h
  · exact .inr (List.mem_of_mem_drop h)

theorem legalDepth_of_lt {v : Nat} (h : v < 2 ^ depthFieldBits) : LegalDepth (v + depthMin) := by
  simp only [depthFieldBits, LegalDepth, depthMin, depthMax] at *
  omega

/-- What a part of Decode may do from `c` to `c'` without emitting: the position moves forward inside the stream, the
counters and tables change, the tables stay legal, the output does not change. -/
structure Cursor.Reads (t : Stream) (c c' : Cursor) : Prop where
  pos : c.brPos ≤ c'.brPos
  inside : c.brPos ≤ 8 * t.len → c'.brPos ≤ 8 * t.len
  produced : c'.produced = c.produced
  out : c'.outRev = c.outRev
  tables : c.TablesOk → c'.TablesOk

theorem Cursor.Reads.refl (t : Stream) (c : Cursor) : Cursor.Reads t c c := ⟨Nat.le_refl _, id, rfl, rfl, id⟩

theorem Cursor.Reads.trans {t : Stream} {a b c : Cursor} (h : Cursor.Reads t a b) (g : Cursor.Reads t b c) :
    Cursor.Reads t a c :=
  ⟨Nat.le_trans h.pos g.pos, fun x => g.inside (h.inside x), g.produced.trans h.produced, g.out.trans h.out,
    fun x => g.tables (h.tables x)⟩

/-- Both ends of a part: the cursor is related to the one it starts from, and a fault's position is BR_POS. -/
def Decoding.Ends (P : Cursor → Prop) : Decoding → Prop
  | .ok c => P c
  | .error (f, c) => P c ∧ f.pos = c.brPos

theorem Decoding.Ends.mono {P Q : Cursor → Prop} {r : Decoding} (h : r.Ends P) (hpq : ∀ c, P c → Q c) :
    r.Ends Q := by
  cases r with
  | ok c => exact hpq c h
  | error p => exact ⟨hpq _ h.1, h.2⟩

theorem Decoding.Ends.bind {P Q : Cursor → Prop} {r : Decoding} {k : Cursor → Decoding} (h : r.Ends P)
    (hk : ∀ c, P c → (k c).Ends Q) (hpq : ∀ c, P c → Q c) : Decoding.Ends Q (r >>= k) := by
  cases r with
  | ok c => exact hk c h
  | error p => exact ⟨hpq _ h.1, h.2⟩

theorem Stream.fields_pos {t : Stream} {n : Nat} (k pos : Nat) :
    pos ≤ (t.fields n k pos).pos ∧ (pos ≤ 8 * t.len → (t.fields n k pos).pos ≤ 8 * t.len) ∧
      ∀ f, (t.fields n k pos).fault = some f → f.pos = (t.fields n k pos).pos := by
  induction k generalizing pos with
  | zero => exact ⟨Nat.le_refl _, id, fun f h => nomatch h⟩
  | succ k ih =>
    rw [Stream.fields]
    cases h : t.get pos n with
    | error f =>
      obtain ⟨-, rfl⟩ := Stream.get_eq_error.1 h
      exact ⟨Nat.le_refl _, id, fun f h => by cases h; rfl⟩
    | ok v =>
      obtain ⟨h1, -⟩ := Stream.get_eq_ok.1 h
      obtain ⟨g1, g2, g3⟩ := ih (pos + n)
      exact ⟨by simp only; omega, fun _ => g2 h1, g3⟩

theorem Stream.fields_vals {t : Stream} {n : Nat} (k pos : Nat) :
    (t.fields n k pos).vals.length ≤ k ∧ (∀ v ∈ (t.fields n k pos).vals, v < 2 ^ n) ∧
      ((t.fields n k pos).fault = none → (t.fields n k pos).vals.length = k) := by
  induction k generalizing pos with
  | zero => simp [Stream.fields]
  | succ k ih =>
    rw [Stream.fields]
    cases h : t.get pos n with
    | error f => simp
    | ok v =>
      obtain ⟨-, rfl⟩ := Stream.get_eq_ok.1 h
      obtain ⟨g1, g2, g3⟩ := ih (pos + n)
      refine ⟨by simp only [List.length_cons]; omega, ?_, fun hf => by
        simp only [List.length_cons]; rw [g3 hf]⟩
      intro w hw
      rcases List.mem_cons.1 hw with rfl | hw
      · exact Stream.field_lt _ _ _
      · exact g2 w hw

theorem readShortClt_ends (t : Stream) (c : Cursor) : (readShortClt t c).Ends (Cursor.Reads t c) := by
  unfold readShortClt
  cases h : t.get c.brPos cltLenBits with
  | error f =>
    obtain ⟨-, rfl⟩ := Stream.get_eq_error.1 h
    exact ⟨.refl t c, rfl⟩
  | ok v =>
    obtain ⟨h1, hv⟩ := Stream.get_eq_ok.1 h
    refine ⟨Nat.le_add_right _ _, fun _ => h1, rfl, rfl, fun hc => ⟨hc.litLength, hc.litLegal, by simp, ?_⟩⟩
    intro l hl
    have hlt := Stream.field_lt t c.brPos cltLenBits
    rw [← hv] at hlt
    rw [List.eq_of_mem_replicate hl]
    simp only [cltLenBits] at hlt
    omega

theorem readFullClt_ends (t : Stream) (c : Cursor) : (readFullClt t c).Ends (Cursor.Reads t c) := by
  obtain ⟨h1, h2, h3⟩ := Stream.fields_pos (t := t) (n := cltLenBits) cltSyms c.brPos
  obtain ⟨g1, g2, g3⟩ := Stream.fields_vals (t := t) (n := cltLenBits) cltSyms c.brPos
  have hle : ∀ l ∈ (t.fields cltLenBits cltSyms c.brPos).vals, l ≤ 15 := fun l hl => by
    have := g2 l hl
    simp only [cltLenBits] at this
    omega
  unfold readFullClt
  simp only
  split
  next f hf =>
    refine ⟨⟨h1, h2, rfl, rfl, fun hc => ⟨hc.litLength, hc.litLegal, ?_, ?_⟩⟩, h3 f hf⟩
    · exact (overlay_length (by rw [hc.cltLength]; exact g1)).trans hc.cltLength
    · intro l hl
      rcases mem_overlay hl with hl | hl
      · exact hle l hl
      · exact hc.cltLegal l hl
  next hf => exact ⟨h1, h2, rfl, rfl, fun hc => ⟨hc.litLength, hc.litLegal, g3 hf, hle⟩⟩

theorem readDescriptor_ends (t : Stream) (c : Cursor) : (readDescriptor t c).Ends (Cursor.Reads t c) := by
  unfold readDescriptor
  cases h : t.get c.brPos 1 with
  | error f =>
    obtain ⟨-, rfl⟩ := Stream.get_eq_error.1 h
    exact ⟨.refl t c, rfl⟩
  | ok v =>
    obtain ⟨h1, -⟩ := Stream.get_eq_ok.1 h
    have hc : Cursor.Reads t c { c with brPos := c.brPos + 1 } := ⟨Nat.le_add_right _ _, fun _ => h1, rfl, rfl,
      fun h => ⟨h.litLength, h.litLegal, h.cltLength, h.cltLegal⟩⟩
    simp only
    split
    · exact (readShortClt_ends t _).mono fun _ => hc.trans
    · exact (readFullClt_ends t _).mono fun _ => hc.trans

theorem readClt_ends (t : Stream) (c : Cursor) : (readClt t c).Ends (Cursor.Reads t c) := by
  refine Decoding.Ends.bind (readDescriptor_ends t c) (fun d hd => ?_) fun _ => id
  unfold checkClt
  split
  · exact ⟨hd, rfl⟩
  · exact hd

theorem readLitTable_ends (t : Stream) (c : Cursor) : (readLitTable t c).Ends (Cursor.Reads t c) := by
  unfold readLitTable
  cases h : t.get c.brPos litnBits with
  | error f =>
    obtain ⟨-, rfl⟩ := Stream.get_eq_error.1 h
    exact ⟨.refl t c, rfl⟩
  | ok n =>
    obtain ⟨h1, -⟩ := Stream.get_eq_ok.1 h
    obtain ⟨g1, g2, g3⟩ := Stream.fields_pos (t := t) (n := depthFieldBits) n (c.brPos + litnBits)
    obtain ⟨k1, k2, k3⟩ := Stream.fields_vals (t := t) (n := depthFieldBits) n (c.brPos + litnBits)
    have hpos := Nat.le_trans (Nat.le_add_right c.brPos litnBits) g1
    have hdep : ∀ d ∈ (t.fields depthFieldBits n (c.brPos + litnBits)).vals.map (· + depthMin), LegalDepth d :=
      fun d hd => by
        obtain ⟨v, hv, rfl⟩ := List.mem_map.1 hd
        exact legalDepth_of_lt (k2 v hv)
    simp only
    split
    · exact ⟨⟨Nat.le_add_right _ _, fun _ => h1, rfl, rfl,
        fun h => ⟨h.litLength, h.litLegal, h.cltLength, h.cltLegal⟩⟩, rfl⟩
    next hn =>
    split
    next f hf =>
      refine ⟨⟨hpos, fun _ => g2 h1, rfl, rfl, fun hc => ⟨?_, ?_, hc.cltLength, hc.cltLegal⟩⟩, g3 f hf⟩
      · refine (overlay_length ?_).trans hc.litLength
        rw [List.length_map, hc.litLength]; omega
      · intro d hd
        rcases mem_overlay hd with hd | hd
        · exact hdep d hd
        · exact hc.litLegal d hd
    next hf =>
      refine ⟨hpos, fun _ => g2 h1, rfl, rfl, fun hc => ⟨?_, ?_, hc.cltLength, hc.cltLegal⟩⟩
      · simp only [List.length_append, List.length_map, List.length_replicate, k3 hf]; omega
      · intro d hd
        rcases List.mem_append.1 hd with hd | hd
        · exact hdep d hd
        · exact .inl (List.eq_of_mem_replicate hd)

theorem placeTree_ends (order : CodeBitOrder) (t : Stream) (c : Cursor) :
    (placeTree order c).Ends (Cursor.Reads t c) := by
  unfold placeTree
  cases buildTree order c.litLen with
  | error e => exact ⟨.refl t c, rfl⟩
  | ok tree =>
    exact ⟨Nat.le_refl _, id, rfl, rfl, fun h => ⟨h.litLength, h.litLegal, h.cltLength, h.cltLegal⟩⟩

/-- Both ends of a walk: a symbol or a fault, the position moving forward inside the stream. -/
theorem walk_ends (t : Stream) (tree : Trie) (pos : Nat) :
    pos ≤ (walk t tree pos).2 ∧ (pos ≤ 8 * t.len → (walk t tree pos).2 ≤ 8 * t.len) ∧
      ∀ f, (walk t tree pos).1 = .error f → f.pos = (walk t tree pos).2 := by
  have hd : ∀ u p, p ≤ (descend t u p).2 ∧ (p ≤ 8 * t.len → (descend t u p).2 ≤ 8 * t.len) ∧
      ∀ f, (descend t u p).1 = .error f → f.pos = (descend t u p).2 := by
    intro u
    induction u with
    | absent => exact fun p => ⟨Nat.le_refl _, id, fun f h => by cases h; rfl⟩
    | leaf s => exact fun p => ⟨Nat.le_refl _, id, fun f h => by cases h⟩
    | node z o ihz iho =>
      intro p
      rw [descend]
      cases h : t.get p 1 with
      | error f =>
        obtain ⟨-, rfl⟩ := Stream.get_eq_error.1 h
        exact ⟨Nat.le_refl _, id, fun f h => by cases h; rfl⟩
      | ok b =>
        obtain ⟨h1, -⟩ := Stream.get_eq_ok.1 h
        simp only
        split
        · exact ⟨Nat.le_trans (Nat.le_succ _) (ihz _).1, fun _ => (ihz _).2.1 h1, (ihz _).2.2⟩
        · exact ⟨Nat.le_trans (Nat.le_succ _) (iho _).1, fun _ => (iho _).2.1 h1, (iho _).2.2⟩
  unfold walk
  cases tree with
  | node z o => exact hd _ _
  | absent =>
    cases h : t.get pos 1 with
    | error f =>
      obtain ⟨-, rfl⟩ := Stream.get_eq_error.1 h
      exact ⟨Nat.le_refl _, id, fun f h => by cases h; rfl⟩
    | ok b => exact ⟨Nat.le_succ _, fun _ => (Stream.get_eq_ok.1 h).1, fun f h => by cases h; rfl⟩
  | leaf s =>
    cases h : t.get pos 1 with
    | error f =>
      obtain ⟨-, rfl⟩ := Stream.get_eq_error.1 h
      exact ⟨Nat.le_refl _, id, fun f h => by cases h; rfl⟩
    | ok b => exact ⟨Nat.le_succ _, fun _ => (Stream.get_eq_ok.1 h).1, fun f h => by cases h; rfl⟩

/-- What the literals of a block may do: read forward, and emit up to `l` bytes, all of them on success. Only BR_POS,
PRODUCED and the output change. -/
structure Cursor.Emits (t : Stream) (l : Nat) (c c' : Cursor) : Prop where
  pos : c.brPos ≤ c'.brPos
  inside : c.brPos ≤ 8 * t.len → c'.brPos ≤ 8 * t.len
  only : c' = { c with brPos := c'.brPos, produced := c'.produced, outRev := c'.outRev }
  count : ∃ bs : List Byte, bs.length ≤ l ∧ c'.outRev = bs ++ c.outRev ∧ c'.produced = c.produced + bs.length

theorem decodeLiterals_ends (t : Stream) (l : Nat) (c : Cursor) :
    (decodeLiterals t l c).Ends (Cursor.Emits t l c) ∧
      ∀ c', decodeLiterals t l c = .ok c' → c'.produced = c.produced + l := by
  induction l generalizing c with
  | zero => exact ⟨⟨Nat.le_refl _, id, rfl, [], by simp⟩, fun c' h => by cases h; rfl⟩
  | succ l ih =>
    obtain ⟨h1, h2, h3⟩ := walk_ends t c.tree c.brPos
    rw [decodeLiterals]
    cases hw : walk t c.tree c.brPos with
    | mk r pos =>
      rw [hw] at h1 h2 h3
      cases r with
      | error f => exact ⟨⟨⟨h1, h2, rfl, [], by simp⟩, h3 f rfl⟩, fun c' h => by cases h⟩
      | ok s =>
        simp only
        split
        · exact ⟨⟨⟨h1, h2, rfl, [], by simp⟩, rfl⟩, fun c' h => by cases h⟩
        · obtain ⟨g1, g2⟩ :=
            ih { c with brPos := pos, produced := c.produced + 1, outRev := BitVec.ofNat 8 s :: c.outRev }
          refine ⟨g1.mono fun d hd => ?_, fun c' h => by rw [g2 c' h]; simp only; omega⟩
          obtain ⟨bs, k1, k2, k3⟩ := hd.count
          refine ⟨Nat.le_trans h1 hd.pos, fun h => hd.inside (h2 h), by rw [hd.only], bs ++ [BitVec.ofNat 8 s],
            by simp only [List.length_append, List.length_singleton]; omega, by simp [k2],
            by simp only [k3, List.length_append, List.length_singleton]; omega⟩

/-- What Decode may do from `c` to `c'`: read forward, and emit up to `n` bytes that PRODUCED counts. -/
structure Cursor.Decodes (t : Stream) (n : Nat) (c c' : Cursor) : Prop where
  pos : c.brPos ≤ c'.brPos
  inside : c.brPos ≤ 8 * t.len → c'.brPos ≤ 8 * t.len
  count : ∃ bs : List Byte, bs.length ≤ n ∧ c'.outRev = bs ++ c.outRev ∧ c'.produced = c.produced + bs.length
  tables : c.TablesOk → c'.TablesOk

theorem Cursor.Reads.decodes {t : Stream} {c c' : Cursor} (h : Cursor.Reads t c c') (n : Nat) :
    Cursor.Decodes t n c c' :=
  ⟨h.pos, h.inside, ⟨[], by simp, by simp [h.out], by simp [h.produced]⟩, h.tables⟩

theorem Cursor.Decodes.trans {t : Stream} {m n k : Nat} {a b c : Cursor} (h : Cursor.Decodes t m a b)
    (g : Cursor.Decodes t n b c) (hk : ∀ bs : List Byte, b.produced = a.produced + bs.length → bs.length + n ≤ k) :
    Cursor.Decodes t k a c := by
  obtain ⟨xs, x1, x2, x3⟩ := h.count
  obtain ⟨ys, y1, y2, y3⟩ := g.count
  have := hk xs x3
  exact ⟨Nat.le_trans h.pos g.pos, fun x => g.inside (h.inside x), ⟨ys ++ xs, by rw [List.length_append]; omega,
    by rw [y2, x2, List.append_assoc], by rw [y3, x3, List.length_append]; omega⟩, fun x => g.tables (h.tables x)⟩

theorem readCount_ends (t : Stream) (T : Nat) (c : Cursor) :
    match readCount t T c with
    | .ok (l, c') => Cursor.Reads t c c' ∧ c.brPos + 16 ≤ c'.brPos ∧ l ≤ T - c.produced
    | .error (f, c') => Cursor.Reads t c c' ∧ f.pos = c'.brPos := by
  unfold readCount
  cases h : t.get c.brPos litcountBits with
  | error f =>
    obtain ⟨-, rfl⟩ := Stream.get_eq_error.1 h
    exact ⟨.refl t c, rfl⟩
  | ok v =>
    have hc : ∀ c' : Cursor, c' = { c with brPos := c.brPos + litcountBits, blkCount := c.blkCount + 1, lastLits := v } →
        Cursor.Reads t c c' := by
      rintro c' rfl
      exact ⟨Nat.le_add_right _ _, fun _ => (Stream.get_eq_ok.1 h).1, rfl, rfl,
        fun h => ⟨h.litLength, h.litLegal, h.cltLength, h.cltLegal⟩⟩
    simp only
    split_ifs with hlt
    · exact ⟨hc _ rfl, rfl⟩
    · exact ⟨hc _ rfl, Nat.le_refl _, Nat.le_of_not_lt hlt⟩

/-- Both ends of a block: it emits no more than the target leaves, and a whole one takes at least 16 bits. -/
theorem decodeBlock_ends (order : CodeBitOrder) (t : Stream) (T : Nat) (c : Cursor) :
    (decodeBlock order t T c).Ends (Cursor.Decodes t (T - c.produced) c) ∧
      ∀ c', decodeBlock order t T c = .ok c' → c.brPos + 16 ≤ c'.brPos := by
  have h := readCount_ends t T c
  unfold decodeBlock
  cases hr : readCount t T c with
  | error p =>
    rw [hr] at h
    exact ⟨⟨h.1.decodes _, h.2⟩, fun c' h => nomatch h⟩
  | ok p =>
    obtain ⟨l, c1⟩ := p
    rw [hr] at h
    obtain ⟨h1, h2, h3⟩ := h
    have hparts : Decoding.Ends (fun d => Cursor.Decodes t (T - c.produced) c d ∧ c.brPos + 16 ≤ d.brPos)
        (readClt t c1 >>= fun c2 => readLitTable t c2 >>= fun c3 => placeTree order c3 >>= fun c4 =>
          decodeLiterals t l c4) := by
      have lift : ∀ d, Cursor.Reads t c1 d → Cursor.Decodes t (T - c.produced) c d ∧ c.brPos + 16 ≤ d.brPos :=
        fun d hd => ⟨(h1.trans hd).decodes _, Nat.le_trans h2 hd.pos⟩
      refine Decoding.Ends.bind (readClt_ends t c1) (fun c2 k2 => ?_) lift
      refine Decoding.Ends.bind ((readLitTable_ends t c2).mono fun _ => k2.trans) (fun c3 k3 => ?_) lift
      refine Decoding.Ends.bind ((placeTree_ends order t c3).mono fun _ => k3.trans) (fun c4 k4 => ?_) lift
      refine (decodeLiterals_ends t l c4).1.mono fun d hd => ?_
      obtain ⟨bs, e1, e2, e3⟩ := hd.count
      have hk := h1.trans k4
      refine ⟨⟨Nat.le_trans hk.pos hd.pos, fun x => hd.inside (hk.inside x), ⟨bs, Nat.le_trans e1 h3,
        by rw [e2, hk.out], by rw [e3, hk.produced]⟩, fun x => ?_⟩,
        Nat.le_trans h2 (Nat.le_trans k4.pos hd.pos)⟩
      rw [hd.only]
      have := hk.tables x
      exact ⟨this.litLength, this.litLegal, this.cltLength, this.cltLegal⟩
    refine ⟨hparts.mono fun _ h => h.1, fun c' h => ?_⟩
    have hok := hparts
    change (readClt t c1 >>= fun c2 => readLitTable t c2 >>= fun c3 => placeTree order c3 >>= fun c4 =>
          decodeLiterals t l c4) = .ok c' at h
    rw [h] at hok
    exact hok.2

/-- Both ends of Decode's block loop. -/
theorem decodeBlocks_ends (order : CodeBitOrder) (t : Stream) (T fuel : Nat) (c : Cursor) :
    (decodeBlocks order t T fuel c).Ends (Cursor.Decodes t (T - c.produced) c) := by
  induction fuel generalizing c with
  | zero =>
    rw [decodeBlocks]
    split
    · exact ⟨(Cursor.Reads.refl t c).decodes _, rfl⟩
    · exact (Cursor.Reads.refl t c).decodes _
  | succ fuel ih =>
    rw [decodeBlocks]
    split
    · refine Decoding.Ends.bind (decodeBlock_ends order t T c).1 (fun d hd => ?_) fun _ => id
      refine (ih d).mono fun e he => hd.trans he fun bs hbs => ?_
      obtain ⟨xs, x1, -, x3⟩ := hd.count
      omega
    · exact (Cursor.Reads.refl t c).decodes _

/-- Both ends of Decode, from a cursor whose output is cleared: at most `T` bytes. -/
theorem decodeStream_ends (order : CodeBitOrder) (t : Stream) (T : Nat) (c : Cursor) :
    (decodeStream order t T c).Ends fun d =>
      (c.brPos ≤ 8 * t.len → d.brPos ≤ 8 * t.len) ∧ d.out.length = d.produced ∧ d.produced ≤ T ∧
        (c.TablesOk → d.TablesOk) := by
  refine (decodeBlocks_ends order t T _ _).mono fun d hd => ?_
  obtain ⟨bs, h1, h2, h3⟩ := hd.count
  simp only [List.append_nil, Nat.zero_add, Nat.sub_zero] at h1 h2 h3
  exact ⟨hd.inside, by rw [Cursor.out, List.length_reverse, h2, h3], by omega,
    fun h => hd.tables ⟨h.litLength, h.litLegal, h.cltLength, h.cltLegal⟩⟩

/-! ## A run's registers and writes -/

/-- A Decode's run: its registers are the cursor's, its writes the output from the start of the destination range. -/
theorem decodeRun_of_ok {s : State} {t : Stream} {T : Nat} {c : Cursor}
    (h : decodeStream s.cfg.codeBitOrder t T s.cursor = .ok c) :
    decodeRun s t T = { regs := s.loadCursor c, writes := cellsAt s.dstAddr.toNat c.out, fault := none } := by
  rw [decodeRun, h]

theorem decodeRun_of_error {s : State} {t : Stream} {T : Nat} {c : Cursor} {f : FaultReport}
    (h : decodeStream s.cfg.codeBitOrder t T s.cursor = .error (f, c)) :
    decodeRun s t T = { regs := s.loadCursor c, writes := cellsAt s.dstAddr.toNat c.out, fault := some f } := by
  rw [decodeRun, h]

end Sys2Proof.Machine
end

