-- ==== Sys2Proof/Laws/PerInstr.lean ====
section
/-! SUPPORT. Per instruction: its word selects its own row of the opcode table (30_encoding.md R81, R85). -/

namespace Sys2Proof.Laws.SelectsRow

open Sys2Proof

/-- The mask of an instruction's row. -/
def mask : Instr → Word
  | .nop => 0xFFFFFFFF#32
  | .decode => 0xFFFFFFFF#32
  | .encode => 0xFFFFFFFF#32
  | .copy => 0xFFFFFFFF#32
  | .pdecode => 0xFFFFFFFF#32
  | .pencode _ => 0xFFFFFDFF#32
  | .bwReset => 0xFFFFFFFF#32
  | .bwPut _ => 0xFFFFFE0F#32
  | .bwFlush => 0xFFFFFFFF#32
  | .brReset => 0xFFFFFFFF#32
  | .brGet _ => 0xFFFFFE0F#32
  | .start _ => 0x00000007#32
  | .abort _ => 0x00000006#32
  | .softReset => 0x00000004#32

/-- The match value of an instruction's row. -/
def pattern : Instr → Word
  | .nop => 0x00000000#32
  | .decode => 0x00000001#32
  | .encode => 0x00000002#32
  | .copy => 0x00000003#32
  | .pdecode => 0x00000004#32
  | .pencode _ => 0x00000005#32
  | .bwReset => 0x00000006#32
  | .bwPut _ => 0x00000007#32
  | .bwFlush => 0x00000008#32
  | .brReset => 0x00000009#32
  | .brGet _ => 0x0000000A#32
  | .start _ => 0x00000001#32
  | .abort _ => 0x00000002#32
  | .softReset => 0x00000004#32

/-- The encoder's word selects the instruction's row. -/
def Statement (i : Instr) : Prop := selects (encode i) (mask i) (pattern i) = true

theorem nop : Statement .nop := rfl
theorem decode : Statement .decode := rfl
theorem encode : Statement .encode := rfl
theorem copy : Statement .copy := rfl
theorem pdecode : Statement .pdecode := rfl
theorem pencode (raw : Bool) : Statement (.pencode raw) := by cases raw <;> rfl
theorem bwReset : Statement .bwReset := rfl
theorem bwPut (nbits : BitVec 5) : Statement (.bwPut nbits) := by unfold Statement; revert nbits; decide
theorem bwFlush : Statement .bwFlush := rfl
theorem brReset : Statement .brReset := rfl
theorem brGet (nbits : BitVec 5) : Statement (.brGet nbits) := by unfold Statement; revert nbits; decide
theorem start (irqEn : Bool) : Statement (.start irqEn) := by cases irqEn <;> rfl
theorem abort (irqEn : Bool) : Statement (.abort irqEn) := by cases irqEn <;> rfl
theorem softReset : Statement .softReset := rfl

end Sys2Proof.Laws.SelectsRow
end

