-- ==== Sys2Proof/Laws/Runs.lean ====
section
/-! SUPPORT. What the run of any command can do: which registers it touches, where it writes, and what it keeps legal.
The statements about all commands follow from this one. -/

namespace Sys2Proof.Machine

/-- What the run of command `i` from state `s` can do (10_state.md R50, 20_memory.md R66). -/
structure Run.Spec (i : Instr) (s : State) (r : Run) : Prop where
  /-- The registers and tables a command may write. -/
  regs : r.regs =
    { s with
      packed := r.regs.packed, result := r.regs.result, outLen := r.regs.outLen, bwAcc := r.regs.bwAcc
      bwCnt := r.regs.bwCnt, brPos := r.regs.brPos, hdrUsize := r.regs.hdrUsize, blkCount := r.regs.blkCount
      lastLits := r.regs.lastLits, lastLitn := r.regs.lastLitn, lastClt := r.regs.lastClt
      litLen := r.regs.litLen, cltLen := r.regs.cltLen, tree := r.regs.tree, produced := r.regs.produced }
  /-- RESULT is BR_GET's (10_state.md R36). -/
  result : (∀ n, i ≠ .brGet n) → r.regs.result = s.result
  /-- Every write lies in the destination range, and in buffer memory. -/
  writes : ∀ c ∈ r.writes,
    usesDst i = true ∧ s.dstAddr.toNat ≤ c.1 ∧ c.1 < s.dstAddr.toNat + s.dstCap.toNat ∧ c.1 < s.cfg.memSize
  /-- The hidden tables stay legal. -/
  tables : s.TablesOk → r.regs.TablesOk
  /-- A fault has a code. -/
  fault : ∀ f, r.fault = some f → f.code ≠ .noFault
  /-- The bit writer stays below its count. -/
  writer : s.WriterOk → r.regs.WriterOk

theorem quietRun_spec (i : Instr) (s : State) : (quietRun s).Spec i s :=
  ⟨rfl, fun _ => rfl, fun _ h => (List.not_mem_nil h).elim, id, fun _ h => (nomatch h), id⟩

/-- A body that meets the specification where the prologue lets it run gives a run that does. -/
theorem runCommand_spec {i : Instr} {body : State → Run} {s : State}
    (h : prologue i s = none → (body s).Spec i s) : (runCommand i body s).Spec i s := by
  rcases runCommand_cases i body s with ⟨h1, h2⟩ | ⟨f, h1, h2⟩
  · rw [h2]; exact h h1
  · rw [h2]
    refine ⟨rfl, fun _ => rfl, fun _ h => (List.not_mem_nil h).elim, id, fun g hg => ?_, id⟩
    cases hg
    rcases (prologue_eq_some h1).2 with h | h | h | h | h | h <;> rw [h.1] <;> decide

/-- Bytes stored from an address of the destination range on stay in it. -/
theorem cellsAt_spec {i : Instr} {s : State} {off : Nat} {bs : List Byte} (hp : prologue i s = none)
    (hd : usesDst i = true) (h : off + bs.length ≤ s.dstCap.toNat) :
    ∀ c ∈ cellsAt (s.dstAddr.toNat + off) bs,
      usesDst i = true ∧ s.dstAddr.toNat ≤ c.1 ∧ c.1 < s.dstAddr.toNat + s.dstCap.toNat ∧
        c.1 < s.cfg.memSize := by
  intro c hc
  have h1 := mem_cellsAt hc
  have h2 : s.DstOk := (prologue_eq_none.1 hp).2.2.2.1 hd
  simp only [State.DstOk] at h2
  exact ⟨hd, by omega, by omega, by omega⟩

theorem State.writerOk_zero {s : State} (h1 : s.bwAcc = 0#32) (h2 : s.bwCnt = 0#5) : s.WriterOk := by
  simp [State.WriterOk, h1, h2]

/-- A writer below its count, put back in the registers, is as the state's writer should be. -/
theorem State.writerOk_setWriter {w : Writer} (h : w.Ok) (s : State) : (s.setWriter w).WriterOk := by
  obtain ⟨h1, h2⟩ := h
  have hacc : w.acc < 2 ^ 7 := Nat.lt_of_lt_of_le h2 (Nat.pow_le_pow_right (by norm_num) (by omega))
  simp only [State.WriterOk, State.setWriter, BitVec.toNat_ofNat]
  rw [Nat.mod_eq_of_lt (show w.cnt < 2 ^ 5 by omega), Nat.mod_eq_of_lt (show w.acc < 2 ^ 32 by omega)]
  exact ⟨by omega, h2⟩

theorem State.writer_ok {s : State} (h : s.WriterOk) : s.writer.Ok := ⟨Nat.lt_succ_of_le h.1, h.2⟩

/-! ## The bodies -/

theorem runBwReset_spec (s : State) : (runBwReset s).Spec .bwReset s :=
  runCommand_spec fun _ =>
    ⟨rfl, fun _ => rfl, fun _ h => (List.not_mem_nil h).elim, id, fun _ h => (nomatch h),
      fun _ => State.writerOk_zero rfl rfl⟩

theorem runBwPut_spec (n : BitVec 5) (s : State) : (runBwPut n s).Spec (.bwPut n) s := by
  refine runCommand_spec fun hp => ?_
  have hfull : ¬s.dstCap.toNat < s.outLen.toNat + putEmits n.toNat s →
      ∀ bs : List Byte, bs.length ≤ putEmits n.toNat s → ∀ c ∈ cellsAt (s.dstAddr.toNat + s.outLen.toNat) bs,
        usesDst (.bwPut n) = true ∧ s.dstAddr.toNat ≤ c.1 ∧ c.1 < s.dstAddr.toNat + s.dstCap.toNat ∧
          c.1 < s.cfg.memSize := fun h bs hb => cellsAt_spec hp rfl (by omega)
  unfold bodyBwPut
  simp only
  split_ifs with h1
  · exact ⟨rfl, fun _ => rfl, fun _ h => (List.not_mem_nil h).elim, id, fun f h => by cases h; simp, id⟩
  · exact ⟨rfl, fun _ => rfl, hfull h1 _ (Nat.le_of_eq (putWriter_out_length _ _)), id, fun f h => (nomatch h),
      fun _ => State.writerOk_setWriter (putWriter_ok _ _) s⟩

theorem runBwFlush_spec (s : State) : (runBwFlush s).Spec .bwFlush s := by
  refine runCommand_spec fun hp => ?_
  unfold bodyBwFlush
  simp only
  have hlen : s.writer.flush.out.length = if 0 < s.bwCnt.toNat then 1 else 0 := by
    unfold Writer.flush State.writer Writer.out
    split_ifs <;> rfl
  split_ifs with h0 h1 h1
  · exact ⟨rfl, fun _ => rfl, fun _ h => (List.not_mem_nil h).elim, id, fun f h => by cases h; simp, id⟩
  · exact ⟨rfl, fun _ => rfl, cellsAt_spec hp rfl (by rw [hlen, if_pos h0]; omega), id,
      fun f h => (nomatch h), fun _ => State.writerOk_zero rfl rfl⟩
  · exact ⟨rfl, fun _ => rfl, fun _ h => (List.not_mem_nil h).elim, id, fun f h => by cases h; simp, id⟩
  · exact ⟨rfl, fun _ => rfl, cellsAt_spec hp rfl (by rw [hlen, if_neg h0]; omega), id,
      fun f h => (nomatch h), fun _ => State.writerOk_zero rfl rfl⟩

theorem runBrReset_spec (s : State) : (runBrReset s).Spec .brReset s :=
  runCommand_spec fun _ =>
    ⟨rfl, fun _ => rfl, fun _ h => (List.not_mem_nil h).elim, id, fun _ h => (nomatch h), id⟩

theorem runBrGet_spec (n : BitVec 5) (s : State) : (runBrGet n s).Spec (.brGet n) s := by
  refine runCommand_spec fun hp => ?_
  unfold bodyBrGet
  cases h : s.srcStream.get s.brPos.toNat n.toNat with
  | error f =>
    obtain ⟨-, rfl⟩ := Stream.get_eq_error.1 h
    exact ⟨rfl, fun _ => rfl, fun _ h => (List.not_mem_nil h).elim, id, fun f h => by cases h; simp, id⟩
  | ok v =>
    exact ⟨rfl, fun h => absurd rfl (h n), fun _ h => (List.not_mem_nil h).elim, id, fun f h => (nomatch h), id⟩

/-- Decode raises faults with a code. -/
theorem decodeStream_fault {order : CodeBitOrder} {t : Stream} {T : Nat} {c c' : Cursor} {f : FaultReport}
    (h : decodeStream order t T c = .error (f, c')) : f.code ≠ .noFault := by
  have hget : ∀ {t : Stream} {p n : Nat} {f : FaultReport}, t.get p n = .error f → f.code ≠ .noFault := by
    intro t p n f h
    obtain ⟨-, rfl⟩ := Stream.get_eq_error.1 h
    simp
  have hfields : ∀ {t : Stream} {n : Nat} (k p : Nat) {f : FaultReport}, (t.fields n k p).fault = some f →
      f.code ≠ .noFault := by
    intro t n k
    induction k with
    | zero => intro p f h; cases h
    | succ k ih =>
      intro p f h
      rw [Stream.fields] at h
      cases hg : t.get p n with
      | error g => rw [hg] at h; cases h; exact hget hg
      | ok v => rw [hg] at h; exact ih _ h
  have hdesc : ∀ (u : Trie) (p : Nat) {f : FaultReport}, (descend t u p).1 = .error f → f.code ≠ .noFault := by
    intro u
    induction u with
    | absent => intro p f h; cases h; simp
    | leaf s => intro p f h; cases h
    | node z o ihz iho =>
      intro p f h
      rw [descend] at h
      cases hg : t.get p 1 with
      | error g => rw [hg] at h; cases h; exact hget hg
      | ok v =>
        rw [hg] at h
        simp only at h
        split at h
        · exact ihz _ h
        · exact iho _ h
  have hwalk : ∀ (u : Trie) (p : Nat) {f : FaultReport} {q : Nat}, walk t u p = (.error f, q) →
      f.code ≠ .noFault := by
    intro u p f q h
    unfold walk at h
    cases u with
    | node z o => exact hdesc _ _ (congrArg Prod.fst h)
    | absent =>
      cases hg : t.get p 1 with
      | error g => rw [hg] at h; cases h; exact hget hg
      | ok v => rw [hg] at h; cases h; simp
    | leaf s =>
      cases hg : t.get p 1 with
      | error g => rw [hg] at h; cases h; exact hget hg
      | ok v => rw [hg] at h; cases h; simp
  have hlits : ∀ (l : Nat) (c c' : Cursor) (f : FaultReport), decodeLiterals t l c = .error (f, c') →
      f.code ≠ .noFault := by
    intro l
    induction l with
    | zero => intro c c' f h; cases h
    | succ l ih =>
      intro c c' f h
      rw [decodeLiterals] at h
      cases hw : walk t c.tree c.brPos with
      | mk r q =>
        rw [hw] at h
        cases r with
        | error g => cases h; exact hwalk _ _ hw
        | ok s =>
          simp only at h
          split at h
          · cases h; simp
          · exact ih _ _ _ h
  have hcount : ∀ (c : Cursor) (p : FaultReport × Cursor), readCount t T c = .error p → p.1.code ≠ .noFault := by
    intro c p h
    unfold readCount at h
    cases hg : t.get c.brPos litcountBits with
    | error g => rw [hg] at h; cases h; exact hget hg
    | ok v =>
      rw [hg] at h
      simp only at h
      split at h
      · cases h; simp
      · cases h
  have hclt : ∀ (c : Cursor) (p : FaultReport × Cursor), readClt t c = .error p → p.1.code ≠ .noFault := by
    intro c p h
    have hdesc : ∀ q, readDescriptor t c = .error q → q.1.code ≠ .noFault := by
      intro q h
      unfold readDescriptor at h
      cases hg : t.get c.brPos 1 with
      | error g => rw [hg] at h; cases h; exact hget hg
      | ok v =>
        rw [hg] at h
        simp only at h
        split at h
        · unfold readShortClt at h
          simp only at h
          cases hg2 : t.get (c.brPos + 1) cltLenBits with
          | error g => rw [hg2] at h; cases h; exact hget hg2
          | ok v => rw [hg2] at h; cases h
        · unfold readFullClt at h
          simp only at h
          split at h
          · next g hf => cases h; exact hfields _ _ hf
          · cases h
    unfold readClt at h
    cases hd : readDescriptor t c with
    | error q => rw [hd] at h; cases h; exact hdesc _ hd
    | ok d =>
      rw [hd] at h
      change checkClt d = .error p at h
      unfold checkClt at h
      split at h
      · cases h; simp
      · cases h
  have hlit : ∀ (c : Cursor) (p : FaultReport × Cursor), readLitTable t c = .error p → p.1.code ≠ .noFault := by
    intro c p h
    unfold readLitTable at h
    cases hg : t.get c.brPos litnBits with
    | error g => rw [hg] at h; cases h; exact hget hg
    | ok v =>
      rw [hg] at h
      simp only at h
      split at h
      · cases h; simp
      · split at h
        · next g hf => cases h; exact hfields _ _ hf
        · cases h
  have hblock : ∀ (c : Cursor) (p : FaultReport × Cursor), decodeBlock order t T c = .error p →
      p.1.code ≠ .noFault := by
    intro c p h
    unfold decodeBlock at h
    simp only [bind, Except.bind] at h
    cases h1 : readCount t T c with
    | error q => rw [h1] at h; cases h; exact hcount _ _ h1
    | ok q =>
      obtain ⟨l, c1⟩ := q
      simp only [h1] at h
      cases h2 : readClt t c1 with
      | error q => rw [h2] at h; cases h; exact hclt _ _ h2
      | ok c2 =>
        simp only [h2] at h
        cases h3 : readLitTable t c2 with
        | error q => rw [h3] at h; cases h; exact hlit _ _ h3
        | ok c3 =>
          simp only [h3] at h
          cases h4 : placeTree order c3 with
          | error q =>
            rw [h4] at h; cases h
            unfold placeTree at h4
            split at h4
            · cases h4; simp
            · cases h4
          | ok c4 =>
            simp only [h4] at h
            exact hlits l c4 p.2 p.1 h
  have hblocks : ∀ (fuel : Nat) (c : Cursor) (p : FaultReport × Cursor),
      decodeBlocks order t T fuel c = .error p → p.1.code ≠ .noFault := by
    intro fuel
    induction fuel with
    | zero =>
      intro c p h
      rw [decodeBlocks] at h
      split at h
      · cases h; simp
      · cases h
    | succ fuel ih =>
      intro c p h
      rw [decodeBlocks] at h
      split at h
      · simp only [bind, Except.bind] at h
        cases h1 : decodeBlock order t T c with
        | error q => rw [h1] at h; cases h; exact hblock _ _ h1
        | ok d => rw [h1] at h; exact ih _ _ h
      · cases h
  exact hblocks _ _ _ h

/-- The tables of a state, as those of its cursor. -/
theorem State.cursor_tablesOk {s : State} (h : s.TablesOk) : s.cursor.TablesOk :=
  ⟨h.1, h.2.1, h.2.2.1, h.2.2.2⟩

/-- Decode's run, its target within the destination's capacity. -/
theorem decodeRun_spec {i : Instr} {s u : State} {t : Stream} {T : Nat} (hp : prologue i s = none)
    (hd : usesDst i = true) (hT : T ≤ s.dstCap.toNat)
    (hu : u = { s with
      packed := u.packed, outLen := u.outLen, brPos := u.brPos, hdrUsize := u.hdrUsize, blkCount := u.blkCount
      lastLits := u.lastLits, lastLitn := u.lastLitn, lastClt := u.lastClt }) :
    (decodeRun u t T).Spec i s := by
  have hends := decodeStream_ends u.cfg.codeBitOrder t T u.cursor
  have htab : s.TablesOk → u.cursor.TablesOk := fun h =>
    State.cursor_tablesOk (by rw [hu]; exact h)
  have hdst : u.dstAddr = s.dstAddr := by rw [hu]
  cases hr : decodeStream u.cfg.codeBitOrder t T u.cursor with
  | ok c =>
    rw [hr] at hends
    obtain ⟨-, h1, h2, h3⟩ := hends
    rw [decodeRun_of_ok hr]
    refine ⟨by rw [hu]; rfl, fun _ => by rw [hu]; rfl, ?_, fun h => ?_, fun f h => (nomatch h), fun h => ?_⟩
    · simp only [hdst]
      exact cellsAt_spec (off := 0) hp hd (by omega)
    · have := h3 (htab h)
      exact ⟨this.litLength, this.litLegal, this.cltLength, this.cltLegal⟩
    · rw [hu]; exact h
  | error p =>
    obtain ⟨f, c⟩ := p
    rw [hr] at hends
    obtain ⟨⟨-, h1, h2, h3⟩, -⟩ := hends
    rw [decodeRun_of_error hr]
    refine ⟨by rw [hu]; rfl, fun _ => by rw [hu]; rfl, ?_, fun h => ?_, fun g h => ?_, fun h => ?_⟩
    · simp only [hdst]
      exact cellsAt_spec (off := 0) hp hd (by omega)
    · have := h3 (htab h)
      exact ⟨this.litLength, this.litLegal, this.cltLength, this.cltLegal⟩
    · cases h; exact decodeStream_fault hr
    · rw [hu]; exact h

theorem runDecode_spec (s : State) : (runDecode s).Spec .decode s := by
  refine runCommand_spec fun hp => ?_
  unfold bodyDecode
  split_ifs with h
  · exact ⟨rfl, fun _ => rfl, fun _ h => (List.not_mem_nil h).elim, id, fun f h => by cases h; simp, id⟩
  · exact decodeRun_spec hp rfl (by omega) rfl

/-- Encode leaves the writer empty. -/
theorem encodeStream_writer (order : CodeBitOrder) (M : Nat) (data : List Byte) :
    (encodeStream order M data).writer.acc = 0 ∧ (encodeStream order M data).writer.cnt = 0 := ⟨rfl, rfl⟩

theorem runEncode_spec (s : State) : (runEncode s).Spec .encode s := by
  refine runCommand_spec fun hp => ?_
  unfold bodyEncode
  simp only
  obtain ⟨h1, h2⟩ := encodeStream_writer s.cfg.codeBitOrder s.blockMax.toNat (s.srcStream.take s.srcLen.toNat)
  generalize encodeStream s.cfg.codeBitOrder s.blockMax.toNat (s.srcStream.take s.srcLen.toNat) = e at h1 h2 ⊢
  have hz : ∀ u : State, (u.loadEncode e).WriterOk := fun u =>
    State.writerOk_zero (by simp [State.loadEncode, h1]) (by simp [State.loadEncode, h2])
  split_ifs with h
  · exact ⟨rfl, fun _ => rfl, fun _ h => (List.not_mem_nil h).elim, id, fun f h => by cases h; simp, fun _ => hz _⟩
  · refine ⟨rfl, fun _ => rfl, cellsAt_spec (off := 0) hp rfl ?_, id, fun f h => (nomatch h),
      fun _ => hz s.clearCounts⟩
    rw [Nat.zero_add]
    exact Nat.le_of_not_lt h

theorem runCopy_spec (s : State) : (runCopy s).Spec .copy s := by
  refine runCommand_spec fun hp => ?_
  unfold bodyCopy
  simp only
  split_ifs with h1 h2
  · exact ⟨rfl, fun _ => rfl, fun _ h => (List.not_mem_nil h).elim, id, fun f h => by cases h; simp, id⟩
  · exact ⟨rfl, fun _ => rfl, fun _ h => (List.not_mem_nil h).elim, id, fun f h => by cases h; simp, id⟩
  · exact ⟨rfl, fun _ => rfl, cellsAt_spec (off := 0) hp rfl
      (by rw [Stream.take_length, Nat.zero_add]; exact Nat.le_of_not_lt h2), id, fun f h => (nomatch h), id⟩

theorem runPdecode_spec (s : State) : (runPdecode s).Spec .pdecode s := by
  refine runCommand_spec fun hp => ?_
  unfold bodyPdecode bodyPdecodePayload
  simp only
  split_ifs with h1 h2 h3 h4 h5
  · exact ⟨rfl, fun _ => rfl, fun _ h => (List.not_mem_nil h).elim, id, fun f h => by cases h; simp, id⟩
  · exact ⟨rfl, fun _ => rfl, fun _ h => (List.not_mem_nil h).elim, id, fun f h => by cases h; simp, id⟩
  · exact ⟨rfl, fun _ => rfl, fun _ h => (List.not_mem_nil h).elim, id, fun f h => by cases h; simp, id⟩
  · exact ⟨rfl, fun _ => rfl, fun _ h => (List.not_mem_nil h).elim, id, fun f h => by cases h; simp, id⟩
  · refine ⟨rfl, fun _ => rfl, cellsAt_spec (off := 0) hp rfl ?_, id, fun f h => (nomatch h), id⟩
    rw [Stream.take_length]
    exact Nat.le_trans (Nat.le_of_eq (Nat.zero_add _)) (Nat.le_of_not_lt h3)
  · exact decodeRun_spec hp rfl (Nat.le_of_not_lt h3) rfl

/-- PENCODE's last part, from a state that has changed none but the registers PENCODE writes. -/
theorem storePayload_spec {i : Instr} {s u : State} (packed : Bool) (payload : List Byte) (hp : prologue i s = none)
    (hd : usesDst i = true)
    (hu : u = { s with
      outLen := u.outLen, bwAcc := u.bwAcc, bwCnt := u.bwCnt, hdrUsize := u.hdrUsize, blkCount := u.blkCount
      lastLits := u.lastLits, lastLitn := u.lastLitn, lastClt := u.lastClt })
    (hw : s.WriterOk → u.WriterOk) : (storePayload u packed payload).Spec i s := by
  have hdst : u.dstAddr = s.dstAddr := by rw [hu]
  have hcap : u.dstCap = s.dstCap := by rw [hu]
  unfold storePayload
  split_ifs with h
  · exact ⟨by rw [hu]; rfl, fun _ => by rw [hu]; rfl, fun _ h => (List.not_mem_nil h).elim,
      fun ht => by rw [hu]; exact ht, fun f h => by cases h; simp, hw⟩
  · refine ⟨by rw [hu]; rfl, fun _ => by rw [hu]; rfl, ?_, fun ht => by rw [hu]; exact ht,
      fun f h => (nomatch h), hw⟩
    simp only [storeRun, hdst]
    refine cellsAt_spec (off := 0) hp hd ?_
    rw [hcap] at h
    rw [Nat.zero_add, List.length_append]
    exact Nat.le_of_not_lt h

theorem runPencode_spec (raw : Bool) (s : State) : (runPencode raw s).Spec (.pencode raw) s := by
  refine runCommand_spec fun hp => ?_
  unfold bodyPencode
  simp only
  by_cases hr : raw = true
  · rw [if_pos hr]
    exact storePayload_spec _ _ hp rfl rfl id
  · rw [if_neg hr]
    obtain ⟨h1, h2⟩ := encodeStream_writer s.cfg.codeBitOrder s.blockMax.toNat (s.srcStream.take s.srcLen.toNat)
    generalize encodeStream s.cfg.codeBitOrder s.blockMax.toNat (s.srcStream.take s.srcLen.toNat) = e at h1 h2 ⊢
    exact storePayload_spec _ _ hp rfl rfl fun _ =>
      State.writerOk_zero (by simp [State.loadEncode, h1]) (by simp [State.loadEncode, h2])

/-- The run of every instruction meets the specification. -/
theorem runOf_spec (i : Instr) (s : State) : (runOf i s).Spec i s := by
  cases i with
  | nop => exact runCommand_spec fun _ => quietRun_spec _ _
  | decode => exact runDecode_spec s
  | encode => exact runEncode_spec s
  | copy => exact runCopy_spec s
  | pdecode => exact runPdecode_spec s
  | pencode raw => exact runPencode_spec raw s
  | bwReset => exact runBwReset_spec s
  | bwPut n => exact runBwPut_spec n s
  | bwFlush => exact runBwFlush_spec s
  | brReset => exact runBrReset_spec s
  | brGet n => exact runBrGet_spec n s
  | start ie => exact quietRun_spec _ _
  | abort ie => exact quietRun_spec _ _
  | softReset => exact quietRun_spec _ _

/-- A command's run never touches the memory it is given, nor the host's side. -/
theorem Run.Spec.frame {i : Instr} {s : State} {r : Run} (h : r.Spec i s) :
    r.regs.mem = s.mem ∧ r.regs.cfg = s.cfg ∧ r.regs.dstTouched = s.dstTouched ∧ r.regs.draws = s.draws ∧
      r.regs.srcDraw = s.srcDraw := by
  rw [h.regs]; exact ⟨rfl, rfl, rfl, rfl, rfl⟩

/-- Every write of the latched command lies in its destination range and in buffer memory. -/
theorem runLatched_writes (s : State) :
    ∀ c ∈ (runLatched s).writes,
      s.dstAddr.toNat ≤ c.1 ∧ c.1 < s.dstAddr.toNat + s.dstCap.toNat ∧ c.1 < s.cfg.memSize := by
  unfold runLatched
  cases hd : decodeCommand s.latch with
  | ok i => exact fun c hc => ((runOf_spec i s).writes c hc).2
  | error e => simp [faultRun]

/-- What a stopped run leaves in memory: a prefix of its writes, but for the bytes the host raced, and every byte outside
the destination range that is none of those. -/
theorem Run.stoppedMemory_spec (r : Run) (s : State)
    (hr : ∀ c ∈ r.writes, s.dstAddr.toNat ≤ c.1 ∧ c.1 < s.dstAddr.toNat + s.dstCap.toNat) :
    (∃ k ≤ r.writes.length,
      (s.dstTouched = [] → r.stoppedMemory s = applyWrites s.mem (r.writes.take k)) ∧
      ∀ a, a ∉ s.dstTouched → memRead (r.stoppedMemory s) a = memRead (applyWrites s.mem (r.writes.take k)) a) ∧
    ∀ a, a ∉ s.dstTouched → (a < s.dstAddr.toNat ∨ s.dstAddr.toNat + s.dstCap.toNat ≤ a) →
      memRead (r.stoppedMemory s) a = memRead s.mem a := by
  refine ⟨⟨_, Nat.le_of_lt_succ (Nat.mod_lt (Config.abortPrefix s.draws) (Nat.succ_pos _)), fun h => ?_, fun a ha => ?_⟩,
    fun a ha ho => ?_⟩
  · rw [Run.stoppedMemory, h]; rfl
  · rw [Run.stoppedMemory, memRead_scramble_other _ _ ha]
  · rw [Run.stoppedMemory, memRead_scramble_other _ _ ha, memRead_applyWrites_other]
    intro c hc
    have := hr c (List.mem_of_mem_take hc)
    omega

end Sys2Proof.Machine
end

