-- ==== Sys2Proof/Laws/Step.lean ====
section
/-! SUPPORT. What a step can be: whose turn it is, the address decoder of the window, and each host access. -/

namespace Sys2Proof.Machine

/-! ## Turns -/

theorem State.turn_eq_idle {s : State} : s.turn = .idle ↔ s.phase = .idle ∧ s.pending = [] := by
  unfold State.turn
  cases s.phase <;> cases s.pending <;> simp
  split_ifs <;> simp

theorem State.turn_eq_engine {s : State} :
    s.turn = .engine ↔ s.phase = .run ∧ (s.pending = [] ∨ s.engineDue = 0) := by
  unfold State.turn
  cases s.phase <;> cases s.pending <;> simp

theorem State.turn_eq_host {s : State} {op : HostOp} {rest : List HostOp} :
    s.turn = .host op rest ↔ s.pending = op :: rest ∧ (s.phase = .run → s.engineDue ≠ 0) := by
  unfold State.turn
  cases s.phase <;> cases s.pending <;> simp
  split_ifs <;> simp_all

theorem step_of_idle {s : State} (h : s.turn = .idle) : step s = .next s := by rw [step, h]
theorem step_of_engine {s : State} (h : s.turn = .engine) : step s = s.engineStep := by rw [step, h]
theorem step_of_host {s : State} {op : HostOp} {rest : List HostOp} (h : s.turn = .host op rest) :
    step s = hostStep op (s.takeHost rest) := by rw [step, h]

/-- The engine's step is the run of the latched word (44_control.md R216). -/
theorem State.engineStep_command {s : State} {i : Instr} (h : decodeCommand s.latch = .ok i) :
    s.engineStep = exec i s := by rw [State.engineStep, h]

theorem State.engineStep_illegal {s : State} {e : DecodeReject} (h : decodeCommand s.latch = .error e) :
    s.engineStep = .next (faultRun s .badOpcode 0 0).finish := by
  rw [State.engineStep, h, runLatched, h]

/-- One arm of the decoder: it answers its row's instruction, or the rest answers. -/
theorem ok_of_arm {b : Bool} {i j : Instr} {r : Except DecodeReject Instr}
    (h : (if b = true then .ok j else r) = .ok i) : (b = true ∧ j = i) ∨ (b = false ∧ r = .ok i) := by
  cases b
  · exact .inr ⟨rfl, h⟩
  · exact .inl ⟨rfl, by simpa using h⟩

/-- A command word decodes to a command. -/
theorem decodeCommand_format {w : Word} {i : Instr} (h : decodeCommand w = .ok i) : i.format = .cmd := by
  rw [decodeCommand] at h
  iterate 11
    obtain ⟨-, rfl⟩ | ⟨-, h⟩ := ok_of_arm h
    · rfl
  split at h <;> cases h

/-- A CTRL value decodes to one of the three actions. -/
theorem decodeCtrl_cases {v : Word} {i : Instr} (h : decodeCtrl v = .ok i) :
    i = .softReset ∨ i = .abort (irqEnField v) ∨ i = .start (irqEnField v) := by
  unfold decodeCtrl at h
  split_ifs at h <;> cases h <;> simp

/-! ## The window -/

@[simp] theorem regAt_offset (r : Reg) : regAt r.offset = r := by cases r <;> rfl

theorem Reg.offset_lt (r : Reg) : r.offset + 4 ≤ 0x100 ∧ r.offset % 4 = 0 := by cases r <;> decide

theorem regAt_reserved {off : Nat} (h : 0x5C ≤ off) : regAt off = .reserved := by
  unfold regAt
  generalize hk : off / 4 = k
  have : 0x17 ≤ k := by omega
  split <;> first | rfl | omega

/-- An aligned 32-bit access inside the window reaches its register (10_state.md R20, R21). -/
theorem busTarget_of_aligned (base : Nat) {off : Nat} (h : off + 4 ≤ 0x100) (h4 : off % 4 = 0) :
    busTarget base (base + off) 4 = .reg (regAt off) := by
  unfold busTarget
  rw [if_neg (by omega), if_pos ⟨by omega, rfl, by rwa [Nat.add_sub_cancel_left]⟩, Nat.add_sub_cancel_left]

@[simp] theorem busTarget_reg (base : Nat) (r : Reg) : busTarget base (base + r.offset) 4 = .reg r := by
  rw [busTarget_of_aligned base r.offset_lt.1 r.offset_lt.2, regAt_offset]

/-- An access inside the window that is not aligned and 32 bits wide is a bus error (10_state.md R21). -/
theorem busTarget_illegal {base addr width : Nat} (h1 : addr < base + 0x100) (h2 : base < addr + width)
    (h : ¬(base ≤ addr ∧ width = 4 ∧ (addr - base) % 4 = 0)) : busTarget base addr width = .illegal := by
  unfold busTarget
  rw [if_neg (by omega), if_neg h]

/-- What an access can reach. -/
theorem busTarget_cases (base addr width : Nat) :
    busTarget base addr width = .elsewhere ∨ busTarget base addr width = .illegal ∨
      ∃ r, busTarget base addr width = .reg r := by
  cases h : busTarget base addr width <;> simp

/-! ## Host accesses -/

theorem hostStep_busRead_reg {s : State} {addr width : Nat} {r : Reg}
    (h : busTarget s.cfg.regBase addr width = .reg r) : hostStep (.busRead addr width) s = .next (s.readReg r) := by
  simp only [hostStep, h]

theorem hostStep_busWrite_reg {s : State} {addr width : Nat} {v : Word} {r : Reg}
    (h : busTarget s.cfg.regBase addr width = .reg r) :
    hostStep (.busWrite addr width v) s = writeRegister r v (s.answer .done) := by
  simp only [hostStep, h]

/-- A register read changes the answer and, for an open register of a running command, the draw count. -/
theorem State.readReg_cases (r : Reg) (s : State) :
    (s.readReg r = s.answer (.word (s.regWord r)) ∧ ¬(s.busy = true ∧ r.openWhileBusy = true)) ∨
      (s.readReg r = (s.answer (.word (Config.busyRead s.draws &&& r.bits))).drew ∧ s.busy = true ∧
        r.openWhileBusy = true) := by
  unfold State.readReg
  split_ifs with h
  · exact .inr ⟨rfl, by simpa using h⟩
  · exact .inl ⟨rfl, by simpa using h⟩

/-- A register write other than CTRL: W1C clearing, a write error, an operand, or nothing. -/
theorem State.writeReg_cases (r : Reg) (v : Word) (s : State) :
    (r = .status ∧ s.writeReg r v = s.writeStatus v) ∨
      (r.isOperand = true ∧ s.busy = true ∧ s.writeReg r v = s.noteWriteError) ∨
      (r.isOperand = true ∧ s.busy = false ∧ s.writeReg r v = s.setOperand r v) ∨
      (r ≠ .status ∧ r.isOperand = false ∧ s.writeReg r v = s) := by
  unfold State.writeReg
  cases r <;> cases s.busy <;> simp [Reg.isOperand, State.setOperand]

/-- Everything a host write to CTRL can do (30_encoding.md R85). -/
theorem writeCtrl_cases (v : Word) (s : State) :
    writeCtrl v s = .next s.softReset ∨
      (s.busy = true ∧ writeCtrl v s = .next (s.setIrqEn (irqEnField v)).abortRun) ∨
      (s.busy = true ∧ writeCtrl v s = .next (s.setIrqEn (irqEnField v)).noteWriteError) ∨
      (s.busy = false ∧ writeCtrl v s = .next (s.setIrqEn (irqEnField v)).accept) ∨
      writeCtrl v s = .next (s.setIrqEn (irqEnField v)) := by
  unfold writeCtrl
  cases h : decodeCtrl v with
  | error e => simp
  | ok i =>
    rcases decodeCtrl_cases h with rfl | rfl | rfl
    · exact .inl rfl
    · cases hb : s.busy
      · exact .inr (.inr (.inr (.inr (by simp [exec, execAbort, hb]))))
      · exact .inr (.inl ⟨rfl, by simp [exec, execAbort, hb]⟩)
    · cases hb : s.busy
      · exact .inr (.inr (.inr (.inl ⟨rfl, by simp [exec, execStart, hb]⟩)))
      · exact .inr (.inr (.inl ⟨rfl, by simp [exec, execStart, hb]⟩))

/-- Everything a host write of buffer memory can do. -/
theorem hostMemWrite_cases (a : Nat) (v : Byte) (s : State) :
    (s.cfg.memSize ≤ a ∧ hostMemWrite a v s = .fault (.noSuchAddress a)) ∨
      (a < s.cfg.memSize ∧
        ∃ srcDraw dstTouched draws,
          hostMemWrite a v s = .next
            { s with
              mem := memWrite s.mem a v, reply := .done
              srcDraw := srcDraw, dstTouched := dstTouched, draws := draws } ∧
          (s.ownsSrc a = false → srcDraw = s.srcDraw ∧ draws = s.draws) ∧
          dstTouched = if s.ownsDst a then a :: s.dstTouched else s.dstTouched) := by
  by_cases h : s.cfg.memSize ≤ a
  · exact .inl ⟨h, by rw [hostMemWrite, if_pos h]⟩
  · refine .inr ⟨by omega, ?_⟩
    rw [hostMemWrite, if_neg h]
    cases hs : s.ownsSrc a <;> cases hd : s.ownsDst a
    · exact ⟨_, _, _, rfl, fun _ => ⟨rfl, rfl⟩, rfl⟩
    · exact ⟨_, _, _, rfl, fun _ => ⟨rfl, rfl⟩, rfl⟩
    · exact ⟨_, _, _, rfl, fun h => (nomatch h), rfl⟩
    · exact ⟨_, _, _, rfl, fun h => (nomatch h), rfl⟩

/-- Everything a host read of buffer memory can do. -/
theorem hostMemRead_cases (a : Nat) (s : State) :
    (s.cfg.memSize ≤ a ∧ hostMemRead a s = .fault (.noSuchAddress a)) ∨
      (a < s.cfg.memSize ∧ s.ownsDst a = false ∧
        hostMemRead a s = .next (s.answer (.byte (memRead s.mem a)))) ∨
      (a < s.cfg.memSize ∧ s.ownsDst a = true ∧
        ∃ b, hostMemRead a s = .next (s.answer (.byte b)).drew) := by
  unfold hostMemRead
  split_ifs with h h2 h3
  · exact .inl ⟨h, rfl⟩
  · exact .inr (.inr ⟨by omega, h2, _, rfl⟩)
  · exact .inr (.inr ⟨by omega, h2, _, rfl⟩)
  · exact .inr (.inl ⟨by omega, by simpa using h2, rfl⟩)

end Sys2Proof.Machine
end

