-- ==== Sys2Proof/Tests/Slice0.lean ====
section
/-! SUPPORT. Tests: ill-formed terms, words written out from 30_encoding.md, steps with the results that
95_test_vectors.md gives, and for every statement with hypotheses a concrete case that meets them. -/

namespace Sys2Proof.Tests

open Sys2Proof Sys2Proof.Machine

/-! ## Helpers -/

/-- Bytes from numbers. -/
def bytes (l : List Nat) : List Byte := l.map (BitVec.ofNat 8)

/-- A state after reset with these source bytes at address 0 and a destination range at 0x800. -/
def ready (src : List Nat) (cap target : Nat) : State :=
  { State.reset with
    mem := applyWrites [] (cellsAt 0 (bytes src)), srcLen := BitVec.ofNat 32 src.length
    dstAddr := 0x800#32, dstCap := BitVec.ofNat 32 cap, targetLen := BitVec.ofNat 32 target }

/-- A state whose engine is about to run a command word. -/
def running (w : Word) (s : State) : State := { s with phase := .run, cmd := w, latch := w }

/-- One field of a next state. -/
def seen {α : Type} (o : Host.Outcome State Fault Refusal) (f : State → α) : Option α :=
  match o with
  | .next t => some (f t)
  | .fault _ => none
  | .refused _ => none

/-- An outcome with a visible next state has one. -/
theorem next_of_seen {o : Host.Outcome State Fault Refusal} (h : (seen o fun _ => ()).isSome = true) :
    ∃ t, o = .next t := by
  cases o with
  | next t => exact ⟨t, rfl⟩
  | fault _ => cases h
  | refused _ => cases h

/-- The first bytes of the destination range. -/
def output (n : Nat) (s : State) : List Byte := (List.range n).map fun j => memRead s.mem (0x800 + j)

/-- STATUS, ERR_POS, OUT_LEN, BR_POS and BLK_COUNT. -/
def report (s : State) : Word × Word × Word × Word × Word := (s.statusWord, s.errPos, s.outLen, s.brPos, s.blkCount)

/-- The stream of vector H1 (95_test_vectors.md section 2.3). -/
def h1Bytes : List Nat := [0x06, 0x00, 0x8B, 0x00, 0x00, 0x00, 0xF9, 0x00]

/-- "hello". -/
def hello : List Nat := [0x68, 0x65, 0x6C, 0x6C, 0x6F]

/-- A list of bytes as a stream. -/
def streamOf (l : List Nat) : Stream := { byte := fun j => (bytes l).getD j 0#8, len := l.length }

/-! ## WellFormed refuses ill-formed terms (30_encoding.md R83) -/

theorem test_bwPut_zero_refused : (Instr.bwPut 0#5).wellFormed = false := by decide
theorem test_bwPut_twentyfive_refused : (Instr.bwPut 25#5).wellFormed = false := by decide
theorem test_bwPut_bounds_accepted : (Instr.bwPut 1#5).wellFormed && (Instr.bwPut 24#5).wellFormed := by decide
theorem test_brGet_zero_refused : (Instr.brGet 0#5).wellFormed = false := by decide
theorem test_brGet_twentyfive_refused : (Instr.brGet 25#5).wellFormed = false := by decide
theorem test_brGet_bounds_accepted : (Instr.brGet 1#5).wellFormed && (Instr.brGet 24#5).wellFormed := by decide

/-! ## Words written out bit by bit (30_encoding.md R80, R81, R85): bits 31:10, RAW, NBITS, OP -/

theorem test_decode_nop : decodeCommand (0#22 ++ 0b0#1 ++ 0b00000#5 ++ 0b0000#4) = .ok .nop := by decide
theorem test_decode_decode : decodeCommand (0#22 ++ 0b0#1 ++ 0b00000#5 ++ 0b0001#4) = .ok .decode := by decide
theorem test_decode_encode : decodeCommand (0#22 ++ 0b0#1 ++ 0b00000#5 ++ 0b0010#4) = .ok .encode := by decide
theorem test_decode_copy : decodeCommand (0#22 ++ 0b0#1 ++ 0b00000#5 ++ 0b0011#4) = .ok .copy := by decide
theorem test_decode_pdecode : decodeCommand (0#22 ++ 0b0#1 ++ 0b00000#5 ++ 0b0100#4) = .ok .pdecode := by decide
theorem test_decode_pencode : decodeCommand (0#22 ++ 0b0#1 ++ 0b00000#5 ++ 0b0101#4) = .ok (.pencode false) := by
  decide
theorem test_decode_pencode_raw : decodeCommand (0#22 ++ 0b1#1 ++ 0b00000#5 ++ 0b0101#4) = .ok (.pencode true) := by
  decide
theorem test_decode_bwReset : decodeCommand (0#22 ++ 0b0#1 ++ 0b00000#5 ++ 0b0110#4) = .ok .bwReset := by decide
theorem test_decode_bwPut : decodeCommand (0#22 ++ 0b0#1 ++ 0b11000#5 ++ 0b0111#4) = .ok (.bwPut 24#5) := by decide
theorem test_decode_bwFlush : decodeCommand (0#22 ++ 0b0#1 ++ 0b00000#5 ++ 0b1000#4) = .ok .bwFlush := by decide
theorem test_decode_brReset : decodeCommand (0#22 ++ 0b0#1 ++ 0b00000#5 ++ 0b1001#4) = .ok .brReset := by decide
theorem test_decode_brGet : decodeCommand (0#22 ++ 0b0#1 ++ 0b01001#5 ++ 0b1010#4) = .ok (.brGet 9#5) := by decide
/-- CTRL: bits 31:4, IRQ_EN, SOFT_RESET, ABORT, START. -/
theorem test_decode_start : decodeCtrl (0#28 ++ 0b1#1 ++ 0b0#1 ++ 0b0#1 ++ 0b1#1) = .ok (.start true) := by decide
theorem test_decode_abort : decodeCtrl (0#28 ++ 0b0#1 ++ 0b0#1 ++ 0b1#1 ++ 0b1#1) = .ok (.abort false) := by decide
theorem test_decode_softReset : decodeCtrl (0#28 ++ 0b1#1 ++ 0b1#1 ++ 0b1#1 ++ 0b1#1) = .ok .softReset := by decide

/-- Vectors CT3 to CT5, and a CTRL write that only stores IRQ_EN. -/
theorem test_words_refused :
    decodeCommand 0x0000000B#32 = .error .reservedOpcode ∧ decodeCommand 0x00000011#32 = .error .reservedBits ∧
      decodeCommand 0x00000405#32 = .error .reservedBits ∧ decodeCtrl 0x00000008#32 = .error .noAction := by decide

/-- The words of 30_encoding.md R100. -/
theorem test_encode_words :
    encode (.bwPut 9#5) = 0x00000097#32 ∧ encode (.brGet 3#5) = 0x0000003A#32 ∧
      encode (.pencode true) = 0x00000205#32 ∧ encode (.start true) = 0x00000009#32 := by decide

theorem test_tableWords :
    decodeTableWord 32 0x1 = some .decode ∧ decodeTableWord 8 0x1 = some (.start false) ∧
      decodeTableWord 8 0x2 = some (.abort false) ∧ decodeTableWord 8 0x4 = some .softReset ∧
      decodeTableWord 32 (2 ^ 32) = none := by decide

/-! ## Steps (95_test_vectors.md) -/

/-- CT1: NOP with IRQ_EN leaves STATUS 0x22 and the IRQ output high. -/
theorem test_nop :
    seen (step (running 0x0#32 { State.reset with irqEn := true })) (fun t => (t.statusWord, t.irq)) =
      some (0x00000022#32, true) := by decide +kernel

/-- H1: six literals. -/
theorem test_decode_h1 :
    seen (exec .decode (ready h1Bytes 6 6)) (fun t => (report t, output 6 t)) =
      some ((0x00000002#32, 0#32, 6#32, 58#32, 1#32), bytes [0, 1, 2, 3, 3, 0]) := by decide +kernel

/-- H24: the stream ends after six of seven literals. -/
theorem test_decode_h24 :
    seen (exec .decode (ready h1Bytes 7 7)) (fun t => (report t, output 6 t)) =
      some ((0x00010604#32, 58#32, 6#32, 58#32, 1#32), bytes [0, 1, 2, 3, 3, 0]) := by decide +kernel

/-- E2: one byte becomes 133; its codeword lies across the last two. -/
theorem test_encode_e2 :
    seen (exec .encode (ready [0x41] 133 0))
        (fun t => (t.statusWord, t.outLen, output 4 t, memRead t.mem (0x800 + 131), memRead t.mem (0x800 + 132))) =
      some (0x00000002#32, 133#32, bytes [0x01, 0x00, 0x0B, 0xA0], 0x59#8, 0x10#8) := by decide +kernel

/-- E11: one byte of room too few. -/
theorem test_encode_e11 :
    seen (exec .encode (ready [0x41] 132 0)) report =
      some (0x00000504#32, 133#32, 0#32, 0#32, 1#32) := by decide +kernel

/-- CP1. -/
theorem test_copy_cp1 :
    seen (exec .copy (ready hello 5 5)) (fun t => (t.statusWord, t.outLen, output 5 t)) =
      some (0x00000002#32, 5#32, bytes hello) := by decide +kernel

/-- CP4: the source check comes first. -/
theorem test_copy_cp4 :
    seen (exec .copy (ready [0, 0, 0, 0, 0, 0] 4 7)) (fun t => (t.statusWord, t.errPos)) =
      some (0x00020604#32, 7#32) := by decide +kernel

/-- PD2: a codec payload. -/
theorem test_pdecode_pd2 :
    seen (exec .pdecode (ready ([0, 0, 0, 6, 0, 0, 0, 0, 1] ++ h1Bytes) 6 0))
        (fun t => (report t, t.hdrUsize, output 6 t)) =
      some ((0x00000012#32, 0#32, 6#32, 58#32, 1#32), 6#32, bytes [0, 1, 2, 3, 3, 0]) := by decide +kernel

/-- PD6: a raw payload that the source range does not hold. -/
theorem test_pdecode_pd6 :
    seen (exec .pdecode (ready [0, 0, 0, 5, 0, 0, 0, 0, 0, 0x68, 0x65, 0x6C] 5 0)) (fun t => (t.statusWord, t.errPos)) =
      some (0x00020604#32, 14#32) := by decide +kernel

/-- PE1: the attempt is longer, so the payload is raw. -/
theorem test_pencode_pe1 :
    seen (exec (.pencode false) (ready hello 14 0))
        (fun t => (t.statusWord, t.outLen, t.hdrUsize, t.blkCount, output 14 t)) =
      some (0x00000002#32, 14#32, 5#32, 1#32, bytes ([0, 0, 0, 5, 0, 0, 0, 0, 0] ++ hello)) := by decide +kernel

/-- PE4. -/
theorem test_pencode_pe4 :
    seen (exec (.pencode false) (ready hello 13 0)) (fun t => (t.statusWord, t.errPos, t.outLen)) =
      some (0x00000504#32, 14#32, 0#32) := by decide +kernel

/-- BS13. -/
theorem test_bwReset_bs13 :
    seen (exec .bwReset { State.reset with bwAcc := 5#32, bwCnt := 3#5, outLen := 7#32 })
        (fun t => (t.bwAcc, t.bwCnt, t.outLen)) = some (0#32, 0#5, 0#32) := by decide +kernel

/-- The second BW_PUT of program P2: 0x1FF above 0x05 emits FD and keeps 0x0F. -/
theorem test_bwPut_p2 :
    seen (exec (.bwPut 9#5) { ready [] 4 0 with arg := 0x1FF#32, bwAcc := 5#32, bwCnt := 3#5 })
        (fun t => (output 1 t, t.bwAcc, t.bwCnt, t.outLen)) = some (bytes [0xFD], 0x0F#32, 4#5, 1#32) := by
  decide +kernel

/-- BS10. -/
theorem test_bwPut_bs10 :
    seen (exec (.bwPut 2#5) { ready [] 1 0 with outLen := 1#32, bwCnt := 6#5 }) (fun t => (t.statusWord, t.errPos)) =
      some (0x00000504#32, 2#32) := by decide +kernel

/-- BW_FLUSH's example (40_bitstream.md R128). -/
theorem test_bwFlush :
    seen (exec .bwFlush { ready [] 2 0 with outLen := 1#32, bwAcc := 0x2F#32, bwCnt := 6#5 })
        (fun t => (output 2 t, t.bwAcc, t.bwCnt, t.outLen)) = some (bytes [0, 0x2F], 0#32, 0#5, 2#32) := by
  decide +kernel

/-- BS12. -/
theorem test_bwFlush_bs12 :
    seen (exec .bwFlush { ready [] 0 0 with bwCnt := 3#5 }) (fun t => (t.statusWord, t.errPos)) =
      some (0x00000504#32, 1#32) := by decide +kernel

/-- BR_RESET's example (40_bitstream.md R129). -/
theorem test_brReset :
    seen (exec .brReset { State.reset with brPos := 37#32, result := 9#32 }) (fun t => (t.brPos, t.result)) =
      some (0#32, 9#32) := by decide +kernel

/-- BS6: the second field. -/
theorem test_brGet_bs6 :
    seen (exec (.brGet 9#5) { ready [0xFD, 0x2F] 0 0 with brPos := 3#32 }) (fun t => (t.result, t.brPos)) =
      some (0x1FF#32, 12#32) := by decide +kernel

/-- BS7. -/
theorem test_brGet_bs7 :
    seen (exec (.brGet 3#5) { ready [0xFD, 0x2F] 0 0 with brPos := 14#32, result := 2#32 })
        (fun t => (t.statusWord, t.errPos, t.result, t.brPos)) = some (0x00010604#32, 14#32, 2#32, 14#32) := by
  decide +kernel

/-- A START on an idle block latches CMD and clears all of STATUS but WERR (44_control.md R210). -/
theorem test_start :
    seen (exec (.start false) { State.reset with cmd := 6#32, done := true, werr := true, packed := true })
        (fun t => (t.statusWord, t.latch)) = some (0x00000009#32, 6#32) := by decide +kernel

/-- CT14: ABORT while idle. -/
theorem test_abort_ct14 : exec (.abort false) State.reset = .next State.reset := rfl

/-- CT16: ABORT before the engine's step. -/
theorem test_abort_ct16 :
    seen (exec (.abort false) (running 0x1#32 (ready h1Bytes 6 6)))
        (fun t => (t.busy, t.err, t.errCode, t.errPos, t.targetLen)) =
      some (false, true, .aborted, 0#32, 6#32) := by decide +kernel

/-- CT13: BLOCK_MAX and an operand take their reset values. -/
theorem test_softReset_ct13 :
    seen (exec .softReset { State.reset with blockMax := 1#32, arg := 7#32, werr := true })
        (fun t => (t.blockMax, t.arg, t.statusWord)) = some (0x8000#32, 0#32, 0#32) := by decide +kernel

/-- CT3: the engine's step on an illegal word. -/
theorem test_step_ct3 :
    seen (step (running 0x0000000B#32 State.reset)) (fun t => (t.statusWord, t.errPos)) =
      some (0x00000104#32, 0#32) := by decide +kernel

/-- CT20: a byte read of ID. -/
theorem test_byteRead_ct20 :
    seen (hostStep (.busRead 0 1) State.reset) (fun t => (t.reply, t.statusWord)) = some (.busError, 0#32) := by decide

/-- The words placed by withFetchWord are what the next step runs. -/
theorem test_withFetchWord :
    (State.reset.withFetchWord 32 0x1).turn = .engine ∧ decodeCommand (State.reset.withFetchWord 32 0x1).latch = .ok .decode ∧
      (State.reset.withFetchWord 8 0x9).turn = .host (.busWrite 0x08 4 0x9#32) [] ∧
      seen (step (State.reset.withFetchWord 8 0x9)) (fun t => (t.phase, t.irqEn)) = some (.run, true) := by
  decide +kernel

/-! ## Statements with hypotheses: a case that meets them

Each witness_<Name> shows a state and operands that meet the hypotheses of Obligations.<Name> together, with one case for
each clause, at boundary values where a clause has a range. -/

theorem witness_DecodeEncodeRoundTrip : decodeCommand 0x00000205#32 = .ok (.pencode true) := by decide

theorem witness_IllegalWordFaultsBadOpcode :
    (running 0x0000000B#32 State.reset).turn = .engine ∧ (running 0x0000000B#32 State.reset).Quiet ∧
      (running 0x0000000B#32 State.reset).latch = 0x0000000B#32 ∧ ({ State.reset with cmd := 0x0000000B#32 } : State).busy = false ∧
      ∀ i, decodeCommand 0x0000000B#32 ≠ .ok i := by
  refine ⟨by decide, by decide, by decide, by decide, fun i h => ?_⟩
  rw [show decodeCommand 0x0000000B#32 = .error .reservedOpcode by decide] at h
  cases h

theorem witness_CtrlActionPriority :
    (0x7#32 : Word).getLsbD 2 = true ∧
      ((0x3#32 : Word).getLsbD 2 = false ∧ (0x3#32 : Word).getLsbD 1 = true) ∧
      ((0x9#32 : Word).getLsbD 2 = false ∧ (0x9#32 : Word).getLsbD 1 = false ∧ (0x9#32 : Word).getLsbD 0 = true) ∧
      ((0x8#32 : Word).getLsbD 2 = false ∧ (0x8#32 : Word).getLsbD 1 = false ∧ (0x8#32 : Word).getLsbD 0 = false) := by
  decide

theorem witness_StepRunsLatchedCommand :
    (running 0x1#32 State.reset).turn = .engine ∧ decodeCommand (running 0x1#32 State.reset).latch = .ok .decode := by
  decide

/-- The block idle, with a host that accesses one thing. -/
def hosted (op : HostOp) (s : State) : State := { s with pending := [op] }

theorem witness_StepRunsCtrlAction :
    (hosted (.busWrite 0x08 4 0x9#32) State.reset).turn = .host (.busWrite (Config.platform.regBase + 0x08) 4 0x9#32) [] ∧
      decodeCtrl 0x9#32 = .ok (.start true) := by decide

theorem witness_OnlyMissingAddressesStop :
    step (hosted (.memRead 0x1000) State.reset) = .fault (.noSuchAddress 0x1000) ∧
      ∃ t, step (hosted (.memRead 0xFFF) State.reset) = .next t := ⟨rfl, _, rfl⟩

/-- A running NOP with a polling host that the engine lets wait. -/
def waiting : State := { running 0x0#32 (hosted .poll State.reset) with engineDue := 1 }

theorem witness_EngineIsFair :
    (∃ t, step (running 0x0#32 State.reset) = .next t ∧ (running 0x0#32 State.reset).turn = .engine) ∧
      ∃ t, step waiting = .next t ∧ waiting.phase = .run ∧ waiting.turn = .host .poll [] ∧ t.phase = .run :=
  ⟨⟨_, rfl, by decide⟩, _, rfl, by decide, by decide, rfl⟩

theorem witness_PutKeepsWriter :
    (Writer.mk 0x7F 7 []).cnt ≤ 7 ∧ (Writer.mk 0x7F 7 []).acc < 2 ^ (Writer.mk 0x7F 7 []).cnt := by decide

theorem witness_BitStreamRoundTrip :
    ∀ f ∈ [(5, 3), (0x1FF, 24), (1, 1)], 1 ≤ f.2 ∧ f.2 ≤ 24 := by decide

theorem witness_NopAndCursorResetsComplete : State.reset.Quiet := by decide

/-- A BW_PUT state: the writer, the cursor and the capacity. -/
def putting (acc : Nat) (cnt : BitVec 5) (out cap : Nat) : State :=
  { ready [] cap 0 with bwAcc := BitVec.ofNat 32 acc, bwCnt := cnt, outLen := BitVec.ofNat 32 out }

theorem witness_BwPutAppendsBits :
    ((putting 0x7F 7#5 1 4).Quiet ∧ Memory.wf (putting 0x7F 7#5 1 4).mem ∧ (putting 0x7F 7#5 1 4).DstOk ∧
      (putting 0x7F 7#5 1 4).WriterOk ∧ 1 + (7 + 24) / 8 ≤ (putting 0x7F 7#5 1 4).dstCap.toNat) ∧
    ((putting 0 0#5 0 0).Quiet ∧ Memory.wf (putting 0 0#5 0 0).mem ∧ (putting 0 0#5 0 0).DstOk ∧
      (putting 0 0#5 0 0).WriterOk ∧ 0 + (0 + 1) / 8 ≤ (putting 0 0#5 0 0).dstCap.toNat) := by decide

/-- A BW_CNT beyond Put's entry condition; one within it with stray bits above it in BW_ACC; two values of ARG that agree
in the low bits. -/
theorem witness_BwPutCompletesAfterAbort :
    ((putting 0xFFFFFFFF 31#5 0 6).Quiet ∧ (putting 0xFFFFFFFF 31#5 0 6).DstOk ∧
      0 + (31 + 24) / 8 ≤ (putting 0xFFFFFFFF 31#5 0 6).dstCap.toNat) ∧
    ((putting 0xFFFFFFFF 0#5 0 0).Quiet ∧ (putting 0xFFFFFFFF 0#5 0 0).DstOk ∧
      0 + (0 + 1) / 8 ≤ (putting 0xFFFFFFFF 0#5 0 0).dstCap.toNat) ∧
    (0xFFFFFFFD#32 : Word).toNat % 2 ^ 2 = (0x00000001#32 : Word).toNat % 2 ^ 2 := by decide

theorem witness_BwFlushEmitsPartialByte :
    ((putting 0x2F 6#5 1 2).Quiet ∧ Memory.wf (putting 0x2F 6#5 1 2).mem ∧ (putting 0x2F 6#5 1 2).DstOk ∧
      1 + (if 0 < (putting 0x2F 6#5 1 2).bwCnt.toNat then 1 else 0) ≤ (putting 0x2F 6#5 1 2).dstCap.toNat) ∧
    ((putting 0 0#5 0 0).Quiet ∧ (putting 0 0#5 0 0).DstOk ∧
      0 + (if 0 < (putting 0 0#5 0 0).bwCnt.toNat then 1 else 0) ≤ (putting 0 0#5 0 0).dstCap.toNat) := by decide

/-- BS10, BS12, and no byte to emit with OUT_LEN beyond DST_CAP (log 25). -/
theorem witness_WriterOverflowChangesNothing :
    ((putting 0 6#5 1 1).Quiet ∧ (putting 0 6#5 1 1).DstOk ∧ 2 = 1 + (6 + 2) / 8 ∧
      (putting 0 6#5 1 1).dstCap.toNat < 2 ∧ 2 < 2 ^ 32) ∧
    ((putting 0 3#5 0 0).Quiet ∧ (putting 0 3#5 0 0).DstOk ∧
      1 = 0 + (if 0 < (putting 0 3#5 0 0).bwCnt.toNat then 1 else 0) ∧ (putting 0 3#5 0 0).dstCap.toNat < 1) ∧
    ((putting 0 0#5 2 1).Quiet ∧ (putting 0 0#5 2 1).DstOk ∧ 2 = 2 + (0 + 1) / 8 ∧
      2 = 2 + (if 0 < (putting 0 0#5 2 1).bwCnt.toNat then 1 else 0) ∧ (putting 0 0#5 2 1).dstCap.toNat < 2) := by decide

/-- A BR_GET state at a stream position. -/
def getting (pos : Nat) (src : List Nat) : State := { ready src 0 0 with brPos := BitVec.ofNat 32 pos }

theorem witness_BrGetReadsField :
    (getting 0 [0xFD, 0x2F, 1]).Quiet ∧ (getting 0 [0xFD, 0x2F, 1]).SrcOk ∧
      0 + 24 ≤ 8 * (getting 0 [0xFD, 0x2F, 1]).srcLen.toNat := by decide

theorem witness_BrGetExhaustedConsumesNothing :
    (getting 0 []).Quiet ∧ (getting 0 []).SrcOk ∧ 8 * (getting 0 []).srcLen.toNat < 0 + 1 := by decide

theorem witness_UniformDepthCodeIsSymbol : 1 ≤ 2 ∧ 4 ≤ 2 ^ 2 := by decide

theorem witness_PrefixFaultOnlyForMixedDepthsLsbFirst : ∀ l ∈ [3, 0, 3], l = 0 ∨ l = 3 := by decide

/-- The bits of a stream from a position on. -/
def bitsAt (t : Stream) (pos n : Nat) : List Bool := (List.range n).map fun k => t.bit (pos + k)

/-- Two codewords, 00 and 10. They stand at the end of a byte; after 1 comes 1; the stream ends after 1, and before any
bit; and with no codeword at all the first bit leaves the tree. -/
theorem witness_WalkFindsCodeword :
    (canon [2, 2] = some [⟨0, 0, 2⟩, ⟨1, 1, 2⟩] ∧ ∃ tree, buildTree .lsbFirst [2, 2] = .ok tree) ∧
      ((⟨1, 1, 2⟩ : Codeword) ∈ [⟨0, 0, 2⟩, ⟨1, 1, 2⟩] ∧ 6 + 2 ≤ 8 * (streamOf [0x40]).len ∧
        bitsAt (streamOf [0x40]) 6 2 = transmitted .lsbFirst 1 2) ∧
      (0 + 1 + 1 ≤ 8 * (streamOf [0x03]).len ∧
        properPrefix (bitsAt (streamOf [0x03]) 0 1) (transmitted .lsbFirst 1 2) = true ∧
        ∀ c ∈ [(⟨0, 0, 2⟩ : Codeword), ⟨1, 1, 2⟩],
          (bitsAt (streamOf [0x03]) 0 2).isPrefixOf (transmitted .lsbFirst c.code c.len) = false) ∧
      (7 + 1 = 8 * (streamOf [0x80]).len ∧
        properPrefix (bitsAt (streamOf [0x80]) 7 1) (transmitted .lsbFirst 1 2) = true) ∧
      8 + 0 = 8 * (streamOf [0x80]).len ∧
      (canon [] = some [] ∧ (∃ tree, buildTree .lsbFirst [] = .ok tree) ∧ 0 + 0 + 1 ≤ 8 * (streamOf [0x00]).len) :=
  ⟨⟨by decide, _, rfl⟩, by decide, by decide, by decide, by decide, by decide, ⟨_, rfl⟩, by decide⟩

theorem witness_EncodedLength :
    (1 ≤ 1 ∧ 1 ≤ 0xFFFF) ∧ (1 ≤ 0xFFFF ∧ 0xFFFF ≤ 0xFFFF) ∧ ([] : List Byte).length = 0 ∧ 1 ≤ [0x41#8].length := by decide

/-- A fresh cursor. -/
def freshCursor : Cursor := State.reset.clearDecode.cursor

theorem witness_DecodeOfEncodeIsIdentity : 1 ≤ 1 ∧ 1 ≤ 0xFFFF ∧ freshCursor.brPos = 0 := by decide

theorem witness_DecodeEndsWithinStream :
    freshCursor.brPos ≤ 8 * (streamOf h1Bytes).len ∧ 8 * (streamOf h1Bytes).len + 1 ≤ 66 := by decide

/-- H1 succeeds and H24 faults. -/
theorem witness_DecodeProducesItsTarget :
    freshCursor.brPos ≤ 8 * (streamOf h1Bytes).len ∧
      (∃ c, decodeStream .lsbFirst (streamOf h1Bytes) 6 freshCursor = .ok c) ∧
      ∃ p, decodeStream .lsbFirst (streamOf h1Bytes) 7 freshCursor = .error p := by
  refine ⟨by decide, ?_, ?_⟩
  · have h : (decodeStream .lsbFirst (streamOf h1Bytes) 6 freshCursor).toOption.isSome = true := by decide +kernel
    cases hd : decodeStream .lsbFirst (streamOf h1Bytes) 6 freshCursor with
    | ok c => exact ⟨c, rfl⟩
    | error p => rw [hd] at h; cases h
  · have h : (decodeStream .lsbFirst (streamOf h1Bytes) 7 freshCursor).toOption.isSome = false := by decide +kernel
    cases hd : decodeStream .lsbFirst (streamOf h1Bytes) 7 freshCursor with
    | ok c => rw [hd] at h; cases h
    | error p => exact ⟨p, rfl⟩

/-- H23: H1 with other bytes after it. -/
theorem witness_DecodeIgnoresWhatFollows :
    ∃ c, decodeStream .lsbFirst (streamOf h1Bytes) 6 freshCursor = .ok c ∧
      c.brPos ≤ 8 * (streamOf (h1Bytes ++ [0xFF])).len ∧
      ∀ i < c.brPos, (streamOf (h1Bytes ++ [0xFF])).bit i = (streamOf h1Bytes).bit i := by
  have h : (decodeStream .lsbFirst (streamOf h1Bytes) 6 freshCursor).toOption.map (·.brPos) = some 58 := by
    decide +kernel
  cases hd : decodeStream .lsbFirst (streamOf h1Bytes) 6 freshCursor with
  | ok c =>
    rw [hd] at h
    have hc : c.brPos = 58 := by simpa [Except.toOption] using h
    exact ⟨c, rfl, by rw [hc]; decide, by rw [hc]; decide⟩
  | error p => rw [hd] at h; cases h

/-- The cursor with which DECODE and PDECODE begin, and their stream in a quiet state, as the statements write them. -/
theorem witness_DecodeCommandResult :
    (ready h1Bytes 6 6).Quiet ∧ Memory.wf (ready h1Bytes 6 6).mem ∧ (ready h1Bytes 6 6).SrcOk ∧
      (ready h1Bytes 6 6).DstOk ∧ (ready h1Bytes 6 6).Disjoint ∧
      (ready h1Bytes 6 6).targetLen.toNat ≤ (ready h1Bytes 6 6).dstCap.toNat ∧
      ∃ c, decodeStream .lsbFirst (ready h1Bytes 6 6).srcStream 6 (ready h1Bytes 6 6).clearDecode.cursor = .ok c := by
  refine ⟨by decide, by decide, by decide, by decide, by decide, by decide, ?_⟩
  have h : (decodeStream .lsbFirst (ready h1Bytes 6 6).srcStream 6
      (ready h1Bytes 6 6).clearDecode.cursor).toOption.isSome = true := by decide +kernel
  cases hd : decodeStream .lsbFirst (ready h1Bytes 6 6).srcStream 6 (ready h1Bytes 6 6).clearDecode.cursor with
  | ok c => exact ⟨c, rfl⟩
  | error p => rw [hd] at h; cases h

/-- H24, and H22 for the capacity clause. -/
theorem witness_DecodeCommandFaultIsPrecise :
    ((ready h1Bytes 7 7).Quiet ∧ Memory.wf (ready h1Bytes 7 7).mem ∧ (ready h1Bytes 7 7).SrcOk ∧
      (ready h1Bytes 7 7).DstOk ∧ (ready h1Bytes 7 7).Disjoint ∧
      (ready h1Bytes 7 7).targetLen.toNat ≤ (ready h1Bytes 7 7).dstCap.toNat ∧
      ∃ p, decodeStream .lsbFirst (ready h1Bytes 7 7).srcStream 7 (ready h1Bytes 7 7).clearDecode.cursor = .error p) ∧
    ((ready h1Bytes 5 6).Quiet ∧ Memory.wf (ready h1Bytes 5 6).mem ∧ (ready h1Bytes 5 6).SrcOk ∧
      (ready h1Bytes 5 6).DstOk ∧ (ready h1Bytes 5 6).Disjoint ∧
      (ready h1Bytes 5 6).dstCap.toNat < (ready h1Bytes 5 6).targetLen.toNat) := by
  refine ⟨⟨by decide, by decide, by decide, by decide, by decide, by decide, ?_⟩, by decide⟩
  have h : (decodeStream .lsbFirst (ready h1Bytes 7 7).srcStream 7
      (ready h1Bytes 7 7).clearDecode.cursor).toOption.isSome = false := by decide +kernel
  cases hd : decodeStream .lsbFirst (ready h1Bytes 7 7).srcStream 7 (ready h1Bytes 7 7).clearDecode.cursor with
  | ok c => rw [hd] at h; cases h
  | error p => exact ⟨p, rfl⟩

/-- The encoding of one byte, as vector E2 writes it out. -/
def encodedA : List Nat := [0x01, 0x00, 0x0B, 0xA0] ++ List.replicate 127 0x99 ++ [0x59, 0x10]

theorem witness_DecodeCommandRestoresEncodedData :
    (ready encodedA 1 1).Quiet ∧ Memory.wf (ready encodedA 1 1).mem ∧ (ready encodedA 1 1).SrcOk ∧
      (ready encodedA 1 1).DstOk ∧ (ready encodedA 1 1).Disjoint ∧ (ready encodedA 1 1).targetLen.toNat = [0x41#8].length ∧
      [0x41#8].length ≤ (ready encodedA 1 1).dstCap.toNat ∧
      (List.range (ready encodedA 1 1).srcLen.toNat).map
          (fun j => memRead (ready encodedA 1 1).mem ((ready encodedA 1 1).srcAddr.toNat + j)) =
        (encodeStream (ready encodedA 1 1).cfg.codeBitOrder 1 [0x41#8]).writer.out := by decide +kernel

theorem witness_EncodeCommandResult :
    ((ready [0x41] 133 0).Quiet ∧ Memory.wf (ready [0x41] 133 0).mem ∧ (ready [0x41] 133 0).SrcOk ∧
      (ready [0x41] 133 0).DstOk ∧ (ready [0x41] 133 0).Disjoint ∧ (ready [0x41] 133 0).BlockMaxOk ∧
      1 + (527 * blockCount 1 (ready [0x41] 133 0).blockMax.toNat + 3) / 4 ≤ (ready [0x41] 133 0).dstCap.toNat) ∧
    ((ready [] 0 0).Quiet ∧ (ready [] 0 0).SrcOk ∧ (ready [] 0 0).DstOk ∧ (ready [] 0 0).Disjoint ∧
      (ready [] 0 0).BlockMaxOk ∧
      0 + (527 * blockCount 0 (ready [] 0 0).blockMax.toNat + 3) / 4 ≤ (ready [] 0 0).dstCap.toNat) := by decide

theorem witness_CopyCommandResult :
    (ready hello 5 5).Quiet ∧ Memory.wf (ready hello 5 5).mem ∧ (ready hello 5 5).SrcOk ∧ (ready hello 5 5).DstOk ∧
      (ready hello 5 5).Disjoint ∧ (ready hello 5 5).targetLen.toNat ≤ (ready hello 5 5).srcLen.toNat ∧
      (ready hello 5 5).targetLen.toNat ≤ (ready hello 5 5).dstCap.toNat := by decide

theorem witness_CopyCommandFaultsInOrder :
    ((ready hello 4 6).Quiet ∧ (ready hello 4 6).SrcOk ∧ (ready hello 4 6).DstOk ∧ (ready hello 4 6).Disjoint ∧
      (ready hello 4 6).srcLen.toNat < (ready hello 4 6).targetLen.toNat) ∧
    ((ready hello 4 5).Quiet ∧ (ready hello 4 5).SrcOk ∧ (ready hello 4 5).DstOk ∧ (ready hello 4 5).Disjoint ∧
      (ready hello 4 5).targetLen.toNat ≤ (ready hello 4 5).srcLen.toNat ∧
      (ready hello 4 5).dstCap.toNat < (ready hello 4 5).targetLen.toNat) := by decide

/-- A payload's header with USIZE below 256. -/
def header (usize flag : Nat) : List Nat := [0, 0, 0, usize, 0, 0, 0, 0, flag]

/-- The state PDECODE is given, and the header fields it finds. -/
def headed (s : State) : Nat × Byte :=
  let b := fun j => memRead s.mem (s.srcAddr.toNat + j)
  ((b 0).toNat * 2 ^ 24 + (b 1).toNat * 2 ^ 16 + (b 2).toNat * 2 ^ 8 + (b 3).toNat, b 8)

theorem witness_PdecodeRawPayload :
    let s := ready (header 5 0 ++ hello) 5 0
    s.Quiet ∧ Memory.wf s.mem ∧ s.SrcOk ∧ s.DstOk ∧ s.Disjoint ∧ 9 ≤ s.srcLen.toNat ∧ headed s = (5, 0#8) ∧
      5 ≤ s.dstCap.toNat ∧ 9 + 5 ≤ s.srcLen.toNat := by decide

/-- PD2, and the same payload with a header that asks for one byte more than its stream holds. -/
theorem witness_PdecodeCodecPayload :
    (let s := ready (header 6 1 ++ h1Bytes) 6 0;
      (s.Quiet ∧ Memory.wf s.mem ∧ s.SrcOk ∧ s.DstOk ∧ s.Disjoint ∧ 9 ≤ s.srcLen.toNat ∧ headed s = (6, 1#8) ∧
        6 ≤ s.dstCap.toNat) ∧
      ∃ c, decodeStream .lsbFirst (s.srcStream.skip 9) 6 s.clearDecode.cursor = .ok c) ∧
    (let s := ready (header 7 1 ++ h1Bytes) 7 0;
      (s.Quiet ∧ Memory.wf s.mem ∧ s.SrcOk ∧ s.DstOk ∧ s.Disjoint ∧ 9 ≤ s.srcLen.toNat ∧ headed s = (7, 1#8) ∧
        7 ≤ s.dstCap.toNat) ∧
      ∃ p, decodeStream .lsbFirst (s.srcStream.skip 9) 7 s.clearDecode.cursor = .error p) := by
  refine ⟨⟨by decide, ?_⟩, by decide, ?_⟩
  · have h : (decodeStream .lsbFirst ((ready (header 6 1 ++ h1Bytes) 6 0).srcStream.skip 9) 6
        (ready (header 6 1 ++ h1Bytes) 6 0).clearDecode.cursor).toOption.isSome = true := by decide +kernel
    cases hd : decodeStream .lsbFirst ((ready (header 6 1 ++ h1Bytes) 6 0).srcStream.skip 9) 6
        (ready (header 6 1 ++ h1Bytes) 6 0).clearDecode.cursor with
    | ok c => exact ⟨c, rfl⟩
    | error p => rw [hd] at h; cases h
  · have h : (decodeStream .lsbFirst ((ready (header 7 1 ++ h1Bytes) 7 0).srcStream.skip 9) 7
        (ready (header 7 1 ++ h1Bytes) 7 0).clearDecode.cursor).toOption.isSome = false := by decide +kernel
    cases hd : decodeStream .lsbFirst ((ready (header 7 1 ++ h1Bytes) 7 0).srcStream.skip 9) 7
        (ready (header 7 1 ++ h1Bytes) 7 0).clearDecode.cursor with
    | ok c => rw [hd] at h; cases h
    | error p => exact ⟨p, rfl⟩

/-- PD3, PD4, PD5 and PD6. -/
theorem witness_PdecodeHeaderFaultsInOrder :
    (let s := ready [0, 0, 0, 0, 0, 0, 0, 0] 0 0;
      s.Quiet ∧ s.SrcOk ∧ s.DstOk ∧ s.Disjoint ∧ s.srcLen.toNat < 9) ∧
    (let s := ready (header 1 2 ++ [0x41]) 1 0;
      s.Quiet ∧ s.SrcOk ∧ s.DstOk ∧ s.Disjoint ∧ 9 ≤ s.srcLen.toNat ∧ 1 < (headed s).2.toNat) ∧
    (let s := ready (header 10 1) 5 0;
      s.Quiet ∧ s.SrcOk ∧ s.DstOk ∧ s.Disjoint ∧ 9 ≤ s.srcLen.toNat ∧ (headed s).2.toNat ≤ 1 ∧
        s.dstCap.toNat < (headed s).1) ∧
    (let s := ready (header 5 0 ++ [0x68, 0x65, 0x6C]) 5 0;
      s.Quiet ∧ s.SrcOk ∧ s.DstOk ∧ s.Disjoint ∧ 9 ≤ s.srcLen.toNat ∧ headed s = (5, 0#8) ∧ 5 ≤ s.dstCap.toNat ∧
        s.srcLen.toNat < 9 + 5 ∧ 9 + 5 < 2 ^ 32) := by decide

theorem witness_PencodeStoresRawPayload :
    (let s := ready hello 14 0;
      s.Quiet ∧ Memory.wf s.mem ∧ s.SrcOk ∧ s.DstOk ∧ s.Disjoint ∧ s.BlockMaxOk ∧ 9 + s.srcLen.toNat ≤ s.dstCap.toNat) ∧
    (let s := { ready [] 9 0 with blockMax := 0#32 };
      s.Quiet ∧ Memory.wf s.mem ∧ s.SrcOk ∧ s.DstOk ∧ s.Disjoint ∧ (true = false → s.BlockMaxOk) ∧
        9 + s.srcLen.toNat ≤ s.dstCap.toNat) := by decide

/-- PENCODE of one byte, then PDECODE of the ten bytes it gives. -/
theorem witness_FramingRoundTrip :
    let s := ready [0x41] 10 0
    let t := (runPencode true s).finish
    let u := { t with srcAddr := s.dstAddr, srcLen := t.outLen, dstAddr := 0x400#32, dstCap := 1#32 }
    exec (.pencode true) s = .next t ∧
      (s.Quiet ∧ Memory.wf s.mem ∧ s.SrcOk ∧ s.DstOk ∧ s.Disjoint ∧ (true = false → s.BlockMaxOk) ∧
        s.srcLen.toNat ≤ srcLenMax - 9 ∧ t.err = false ∧ u.Quiet ∧ u.SrcOk ∧ u.DstOk ∧ u.Disjoint ∧ u.cfg = t.cfg ∧
        u.mem = t.mem ∧ u.srcAddr = s.dstAddr ∧ u.srcLen = t.outLen ∧ s.srcLen.toNat ≤ u.dstCap.toNat) :=
  ⟨rfl, by decide +kernel⟩

theorem witness_EncodersOverflowWriteNothing :
    (let s := ready [0x41] 132 0;
      s.Quiet ∧ s.SrcOk ∧ s.DstOk ∧ s.Disjoint ∧ s.BlockMaxOk ∧
        s.dstCap.toNat < 1 + (527 * blockCount 1 s.blockMax.toNat + 3) / 4 ∧
        1 + (527 * blockCount 1 s.blockMax.toNat + 3) / 4 < 2 ^ 32) ∧
    (let s := ready hello 13 0;
      s.Quiet ∧ s.SrcOk ∧ s.DstOk ∧ s.Disjoint ∧ (false = false → s.BlockMaxOk) ∧
        s.dstCap.toNat < 9 + s.srcLen.toNat) := by decide

/-- NBITS 25; BLOCK_MAX 0x10000; SRC_LEN 0x20000000; the source and the destination one byte beyond MEM_SIZE; ranges that
share one byte. -/
theorem witness_PrologueReportsFirstFailure :
    State.reset.Quiet ∧ ¬(1 ≤ (25#5).toNat ∧ (25#5).toNat ≤ 24) ∧
      ¬({ State.reset with blockMax := 0x10000#32 } : State).BlockMaxOk ∧
      0x1FFFFFFF < ({ State.reset with srcLen := 0x20000000#32 } : State).srcLen.toNat ∧
      (let s : State := { State.reset with srcAddr := 0xFFF#32, srcLen := 2#32 };
        s.BlockMaxOk ∧ s.srcLen.toNat ≤ 0x1FFFFFFF ∧ s.cfg.memSize < s.srcAddr.toNat + s.srcLen.toNat) ∧
      (let s : State := { State.reset with dstAddr := 0x1001#32 };
        s.BlockMaxOk ∧ s.srcAddr.toNat + s.srcLen.toNat ≤ s.cfg.memSize ∧
          s.cfg.memSize < s.dstAddr.toNat + s.dstCap.toNat) ∧
      (let s : State := { State.reset with srcAddr := 0x10#32, srcLen := 1#32, dstAddr := 0x10#32, dstCap := 1#32 };
        s.BlockMaxOk ∧ s.SrcOk ∧ s.DstOk ∧ ¬s.Disjoint) := by decide

theorem witness_StartLatchesOrSetsWerr :
    State.reset.busy = false ∧ (running 0x0#32 State.reset).busy = true := by decide

/-- A running COPY of five bytes, of whose destination the host wrote the second. -/
def raced : State := { running 0x3#32 (ready hello 5 5) with dstTouched := [0x801] }

/-- Idle; busy with no raced byte; busy with one, at the destination's first byte and at the bytes beside the range. -/
theorem witness_AbortStopsRunningCommand :
    State.reset.busy = false ∧ ((running 0x1#32 State.reset).busy = true ∧ (running 0x1#32 State.reset).dstTouched = []) ∧
      (raced.busy = true ∧ 0x800 ∉ raced.dstTouched ∧
        (0x7FF ∉ raced.dstTouched ∧ 0x7FF < raced.dstAddr.toNat) ∧
        (0x805 ∉ raced.dstTouched ∧ raced.dstAddr.toNat + raced.dstCap.toNat ≤ 0x805)) := by decide

theorem witness_SoftResetRestoresResetValues :
    State.reset.busy = false ∧ ((running 0x1#32 State.reset).busy = true ∧ (running 0x1#32 State.reset).dstTouched = []) ∧
      (raced.busy = true ∧ 0x800 ∉ raced.dstTouched ∧
        (0x7FF ∉ raced.dstTouched ∧ 0x7FF < raced.dstAddr.toNat) ∧
        (0x805 ∉ raced.dstTouched ∧ raced.dstAddr.toNat + raced.dstCap.toNat ≤ 0x805)) := by decide

/-- A byte access to the window's last byte, an unaligned word in it, a word across its end, and a word across its begin
(log 16). -/
theorem witness_UnalignedAccessIsABusError :
    (0xFF < State.reset.cfg.regBase + 0x100 ∧ State.reset.cfg.regBase < 0xFF + 1 ∧
      ¬(State.reset.cfg.regBase ≤ 0xFF ∧ 1 = 4 ∧ (0xFF - State.reset.cfg.regBase) % 4 = 0)) ∧
    (0x1 < State.reset.cfg.regBase + 0x100 ∧ State.reset.cfg.regBase < 0x1 + 4 ∧
      ¬(State.reset.cfg.regBase ≤ 0x1 ∧ 4 = 4 ∧ (0x1 - State.reset.cfg.regBase) % 4 = 0)) ∧
    (0xFE < State.reset.cfg.regBase + 0x100 ∧ State.reset.cfg.regBase < 0xFE + 4 ∧
      ¬(State.reset.cfg.regBase ≤ 0xFE ∧ 4 = 4 ∧ (0xFE - State.reset.cfg.regBase) % 4 = 0)) ∧
    (let s : State := { State.reset with cfg := { Config.platform with regBase := 0x100 } };
      0xFE < s.cfg.regBase + 0x100 ∧ s.cfg.regBase < 0xFE + 4 ∧
        ¬(s.cfg.regBase ≤ 0xFE ∧ 4 = 4 ∧ (0xFE - s.cfg.regBase) % 4 = 0)) := by decide

/-- An idle block and a busy one; a register that is never open; the first and the last reserved offset. -/
theorem witness_RegisterReads :
    State.reset.busy = false ∧ (running 0x0#32 State.reset).busy = true ∧ Reg.srcLen.openWhileBusy = false ∧
      (0x5C ≤ 0x5C ∧ 0x5C < 0x100 ∧ 0x5C % 4 = 0) ∧ (0x5C ≤ 0xFC ∧ 0xFC < 0x100 ∧ 0xFC % 4 = 0) := by decide

theorem witness_RegisterWrites :
    State.reset.busy = false ∧ (running 0x0#32 State.reset).busy = true ∧
      (0x5C ≤ 0x5C ∧ 0x5C < 0x100 ∧ 0x5C % 4 = 0) ∧ (0x5C ≤ 0xFC ∧ 0xFC < 0x100 ∧ 0xFC % 4 = 0) := by decide

theorem witness_HostMemoryAccess :
    Memory.wf State.reset.mem ∧ 0xFFF < State.reset.cfg.memSize ∧ State.reset.ownsSrc 0xFFF = false ∧
      State.reset.ownsDst 0xFFF = false := by decide

/-- COPY of five bytes, without and with a raced byte: the byte before and the byte after its destination range; NOP,
which uses none. -/
theorem witness_CommandWritesOnlyItsDestination :
    ((∃ t, exec .copy (ready hello 5 5) = .next t) ∧ Instr.copy.format = .cmd ∧ 0x7FF ∉ (ready hello 5 5).dstTouched ∧
      0x7FF < (ready hello 5 5).dstAddr.toNat) ∧
    ((∃ t, exec .copy raced = .next t) ∧ 0x805 ∉ raced.dstTouched ∧
      raced.dstAddr.toNat + raced.dstCap.toNat ≤ 0x805) ∧
    ((∃ t, exec .nop (ready hello 5 5) = .next t) ∧ Instr.nop.format = .cmd ∧ usesDst .nop = false ∧
      0x800 ∉ (ready hello 5 5).dstTouched) :=
  ⟨⟨⟨_, rfl⟩, by decide⟩, ⟨⟨_, rfl⟩, by decide⟩, ⟨_, rfl⟩, by decide⟩

theorem witness_RacedDestinationBytesStayLocal :
    let s := { ready hello 5 5 with dstTouched := [0x801] }
    Instr.copy.format = .cmd ∧ (∃ t, exec .copy s = .next t) ∧ (∃ u, exec .copy { s with dstTouched := [] } = .next u) ∧
      0x800 ∉ s.dstTouched := ⟨rfl, ⟨_, rfl⟩, ⟨_, rfl⟩, by decide⟩

theorem witness_CommandsKeepOperandsAndControl :
    Instr.copy.format = .cmd ∧ (∃ t, exec .copy (ready hello 5 5) = .next t) ∧ ∀ n, Instr.copy ≠ .brGet n :=
  ⟨rfl, ⟨_, rfl⟩, fun _ h => nomatch h⟩

/-- The engine's step, a host's read of a destination byte during BUSY, and a step that stops. -/
theorem witness_HiddenTablesAreUnobservable :
    (∃ t, step (running 0x1#32 (ready h1Bytes 6 6)) = .next t) ∧
      (∃ t, step (hosted (.memRead 0x800) { running 0x3#32 (ready hello 5 5) with engineDue := 1 }) = .next t) ∧
      step (hosted (.memRead 0x1000) State.reset) = .fault (.noSuchAddress 0x1000) :=
  ⟨⟨_, rfl⟩, next_of_seen (by decide +kernel), rfl⟩

theorem witness_CommandsDependOnRegistersAndMemory : Instr.copy.format = .cmd ∧ (ready hello 5 5).Quiet := by decide

/-- During BUSY a STATUS write, a write of a byte beside the command's ranges, and an ABORT keep the hazard rules. -/
theorem witness_HazardFreeHostDisturbsNothing :
    (running 0x3#32 (ready hello 5 5)).busy = true ∧ (running 0x3#32 (ready hello 5 5)).Quiet ∧
      (hazardFree (.busWrite 0x10 4 0xE#32) (running 0x3#32 (ready hello 5 5)) = true ∧
        ∃ t, hostStep (.busWrite 0x10 4 0xE#32) (running 0x3#32 (ready hello 5 5)) = .next t) ∧
      (hazardFree (.memWrite 0x7FF 1#8) (running 0x3#32 (ready hello 5 5)) = true ∧
        (running 0x3#32 (ready hello 5 5)).ownsDst 0x800 = true ∧ (running 0x3#32 (ready hello 5 5)).ownsSrc 0x4 = true ∧
        ∃ t, hostStep (.memWrite 0x7FF 1#8) (running 0x3#32 (ready hello 5 5)) = .next t) ∧
      (hazardFree (.busWrite 0x08 4 0x2#32) (running 0x3#32 (ready hello 5 5)) = true ∧
        seen (hostStep (.busWrite 0x08 4 0x2#32) (running 0x3#32 (ready hello 5 5))) State.busy = some false) :=
  ⟨by decide, by decide, ⟨by decide, next_of_seen (by decide +kernel)⟩,
    ⟨by decide, by decide, by decide, next_of_seen (by decide +kernel)⟩, by decide, by decide +kernel⟩

/-- A running DECODE, and a running COPY of whose destination the host wrote a byte. -/
theorem witness_StepKeepsInvariant :
    ((running 0x1#32 (ready h1Bytes 6 6)).Inv ∧ ∃ t, step (running 0x1#32 (ready h1Bytes 6 6)) = .next t) ∧
      raced.Inv ∧ ∃ t, step raced = .next t :=
  ⟨⟨by decide +kernel, _, rfl⟩, by decide +kernel, _, rfl⟩

theorem witness_StepKeepsWriter :
    (running 0x8#32 (putting 0x7F 7#5 0 1)).WriterOk ∧ (running 0x8#32 (putting 0x7F 7#5 0 1)).abortsNext = false ∧
      ∃ t, step (running 0x8#32 (putting 0x7F 7#5 0 1)) = .next t := ⟨by decide, by decide, _, rfl⟩

/-- The depths that a block's literal table at position `d` gives. -/
def depthsAt (t : Stream) (d : Nat) : List Nat :=
  ((List.range (t.field d 9)).map fun i => t.field (d + 9 + 4 * i) 4 + 2) ++ List.replicate (0x1FE - t.field d 9) 0

/-- The bit of a descriptor at position 16 that says it is short, and the lengths a short one gives. -/
def shortLens (t : Stream) : Nat × List Nat := (t.field 16 1, List.replicate 19 (t.field 17 4))

/-- The same bit, and the lengths a full descriptor gives. -/
def fullLens (t : Stream) : Nat × List Nat := (t.field 16 1, (List.range 19).map fun i => t.field (17 + 4 * i) 4)

/-- One block at position 0, in the order of its checks: a count that does not fit; one literal too many; 19 lengths of 1,
in the short and in the full form. -/
theorem witness_DecodeBlockFaultsInOrder :
    8 * (streamOf [0x00]).len < freshCursor.brPos + 16 ∧
      (freshCursor.brPos + 16 ≤ 8 * (streamOf [0x01, 0x00]).len ∧
        0 - freshCursor.produced < (streamOf [0x01, 0x00]).field 0 16) ∧
      (let t := streamOf [0x00, 0x00, 0x03];
        t.field 0 16 ≤ 0 ∧ (shortLens t).1 = 1 ∧ 21 ≤ 8 * t.len ∧ canon (shortLens t).2 = none) ∧
      (let t := streamOf [0x00, 0x00, 0x22, 0x22, 0x22, 0x22, 0x22, 0x22, 0x22, 0x22, 0x22, 0x22];
        t.field 0 16 ≤ 0 ∧ (fullLens t).1 = 0 ∧ 93 ≤ 8 * t.len ∧ canon (fullLens t).2 = none) := by decide

/-- N that does not fit; N = 0x1FF; five depths of 2; depths 2, 3, 3, 3, 3; no depth. -/
theorem witness_DecodeBlockFaultsInOrder_tables :
      (let t := streamOf [0x00, 0x00, 0x0B];
        (shortLens t).1 = 1 ∧ 21 ≤ 8 * t.len ∧ canon (shortLens t).2 ≠ none ∧ 8 * t.len < 21 + 9) ∧
      (let t := streamOf [0x00, 0x00, 0xEB, 0x3F];
        canon (shortLens t).2 ≠ none ∧ 21 + 9 ≤ 8 * t.len ∧ t.field 21 9 = 0x1FF) ∧
      (let t := streamOf [0x00, 0x00, 0xAB, 0x00, 0x00, 0x00, 0x00];
        canon (shortLens t).2 ≠ none ∧ t.field 21 9 = 5 ∧ 21 + 9 + 4 * 5 ≤ 8 * t.len ∧
          buildTree .msbFirst (depthsAt t 21) = .error 3) ∧
      (let t := streamOf [0x00, 0x00, 0xAB, 0x00, 0x44, 0x44, 0x00];
        canon (shortLens t).2 ≠ none ∧ t.field 21 9 = 5 ∧ 21 + 9 + 4 * 5 ≤ 8 * t.len ∧
          buildTree .lsbFirst (depthsAt t 21) = .error 4) ∧
      (let t := streamOf [0x00, 0x00, 0x0B, 0x00];
        canon (shortLens t).2 ≠ none ∧ t.field 21 9 = 0 ∧ 21 + 9 + 4 * 0 ≤ 8 * t.len ∧
          buildTree .lsbFirst (depthsAt t 21) = .ok .absent) := by decide +kernel

/-- The codewords and the blocks after one another: a walk that faults, a symbol of 0x100, one of 0xFF; a target that is
met, a block that faults, a block that succeeds. -/
theorem witness_DecodeBlockFaultsInOrder_loops :
    walk (streamOf [0x00]) .absent 0 = (.error ⟨.codeUnterminated, 0, 1⟩, 1) ∧
      walk (streamOf [0x00]) (.node (.leaf 0x100) .absent) 0 = (.ok 0x100, 1) ∧
      walk (streamOf [0x00]) (.node (.leaf 0xFF) .absent) 0 = (.ok 0xFF, 1) ∧
      (0 ≤ freshCursor.produced ∧ freshCursor.produced < 1) ∧
      (∃ e, decodeBlock .lsbFirst (streamOf []) 1 freshCursor = .error e) ∧
      ∃ c, decodeBlock .lsbFirst (streamOf h1Bytes) 6 freshCursor = .ok c := by
  refine ⟨rfl, rfl, rfl, by decide, ⟨_, rfl⟩, ?_⟩
  have h : (decodeBlock .lsbFirst (streamOf h1Bytes) 6 freshCursor).toOption.isSome = true := by decide +kernel
  cases hd : decodeBlock .lsbFirst (streamOf h1Bytes) 6 freshCursor with
  | ok c => exact ⟨c, rfl⟩
  | error p => rw [hd] at h; cases h

end Sys2Proof.Tests
end

section
/-! The state after reset is legal (00_scope.md R7, 70_reset_and_hazards.md R260). What keeps a part of the invariant
for a general reason (nothing runs, nothing was raced, nothing is reported) is stated for every such state. -/

namespace Sys2Proof.Machine

/-! ## Parts of the invariant, for every state of a kind -/

theorem State.memOk_of_mem_nil {s : State} (hmem : s.mem = []) (htouched : s.dstTouched = []) : s.MemOk := by
  refine ⟨hmem ▸ Memory.wf_nil, ?_, ?_⟩
  · rw [hmem]; exact List.forall_mem_nil _
  · rw [htouched]; exact List.forall_mem_nil _

/-- Tables without a code, every literal absent and every code length 0, are legal. -/
theorem State.tablesOk_of_replicate_zero {s : State} (hlit : s.litLen = List.replicate litAlphabet 0)
    (hclt : s.cltLen = List.replicate cltSyms 0) : s.TablesOk := by
  refine ⟨?_, fun d hd => ?_, ?_, fun l hl => ?_⟩
  · rw [hlit, List.length_replicate]
  · rw [hlit] at hd
    exact .inl (List.eq_of_mem_replicate hd)
  · rw [hclt, List.length_replicate]
  · rw [hclt] at hl
    exact List.eq_of_mem_replicate hl ▸ Nat.zero_le 15

theorem State.runOk_of_idle {s : State} (h : s.phase = .idle) : s.RunOk := by
  intro hrun
  rw [h] at hrun
  cases hrun

/-- A block that reports no error, and none of whose fault registers holds anything, has a consistent status. -/
theorem State.statusOk_of_noFault {s : State} (herr : s.err = false) (hcode : s.errCode = .noFault)
    (hsub : s.errSub = 0#8) (hpos : s.errPos = 0#32) : s.StatusOk :=
  ⟨by simp [herr], fun _ => hcode, by simp [herr], fun _ => ⟨hsub, hpos⟩⟩

theorem State.raceOk_of_quiet {s : State} (h : s.Quiet) : s.RaceOk := by
  obtain ⟨hsrc, hdst⟩ := h
  refine ⟨?_, fun hne => absurd hsrc hne⟩
  rw [hdst]
  exact List.forall_mem_nil _

/-! ## The state after reset -/

theorem State.inv_reset : State.reset.Inv :=
  ⟨State.memOk_of_mem_nil rfl rfl, State.tablesOk_of_replicate_zero rfl rfl, State.runOk_of_idle rfl,
    State.statusOk_of_noFault rfl rfl rfl rfl, State.raceOk_of_quiet ⟨rfl, rfl⟩⟩

/-- The build the reset state is given is one that 00_scope.md R7 allows. -/
theorem Config.legal_platform : Config.platform.Legal := by decide

/-- Settles O57: each part of the invariant by its own lemma, for the reset values of the fields it speaks of. -/
theorem resetIsLegal : Obligations.ResetIsLegal :=
  ⟨State.inv_reset, State.writerOk_zero rfl rfl, Config.legal_platform⟩

end Sys2Proof.Machine
end

section
/-! Further cases of a host step: the accesses that reach no register (10_state.md R20, R21). -/

namespace Sys2Proof.Machine

theorem hostStep_busRead_elsewhere {s : State} {addr width : Nat}
    (h : busTarget s.cfg.regBase addr width = .elsewhere) :
    hostStep (.busRead addr width) s = .next (s.answer .notDecoded) := by
  simp only [hostStep, h]

theorem hostStep_busRead_illegal {s : State} {addr width : Nat}
    (h : busTarget s.cfg.regBase addr width = .illegal) :
    hostStep (.busRead addr width) s = .next (s.answer .busError) := by
  simp only [hostStep, h]

theorem hostStep_busWrite_elsewhere {s : State} {addr width : Nat} {v : Word}
    (h : busTarget s.cfg.regBase addr width = .elsewhere) :
    hostStep (.busWrite addr width v) s = .next (s.answer .notDecoded) := by
  simp only [hostStep, h]

theorem hostStep_busWrite_illegal {s : State} {addr width : Nat} {v : Word}
    (h : busTarget s.cfg.regBase addr width = .illegal) :
    hostStep (.busWrite addr width v) s = .next (s.answer .busError) := by
  simp only [hostStep, h]

end Sys2Proof.Machine
end

section
/-! The register words as the register map lays them out (10_state.md R22 to R45). -/

namespace Sys2Proof.Machine

/-! ## STATUS -/

/-- STATUS bit by bit (10_state.md R27). -/
theorem State.statusWord_getLsbD (s : State) (k : Nat) :
    s.statusWord.getLsbD k =
      if k = 0 then s.busy else if k = 1 then s.done else if k = 2 then s.err else if k = 3 then s.werr
      else if k = 4 then s.packed else if k = 5 then s.irq else if k < 8 then false
      else if k < 16 then s.errCode.toByte.getLsbD (k - 8) else if k < 24 then s.errSub.getLsbD (k - 16)
      else false := by
  have happend : ∀ (sub code : Byte) (irq packed werr err done busy : Bool),
      (0#8 ++ sub ++ code ++ 0#2 ++ BitVec.ofBool irq ++ BitVec.ofBool packed ++ BitVec.ofBool werr
        ++ BitVec.ofBool err ++ BitVec.ofBool done ++ BitVec.ofBool busy).getLsbD k =
      if k = 0 then busy else if k = 1 then done else if k = 2 then err else if k = 3 then werr
      else if k = 4 then packed else if k = 5 then irq else if k < 8 then false
      else if k < 16 then code.getLsbD (k - 8) else if k < 24 then sub.getLsbD (k - 16) else false := by
    intro sub code irq packed werr err done busy
    simp only [BitVec.getLsbD_append, BitVec.getLsbD_ofBool, BitVec.getLsbD_zero]
    rcases k with _ | _ | _ | _ | _ | _ | k <;> simp
    grind
  exact happend s.errSub s.errCode.toByte s.irq s.packed s.werr s.err s.done s.busy

/-- A field of a word, given by its bits. -/
theorem extractLsb'_eq_of_getLsbD {w : Word} {pos n : Nat} {x : BitVec n}
    (h : ∀ k < n, w.getLsbD (pos + k) = x.getLsbD k) : w.extractLsb' pos n = x :=
  BitVec.eq_of_getLsbD_eq fun k hk => by rw [BitVec.getLsbD_extractLsb', h k hk]; simp [hk]

/-! ## The other registers with fields -/

/-- CTRL reads IRQ_EN in bit 3 (10_state.md R25). -/
theorem State.ctrlWord_eq (s : State) : s.ctrlWord = if s.irqEn then 0x00000008#32 else 0#32 := by
  unfold State.ctrlWord
  cases s.irqEn <;> rfl

theorem capsWord_eq (order : CodeBitOrder) :
    capsWord order = if order = .lsbFirst then 0x00001800#32 else 0x00001801#32 := by
  cases order <;> rfl

/-- LAST_CLT as a sum of its fields (10_state.md R45). -/
theorem cltWord_eq (i : CltInfo) :
    cltWord i = BitVec.ofNat 32 (i.short.toNat + i.len.toNat * 2 ^ 4 + i.valid.toNat * 2 ^ 8) := by
  obtain ⟨short, len, valid⟩ := i
  revert short len valid
  decide

/-! ## Bits that read as zero -/

/-- A register narrower than a word reads 0 above its width. -/
theorem zeroExtend_and_not_allOnes {n : Nat} (x : BitVec n) :
    x.zeroExtend 32 &&& ~~~((BitVec.allOnes n).zeroExtend 32) = 0#32 := by
  refine BitVec.eq_of_getLsbD_eq fun k hk => ?_
  by_cases hn : k < n
  · simp [hn, hk]
  · simp [BitVec.getLsbD_of_ge x k (Nat.le_of_not_lt hn)]

/-- STATUS reads 0 in bits 7:6 and 31:24 (10_state.md R27). -/
theorem State.statusWord_and_not_bits (s : State) : s.statusWord &&& ~~~Reg.status.bits = 0#32 := by
  have hmask : ∀ k < 32, (~~~Reg.status.bits).getLsbD k = decide (k = 6 ∨ k = 7 ∨ 24 ≤ k) := by decide
  refine BitVec.eq_of_getLsbD_eq fun k hk => ?_
  rw [BitVec.getLsbD_and, hmask k hk, s.statusWord_getLsbD, BitVec.getLsbD_zero]
  grind

theorem cltWord_and_not_bits (i : CltInfo) : cltWord i &&& ~~~Reg.lastClt.bits = 0#32 := by
  obtain ⟨short, len, valid⟩ := i
  revert short len valid
  decide

theorem and_not_allOnes (x : Word) : x &&& ~~~0xFFFFFFFF#32 = 0#32 := by
  rw [show ~~~0xFFFFFFFF#32 = 0#32 from rfl, BitVec.and_zero]

/-- Every register reads 0 outside its bits (93_implementation_defined.md U11). -/
theorem State.regWord_and_not_bits (r : Reg) (s : State) : s.regWord r &&& ~~~r.bits = 0#32 := by
  cases r with
  | caps => rw [State.regWord, capsWord_eq]; split_ifs <;> rfl
  | ctrl => rw [State.regWord, State.ctrlWord_eq]; split_ifs <;> rfl
  | status => exact s.statusWord_and_not_bits
  | bwCnt => exact zeroExtend_and_not_allOnes s.bwCnt
  | lastLits => exact zeroExtend_and_not_allOnes s.lastLits
  | lastLitn => exact zeroExtend_and_not_allOnes s.lastLitn
  | lastClt => exact cltWord_and_not_bits s.lastClt
  | reserved => exact BitVec.zero_and
  | _ => exact and_not_allOnes _

end Sys2Proof.Machine
end

section
/-! The hidden tables are unobservable (10_state.md R47). A run from other tables differs in its tables only: most
updates leave the tables where they are, and Decode writes each table before it reads it. -/

namespace Sys2Proof.Machine

/-! ## Decode overwrites the tables before it reads them -/

/-- Two cursors that differ at most in LIT_LEN, CLT_LEN and TREE. Decode clears PRODUCED and then counts with it, so
PRODUCED is compared. -/
def Cursor.Same (c d : Cursor) : Prop :=
  ∃ (lit clt : List Nat) (tree : Trie), d = { c with litLen := lit, cltLen := clt, tree := tree }

/-- Two parts of Decode end alike: with results related by `P`, or with one fault and cursors that differ at most in
their tables. -/
def Decoding.Agree {α : Type} (P : α → α → Prop) : (r r' : Except (FaultReport × Cursor) α) → Prop
  | .ok a, .ok b => P a b
  | .error (f, c), .error (g, d) => f = g ∧ c.Same d
  | _, _ => False

theorem Decoding.Agree.bind {α β : Type} {P : α → α → Prop} {Q : β → β → Prop}
    {r r' : Except (FaultReport × Cursor) α} {k k' : α → Except (FaultReport × Cursor) β}
    (h : Decoding.Agree P r r') (hk : ∀ a b, P a b → Decoding.Agree Q (k a) (k' b)) :
    Decoding.Agree Q (r >>= k) (r' >>= k') := by
  cases r with
  | ok a =>
    cases r' with
    | ok b => exact hk a b h
    | error q => exact h.elim
  | error p =>
    cases r' with
    | ok b => exact h.elim
    | error q => exact h

theorem readCount_agree (t : Stream) (T : Nat) {c d : Cursor} (h : c.Same d) :
    Decoding.Agree (fun p q => p.1 = q.1 ∧ p.2.Same q.2) (readCount t T c) (readCount t T d) := by
  obtain ⟨lit, clt, tree, rfl⟩ := h
  unfold readCount
  cases t.get c.brPos litcountBits with
  | error f => exact ⟨rfl, lit, clt, tree, rfl⟩
  | ok l =>
    simp only
    split_ifs
    · exact ⟨rfl, lit, clt, tree, rfl⟩
    · exact ⟨rfl, lit, clt, tree, rfl⟩

/-- Either form of the descriptor that is read to its end replaces the whole of CLT_LEN. -/
theorem readDescriptor_agree (t : Stream) {c d : Cursor} (h : c.Same d) :
    Decoding.Agree (fun c d => c.Same d ∧ d.cltLen = c.cltLen) (readDescriptor t c) (readDescriptor t d) := by
  obtain ⟨lit, clt, tree, rfl⟩ := h
  unfold readDescriptor
  cases t.get c.brPos 1 with
  | error f => exact ⟨rfl, lit, clt, tree, rfl⟩
  | ok short =>
    simp only
    split_ifs
    · simp only [readShortClt]
      cases t.get (c.brPos + 1) cltLenBits with
      | error f => exact ⟨rfl, lit, clt, tree, rfl⟩
      | ok len => exact ⟨⟨lit, _, tree, rfl⟩, rfl⟩
    · simp only [readFullClt]
      cases (t.fields cltLenBits cltSyms (c.brPos + 1)).fault with
      | some f => exact ⟨rfl, lit, _, tree, rfl⟩
      | none => exact ⟨⟨lit, _, tree, rfl⟩, rfl⟩

/-- The code-length table is checked as it was just read. -/
theorem readClt_agree (t : Stream) {c d : Cursor} (h : c.Same d) :
    Decoding.Agree Cursor.Same (readClt t c) (readClt t d) := by
  refine (readDescriptor_agree t h).bind fun c d hcd => ?_
  obtain ⟨hsame, hclt⟩ := hcd
  obtain ⟨lit, clt, tree, rfl⟩ := hsame
  obtain rfl : clt = c.cltLen := hclt
  simp only [checkClt]
  cases canon c.cltLen with
  | none => exact ⟨rfl, lit, _, tree, rfl⟩
  | some _ => exact ⟨lit, _, tree, rfl⟩

/-- A literal table that is read to its end replaces the whole of LIT_LEN. -/
theorem readLitTable_agree (t : Stream) {c d : Cursor} (h : c.Same d) :
    Decoding.Agree (fun c d => c.Same d ∧ d.litLen = c.litLen) (readLitTable t c) (readLitTable t d) := by
  obtain ⟨lit, clt, tree, rfl⟩ := h
  unfold readLitTable
  cases t.get c.brPos litnBits with
  | error f => exact ⟨rfl, lit, clt, tree, rfl⟩
  | ok n =>
    simp only
    split_ifs
    · exact ⟨rfl, lit, clt, tree, rfl⟩
    · cases (t.fields depthFieldBits n (c.brPos + litnBits)).fault with
      | some f => exact ⟨rfl, _, clt, tree, rfl⟩
      | none => exact ⟨⟨_, clt, tree, rfl⟩, rfl⟩

/-- Equal depths give equal trees. -/
theorem placeTree_agree (order : CodeBitOrder) {c d : Cursor} (h : c.Same d) (hlit : d.litLen = c.litLen) :
    Decoding.Agree (fun c d => c.Same d ∧ d.tree = c.tree) (placeTree order c) (placeTree order d) := by
  obtain ⟨lit, clt, tree, rfl⟩ := h
  obtain rfl : lit = c.litLen := hlit
  simp only [placeTree]
  cases buildTree order c.litLen with
  | error sub => exact ⟨rfl, _, clt, tree, rfl⟩
  | ok u => exact ⟨⟨_, clt, u, rfl⟩, rfl⟩

/-- The walk sees no table but TREE. -/
theorem decodeLiterals_agree (t : Stream) (l : Nat) {c d : Cursor} (h : c.Same d) (htree : d.tree = c.tree) :
    Decoding.Agree Cursor.Same (decodeLiterals t l c) (decodeLiterals t l d) := by
  induction l generalizing c d with
  | zero => exact h
  | succ l ih =>
    obtain ⟨lit, clt, tree, rfl⟩ := h
    obtain rfl : tree = c.tree := htree
    simp only [decodeLiterals]
    obtain ⟨r, pos⟩ := walk t c.tree c.brPos
    cases r with
    | error f => exact ⟨rfl, lit, clt, _, rfl⟩
    | ok s =>
      simp only
      split_ifs
      · exact ⟨rfl, lit, clt, _, rfl⟩
      · exact ih ⟨lit, clt, _, rfl⟩ rfl

theorem decodeBlock_agree (order : CodeBitOrder) (t : Stream) (T : Nat) {c d : Cursor} (h : c.Same d) :
    Decoding.Agree Cursor.Same (decodeBlock order t T c) (decodeBlock order t T d) := by
  refine (readCount_agree t T h).bind ?_
  rintro ⟨l, c1⟩ ⟨_, d1⟩ ⟨rfl, h1⟩
  refine (readClt_agree t h1).bind fun c2 d2 h2 => ?_
  refine (readLitTable_agree t h2).bind fun c3 d3 h3 => ?_
  refine (placeTree_agree order h3.1 h3.2).bind fun c4 d4 h4 => ?_
  exact decodeLiterals_agree t l h4.1 h4.2

theorem decodeBlocks_agree (order : CodeBitOrder) (t : Stream) (T fuel : Nat) {c d : Cursor} (h : c.Same d) :
    Decoding.Agree Cursor.Same (decodeBlocks order t T fuel c) (decodeBlocks order t T fuel d) := by
  induction fuel generalizing c d with
  | zero =>
    obtain ⟨lit, clt, tree, rfl⟩ := h
    simp only [decodeBlocks]
    split_ifs
    · exact ⟨rfl, lit, clt, tree, rfl⟩
    · exact ⟨lit, clt, tree, rfl⟩
  | succ fuel ih =>
    have hprod : d.produced = c.produced := by obtain ⟨lit, clt, tree, rfl⟩ := h; rfl
    simp only [decodeBlocks, hprod]
    split_ifs
    · exact (decodeBlock_agree order t T h).bind fun _ _ => ih
    · exact h

/-! ## Runs -/

/-- The same run with other hidden tables in its registers. -/
def Run.withTables (x : Tables) (r : Run) : Run := { r with regs := r.regs.withTables x }

/-- Decode's run from other tables: it ends with the tables that its part of the stream gave, or that were there. -/
theorem decodeRun_withTables {s u : State} {x : Tables} (h : u = s.withTables x) (t : Stream) (T : Nat) :
    ∃ y, decodeRun u t T = (decodeRun s t T).withTables y := by
  subst h
  have hstart : Cursor.Same { s.cursor with produced := 0, outRev := [] }
      { (s.withTables x).cursor with produced := 0, outRev := [] } := ⟨x.litLen, x.cltLen, x.tree, rfl⟩
  have h : Decoding.Agree Cursor.Same (decodeStream s.cfg.codeBitOrder t T s.cursor)
      (decodeStream (s.withTables x).cfg.codeBitOrder t T (s.withTables x).cursor) :=
    decodeBlocks_agree _ t T _ hstart
  cases hs : decodeStream s.cfg.codeBitOrder t T s.cursor with
  | ok c =>
    cases hx : decodeStream (s.withTables x).cfg.codeBitOrder t T (s.withTables x).cursor with
    | error p => rw [hs, hx] at h; exact h.elim
    | ok d =>
      rw [hs, hx] at h
      obtain ⟨lit, clt, tree, rfl⟩ := h
      exact ⟨⟨lit, clt, tree, c.produced⟩, by rw [decodeRun_of_ok hs, decodeRun_of_ok hx]; rfl⟩
  | error p =>
    obtain ⟨f, c⟩ := p
    cases hx : decodeStream (s.withTables x).cfg.codeBitOrder t T (s.withTables x).cursor with
    | ok d => rw [hs, hx] at h; exact h.elim
    | error q =>
      rw [hs, hx] at h
      obtain ⟨g, d⟩ := q
      obtain ⟨rfl, lit, clt, tree, rfl⟩ := h
      exact ⟨⟨lit, clt, tree, c.produced⟩, by rw [decodeRun_of_error hs, decodeRun_of_error hx]; rfl⟩

/-- The prologue reads no table, so it is enough to look at the body. -/
theorem runCommand_withTables (i : Instr) {body : State → Run} {s : State} {x : Tables}
    (h : ∃ y, body (s.withTables x) = (body s).withTables y) :
    ∃ y, runCommand i body (s.withTables x) = (runCommand i body s).withTables y := by
  have hp : prologue i (s.withTables x) = prologue i s := rfl
  rcases runCommand_cases i body s with ⟨h1, h2⟩ | ⟨f, h1, h2⟩
  · rw [h2, runCommand_of_none (hp.trans h1)]; exact h
  · rw [h2, runCommand_of_some (hp.trans h1)]; exact ⟨x, rfl⟩

/-- A choice that no table takes part in leaves two runs alike when either side of it does. -/
theorem Run.ite_withTables {p : Prop} [Decidable p] {a b a' b' : Run} (ha : ∃ y, a' = a.withTables y)
    (hb : ∃ y, b' = b.withTables y) :
    ∃ y, (if p then a' else b') = (if p then a else b).withTables y := by
  by_cases h : p
  · simpa only [if_pos h] using ha
  · simpa only [if_neg h] using hb

theorem bodyBrGet_withTables (n : BitVec 5) (s : State) (x : Tables) :
    ∃ y, bodyBrGet n (s.withTables x) = (bodyBrGet n s).withTables y := by
  have hsrc : (s.withTables x).srcStream.get (s.withTables x).brPos.toNat n.toNat =
      s.srcStream.get s.brPos.toNat n.toNat := rfl
  unfold bodyBrGet
  rw [hsrc]
  cases s.srcStream.get s.brPos.toNat n.toNat with
  | error f => exact ⟨x, rfl⟩
  | ok v => exact ⟨x, rfl⟩

theorem storePayload_withTables {s u : State} {x : Tables} (h : u = s.withTables x) (packed : Bool)
    (payload : List Byte) :
    ∃ y, storePayload u packed payload = (storePayload s packed payload).withTables y := by
  subst h
  exact Run.ite_withTables ⟨x, rfl⟩ ⟨x, rfl⟩

theorem bodyPencode_withTables (raw : Bool) (s : State) (x : Tables) :
    ∃ y, bodyPencode raw (s.withTables x) = (bodyPencode raw s).withTables y :=
  Run.ite_withTables (storePayload_withTables (x := x) (by rfl) _ _) (storePayload_withTables (x := x) (by rfl) _ _)

theorem bodyPdecodePayload_withTables {s u : State} {x : Tables} (h : u = s.withTables x) (usize : Word)
    (flag : Byte) :
    ∃ y, bodyPdecodePayload usize flag u = (bodyPdecodePayload usize flag s).withTables y := by
  subst h
  exact Run.ite_withTables ⟨x, rfl⟩ <| Run.ite_withTables ⟨x, rfl⟩ <|
    Run.ite_withTables (Run.ite_withTables ⟨x, rfl⟩ ⟨x, rfl⟩) (decodeRun_withTables (x := x) (by rfl) _ _)

/-- The run of every instruction from other tables differs in its tables only: each body is followed branch by branch,
and only Decode's puts other tables in place of those it was given. -/
theorem runOf_withTables (i : Instr) (s : State) (x : Tables) :
    ∃ y, runOf i (s.withTables x) = (runOf i s).withTables y := by
  cases i with
  | nop => exact runCommand_withTables .nop (body := quietRun) (s := s) ⟨x, rfl⟩
  | decode =>
    exact runCommand_withTables _ (Run.ite_withTables ⟨x, rfl⟩ (decodeRun_withTables (x := x) (by rfl) _ _))
  | encode => exact runCommand_withTables _ (Run.ite_withTables ⟨x, rfl⟩ ⟨x, rfl⟩)
  | copy =>
    exact runCommand_withTables _ (Run.ite_withTables ⟨x, rfl⟩ (Run.ite_withTables ⟨x, rfl⟩ ⟨x, rfl⟩))
  | pdecode =>
    exact runCommand_withTables _
      (Run.ite_withTables ⟨x, rfl⟩ (bodyPdecodePayload_withTables (x := x) (by rfl) _ _))
  | pencode raw => exact runCommand_withTables _ (bodyPencode_withTables raw s x)
  | bwReset => exact runCommand_withTables .bwReset (body := bodyBwReset) (s := s) ⟨x, rfl⟩
  | bwPut n => exact runCommand_withTables _ (Run.ite_withTables ⟨x, rfl⟩ ⟨x, rfl⟩)
  | bwFlush => exact runCommand_withTables _ (Run.ite_withTables ⟨x, rfl⟩ ⟨x, rfl⟩)
  | brReset => exact runCommand_withTables .brReset (body := bodyBrReset) (s := s) ⟨x, rfl⟩
  | brGet n => exact runCommand_withTables _ (bodyBrGet_withTables n s x)
  | start ie => exact ⟨x, rfl⟩
  | abort ie => exact ⟨x, rfl⟩
  | softReset => exact ⟨x, rfl⟩

theorem Run.finish_withTables (r : Run) (x : Tables) : (r.withTables x).finish = r.finish.withTables x := by
  obtain ⟨regs, writes, fault⟩ := r
  cases fault with
  | none => rfl
  | some f => rfl

/-- A stopped command leaves the same writes, and a read of its destination can see the same bytes. -/
theorem runLatched_writes_withTables (s : State) (x : Tables) :
    (runLatched (s.withTables x)).writes = (runLatched s).writes := by
  have hlatch : (s.withTables x).latch = s.latch := rfl
  unfold runLatched
  rw [hlatch]
  cases decodeCommand s.latch with
  | ok i =>
    obtain ⟨y, h⟩ := runOf_withTables i s x
    simp only [h]
    rfl
  | error e => rfl

/-! ## Steps -/

/-- The meaning `f` answers alike from two states that differ in their hidden tables: it stops in both, or gives two
states that again differ in their tables only. -/
def HidesTables (f : State → Host.Outcome State Fault Refusal) (s : State) (x : Tables) : Prop :=
  (∃ r, f s = .fault r ∧ f (s.withTables x) = .fault r) ∨
    ∃ (t : State) (y : Tables), f s = .next t ∧ f (s.withTables x) = .next (t.withTables y)

/-- An update that commutes with a change of the tables, or that ends with tables of its own. -/
theorem HidesTables.of_next {f : State → Host.Outcome State Fault Refusal} {s t : State} {x : Tables} (y : Tables)
    (h : f s = .next t) (hx : f (s.withTables x) = .next (t.withTables y)) : HidesTables f s x :=
  .inr ⟨t, y, h, hx⟩

theorem HidesTables.fault {f : State → Host.Outcome State Fault Refusal} {s : State} {x : Tables} (r : Fault)
    (h : f s = .fault r) (hx : f (s.withTables x) = .fault r) : HidesTables f s x := .inl ⟨r, h, hx⟩

/-- A choice that no table takes part in. -/
theorem HidesTables.ite {p : State → Prop} [DecidablePred p] {f g : State → Host.Outcome State Fault Refusal}
    {s : State} {x : Tables} (hp : p (s.withTables x) ↔ p s) (hf : HidesTables f s x) (hg : HidesTables g s x) :
    HidesTables (fun u => if p u then f u else g u) s x := by
  unfold HidesTables
  by_cases h : p s
  · simp only [if_pos h, if_pos (hp.2 h)]
    exact hf
  · simp only [if_neg h, if_neg (mt hp.1 h)]
    exact hg

/-- A meaning that passes the state on to another. -/
theorem HidesTables.of_eq {f g : State → Host.Outcome State Fault Refusal} {s u : State} {x : Tables}
    (h : f s = g u) (hx : f (s.withTables x) = g (u.withTables x)) (hg : HidesTables g u x) : HidesTables f s x := by
  unfold HidesTables
  rw [h, hx]
  exact hg

/-- An update that leaves tables of its own leaves the state from other tables as it leaves the state. -/
theorem State.exists_withTables_of_eq {s u : State} (h : u = s) : ∃ y, u = s.withTables y :=
  ⟨⟨s.litLen, s.cltLen, s.tree, s.produced⟩, h⟩

theorem State.stoppedMemory_withTables (s : State) (x : Tables) :
    (s.withTables x).stoppedMemory = s.stoppedMemory := by
  unfold State.stoppedMemory Run.stoppedMemory
  rw [runLatched_writes_withTables]
  rfl

/-- ABORT leaves tables of its own (44_control.md R213). -/
theorem State.abortRun_withTables (s : State) (x : Tables) : (s.withTables x).abortRun = s.abortRun := by
  unfold State.abortRun
  rw [State.stoppedMemory_withTables]
  rfl

/-- SOFT_RESET leaves tables of its own (44_control.md R214). -/
theorem State.softReset_withTables (s : State) (x : Tables) : (s.withTables x).softReset = s.softReset := by
  have hmem : (s.withTables x).resetMemory = s.resetMemory := by
    unfold State.resetMemory
    rw [State.stoppedMemory_withTables]
    rfl
  unfold State.softReset
  rw [hmem]
  rfl

theorem State.hardwareReset_withTables (contents : List Host.Cell) (s : State) (x : Tables) :
    (s.withTables x).hardwareReset contents = s.hardwareReset contents := rfl

/-- Every instruction, CTRL actions included, and none of them stops. -/
theorem exec_hidesTables (i : Instr) (s : State) (x : Tables) :
    ∃ (t : State) (y : Tables), exec i s = .next t ∧ exec i (s.withTables x) = .next (t.withTables y) := by
  have hbusy : (s.withTables x).busy = s.busy := rfl
  have hcommand : i.format = .cmd →
      ∃ (t : State) (y : Tables), exec i s = .next t ∧ exec i (s.withTables x) = .next (t.withTables y) := by
    intro hi
    obtain ⟨y, h⟩ := runOf_withTables i s x
    exact ⟨_, y, exec_command hi s, by rw [exec_command hi, h, Run.finish_withTables]⟩
  cases i with
  | start ie =>
    simp only [exec, execStart, hbusy]
    split_ifs
    · exact ⟨_, x, rfl, rfl⟩
    · exact ⟨_, x, rfl, rfl⟩
  | abort ie =>
    simp only [exec, execAbort, hbusy]
    split_ifs
    · obtain ⟨y, hy⟩ := State.exists_withTables_of_eq ((s.setIrqEn ie).abortRun_withTables x)
      exact ⟨_, y, rfl, congrArg Host.Outcome.next hy⟩
    · exact ⟨_, x, rfl, rfl⟩
  | softReset =>
    obtain ⟨y, hy⟩ := State.exists_withTables_of_eq (s.softReset_withTables x)
    exact ⟨_, y, rfl, congrArg Host.Outcome.next hy⟩
  | _ => exact hcommand rfl

theorem engineStep_hidesTables (s : State) (x : Tables) : HidesTables State.engineStep s x := by
  cases h : decodeCommand s.latch with
  | ok i =>
    obtain ⟨t, y, ht, hx⟩ := exec_hidesTables i s x
    exact .of_eq (State.engineStep_command h) (State.engineStep_command (s := s.withTables x) h)
      (.of_next y ht hx)
  | error e =>
    exact .of_next x (State.engineStep_illegal h) (State.engineStep_illegal (s := s.withTables x) h)

theorem State.writeReg_withTables (r : Reg) (v : Word) (s : State) (x : Tables) :
    (s.withTables x).writeReg r v = (s.writeReg r v).withTables x := by
  have hbusy : (s.withTables x).busy = s.busy := rfl
  have hset : (s.withTables x).setOperand r v = (s.setOperand r v).withTables x := by cases r <;> rfl
  simp only [State.writeReg, hbusy, hset]
  split_ifs
  · rfl
  · rfl
  · rfl

theorem writeRegister_hidesTables (r : Reg) (v : Word) (s : State) (x : Tables) :
    HidesTables (writeRegister r v) s x := by
  by_cases hr : r = .ctrl
  · have hw : ∀ u, writeRegister r v u = writeCtrl v u := fun u => if_pos hr
    cases h : decodeCtrl v with
    | ok i =>
      have hexec : ∀ u, writeRegister r v u = exec i u := fun u => by rw [hw, writeCtrl, h]
      obtain ⟨t, y, ht, hx⟩ := exec_hidesTables i s x
      exact .of_next y ((hexec _).trans ht) ((hexec _).trans hx)
    | error e =>
      have hset : ∀ u, writeRegister r v u = .next (u.setIrqEn (irqEnField v)) := fun u => by rw [hw, writeCtrl, h]
      exact .of_next x (hset _) (hset _)
  · have hw : ∀ u, writeRegister r v u = .next (u.writeReg r v) := fun u => if_neg hr
    exact .of_next x (hw _) ((hw _).trans (congrArg _ (State.writeReg_withTables r v s x)))

theorem State.readReg_withTables (r : Reg) (s : State) (x : Tables) :
    (s.withTables x).readReg r = (s.readReg r).withTables x := by
  have hbusy : (s.withTables x).busy = s.busy := rfl
  have hreg : (s.withTables x).regWord r = s.regWord r := by cases r <;> rfl
  simp only [State.readReg, hbusy, hreg]
  split_ifs
  · rfl
  · rfl

theorem State.busyBytes_withTables (s : State) (x : Tables) (a : Nat) :
    (s.withTables x).busyBytes a = s.busyBytes a := by
  simp only [State.busyBytes, runLatched_writes_withTables]
  rfl

theorem hostMemRead_hidesTables (a : Nat) (s : State) (x : Tables) : HidesTables (hostMemRead a) s x := by
  refine .ite Iff.rfl (.fault _ rfl rfl) (.ite Iff.rfl (.ite Iff.rfl (.of_next x rfl rfl) ?_) (.of_next x rfl rfl))
  refine .of_next x rfl ?_
  simp only [State.busyBytes_withTables]
  rfl

theorem hostMemWrite_hidesTables (a : Nat) (v : Byte) (s : State) (x : Tables) :
    HidesTables (hostMemWrite a v) s x := by
  refine .ite Iff.rfl (.fault _ rfl rfl) (.of_next x rfl ?_)
  have hs : (s.withTables x).ownsSrc a = s.ownsSrc a := rfl
  have hd : (s.withTables x).ownsDst a = s.ownsDst a := rfl
  simp only [hs, hd]
  split_ifs
  · rfl
  · rfl
  · rfl
  · rfl

theorem hostStep_hidesTables (op : HostOp) (s : State) (x : Tables) : HidesTables (hostStep op) s x := by
  cases op with
  | busWrite addr width v =>
    cases h : busTarget s.cfg.regBase addr width with
    | elsewhere =>
      exact .of_next x (hostStep_busWrite_elsewhere h) (hostStep_busWrite_elsewhere (s := s.withTables x) h)
    | illegal => exact .of_next x (hostStep_busWrite_illegal h) (hostStep_busWrite_illegal (s := s.withTables x) h)
    | reg r =>
      exact .of_eq (hostStep_busWrite_reg h) (hostStep_busWrite_reg (s := s.withTables x) h)
        (writeRegister_hidesTables r v (s.answer .done) x)
  | busRead addr width =>
    cases h : busTarget s.cfg.regBase addr width with
    | elsewhere =>
      exact .of_next x (hostStep_busRead_elsewhere h) (hostStep_busRead_elsewhere (s := s.withTables x) h)
    | illegal => exact .of_next x (hostStep_busRead_illegal h) (hostStep_busRead_illegal (s := s.withTables x) h)
    | reg r =>
      exact .of_next x (hostStep_busRead_reg h)
        ((hostStep_busRead_reg (s := s.withTables x) h).trans (congrArg _ (State.readReg_withTables r s x)))
  | memWrite a v => exact hostMemWrite_hidesTables a v s x
  | memRead a => exact hostMemRead_hidesTables a s x
  | poll =>
    have hbusy : (s.withTables x).busy = s.busy := rfl
    refine .of_next x rfl ?_
    simp only [hostStep, hbusy]
    split_ifs
    · rfl
    · rfl
  | hardwareReset contents =>
    obtain ⟨y, hy⟩ := State.exists_withTables_of_eq (State.hardwareReset_withTables contents s x)
    exact .of_next y rfl (congrArg Host.Outcome.next hy)

theorem step_hidesTables (s : State) (x : Tables) : HidesTables step s x := by
  cases h : s.turn with
  | idle => exact .of_next x (step_of_idle h) (step_of_idle (s := s.withTables x) h)
  | engine =>
    exact .of_eq (step_of_engine h) (step_of_engine (s := s.withTables x) h) (engineStep_hidesTables s x)
  | host op rest =>
    exact .of_eq (step_of_host h) (step_of_host (s := s.withTables x) h) (hostStep_hidesTables op (s.takeHost rest) x)

/-- Settles O54: no meaning on the way from the step down to Decode sees more of the tables than it wrote itself. -/
theorem hiddenTablesAreUnobservable : Obligations.HiddenTablesAreUnobservable := by
  intro s x
  refine ⟨?_, ?_, fun i => exec_hidesTables i s x⟩
  · intro t ht
    rcases step_hidesTables s x with ⟨r, hr, -⟩ | ⟨u, y, hu, hx⟩
    · cases ht.symm.trans hr
    · cases ht.symm.trans hu
      exact ⟨y, hx⟩
  · intro f hf
    rcases step_hidesTables s x with ⟨r, hr, hx⟩ | ⟨u, y, hu, -⟩
    · cases hf.symm.trans hr
      exact hx
    · cases hf.symm.trans hu

end Sys2Proof.Machine
end

section
/-! The register window, read and written offset by offset (10_state.md R20 to R46). -/

namespace Sys2Proof.Machine

/-! ## STATUS and the reset column -/

/-- Settles O46: each field is read off the bits of the word. -/
theorem statusWordLayout : Obligations.StatusWordLayout := by
  refine ⟨fun s => ?_, rfl⟩
  have hbit := s.statusWord_getLsbD
  have hlow : s.statusWord.extractLsb' 6 2 = 0#2 := extractLsb'_eq_of_getLsbD fun k hk => by rw [hbit]; grind
  have hcode : s.statusWord.extractLsb' 8 8 = s.errCode.toByte :=
    extractLsb'_eq_of_getLsbD fun k hk => by rw [hbit]; grind
  have hsub : s.statusWord.extractLsb' 16 8 = s.errSub :=
    extractLsb'_eq_of_getLsbD fun k hk => by rw [hbit]; grind
  have hhigh : s.statusWord.extractLsb' 24 8 = 0#8 := extractLsb'_eq_of_getLsbD fun k hk => by rw [hbit]; grind
  exact ⟨hbit 0, hbit 1, hbit 2, hbit 3, hbit 4, hbit 5, hlow, hcode, hsub, hhigh, rfl⟩

/-- Settles O45: register by register. -/
theorem resetValues : Obligations.ResetValues := by
  refine ⟨rfl, rfl, fun r hid hcaps hmax => ?_, rfl, rfl, rfl, rfl⟩
  cases r with
  | id => exact absurd rfl hid
  | caps => exact absurd rfl hcaps
  | blockMax => exact absurd rfl hmax
  | _ => rfl

/-! ## Accesses that reach no register -/

/-- Settles O47. -/
theorem unalignedAccessIsABusError : Obligations.UnalignedAccessIsABusError := by
  intro s addr width v hbelow habove hmisaligned
  have htarget := busTarget_illegal hbelow habove hmisaligned
  exact ⟨hostStep_busWrite_illegal htarget, hostStep_busRead_illegal htarget⟩

/-! ## Reads -/

/-- On an idle block, and for the registers BUSY does not unsettle, a read answers the stored value. -/
theorem hostStep_busRead_stored {s : State} {addr : Nat} {r : Reg} {w : Word}
    (htarget : busTarget s.cfg.regBase addr 4 = .reg r) (hclosed : s.busy = false ∨ r.openWhileBusy = false)
    (hw : s.regWord r = w) : hostStep (.busRead addr 4) s = .next { s with reply := .word w } := by
  rw [hostStep_busRead_reg htarget]
  rcases s.readReg_cases r with ⟨hread, -⟩ | ⟨-, hbusy, hopen⟩
  · rw [hread, hw]; rfl
  · simp [hbusy, hopen] at hclosed

/-- The other registers answer some value of their bits during BUSY (70_reset_and_hazards.md R266). -/
theorem hostStep_busRead_open {s : State} {addr : Nat} {r : Reg}
    (htarget : busTarget s.cfg.regBase addr 4 = .reg r) (hopen : r.openWhileBusy = true) (hbusy : s.busy = true) :
    ∃ v : Word, v &&& ~~~r.bits = 0#32 ∧
      hostStep (.busRead addr 4) s = .next { s with reply := .word v, draws := s.draws + 1 } := by
  rw [hostStep_busRead_reg htarget]
  rcases s.readReg_cases r with ⟨-, hclosed⟩ | ⟨hread, -, -⟩
  · exact absurd ⟨hbusy, hopen⟩ hclosed
  · refine ⟨_, ?_, congrArg Host.Outcome.next hread⟩
    rw [BitVec.and_assoc, BitVec.and_not_self]
    exact BitVec.and_zero

/-- The always stored registers of the map. -/
theorem read_stored {s : State} {w : Word} (r : Reg) (hclosed : r.openWhileBusy = false) (hw : s.regWord r = w) :
    hostStep (.busRead (s.cfg.regBase + r.offset) 4) s = .next { s with reply := .word w } :=
  hostStep_busRead_stored (busTarget_reg _ r) (.inr hclosed) hw

/-- The result and cursor registers of the map. -/
theorem read_cursor {s : State} {w : Word} (r : Reg) (hopen : r.openWhileBusy = true) (hw : s.regWord r = w) :
    (s.busy = false → hostStep (.busRead (s.cfg.regBase + r.offset) 4) s = .next { s with reply := .word w }) ∧
    (s.busy = true → ∃ v : Word, v &&& ~~~r.bits = 0#32 ∧
      hostStep (.busRead (s.cfg.regBase + r.offset) 4) s =
        .next { s with reply := .word v, draws := s.draws + 1 }) :=
  ⟨fun hidle => hostStep_busRead_stored (busTarget_reg _ r) (.inl hidle) hw,
    fun hbusy => hostStep_busRead_open (busTarget_reg _ r) hopen hbusy⟩

/-- The reserved offsets. -/
theorem busTarget_reserved (base : Nat) {off : Nat} (hlow : 0x5C ≤ off) (hhigh : off < 0x100) (h4 : off % 4 = 0) :
    busTarget base (base + off) 4 = .reg .reserved := by
  rw [busTarget_of_aligned base (by omega) h4, regAt_reserved hlow]

/-- Settles O48: each offset of the map by the rule for its kind of register. -/
theorem registerReads : Obligations.RegisterReads := by
  intro s read stored cursors
  have hctrl : s.regWord .ctrl = if s.irqEn then 0x00000008#32 else 0#32 := s.ctrlWord_eq
  have hclt := cltWord_eq s.lastClt
  refine ⟨?_, ?_, ?_, ?_, fun r => ⟨fun hclosed => ?_, s.regWord_and_not_bits r⟩⟩
  · simp only [stored, List.forall_mem_cons]
    exact ⟨read_stored .id rfl rfl, read_stored .caps rfl (capsWord_eq _), read_stored .ctrl rfl hctrl,
      read_stored .cmd rfl rfl, read_stored .status rfl rfl, read_stored .srcAddr rfl rfl,
      read_stored .srcLen rfl rfl, read_stored .dstAddr rfl rfl, read_stored .dstCap rfl rfl,
      read_stored .targetLen rfl rfl, read_stored .blockMax rfl rfl, read_stored .arg rfl rfl,
      List.forall_mem_nil _⟩
  · simp only [cursors, List.forall_mem_cons]
    exact ⟨read_cursor .errPos rfl rfl, read_cursor .result rfl rfl, read_cursor .outLen rfl rfl,
      read_cursor .bwAcc rfl rfl, read_cursor .bwCnt rfl (BitVec.ofNat_toNat _ _).symm, read_cursor .brPos rfl rfl,
      read_cursor .hdrUsize rfl rfl, read_cursor .blkCount rfl rfl,
      read_cursor .lastLits rfl (BitVec.ofNat_toNat _ _).symm,
      read_cursor .lastLitn rfl (BitVec.ofNat_toNat _ _).symm, read_cursor .lastClt rfl hclt,
      List.forall_mem_nil _⟩
  · exact fun hbusy => (s.statusWord_getLsbD 0).trans hbusy
  · exact fun off hlow hhigh h4 => hostStep_busRead_stored (busTarget_reserved _ hlow hhigh h4) (.inr rfl) rfl
  · exact hostStep_busRead_stored (busTarget_reg _ r) hclosed rfl

/-! ## Writes -/

/-- A write to a register other than CTRL. -/
theorem hostStep_busWrite_register {s : State} {addr : Nat} {v : Word} {r : Reg}
    (htarget : busTarget s.cfg.regBase addr 4 = .reg r) (hctrl : r ≠ .ctrl) :
    hostStep (.busWrite addr 4 v) s = .next ((s.answer .done).writeReg r v) :=
  (hostStep_busWrite_reg htarget).trans (if_neg hctrl)

theorem State.setOperand_answer (r : Reg) (v : Word) (b : BusReply) (s : State) :
    (s.answer b).setOperand r v = (s.setOperand r v).answer b := by
  cases r <;> rfl

/-- The operand registers of the map. -/
theorem write_operand {s t : State} {v : Word} (r : Reg) (hop : r.isOperand = true)
    (ht : s.setOperand r v = t) :
    (s.busy = true → hostStep (.busWrite (s.cfg.regBase + r.offset) 4 v) s =
      .next { s with reply := .done, werr := true }) ∧
    (s.busy = false → hostStep (.busWrite (s.cfg.regBase + r.offset) 4 v) s =
      .next { t with reply := .done }) := by
  have hctrl : r ≠ .ctrl := by rintro rfl; cases hop
  have hstatus : r ≠ .status := by rintro rfl; cases hop
  have hanswer : (s.answer .done).busy = s.busy := rfl
  rw [hostStep_busWrite_register (busTarget_reg _ r) hctrl, ← ht]
  rcases (s.answer .done).writeReg_cases r v with ⟨h, -⟩ | ⟨-, hbusy, h⟩ | ⟨-, hidle, h⟩ | ⟨-, hno, -⟩
  · exact absurd h hstatus
  · rw [hanswer] at hbusy
    exact ⟨fun _ => congrArg Host.Outcome.next h, fun hidle => by simp [hbusy] at hidle⟩
  · rw [hanswer] at hidle
    rw [h, State.setOperand_answer]
    exact ⟨fun hbusy => by simp [hidle] at hbusy, fun _ => rfl⟩
  · rw [hop] at hno
    cases hno

/-- A register that is no operand, nor CTRL or STATUS, ignores a write. -/
theorem write_ignored {s : State} {addr : Nat} {v : Word} {r : Reg}
    (htarget : busTarget s.cfg.regBase addr 4 = .reg r) (hctrl : r ≠ .ctrl) (hstatus : r ≠ .status)
    (hop : r.isOperand = false) : hostStep (.busWrite addr 4 v) s = .next { s with reply := .done } := by
  rw [hostStep_busWrite_register htarget hctrl]
  rcases (s.answer .done).writeReg_cases r v with ⟨h, -⟩ | ⟨h, -⟩ | ⟨h, -⟩ | ⟨-, -, h⟩
  · exact absurd h hstatus
  · simp [hop] at h
  · simp [hop] at h
  · rw [h]; rfl

/-- The read-only registers of the map. -/
theorem write_readOnly {s : State} {v : Word} (r : Reg) (hctrl : r ≠ .ctrl) (hstatus : r ≠ .status)
    (hop : r.isOperand = false) :
    hostStep (.busWrite (s.cfg.regBase + r.offset) 4 v) s = .next { s with reply := .done } :=
  write_ignored (busTarget_reg _ r) hctrl hstatus hop

/-- Settles O49: each offset of the map by the rule for its kind of register. -/
theorem registerWrites : Obligations.RegisterWrites := by
  intro s v write operands
  refine ⟨?_, ?_, ?_, ?_⟩
  · simp only [operands, List.forall_mem_cons]
    exact ⟨write_operand .cmd rfl rfl, write_operand .srcAddr rfl rfl, write_operand .srcLen rfl rfl,
      write_operand .dstAddr rfl rfl, write_operand .dstCap rfl rfl, write_operand .targetLen rfl rfl,
      write_operand .blockMax rfl rfl, write_operand .arg rfl rfl, List.forall_mem_nil _⟩
  · exact (hostStep_busWrite_register (busTarget_reg _ .status) (by decide)).trans rfl
  · simp only [List.forall_mem_cons]
    have hro : ∀ r : Reg, r ≠ .ctrl → r ≠ .status → r.isOperand = false →
        write r.offset = .next { s with reply := .done } := fun r => write_readOnly r
    exact ⟨hro .id (by decide) (by decide) rfl, hro .caps (by decide) (by decide) rfl,
      hro .errPos (by decide) (by decide) rfl, hro .result (by decide) (by decide) rfl,
      hro .outLen (by decide) (by decide) rfl, hro .bwAcc (by decide) (by decide) rfl,
      hro .bwCnt (by decide) (by decide) rfl, hro .brPos (by decide) (by decide) rfl,
      hro .hdrUsize (by decide) (by decide) rfl, hro .blkCount (by decide) (by decide) rfl,
      hro .lastLits (by decide) (by decide) rfl, hro .lastLitn (by decide) (by decide) rfl,
      hro .lastClt (by decide) (by decide) rfl, List.forall_mem_nil _⟩
  · exact fun off hlow hhigh h4 =>
      write_ignored (busTarget_reserved _ hlow hhigh h4) (by decide) (by decide) rfl

end Sys2Proof.Machine
end

section
/-! Control actions (44_control.md R210 to R214), and what every command keeps (10_state.md R46, R50; 20_memory.md R66):
the cases of a run are those of `runOf_spec`. -/

namespace Sys2Proof.Machine

/-! ## CTRL -/

/-- Settles O6: the access is taken off the queue and answered, its address is CTRL's, and the value is an action. -/
theorem stepRunsCtrlAction : Obligations.StepRunsCtrlAction := by
  intro s i v rest hturn hdecode
  have htarget : busTarget (s.takeHost rest).cfg.regBase (s.cfg.regBase + 0x08) 4 = .reg .ctrl :=
    busTarget_reg s.cfg.regBase .ctrl
  calc step s = hostStep (.busWrite (s.cfg.regBase + 0x08) 4 v) (s.takeHost rest) := step_of_host hturn
    _ = writeCtrl v ((s.takeHost rest).answer .done) := (hostStep_busWrite_reg htarget).trans (if_pos rfl)
    _ = exec i ((s.takeHost rest).answer .done) := by rw [writeCtrl, hdecode]

/-- Settles O41: the two branches of START. -/
theorem startLatchesOrSetsWerr : Obligations.StartLatchesOrSetsWerr := by
  intro ie s
  constructor
  · intro hidle
    have haccept : exec (.start ie) s = .next (s.setIrqEn ie).accept := if_neg (by simp [hidle])
    exact ⟨_, haccept⟩
  · intro hbusy
    have hrefuse : exec (.start ie) s = .next (s.setIrqEn ie).noteWriteError := if_pos hbusy
    exact hrefuse

/-! ## What every command keeps -/

/-- The next state of a command is its run's. -/
theorem eq_finish_of_exec {i : Instr} {s t : State} (hi : i.format = .cmd) (ht : exec i s = .next t) :
    t = (runOf i s).finish := by
  rw [exec_command hi] at ht
  cases ht
  rfl

/-- Settles O51: a byte that is neither raced nor in the destination range is named by no write. -/
theorem commandWritesOnlyItsDestination : Obligations.CommandWritesOnlyItsDestination := by
  intro i s t hi ht a hraced hout
  obtain rfl := eq_finish_of_exec hi ht
  have hspec := runOf_spec i s
  obtain ⟨hmem, -, htouched, -, -⟩ := hspec.frame
  rw [Run.finish_mem, hmem, memRead_scramble_other _ _ (htouched ▸ hraced)]
  refine memRead_applyWrites_other _ ?_
  rintro c hc rfl
  obtain ⟨hdst, hge, hlt, -⟩ := hspec.writes c hc
  rcases hout with hnone | hbelow | habove
  · rw [hdst] at hnone
    cases hnone
  · omega
  · omega

/-- Settles O53: a run touches none of these registers, and finishing it none but status and the model's record. -/
theorem commandsKeepOperandsAndControl : Obligations.CommandsKeepOperandsAndControl := by
  intro i s t hi ht
  obtain rfl := eq_finish_of_exec hi ht
  have hspec := runOf_spec i s
  refine ⟨?_, ?_, ?_, ?_, ?_, ?_, ?_, ?_, ?_, ?_, ?_, ?_, ?_, ?_, fun h => ?_⟩
  case refine_15 => rw [Run.finish_result, hspec.result h]
  all_goals
    simp only [Run.finish_cmd, Run.finish_srcAddr, Run.finish_srcLen, Run.finish_dstAddr, Run.finish_dstCap,
      Run.finish_targetLen, Run.finish_blockMax, Run.finish_arg, Run.finish_irqEn, Run.finish_werr,
      Run.finish_cfg, Run.finish_latch, Run.finish_pending, Run.finish_reply]
    rw [hspec.regs]

/-! ## BW_PUT from any writer -/

/-- BW_PUT with room for its bytes. -/
theorem runBwPut_of_room {n : BitVec 5} {s : State} (hdst : s.DstOk) (hn : 1 ≤ n.toNat ∧ n.toNat ≤ 24)
    (hroom : s.outLen.toNat + putEmits n.toNat s ≤ s.dstCap.toNat) :
    runBwPut n s =
      { regs := (s.setWriter (putWriter n.toNat s)).setOutLen (s.outLen.toNat + putEmits n.toNat s)
        writes := cellsAt (s.dstAddr.toNat + s.outLen.toNat) (putWriter n.toNat s).out
        fault := none } := by
  have hp : prologue (.bwPut n) s = none :=
    prologue_eq_none.2 ⟨by rintro _ ⟨⟩; exact hn, nofun, nofun, fun _ => hdst, nofun⟩
  rw [runBwPut, runCommand_of_none hp]
  exact if_neg (Nat.not_lt.2 hroom)

/-- A run that completes where the host raced nothing: the model's own record of races stays empty. -/
theorem Run.finish_of_quiet {r : Run} (h : r.fault = none) (hquiet : r.regs.Quiet) :
    r.finish =
      { r.regs with
        mem := applyWrites r.regs.mem r.writes, done := true, phase := .idle, engineDue := 0
        draws := r.regs.draws + 1 } := by
  obtain ⟨hsrc, htouched⟩ := hquiet
  simp only [Run.finish_of_none h, hsrc, htouched, scramble_nil]

/-- A run whose registers differ in ARG ends in a state that differs in ARG. -/
theorem Run.finish_withArg (r : Run) (x : Word) :
    ({ r with regs := { r.regs with arg := x } } : Run).finish = { r.finish with arg := x } := by
  obtain ⟨regs, writes, fault⟩ := r
  cases fault with
  | none => rfl
  | some f => rfl

/-- BW_PUT's run sees the low NBITS bits of ARG (10_state.md R35), the prologue none of it. -/
theorem runBwPut_withArg {n : BitVec 5} {s : State} {x : Word}
    (hx : x.toNat % 2 ^ n.toNat = s.arg.toNat % 2 ^ n.toNat) :
    runBwPut n { s with arg := x } =
      { runBwPut n s with regs := { (runBwPut n s).regs with arg := x } } := by
  have hp : prologue (.bwPut n) { s with arg := x } = prologue (.bwPut n) s := rfl
  rcases runCommand_cases (.bwPut n) (bodyBwPut n) s with ⟨h1, h2⟩ | ⟨f, h1, h2⟩
  · rw [runBwPut, runBwPut, h2, runCommand_of_none (hp.trans h1)]
    have he : putEmits n.toNat { s with arg := x } = putEmits n.toNat s := rfl
    simp only [bodyBwPut, putWriter_congr_arg hx, he]
    split_ifs
    · rfl
    · rfl
  · rw [runBwPut, runBwPut, h2, runCommand_of_some (hp.trans h1)]

/-- Settles O13. The bytes lie where `memRead_store_other` says, and the bounds are those of `putWriter_ok`. -/
theorem bwPutCompletesAfterAbort : Obligations.BwPutCompletesAfterAbort := by
  constructor
  · intro n s hquiet hdst hn1 hn24 hroom e base
    have hrun := runBwPut_of_room hdst ⟨hn1, hn24⟩ hroom
    have hlen : (putWriter n.toNat s).out.length = e := putWriter_out_length n.toNat s
    obtain ⟨hcnt, hacc⟩ := State.writerOk_setWriter (putWriter_ok n.toNat s) s
    refine ⟨applyWrites s.mem (cellsAt base (putWriter n.toNat s).out), _, _, ?_, hcnt, hacc, fun a ha => ?_⟩
    · have hexec : exec (.bwPut n) s = .next (runBwPut n s).finish := rfl
      rw [hexec, hrun, Run.finish_of_quiet rfl hquiet]
      rfl
    · exact memRead_store_other _ (hlen.symm ▸ ha)
  · intro n s x hx
    refine ⟨(runBwPut n s).finish, rfl, ?_⟩
    have hexec : exec (.bwPut n) { s with arg := x } = .next (runBwPut n { s with arg := x }).finish := rfl
    rw [hexec, runBwPut_withArg hx, Run.finish_withArg]

end Sys2Proof.Machine
end

section
/-! The bit writer between commands (10_state.md R38, R39): every step but an ABORT of a running command keeps it below
its count. -/

namespace Sys2Proof.Machine

theorem State.WriterOk.congr {s t : State} (h : s.WriterOk) (hcnt : t.bwCnt = s.bwCnt) (hacc : t.bwAcc = s.bwAcc) :
    t.WriterOk := by
  unfold State.WriterOk
  rw [hcnt, hacc]
  exact h

theorem Run.finish_writerOk {i : Instr} {s : State} {r : Run} (hspec : r.Spec i s) (h : s.WriterOk) :
    r.finish.WriterOk :=
  (hspec.writer h).congr r.finish_bwCnt r.finish_bwAcc

theorem engineStep_writerOk {s t : State} (h : s.WriterOk) (ht : s.engineStep = .next t) : t.WriterOk := by
  cases hd : decodeCommand s.latch with
  | ok i =>
    rw [State.engineStep_command hd] at ht
    obtain rfl := eq_finish_of_exec (decodeCommand_format hd) ht
    exact Run.finish_writerOk (runOf_spec i s) h
  | error e =>
    rw [State.engineStep_illegal hd] at ht
    cases ht
    exact h.congr (Run.finish_bwCnt _) (Run.finish_bwAcc _)

/-- A host write of CTRL, other than the ABORT of a running command. -/
theorem writeCtrl_writerOk {s t : State} {v : Word} (h : s.WriterOk)
    (habort : s.busy = true → ∀ ie, decodeCtrl v ≠ .ok (.abort ie)) (ht : writeCtrl v s = .next t) :
    t.WriterOk := by
  unfold writeCtrl at ht
  cases hd : decodeCtrl v with
  | error e =>
    rw [hd] at ht
    cases ht
    exact h.congr rfl rfl
  | ok i =>
    rw [hd] at ht
    rcases decodeCtrl_cases hd with rfl | rfl | rfl
    · cases ht
      exact State.writerOk_zero rfl rfl
    · cases hb : s.busy with
      | true => exact absurd hd (habort hb _)
      | false =>
        have hidle : exec (.abort (irqEnField v)) s = .next (s.setIrqEn (irqEnField v)) := if_neg (by simp [hb])
        cases hidle.symm.trans ht
        exact h.congr rfl rfl
    · have hstart : exec (.start (irqEnField v)) s = execStart (irqEnField v) s := rfl
      simp only [hstart, execStart] at ht
      split_ifs at ht
      · cases ht; exact h.congr rfl rfl
      · cases ht; exact h.congr rfl rfl

theorem State.setOperand_writerOk {s : State} (h : s.WriterOk) (r : Reg) (v : Word) :
    (s.setOperand r v).WriterOk := by
  cases r <;> exact h.congr rfl rfl

theorem State.writeReg_writerOk {s : State} (h : s.WriterOk) (r : Reg) (v : Word) : (s.writeReg r v).WriterOk := by
  rcases s.writeReg_cases r v with ⟨-, hw⟩ | ⟨-, -, hw⟩ | ⟨-, -, hw⟩ | ⟨-, -, hw⟩
  · rw [hw]; exact h.congr rfl rfl
  · rw [hw]; exact h.congr rfl rfl
  · rw [hw]; exact State.setOperand_writerOk h r v
  · rw [hw]; exact h

theorem State.readReg_writerOk {s : State} (h : s.WriterOk) (r : Reg) : (s.readReg r).WriterOk := by
  rcases s.readReg_cases r with ⟨hr, -⟩ | ⟨hr, -⟩
  · rw [hr]; exact h.congr rfl rfl
  · rw [hr]; exact h.congr rfl rfl

/-- A host access that is not the ABORT of a running command. -/
theorem hostStep_writerOk {s t : State} {op : HostOp} (h : s.WriterOk)
    (habort : ∀ addr width v, op = .busWrite addr width v → busTarget s.cfg.regBase addr width = .reg .ctrl →
      s.busy = true → ∀ ie, decodeCtrl v ≠ .ok (.abort ie))
    (ht : hostStep op s = .next t) : t.WriterOk := by
  cases op with
  | busWrite addr width v =>
    cases htarget : busTarget s.cfg.regBase addr width with
    | elsewhere => rw [hostStep_busWrite_elsewhere htarget] at ht; cases ht; exact h.congr rfl rfl
    | illegal => rw [hostStep_busWrite_illegal htarget] at ht; cases ht; exact h.congr rfl rfl
    | reg r =>
      have hdone : (s.answer .done).WriterOk := h.congr rfl rfl
      rw [hostStep_busWrite_reg htarget] at ht
      unfold writeRegister at ht
      split_ifs at ht with hr
      · subst hr
        exact writeCtrl_writerOk hdone (habort addr width v rfl htarget) ht
      · cases ht
        exact State.writeReg_writerOk hdone r v
  | busRead addr width =>
    cases htarget : busTarget s.cfg.regBase addr width with
    | elsewhere => rw [hostStep_busRead_elsewhere htarget] at ht; cases ht; exact h.congr rfl rfl
    | illegal => rw [hostStep_busRead_illegal htarget] at ht; cases ht; exact h.congr rfl rfl
    | reg r =>
      rw [hostStep_busRead_reg htarget] at ht
      cases ht
      exact State.readReg_writerOk h r
  | memWrite a v =>
    have hmem : hostStep (.memWrite a v) s = hostMemWrite a v s := rfl
    rw [hmem] at ht
    rcases hostMemWrite_cases a v s with ⟨-, hf⟩ | ⟨-, srcDraw, dstTouched, draws, hn, -, -⟩
    · cases hf.symm.trans ht
    · cases hn.symm.trans ht
      exact h.congr rfl rfl
  | memRead a =>
    have hmem : hostStep (.memRead a) s = hostMemRead a s := rfl
    rw [hmem] at ht
    rcases hostMemRead_cases a s with ⟨-, hf⟩ | ⟨-, -, hn⟩ | ⟨-, -, b, hn⟩
    · cases hf.symm.trans ht
    · cases hn.symm.trans ht
      exact h.congr rfl rfl
    · cases hn.symm.trans ht
      exact h.congr rfl rfl
  | poll =>
    cases ht
    split_ifs
    · exact h.congr rfl rfl
    · exact h.congr rfl rfl
  | hardwareReset contents =>
    cases ht
    exact State.writerOk_zero rfl rfl

/-- What `abortsNext` rules out. -/
theorem State.not_abort_of_abortsNext {s : State} {addr width : Nat} {v : Word} {rest : List HostOp}
    (h : s.abortsNext = false) (hturn : s.turn = .host (.busWrite addr width v) rest) (hbusy : s.busy = true)
    (htarget : busTarget s.cfg.regBase addr width = .reg .ctrl) (ie : Bool) : decodeCtrl v ≠ .ok (.abort ie) := by
  intro hd
  simp [State.abortsNext, hturn, hbusy, htarget, hd] at h

/-- Settles O59: turn by turn. -/
theorem stepKeepsWriter : Obligations.StepKeepsWriter := by
  intro s t h habort ht
  cases hturn : s.turn with
  | idle =>
    rw [step_of_idle hturn] at ht
    cases ht
    exact h
  | engine =>
    rw [step_of_engine hturn] at ht
    exact engineStep_writerOk h ht
  | host op rest =>
    rw [step_of_host hturn] at ht
    refine hostStep_writerOk (s := s.takeHost rest) (h.congr rfl rfl) ?_ ht
    rintro addr width v rfl htarget hbusy ie
    exact State.not_abort_of_abortsNext habort hturn hbusy htarget ie

end Sys2Proof.Machine
end

section
/-! The invariant, step by step (20_memory.md R60, R65; 60_exceptions.md R234, R236; 70_reset_and_hazards.md R265). A
step either leaves alone every field the invariant speaks of, or starts or ends a command, or lets the host write memory
or a flag. -/

namespace Sys2Proof.Machine

/-! ## The tables that a stop or a reset leaves (93_implementation_defined.md U3) -/

theorem legalDepth_depthOf (absent : Bool) (d : BitVec 4) : LegalDepth (depthOf absent d) := by
  have hd := d.isLt
  unfold LegalDepth depthOf depthMin depthMax
  split_ifs
  · exact .inl rfl
  · omega

theorem hiddenLitTable_length (draw : Nat) : (hiddenLitTable draw).length = litAlphabet := by
  unfold hiddenLitTable
  rw [List.length_map, List.length_range]

theorem legalDepth_of_mem_hiddenLitTable {draw d : Nat} (h : d ∈ hiddenLitTable draw) : LegalDepth d := by
  unfold hiddenLitTable at h
  obtain ⟨i, -, rfl⟩ := List.mem_map.1 h
  exact legalDepth_depthOf _ _

theorem hiddenCltTable_length (draw : Nat) : (hiddenCltTable draw).length = cltSyms := by
  unfold hiddenCltTable
  rw [List.length_map, List.length_range]

theorem le_of_mem_hiddenCltTable {draw l : Nat} (h : l ∈ hiddenCltTable draw) : l ≤ 15 := by
  unfold hiddenCltTable at h
  obtain ⟨i, -, rfl⟩ := List.mem_map.1 h
  exact Nat.le_of_lt_succ (Config.hiddenCltLen draw i).isLt

theorem State.forgetTables_tablesOk (s : State) : s.forgetTables.TablesOk :=
  ⟨hiddenLitTable_length _, fun _ => legalDepth_of_mem_hiddenLitTable, hiddenCltTable_length _,
    fun _ => le_of_mem_hiddenCltTable⟩

/-! ## Idle and running blocks -/

theorem State.busy_eq_true {s : State} : s.busy = true ↔ s.phase = .run := by simp [State.busy]

theorem State.busy_eq_false {s : State} : s.busy = false ↔ s.phase = .idle := by
  unfold State.busy
  cases s.phase <;> simp

theorem State.busy_of_ownsSrc {s : State} {a : Nat} (h : s.ownsSrc a = true) : s.busy = true :=
  (Bool.and_eq_true_iff.1 h).1

theorem State.busy_of_ownsDst {s : State} {a : Nat} (h : s.ownsDst a = true) : s.busy = true :=
  (Bool.and_eq_true_iff.1 h).1

/-- An idle block has no race on record. -/
theorem State.quiet_of_idle {s : State} (h : s.RaceOk) (hidle : s.phase = .idle) : s.Quiet := by
  obtain ⟨hdst, hsrc⟩ := h
  have hbusy : s.busy ≠ true := by simp [State.busy_eq_false.2 hidle]
  constructor
  · by_contra hne
    exact hbusy (hsrc hne)
  · rw [List.eq_nil_iff_forall_not_mem]
    exact fun a ha => hbusy (State.busy_of_ownsDst (hdst a ha))

/-- On an idle block that recorded no race the invariant is about memory, the tables and STATUS only. -/
theorem State.inv_of_idle {s : State} (hidle : s.phase = .idle) (hquiet : s.Quiet) (hwf : Memory.wf s.mem)
    (hwithin : Memory.within s.mem s.cfg.memSize) (htables : s.TablesOk) (hstatus : s.StatusOk) : s.Inv := by
  refine ⟨⟨hwf, hwithin, ?_⟩, htables, State.runOk_of_idle hidle, hstatus, State.raceOk_of_quiet hquiet⟩
  obtain ⟨-, hnone⟩ := hquiet
  rw [hnone]
  exact List.forall_mem_nil _

/-- STATUS and the fault registers as an accepted START leaves them (44_control.md R210). -/
def State.StatusClear (s : State) : Prop :=
  s.done = false ∧ s.err = false ∧ s.errCode = .noFault ∧ s.errSub = 0#8 ∧ s.errPos = 0#32

/-- The status of a running command is still what START left. -/
theorem State.Inv.statusClear {s : State} (h : s.Inv) (hrun : s.phase = .run) : s.StatusClear := by
  obtain ⟨-, -, hrunOk, ⟨-, -, -, hzero⟩, -⟩ := h
  obtain ⟨hdone, herr, -, hcode, -⟩ := hrunOk hrun
  exact ⟨hdone, herr, hcode, hzero hcode⟩

/-! ## The end of a command -/

/-- From a clear status, completion sets DONE without a fault code, and fault entry sets ERR with one
(60_exceptions.md R234, R236). -/
theorem State.StatusClear.conclude {s : State} (h : s.StatusClear) {f : Option FaultReport}
    (hf : ∀ r, f = some r → r.code ≠ .noFault) : (s.conclude f).StatusOk := by
  obtain ⟨hdone, herr, hcode, hsub, hpos⟩ := h
  cases f with
  | none => exact ⟨by simp [herr], fun _ => hcode, by simp [herr], fun _ => ⟨hsub, hpos⟩⟩
  | some r => exact ⟨by simp [hdone], by simp [hdone], fun _ => hf r rfl, fun hno => absurd hno (hf r rfl)⟩

/-- A command ends in a legal state where it leaves memory and the tables legal. -/
theorem State.inv_retire_conclude {s : State} {f : Option FaultReport} (hwf : Memory.wf s.mem)
    (hwithin : Memory.within s.mem s.cfg.memSize) (htables : s.TablesOk) (hclear : s.StatusClear)
    (hf : ∀ r, f = some r → r.code ≠ .noFault) : (s.retire.conclude f).Inv := by
  have hstatus : (s.retire.conclude f).StatusOk := State.StatusClear.conclude (s := s.retire) hclear hf
  cases f with
  | none => exact State.inv_of_idle rfl ⟨rfl, rfl⟩ hwf hwithin htables hstatus
  | some r => exact State.inv_of_idle rfl ⟨rfl, rfl⟩ hwf hwithin htables hstatus

/-- A command's writes and the bytes the host raced keep memory canonical and inside MEM_SIZE. -/
theorem State.MemOk.scramble_applyWrites {s : State} (h : s.MemOk) (draw : Nat) {ws : List Host.Cell}
    (hws : ∀ c ∈ ws, c.1 < s.cfg.memSize) :
    Memory.wf (scramble draw s.dstTouched (applyWrites s.mem ws)) ∧
      Memory.within (scramble draw s.dstTouched (applyWrites s.mem ws)) s.cfg.memSize := by
  obtain ⟨hwf, hwithin, htouched⟩ := h
  exact ⟨scramble_wf (applyWrites_wf hwf ws) draw _,
    scramble_within (applyWrites_within hwithin hws) draw htouched⟩

theorem Run.finish_inv {i : Instr} {s : State} {r : Run} (hspec : r.Spec i s) (h : s.Inv) (hrun : s.phase = .run) :
    r.finish.Inv := by
  have hclear : r.regs.StatusClear := by
    rw [hspec.regs]
    exact h.statusClear hrun
  obtain ⟨hmem, htables, -, -, -⟩ := h
  have hregs : r.regs.MemOk := by
    rw [hspec.regs]
    exact hmem
  obtain ⟨-, hcfg, -, -, -⟩ := hspec.frame
  have hwrites : ∀ c ∈ r.writes, c.1 < r.regs.cfg.memSize := fun c hc => by
    obtain ⟨-, -, -, hlt⟩ := hspec.writes c hc
    rwa [hcfg]
  obtain ⟨hwf, hwithin⟩ := hregs.scramble_applyWrites r.regs.draws hwrites
  exact State.inv_retire_conclude hwf hwithin (hspec.tables htables) hclear hspec.fault

/-- A run that only raises a fault meets every command's specification. -/
theorem faultRun_spec (i : Instr) (s : State) {code : FaultCode} (hcode : code ≠ .noFault) (sub : Byte) (pos : Nat) :
    (faultRun s code sub pos).Spec i s :=
  ⟨rfl, fun _ => rfl, fun _ h => (List.not_mem_nil h).elim, id, fun f h => by cases h; exact hcode, id⟩

theorem engineStep_inv {s t : State} (h : s.Inv) (hrun : s.phase = .run) (ht : s.engineStep = .next t) : t.Inv := by
  cases hd : decodeCommand s.latch with
  | ok i =>
    rw [State.engineStep_command hd] at ht
    obtain rfl := eq_finish_of_exec (decodeCommand_format hd) ht
    exact Run.finish_inv (runOf_spec i s) h hrun
  | error e =>
    rw [State.engineStep_illegal hd] at ht
    cases ht
    exact Run.finish_inv (faultRun_spec .nop s (by decide) 0 0) h hrun

/-! ## CTRL and the resets -/

theorem State.stoppedMemory_ok {s : State} (h : s.MemOk) :
    Memory.wf s.stoppedMemory ∧ Memory.within s.stoppedMemory s.cfg.memSize :=
  h.scramble_applyWrites s.draws fun c hc => by
    obtain ⟨-, -, hlt⟩ := runLatched_writes s c (List.mem_of_mem_take hc)
    exact hlt

theorem State.resetMemory_ok {s : State} (h : s.MemOk) :
    Memory.wf s.resetMemory ∧ Memory.within s.resetMemory s.cfg.memSize := by
  unfold State.resetMemory
  split_ifs
  · exact State.stoppedMemory_ok h
  · obtain ⟨hwf, hwithin, -⟩ := h
    exact ⟨hwf, hwithin⟩

theorem State.abortRun_inv {s : State} (h : s.Inv) (hrun : s.phase = .run) : s.abortRun.Inv := by
  have hclear := h.statusClear hrun
  obtain ⟨hmem, -⟩ := h
  obtain ⟨hwf, hwithin⟩ := State.stoppedMemory_ok hmem
  exact State.inv_retire_conclude (s := (s.withMem s.stoppedMemory).forgetCursors.forgetTables)
    (f := some ⟨.aborted, 0, 0⟩) hwf hwithin (State.forgetTables_tablesOk _) hclear
    fun r hr => by cases hr; decide

theorem State.accept_inv {s : State} (h : s.Inv) : s.accept.Inv := by
  obtain ⟨⟨hwf, hwithin, -⟩, htables, -, -, -⟩ := h
  exact ⟨⟨hwf, hwithin, List.forall_mem_nil _⟩, htables, fun _ => ⟨rfl, rfl, rfl, rfl, rfl⟩,
    State.statusOk_of_noFault rfl rfl rfl rfl, State.raceOk_of_quiet ⟨rfl, rfl⟩⟩

theorem State.softReset_inv {s : State} (h : s.Inv) : s.softReset.Inv := by
  obtain ⟨hmem, -⟩ := h
  obtain ⟨hwf, hwithin⟩ := State.resetMemory_ok hmem
  exact State.inv_of_idle rfl ⟨rfl, rfl⟩ hwf hwithin (State.forgetTables_tablesOk _)
    (State.statusOk_of_noFault rfl rfl rfl rfl)

theorem State.hardwareReset_inv (s : State) (contents : List Host.Cell) : (s.hardwareReset contents).Inv :=
  State.inv_of_idle rfl ⟨rfl, rfl⟩ (memoryOf_wf _ contents) (memoryOf_within _ contents)
    (State.forgetTables_tablesOk _) (State.statusOk_of_noFault rfl rfl rfl rfl)

/-- A host write of CTRL. IRQ_EN and WERR are no part of the invariant. -/
theorem writeCtrl_inv {s t : State} {v : Word} (h : s.Inv) (ht : writeCtrl v s = .next t) : t.Inv := by
  have hie : (s.setIrqEn (irqEnField v)).Inv := h
  rcases writeCtrl_cases v s with hw | ⟨hbusy, hw⟩ | ⟨-, hw⟩ | ⟨-, hw⟩ | hw
  · cases hw.symm.trans ht
    exact State.softReset_inv h
  · cases hw.symm.trans ht
    exact State.abortRun_inv hie (State.busy_eq_true.1 hbusy)
  · cases hw.symm.trans ht
    exact h
  · cases hw.symm.trans ht
    exact State.accept_inv hie
  · cases hw.symm.trans ht
    exact h

/-! ## The other registers -/

/-- Clearing DONE and ERR leaves no report that was not there (10_state.md R27). -/
theorem State.writeStatus_inv {s : State} (h : s.Inv) (v : Word) : (s.writeStatus v).Inv := by
  obtain ⟨hmem, htables, hrun, ⟨hboth, hdone, herr, hzero⟩, hrace⟩ := h
  refine ⟨hmem, htables, fun hphase => ?_, ⟨?_, ?_, ?_, hzero⟩, hrace⟩
  · obtain ⟨hd, he, hrest⟩ := hrun hphase
    exact ⟨by simp [hd], by simp [he], hrest⟩
  · rintro ⟨hd, he⟩
    exact hboth ⟨(Bool.and_eq_true_iff.1 hd).1, (Bool.and_eq_true_iff.1 he).1⟩
  · exact fun hd => hdone (Bool.and_eq_true_iff.1 hd).1
  · exact fun he => herr (Bool.and_eq_true_iff.1 he).1

/-- On an idle block no part of the invariant depends on an operand register. -/
theorem State.setOperand_inv {s : State} (h : s.Inv) (hidle : s.phase = .idle) (r : Reg) (v : Word) :
    (s.setOperand r v).Inv := by
  obtain ⟨⟨hwf, hwithin, -⟩, htables, -, hstatus, hrace⟩ := h
  have hquiet := State.quiet_of_idle hrace hidle
  cases r <;> exact State.inv_of_idle hidle hquiet hwf hwithin htables hstatus

theorem State.writeReg_inv {s : State} (h : s.Inv) (r : Reg) (v : Word) : (s.writeReg r v).Inv := by
  rcases s.writeReg_cases r v with ⟨-, hw⟩ | ⟨-, -, hw⟩ | ⟨-, hidle, hw⟩ | ⟨-, -, hw⟩
  · rw [hw]; exact State.writeStatus_inv h v
  · rw [hw]; exact h
  · rw [hw]; exact State.setOperand_inv h (State.busy_eq_false.1 hidle) r v
  · rw [hw]; exact h

theorem State.readReg_inv {s : State} (h : s.Inv) (r : Reg) : (s.readReg r).Inv := by
  rcases s.readReg_cases r with ⟨hr, -⟩ | ⟨hr, -⟩
  · rw [hr]; exact h
  · rw [hr]; exact h

/-! ## Buffer memory -/

/-- A host write of buffer memory: the address exists, and a race goes on record only while a command runs, a
destination byte only inside its range. -/
theorem hostMemWrite_inv {s t : State} {a : Nat} {v : Byte} (h : s.Inv) (ht : hostMemWrite a v s = .next t) :
    t.Inv := by
  obtain ⟨⟨hwf, hwithin, htouched⟩, htables, hrun, hstatus, hdst, hsrc⟩ := h
  rcases hostMemWrite_cases a v s with ⟨-, hf⟩ | ⟨ha, srcDraw, dstTouched, draws, hn, hkept, hrecord⟩
  · cases hf.symm.trans ht
  · cases hn.symm.trans ht
    have hmem : ∀ b ∈ dstTouched, b ∈ s.dstTouched ∨ (b = a ∧ s.ownsDst a = true) := by
      intro b hb
      rw [hrecord] at hb
      split_ifs at hb with howns
      · rcases List.mem_cons.1 hb with rfl | hb
        · exact .inr ⟨rfl, howns⟩
        · exact .inl hb
      · exact .inl hb
    refine ⟨⟨memWrite_wf hwf a v, memWrite_within hwithin ha v, fun b hb => ?_⟩, htables, hrun, hstatus,
      fun b hb => ?_, fun hne => ?_⟩
    · rcases hmem b hb with hb | ⟨rfl, -⟩
      · exact htouched b hb
      · exact ha
    · rcases hmem b hb with hb | ⟨rfl, howns⟩
      · exact hdst b hb
      · exact howns
    · cases howns : s.ownsSrc a with
      | true => exact State.busy_of_ownsSrc howns
      | false =>
        obtain ⟨rfl, -⟩ := hkept howns
        exact hsrc hne

theorem hostMemRead_inv {s t : State} {a : Nat} (h : s.Inv) (ht : hostMemRead a s = .next t) : t.Inv := by
  rcases hostMemRead_cases a s with ⟨-, hf⟩ | ⟨-, -, hn⟩ | ⟨-, -, b, hn⟩
  · cases hf.symm.trans ht
  · cases hn.symm.trans ht
    exact h
  · cases hn.symm.trans ht
    exact h

/-! ## Steps -/

theorem hostStep_inv {s t : State} {op : HostOp} (h : s.Inv) (ht : hostStep op s = .next t) : t.Inv := by
  cases op with
  | busWrite addr width v =>
    cases htarget : busTarget s.cfg.regBase addr width with
    | elsewhere => rw [hostStep_busWrite_elsewhere htarget] at ht; cases ht; exact h
    | illegal => rw [hostStep_busWrite_illegal htarget] at ht; cases ht; exact h
    | reg r =>
      have hdone : (s.answer .done).Inv := h
      rw [hostStep_busWrite_reg htarget] at ht
      unfold writeRegister at ht
      split_ifs at ht
      · exact writeCtrl_inv hdone ht
      · cases ht
        exact State.writeReg_inv hdone r v
  | busRead addr width =>
    cases htarget : busTarget s.cfg.regBase addr width with
    | elsewhere => rw [hostStep_busRead_elsewhere htarget] at ht; cases ht; exact h
    | illegal => rw [hostStep_busRead_illegal htarget] at ht; cases ht; exact h
    | reg r => rw [hostStep_busRead_reg htarget] at ht; cases ht; exact State.readReg_inv h r
  | memWrite a v => exact hostMemWrite_inv h ht
  | memRead a => exact hostMemRead_inv h ht
  | poll =>
    cases ht
    split_ifs
    · exact h
    · exact h
  | hardwareReset contents =>
    cases ht
    exact State.hardwareReset_inv s contents

/-- Settles O58: turn by turn; taking an access off the queue changes no field of the invariant. -/
theorem stepKeepsInvariant : Obligations.StepKeepsInvariant := by
  intro s t h ht
  cases hturn : s.turn with
  | idle =>
    rw [step_of_idle hturn] at ht
    cases ht
    exact h
  | engine =>
    rw [step_of_engine hturn] at ht
    exact engineStep_inv h (State.turn_eq_engine.1 hturn).1 ht
  | host op rest =>
    rw [step_of_host hturn] at ht
    exact hostStep_inv (s := s.takeHost rest) h ht

end Sys2Proof.Machine
end

section
/-! Where the machine stops, and buffer memory as the host sees it (20_memory.md R60, R68). -/

namespace Sys2Proof.Machine

/-! ## Stops -/

theorem engineStep_next (s : State) : ∃ t, s.engineStep = .next t := by
  cases hd : decodeCommand s.latch with
  | ok i => exact ⟨_, (State.engineStep_command hd).trans (exec_command (decodeCommand_format hd) s)⟩
  | error e => exact ⟨_, State.engineStep_illegal hd⟩

theorem writeRegister_next (r : Reg) (v : Word) (s : State) : ∃ t, writeRegister r v s = .next t := by
  unfold writeRegister
  split_ifs
  · rcases writeCtrl_cases v s with h | ⟨-, h⟩ | ⟨-, h⟩ | ⟨-, h⟩ | h
    all_goals exact ⟨_, h⟩
  · exact ⟨_, rfl⟩

/-- A host access is answered, unless it is one of a buffer-memory byte that does not exist (log 15). -/
theorem hostStep_cases (op : HostOp) (s : State) :
    (∃ t, hostStep op s = .next t) ∨
      ∃ a, hostStep op s = .fault (.noSuchAddress a) ∧ s.cfg.memSize ≤ a ∧
        (op = .memRead a ∨ ∃ v, op = .memWrite a v) := by
  cases op with
  | busWrite addr width v =>
    cases htarget : busTarget s.cfg.regBase addr width with
    | elsewhere => exact .inl ⟨_, hostStep_busWrite_elsewhere htarget⟩
    | illegal => exact .inl ⟨_, hostStep_busWrite_illegal htarget⟩
    | reg r =>
      obtain ⟨t, ht⟩ := writeRegister_next r v (s.answer .done)
      exact .inl ⟨t, (hostStep_busWrite_reg htarget).trans ht⟩
  | busRead addr width =>
    cases htarget : busTarget s.cfg.regBase addr width with
    | elsewhere => exact .inl ⟨_, hostStep_busRead_elsewhere htarget⟩
    | illegal => exact .inl ⟨_, hostStep_busRead_illegal htarget⟩
    | reg r => exact .inl ⟨_, hostStep_busRead_reg htarget⟩
  | memWrite a v =>
    rcases hostMemWrite_cases a v s with ⟨ha, hf⟩ | ⟨-, srcDraw, dstTouched, draws, hn, -, -⟩
    · exact .inr ⟨a, hf, ha, .inr ⟨v, rfl⟩⟩
    · exact .inl ⟨_, hn⟩
  | memRead a =>
    rcases hostMemRead_cases a s with ⟨ha, hf⟩ | ⟨-, -, hn⟩ | ⟨-, -, b, hn⟩
    · exact .inr ⟨a, hf, ha, .inl rfl⟩
    · exact .inl ⟨_, hn⟩
    · exact .inl ⟨_, hn⟩
  | poll => exact .inl ⟨_, rfl⟩
  | hardwareReset contents => exact .inl ⟨_, rfl⟩

/-- A step is answered, unless it is a host access to a byte that does not exist. -/
theorem step_cases (s : State) :
    (∃ t, step s = .next t) ∨
      ∃ a rest, step s = .fault (.noSuchAddress a) ∧ s.cfg.memSize ≤ a ∧
        (s.turn = .host (.memRead a) rest ∨ ∃ v, s.turn = .host (.memWrite a v) rest) := by
  cases hturn : s.turn with
  | idle => exact .inl ⟨s, step_of_idle hturn⟩
  | engine =>
    obtain ⟨t, ht⟩ := engineStep_next s
    exact .inl ⟨t, (step_of_engine hturn).trans ht⟩
  | host op rest =>
    rcases hostStep_cases op (s.takeHost rest) with ⟨t, ht⟩ | ⟨a, hf, ha, hop⟩
    · exact .inl ⟨t, (step_of_host hturn).trans ht⟩
    · refine .inr ⟨a, rest, (step_of_host hturn).trans hf, ha, ?_⟩
      rcases hop with rfl | ⟨v, rfl⟩
      · exact .inl rfl
      · exact .inr ⟨v, rfl⟩

/-- Settles O7: of the two outcomes a step has, only the missing byte is a stop. -/
theorem onlyMissingAddressesStop : Obligations.OnlyMissingAddressesStop := by
  intro s
  rcases step_cases s with ⟨t, ht⟩ | ⟨a, rest, hf, ha, hturn⟩
  · rw [ht]
    exact ⟨nofun, nofun⟩
  · rw [hf]
    refine ⟨nofun, fun f h => ?_⟩
    cases h
    exact ⟨a, rest, rfl, ha, hturn⟩

/-! ## Bytes that no running command owns -/

theorem hostMemRead_of_unowned {s : State} {a : Nat} (ha : a < s.cfg.memSize) (hdst : s.ownsDst a = false) :
    hostMemRead a s = .next (s.answer (.byte (memRead s.mem a))) := by
  rcases hostMemRead_cases a s with ⟨hge, -⟩ | ⟨-, -, hn⟩ | ⟨-, howns, -⟩
  · omega
  · exact hn
  · rw [hdst] at howns
    cases howns

/-- Such a write races nothing. -/
theorem hostMemWrite_of_unowned {s : State} {a : Nat} (v : Byte) (ha : a < s.cfg.memSize)
    (hsrc : s.ownsSrc a = false) (hdst : s.ownsDst a = false) :
    hostMemWrite a v s = .next { s with mem := memWrite s.mem a v, reply := .done } := by
  rcases hostMemWrite_cases a v s with ⟨hge, -⟩ | ⟨-, srcDraw, dstTouched, draws, hn, hkept, hrecord⟩
  · omega
  · obtain ⟨rfl, rfl⟩ := hkept hsrc
    obtain rfl : dstTouched = s.dstTouched := by simpa [hdst] using hrecord
    exact hn

/-- Settles O50: read after write, at the byte written and at every other. -/
theorem hostMemoryAccess : Obligations.HostMemoryAccess := by
  intro s a v hwf ha hsrc hdst
  exact ⟨hostMemRead_of_unowned ha hdst, memWrite s.mem a v, hostMemWrite_of_unowned v ha hsrc hdst,
    memRead_memWrite_same hwf a v, fun b hb => memRead_memWrite_other s.mem v hb⟩

end Sys2Proof.Machine
end

section
/-! The prologue's checks, first failure first (44_control.md R210, 60_exceptions.md R233). -/

namespace Sys2Proof.Machine

/-! ## The first check that fails -/

theorem nbitsBad_eq_false {i : Instr} (h : ∀ n, nbitsOf i = some n → 1 ≤ n ∧ n ≤ 24) : nbitsBad i = false := by
  rw [Bool.eq_false_iff, ne_eq, nbitsBad_iff]
  rintro ⟨n, hn, hbad⟩
  exact hbad (h n hn)

/-- A command that splits blocks has no NBITS. -/
theorem nbitsBad_of_usesBlockMax {i : Instr} (h : usesBlockMax i = true) : nbitsBad i = false := by
  cases i with
  | encode => rfl
  | pencode raw => rfl
  | _ => cases h

/-- The prologue as a chain of checks, each in the words of `Safety`. -/
theorem prologue_eq (i : Instr) (s : State) :
    prologue i s =
      if nbitsBad i = true then some ⟨.badLength, 1#8, 0⟩
      else if usesBlockMax i = true ∧ ¬s.BlockMaxOk then some ⟨.badLength, 2#8, 0⟩
      else if usesSrc i = true ∧ srcLenMax < s.srcLen.toNat then some ⟨.badLength, 3#8, 0⟩
      else if usesSrc i = true ∧ s.cfg.memSize < s.srcAddr.toNat + s.srcLen.toNat then some ⟨.range, 1#8, 0⟩
      else if usesDst i = true ∧ ¬s.DstOk then some ⟨.range, 2#8, 0⟩
      else if usesSrc i = true ∧ usesDst i = true ∧ ¬s.Disjoint then some ⟨.overlap, 0#8, 0⟩
      else none := by
  simp only [prologue, rangeValid, ← rangesOverlap_eq_false, Bool.and_eq_true, Bool.not_eq_true',
    decide_eq_true_eq, decide_eq_false_iff_not, Bool.and_eq_false_imp, Bool.not_eq_false, and_assoc,
    State.BlockMaxOk, State.DstOk, not_and, Nat.not_le, BitVec.ofNat_eq_ofNat]

/-! ## A prologue's fault as the next state -/

theorem runOf_of_prologue {i : Instr} {s : State} {f : FaultReport} (hi : i.format = .cmd)
    (h : prologue i s = some f) : runOf i s = { regs := s, writes := [], fault := some f } := by
  cases i with
  | start ie => cases hi
  | abort ie => cases hi
  | softReset => cases hi
  | _ => exact runCommand_of_some h

/-- Fault entry and nothing else, where the host raced nothing. -/
theorem exec_of_prologue {i : Instr} {s : State} {f : FaultReport} (hi : i.format = .cmd) (hquiet : s.Quiet)
    (h : prologue i s = some f) :
    exec i s = .next
      { s with
        errCode := f.code, errSub := f.sub, errPos := errPosWord f.pos, err := true
        phase := .idle, engineDue := 0, draws := s.draws + 1 } := by
  obtain ⟨hsrc, htouched⟩ := hquiet
  rw [exec_command hi, runOf_of_prologue hi h, Run.finish_of_some rfl]
  simp only [hsrc, htouched, scramble_nil, applyWrites_nil]

/-! ## The ranges and bounds a command has, as lists of commands -/

theorem usesBlockMax_iff {i : Instr} : usesBlockMax i = true ↔ i = .encode ∨ i = .pencode false := by
  cases i <;> simp [usesBlockMax]

theorem usesSrc_iff {i : Instr} :
    usesSrc i = true ↔
      i = .decode ∨ i = .encode ∨ i = .copy ∨ i = .pdecode ∨ (∃ r, i = .pencode r) ∨ ∃ k, i = .brGet k := by
  cases i <;> simp [usesSrc]

theorem usesDst_iff {i : Instr} :
    usesDst i = true ↔
      i = .decode ∨ i = .encode ∨ i = .copy ∨ i = .pdecode ∨ (∃ r, i = .pencode r) ∨
        (∃ k, i = .bwPut k) ∨ i = .bwFlush := by
  cases i <;> simp [usesDst]

/-- Settles O40: each clause walks `prologue_eq` down to the check it names. -/
theorem prologueReportsFirstFailure : Obligations.PrologueReportsFirstFailure := by
  intro i s hi hquiet n blocks src dst faulted
  have hn : n = nbitsOf i := by cases i <;> rfl
  have hblocks : blocks ↔ usesBlockMax i = true := usesBlockMax_iff.symm
  have hsrc : src ↔ usesSrc i = true := usesSrc_iff.symm
  have hdst : dst ↔ usesDst i = true := usesDst_iff.symm
  have report : ∀ (code : FaultCode) (sub : Byte), prologue i s = some ⟨code, sub, 0⟩ →
      exec i s = .next (faulted code sub) := fun _ _ h => exec_of_prologue hi hquiet h
  clear_value n blocks src dst faulted
  rw [hn, hblocks, hsrc, hdst]
  refine ⟨fun hbad => report _ _ ?_, fun hb hbad => report _ _ ?_, fun hnOk hbOk => ?_⟩
  · rw [prologue_eq, if_pos (nbitsBad_iff.2 hbad)]
  · rw [prologue_eq, nbitsBad_of_usesBlockMax hb, if_neg Bool.false_ne_true, if_pos ⟨hb, hbad⟩]
  have hnbits : ¬nbitsBad i = true := by simp [nbitsBad_eq_false hnOk]
  have hblockMax : ¬(usesBlockMax i = true ∧ ¬s.BlockMaxOk) := not_and_not_right.2 hbOk
  refine ⟨fun hs hlong => report _ _ ?_, fun hlenOk => ?_⟩
  · rw [prologue_eq, if_neg hnbits, if_neg hblockMax, if_pos ⟨hs, hlong⟩]
  have hlen : ¬(usesSrc i = true ∧ srcLenMax < s.srcLen.toNat) :=
    fun ⟨hs, hlong⟩ => Nat.not_lt.2 (hlenOk hs) hlong
  refine ⟨fun hs hout => report _ _ ?_, fun hinOk => ?_⟩
  · rw [prologue_eq, if_neg hnbits, if_neg hblockMax, if_neg hlen, if_pos ⟨hs, hout⟩]
  have hsrcIn : ¬(usesSrc i = true ∧ s.cfg.memSize < s.srcAddr.toNat + s.srcLen.toNat) :=
    fun ⟨hs, hout⟩ => Nat.not_lt.2 (hinOk hs) hout
  refine ⟨fun hd hout => report _ _ ?_, fun hdstOk hs hd hshare => report _ _ ?_⟩
  · rw [prologue_eq, if_neg hnbits, if_neg hblockMax, if_neg hlen, if_neg hsrcIn,
      if_pos ⟨hd, Nat.not_le.2 hout⟩]
  · rw [prologue_eq, if_neg hnbits, if_neg hblockMax, if_neg hlen, if_neg hsrcIn,
      if_neg (not_and_not_right.2 hdstOk), if_pos ⟨hs, hd, hshare⟩]

end Sys2Proof.Machine
end

section
/-! The words of the instructions (30_encoding.md R80 to R85): a command word decodes to an instruction exactly when it
is the word of that instruction, a CTRL value by its low four bits. -/

namespace Sys2Proof.Machine

/-! ## Words and rows -/

/-- A word that selects a row is the row's match value with the word's own bits outside the mask. -/
theorem eq_or_of_selects {w mask mtch : Word} (h : selects w mask mtch = true) : w = mtch ||| (w &&& ~~~mask) := by
  have hand : w &&& mask = mtch := by simpa [selects] using h
  rw [← hand, ← BitVec.and_or_distrib_left, BitVec.or_not_self, BitVec.and_allOnes]

/-- A row whose mask is every bit holds one word. -/
theorem eq_of_selects_allOnes {w mtch : Word} (h : selects w 0xFFFFFFFF#32 mtch = true) : mtch = w := by
  rw [eq_or_of_selects h, show ~~~0xFFFFFFFF#32 = 0#32 from rfl, BitVec.and_zero, BitVec.or_zero]

/-- NBITS put back in its place is the word's bits 8:4. -/
theorem nbitsField_shiftLeft (w : Word) : (nbitsField w).zeroExtend 32 <<< 4 = w &&& ~~~0xFFFFFE0F#32 := by
  have hmask : ∀ k < 32, (~~~0xFFFFFE0F#32).getLsbD k = decide (4 ≤ k ∧ k < 9) := by decide
  refine BitVec.eq_of_getLsbD_eq fun k hk => ?_
  rw [BitVec.getLsbD_and, hmask k hk]
  by_cases hlow : 4 ≤ k
  · simp [nbitsField, hk, hlow, show k - 4 < 5 ↔ k < 9 by omega, Bool.and_comm]
  · simp [hk, hlow]

/-- RAW put back in its place is the word's bit 9. -/
theorem rawField_shiftLeft (w : Word) :
    (BitVec.ofBool (rawField w)).zeroExtend 32 <<< 9 = w &&& ~~~0xFFFFFDFF#32 := by
  have hmask : ∀ k < 32, (~~~0xFFFFFDFF#32).getLsbD k = decide (k = 9) := by decide
  refine BitVec.eq_of_getLsbD_eq fun k hk => ?_
  rw [BitVec.getLsbD_and, hmask k hk]
  by_cases hnine : k = 9
  · simp [rawField, hnine]
  · have hout : 9 ≤ k → k - 9 = 0 → rawField w = false := by omega
    simpa [hk, hnine] using hout

/-! ## Decode and encode -/

theorem decodeCommand_encode {i : Instr} (h : i.format = .cmd) : decodeCommand (encode i) = .ok i := by
  cases i with
  | bwPut n => revert n; decide
  | brGet n => revert n; decide
  | pencode raw => cases raw <;> rfl
  | start ie => cases h
  | abort ie => cases h
  | softReset => cases h
  | _ => rfl

theorem decodeCtrl_encode {i : Instr} (h : i.format = .ctrl) : decodeCtrl (encode i) = .ok i := by
  cases i with
  | start ie => cases ie <;> rfl
  | abort ie => cases ie <;> rfl
  | softReset => rfl
  | _ => cases h

/-- The row that answers fixes every bit of the word but those of the operand it reads. -/
theorem encode_of_decodeCommand {w : Word} {i : Instr} (h : decodeCommand w = .ok i) : encode i = w := by
  rw [decodeCommand] at h
  iterate 5
    obtain ⟨hrow, rfl⟩ | ⟨-, h⟩ := ok_of_arm h
    · exact eq_of_selects_allOnes hrow
  obtain ⟨hrow, rfl⟩ | ⟨-, h⟩ := ok_of_arm h
  · rw [encode, rawField_shiftLeft, ← eq_or_of_selects hrow]
  obtain ⟨hrow, rfl⟩ | ⟨-, h⟩ := ok_of_arm h
  · exact eq_of_selects_allOnes hrow
  obtain ⟨hrow, rfl⟩ | ⟨-, h⟩ := ok_of_arm h
  · rw [encode, nbitsField_shiftLeft, ← eq_or_of_selects hrow]
  iterate 2
    obtain ⟨hrow, rfl⟩ | ⟨-, h⟩ := ok_of_arm h
    · exact eq_of_selects_allOnes hrow
  obtain ⟨hrow, rfl⟩ | ⟨-, h⟩ := ok_of_arm h
  · rw [encode, nbitsField_shiftLeft, ← eq_or_of_selects hrow]
  split at h <;> cases h

/-- A command word stands for an instruction exactly when it is the word of that command (30_encoding.md R82). -/
theorem decodeCommand_eq_ok {w : Word} {i : Instr} : decodeCommand w = .ok i ↔ i.format = .cmd ∧ encode i = w := by
  constructor
  · exact fun h => ⟨decodeCommand_format h, encode_of_decodeCommand h⟩
  · rintro ⟨hi, rfl⟩
    exact decodeCommand_encode hi

/-- Settles O1: per instruction in its own format, and per row of the decoder. -/
theorem decodeEncodeRoundTrip : Obligations.DecodeEncodeRoundTrip := by
  refine ⟨fun i => ?_, fun w i => decodeCommand_eq_ok.1⟩
  cases hi : i.format with
  | cmd => exact decodeCommand_encode hi
  | ctrl => exact decodeCtrl_encode hi

/-! ## Legal words -/

theorem encode_pencode_toNat (raw : Bool) : (encode (.pencode raw)).toNat = 5 + raw.toNat * 2 ^ 9 := by
  cases raw <;> rfl

theorem encode_bwPut_toNat (n : BitVec 5) : (encode (.bwPut n)).toNat = 7 + n.toNat * 2 ^ 4 := by
  revert n; decide

theorem encode_brGet_toNat (n : BitVec 5) : (encode (.brGet n)).toNat = 10 + n.toNat * 2 ^ 4 := by
  revert n; decide

/-- 30_encoding.md R82 on the bits of a word: OP is that of a command, and every field that OP does not use is 0. -/
def LegalBits (w : Word) : Prop :=
  w.toNat % 16 ≤ 0xA ∧ w.toNat / 2 ^ 10 = 0 ∧
    (w.toNat % 16 ≠ 7 → w.toNat % 16 ≠ 0xA → w.toNat / 2 ^ 4 % 32 = 0) ∧
    (w.toNat % 16 ≠ 5 → w.toNat / 2 ^ 9 % 2 = 0)

theorem legalBits_encode {i : Instr} (h : i.format = .cmd) : LegalBits (encode i) := by
  cases i with
  | pencode raw =>
    have hraw := raw.toNat_lt
    simp only [LegalBits, encode_pencode_toNat]
    omega
  | bwPut n =>
    have hn := n.isLt
    simp only [LegalBits, encode_bwPut_toNat]
    omega
  | brGet n =>
    have hn := n.isLt
    simp only [LegalBits, encode_brGet_toNat]
    omega
  | start ie => cases h
  | abort ie => cases h
  | softReset => cases h
  | _ => exact ⟨by decide, by decide, by decide, by decide⟩

/-- The command of each opcode, with its operand taken from the word's own bits. -/
theorem exists_encode_eq_of_legalBits {w : Word} (h : LegalBits w) :
    ∃ i : Instr, i.format = .cmd ∧ encode i = w := by
  obtain ⟨hop, htop, hnbits, hraw⟩ := h
  have hword (i : Instr) (hi : i.format = .cmd) (heq : (encode i).toNat = w.toNat) :
      ∃ i : Instr, i.format = .cmd ∧ encode i = w := ⟨i, hi, BitVec.eq_of_toNat_eq heq⟩
  interval_cases hcode : w.toNat % 16
  · exact hword .nop rfl (show 0 = w.toNat by omega)
  · exact hword .decode rfl (show 1 = w.toNat by omega)
  · exact hword .encode rfl (show 2 = w.toNat by omega)
  · exact hword .copy rfl (show 3 = w.toNat by omega)
  · exact hword .pdecode rfl (show 4 = w.toNat by omega)
  · refine hword (.pencode (rawField w)) rfl ?_
    have hbit : (rawField w).toNat = w.toNat / 2 ^ 9 % 2 := by
      simp [rawField, BitVec.getLsbD, Nat.toNat_testBit]
    rw [encode_pencode_toNat, hbit]
    omega
  · exact hword .bwReset rfl (show 6 = w.toNat by omega)
  · refine hword (.bwPut (nbitsField w)) rfl ?_
    rw [encode_bwPut_toNat, nbitsField, BitVec.extractLsb'_toNat, Nat.shiftRight_eq_div_pow]
    omega
  · exact hword .bwFlush rfl (show 8 = w.toNat by omega)
  · exact hword .brReset rfl (show 9 = w.toNat by omega)
  · refine hword (.brGet (nbitsField w)) rfl ?_
    rw [encode_brGet_toNat, nbitsField, BitVec.extractLsb'_toNat, Nat.shiftRight_eq_div_pow]
    omega

theorem exists_decodeCommand_eq_ok {w : Word} : (∃ i, decodeCommand w = .ok i) ↔ LegalBits w := by
  simp only [decodeCommand_eq_ok]
  constructor
  · rintro ⟨i, hi, rfl⟩
    exact legalBits_encode hi
  · exact exists_encode_eq_of_legalBits

/-! ## Illegal words as the block meets them -/

theorem decodeCommand_eq_error_of_ne_ok {w : Word} (h : ∀ i, decodeCommand w ≠ .ok i) :
    ∃ e, decodeCommand w = .error e := by
  cases hd : decodeCommand w with
  | ok i => exact absurd hd (h i)
  | error e => exact ⟨e, rfl⟩

/-- A run that only faults, where the host raced nothing: fault entry, and the model's own record of the command. -/
theorem faultRun_finish_of_quiet {s : State} (hquiet : s.Quiet) (code : FaultCode) (sub : Byte) (pos : Nat) :
    (faultRun s code sub pos).finish =
      { s with
        errCode := code, errSub := sub, errPos := errPosWord pos, err := true, phase := .idle
        engineDue := 0, draws := s.draws + 1 } := by
  obtain ⟨hsrc, htouched⟩ := hquiet
  rw [Run.finish_of_some rfl]
  simp only [faultRun, hsrc, htouched, scramble_nil, applyWrites_nil]

/-- Settles O2: the legal words are those of the commands, START reads no word, and the engine's step on an illegal one
is a run that only faults. -/
theorem illegalWordFaultsBadOpcode : Obligations.IllegalWordFaultsBadOpcode := by
  intro w
  refine ⟨exists_decodeCommand_eq_ok, fun hillegal =>
    ⟨fun ie s hidle hcmd => ?_, fun s hturn hquiet hlatch => ?_⟩⟩
  · have haccept : exec (.start ie) s = .next (s.setIrqEn ie).accept := if_neg (by simp [hidle])
    exact ⟨(s.setIrqEn ie).accept, haccept, rfl, hcmd, rfl, rfl⟩
  · obtain ⟨e, he⟩ := decodeCommand_eq_error_of_ne_ok hillegal
    calc step s = s.engineStep := step_of_engine hturn
      _ = .next (faultRun s .badOpcode 0 0).finish := State.engineStep_illegal (hlatch ▸ he)
      _ = _ := by rw [faultRun_finish_of_quiet hquiet, errPosWord_zero]; rfl

/-! ## CTRL values -/

/-- Bits 31:4 of a CTRL value take no part (30_encoding.md R85). -/
theorem decodeCtrl_and_low (v : Word) : decodeCtrl (v &&& 0xF#32) = decodeCtrl v := by
  have hirq : irqEnField (v &&& 0xF#32) = irqEnField v := by simp [irqEnField]
  simp only [decodeCtrl, selects, BitVec.and_assoc, hirq]
  rfl

theorem and_low_eq_setWidth (v : Word) : v &&& 0xF#32 = (v.setWidth 4).setWidth 32 := by
  have hmask : ∀ k < 32, (0xF#32).getLsbD k = decide (k < 4) := by decide
  refine BitVec.eq_of_getLsbD_eq fun k hk => ?_
  rw [BitVec.getLsbD_and, hmask k hk]
  simp [hk, Bool.and_comm]

/-- The action by its bits, SOFT_RESET before ABORT before START (30_encoding.md R85): one of 16 nibbles. -/
theorem decodeCtrl_eq (v : Word) :
    decodeCtrl v =
      if v.getLsbD 2 then .ok .softReset
      else if v.getLsbD 1 then .ok (.abort (v.getLsbD 3))
      else if v.getLsbD 0 then .ok (.start (v.getLsbD 3))
      else .error .noAction := by
  have hnibble : ∀ x : BitVec 4, decodeCtrl (x.setWidth 32) =
      if x.getLsbD 2 then .ok .softReset
      else if x.getLsbD 1 then .ok (.abort (x.getLsbD 3))
      else if x.getLsbD 0 then .ok (.start (x.getLsbD 3))
      else .error .noAction := by decide
  have hbit : ∀ k < 4, (v.setWidth 4).getLsbD k = v.getLsbD k := fun k hk => by simp [hk]
  rw [← decodeCtrl_and_low, and_low_eq_setWidth, hnibble, hbit 0 (by decide), hbit 1 (by decide), hbit 2 (by decide),
    hbit 3 (by decide)]

/-- Settles O3: the branches of `decodeCtrl_eq`, and what a CTRL write does where none of them acts. -/
theorem ctrlActionPriority : Obligations.CtrlActionPriority := by
  refine ⟨fun v hreset => ?_, fun v hreset habort => ?_, fun v hreset habort hstart => ?_,
    fun v s hreset habort hstart => ?_⟩
  · rw [decodeCtrl_eq, if_pos hreset]
  · rw [decodeCtrl_eq, hreset, habort]; rfl
  · rw [decodeCtrl_eq, hreset, habort, hstart]; rfl
  · have hnone : decodeCtrl v = .error .noAction := by rw [decodeCtrl_eq, hreset, habort, hstart]; rfl
    calc writeRegister .ctrl v s = writeCtrl v s := if_pos rfl
      _ = .next { s with irqEn := v.getLsbD 3 } := by rw [writeCtrl, hnone]; rfl

/-- Settles O4: the command words and START are those the encoder gives, and 0x7 has the SOFT_RESET bit. -/
theorem sampleWordsDecode : Obligations.SampleWordsDecode :=
  ⟨decodeCommand_encode (i := .decode) rfl, decodeCommand_encode (i := .pencode true) rfl,
    decodeCommand_encode (i := .bwPut 24#5) rfl, decodeCommand_encode (i := .brGet 9#5) rfl,
    decodeCtrl_encode (i := .start true) rfl, ctrlActionPriority.1 0x7#32 rfl⟩

end Sys2Proof.Machine
end


section
/-! What follows the last bit a Decode consumes has no effect on it (30_encoding.md R93, 42_block_codec.md R165): a part
of Decode that succeeds does the same on every stream that holds the bits it read. -/

namespace Sys2Proof.Machine

/-! ## Streams with the same first bits -/

/-- `u` is at least `p` bits long and holds the first `p` bits of `t`. -/
def Stream.Holds (u t : Stream) (p : Nat) : Prop := p ≤ 8 * u.len ∧ ∀ i < p, u.bit i = t.bit i

theorem Stream.Holds.long {u t : Stream} {p : Nat} (h : u.Holds t p) : p ≤ 8 * u.len := h.1

theorem Stream.Holds.bits {u t : Stream} {p : Nat} (h : u.Holds t p) : ∀ i < p, u.bit i = t.bit i := h.2

theorem Stream.Holds.mono {u t : Stream} {p q : Nat} (h : u.Holds t q) (hpq : p ≤ q) : u.Holds t p :=
  ⟨hpq.trans h.long, fun i hi => h.bits i (hi.trans_le hpq)⟩

theorem Stream.Holds.field {u t : Stream} {p pos n : Nat} (h : u.Holds t p) (hp : pos + n ≤ p) :
    u.field pos n = t.field pos n :=
  Stream.field_congr fun k hk => h.bits (pos + k) (by omega)

/-! ## Each part of a block -/

theorem Decoding.Ends.of_ok {P : Cursor → Prop} {r : Decoding} {c : Cursor} (h : r.Ends P) (hok : r = .ok c) :
    P c := by
  subst hok
  exact h

theorem readCount_of_holds {t u : Stream} {T l : Nat} {c d : Cursor} (hok : readCount t T c = .ok (l, d))
    (h : u.Holds t d.brPos) : readCount u T c = .ok (l, d) := by
  obtain ⟨-, hl, hle, rfl⟩ := readCount_eq_ok.1 hok
  exact readCount_eq_ok.2 ⟨h.long, hl.trans (h.field (Nat.le_refl _)).symm, hle, rfl⟩

theorem readShortClt_of_holds {t u : Stream} {c d : Cursor} (hok : readShortClt t c = .ok d)
    (h : u.Holds t d.brPos) : readShortClt u c = .ok d := by
  obtain ⟨-, rfl⟩ := readShortClt_eq_ok.1 hok
  have hlen : u.field c.brPos 4 = t.field c.brPos 4 := h.field (Nat.le_refl _)
  exact readShortClt_eq_ok.2 ⟨h.long, by rw [hlen]⟩

theorem readFullClt_of_holds {t u : Stream} {c d : Cursor} (hok : readFullClt t c = .ok d)
    (h : u.Holds t d.brPos) : readFullClt u c = .ok d := by
  obtain ⟨-, rfl⟩ := readFullClt_eq_ok.1 hok
  have hlens : ((List.range 19).map fun i => u.field (c.brPos + 4 * i) 4) =
      (List.range 19).map fun i => t.field (c.brPos + 4 * i) 4 :=
    List.map_congr_left fun i hi => by
      have := List.mem_range.1 hi
      exact h.field (show c.brPos + 4 * i + 4 ≤ c.brPos + 76 by omega)
  exact readFullClt_eq_ok.2 ⟨h.long, by rw [hlens]⟩

theorem readDescriptor_of_holds {t u : Stream} {c d : Cursor} (hok : readDescriptor t c = .ok d)
    (h : u.Holds t d.brPos) : readDescriptor u c = .ok d := by
  obtain ⟨-, hform⟩ := readDescriptor_eq_ok.1 hok
  have hpos : c.brPos + 1 ≤ d.brPos := by
    cases hb : t.bit c.brPos
    · rw [hb, if_neg Bool.false_ne_true] at hform
      exact ((readFullClt_ends t _).of_ok hform).pos
    · rw [hb, if_pos rfl] at hform
      exact ((readShortClt_ends t _).of_ok hform).pos
  refine readDescriptor_eq_ok.2 ⟨hpos.trans h.long, ?_⟩
  rw [h.bits c.brPos hpos]
  split_ifs at hform ⊢
  · exact readShortClt_of_holds hform h
  · exact readFullClt_of_holds hform h

theorem readClt_of_holds {t u : Stream} {c d : Cursor} (hok : readClt t c = .ok d) (h : u.Holds t d.brPos) :
    readClt u c = .ok d := by
  obtain ⟨hdesc, hcode⟩ := readClt_eq_ok.1 hok
  exact readClt_eq_ok.2 ⟨readDescriptor_of_holds hdesc h, hcode⟩

theorem readLitTable_of_holds {t u : Stream} {c d : Cursor} (hok : readLitTable t c = .ok d)
    (h : u.Holds t d.brPos) : readLitTable u c = .ok d := by
  obtain ⟨n, hn, hmax, -, rfl⟩ := readLitTable_eq_ok.1 hok
  have hcount : u.field c.brPos 9 = t.field c.brPos 9 :=
    h.field (show c.brPos + 9 ≤ c.brPos + 9 + 4 * n by omega)
  have hdepths : ((List.range n).map fun i => u.field (c.brPos + 9 + 4 * i) 4 + 2) =
      (List.range n).map fun i => t.field (c.brPos + 9 + 4 * i) 4 + 2 :=
    List.map_congr_left fun i hi => by
      have := List.mem_range.1 hi
      rw [h.field (show c.brPos + 9 + 4 * i + 4 ≤ c.brPos + 9 + 4 * n by omega)]
  exact readLitTable_eq_ok.2 ⟨n, hn.trans hcount.symm, hmax, h.long, by rw [hdepths]⟩

/-! ## The walk and the literals -/

theorem descend_node_eq_ok {t : Stream} {z o : Trie} {pos s p : Nat} :
    descend t (.node z o) pos = (.ok s, p) ↔
      pos + 1 ≤ 8 * t.len ∧ descend t (if t.bit pos then o else z) (pos + 1) = (.ok s, p) := by
  by_cases hle : pos + 1 ≤ 8 * t.len
  · simp only [descend_node hle, hle, true_and]
  · rw [descend, Stream.get_of_lt (Nat.not_le.1 hle)]
    simp [hle]

theorem le_of_descend_eq_ok {t : Stream} {tree : Trie} {pos s p : Nat} (h : descend t tree pos = (.ok s, p)) :
    pos ≤ p := by
  rcases descend_cases t tree pos with ⟨s', n, h'⟩ | ⟨n, h'⟩ | ⟨n, h', -⟩
  · cases h.symm.trans h'
    exact Nat.le_add_right pos n
  · cases h.symm.trans h'
  · cases h.symm.trans h'

theorem descend_of_holds {t u : Stream} {tree : Trie} {pos s p : Nat} (hok : descend t tree pos = (.ok s, p))
    (h : u.Holds t p) : descend u tree pos = (.ok s, p) := by
  induction tree generalizing pos with
  | absent => exact hok
  | leaf s' => exact hok
  | node z o ihz iho =>
    obtain ⟨-, hnext⟩ := descend_node_eq_ok.1 hok
    have hpos : pos + 1 ≤ p := le_of_descend_eq_ok hnext
    refine descend_node_eq_ok.2 ⟨hpos.trans h.long, ?_⟩
    rw [h.bits pos hpos]
    split_ifs at hnext ⊢
    · exact iho hnext
    · exact ihz hnext

/-- A walk that finds a symbol starts at an internal node (41_huffman.md R147). -/
theorem walk_eq_ok {t : Stream} {tree : Trie} {pos s p : Nat} :
    walk t tree pos = (.ok s, p) ↔ (∃ z o, tree = .node z o) ∧ descend t tree pos = (.ok s, p) := by
  cases tree with
  | node z o => simp [walk]
  | absent => cases h : t.get pos 1 <;> simp [walk, h]
  | leaf s' => cases h : t.get pos 1 <;> simp [walk, h]

theorem walk_of_holds {t u : Stream} {tree : Trie} {pos s p : Nat} (hok : walk t tree pos = (.ok s, p))
    (h : u.Holds t p) : walk u tree pos = (.ok s, p) := by
  obtain ⟨hnode, hdescend⟩ := walk_eq_ok.1 hok
  exact walk_eq_ok.2 ⟨hnode, descend_of_holds hdescend h⟩

theorem decodeLiterals_succ_eq_ok {t : Stream} {l : Nat} {c d : Cursor} :
    decodeLiterals t (l + 1) c = .ok d ↔
      ∃ s pos, walk t c.tree c.brPos = (.ok s, pos) ∧ s < 0x100 ∧
        decodeLiterals t l
          { c with brPos := pos, produced := c.produced + 1, outRev := BitVec.ofNat 8 s :: c.outRev } = .ok d := by
  rw [decodeLiterals]
  obtain ⟨r, pos⟩ := walk t c.tree c.brPos
  cases r with
  | error f => simp
  | ok s =>
    simp only [Prod.mk.injEq, Except.ok.injEq]
    split_ifs with hs
    · simp only [false_iff]
      rintro ⟨s', pos', ⟨rfl, rfl⟩, hlt, -⟩
      omega
    · constructor
      · exact fun h => ⟨s, pos, ⟨rfl, rfl⟩, Nat.not_le.1 hs, h⟩
      · rintro ⟨s', pos', ⟨rfl, rfl⟩, -, h⟩
        exact h

theorem decodeLiterals_of_holds {t u : Stream} {l : Nat} {c d : Cursor} (hok : decodeLiterals t l c = .ok d)
    (h : u.Holds t d.brPos) : decodeLiterals u l c = .ok d := by
  induction l generalizing c with
  | zero => exact hok
  | succ l ih =>
    obtain ⟨s, pos, hwalk, hs, hrest⟩ := decodeLiterals_succ_eq_ok.1 hok
    have hpos : pos ≤ d.brPos := ((decodeLiterals_ends t l _).1.of_ok hrest).pos
    exact decodeLiterals_succ_eq_ok.2 ⟨s, pos, walk_of_holds hwalk (h.mono hpos), hs, ih hrest⟩

/-! ## Blocks -/

/-- The position only moves forward, so each part ends within the bits that the streams share. -/
theorem decodeBlock_of_holds {order : CodeBitOrder} {t u : Stream} {T : Nat} {c d : Cursor}
    (hok : decodeBlock order t T c = .ok d) (h : u.Holds t d.brPos) : decodeBlock order u T c = .ok d := by
  obtain ⟨l, c1, c2, c3, c4, hcount, hclt, hlit, htree, hlits⟩ := decodeBlock_eq_ok.1 hok
  have h2 : c1.brPos ≤ c2.brPos := ((readClt_ends t c1).of_ok hclt).pos
  have h3 : c2.brPos ≤ c3.brPos := ((readLitTable_ends t c2).of_ok hlit).pos
  have h4 : c3.brPos ≤ c4.brPos := ((placeTree_ends order t c3).of_ok htree).pos
  have h5 : c4.brPos ≤ d.brPos := ((decodeLiterals_ends t l c4).1.of_ok hlits).pos
  exact decodeBlock_eq_ok.2 ⟨l, c1, c2, c3, c4, readCount_of_holds hcount (h.mono (by omega)),
    readClt_of_holds hclt (h.mono (by omega)), readLitTable_of_holds hlit (h.mono (by omega)), htree,
    decodeLiterals_of_holds hlits h⟩

theorem decodeBlocks_of_done {order : CodeBitOrder} {t : Stream} {T : Nat} {c : Cursor} (fuel : Nat)
    (h : T ≤ c.produced) : decodeBlocks order t T fuel c = .ok c := by
  cases fuel with
  | zero => exact if_neg (Nat.not_lt.2 h)
  | succ fuel => exact if_neg (Nat.not_lt.2 h)

theorem decodeBlocks_succ_eq_ok {order : CodeBitOrder} {t : Stream} {T fuel : Nat} {c d : Cursor}
    (h : c.produced < T) :
    decodeBlocks order t T (fuel + 1) c = .ok d ↔
      ∃ e, decodeBlock order t T c = .ok e ∧ decodeBlocks order t T fuel e = .ok d := by
  rw [decodeBlocks, if_pos h]
  cases hb : decodeBlock order t T c with
  | error p => simp [bind, Except.bind]
  | ok e => simp [bind, Except.bind]

/-- Every block moves the position, so as much fuel as there are bits left suffices. -/
theorem decodeBlocks_of_holds {order : CodeBitOrder} {t u : Stream} {T fuel : Nat} {c d : Cursor}
    (hok : decodeBlocks order t T fuel c = .ok d) (h : u.Holds t d.brPos) {fuel' : Nat}
    (hfuel : d.brPos < c.brPos + fuel') : decodeBlocks order u T fuel' c = .ok d := by
  induction fuel generalizing c fuel' with
  | zero =>
    rw [decodeBlocks] at hok
    split_ifs at hok with hlt
    cases hok
    exact decodeBlocks_of_done fuel' (Nat.not_lt.1 hlt)
  | succ fuel ih =>
    by_cases hlt : c.produced < T
    · obtain ⟨e, hblock, hrest⟩ := (decodeBlocks_succ_eq_ok hlt).1 hok
      have hmoved : c.brPos + 16 ≤ e.brPos := (decodeBlock_ends order t T c).2 e hblock
      have hpos : e.brPos ≤ d.brPos := ((decodeBlocks_ends order t T fuel e).of_ok hrest).pos
      obtain ⟨k, rfl⟩ : ∃ k, fuel' = k + 1 := ⟨fuel' - 1, by omega⟩
      exact (decodeBlocks_succ_eq_ok hlt).2
        ⟨e, decodeBlock_of_holds hblock (h.mono hpos), ih hrest (by omega)⟩
    · rw [decodeBlocks_of_done _ (Nat.not_lt.1 hlt)] at hok
      cases hok
      exact decodeBlocks_of_done fuel' (Nat.not_lt.1 hlt)

/-- Settles O27: the other stream holds the bits consumed, and its fuel exceeds their number. -/
theorem decodeIgnoresWhatFollows : Obligations.DecodeIgnoresWhatFollows := by
  intro order t t' T c c' hok hlong hbits
  exact decodeBlocks_of_holds hok ⟨hlong, hbits⟩ (show c'.brPos < c.brPos + (8 * t'.len + 1) by omega)

end Sys2Proof.Machine
end

section
/-! The bit stream round trip (40_bitstream.md R121 to R125): the bits a stream holds from a position on, what a sequence
of Puts adds to them, and what a sequence of Gets reads back. -/

namespace Sys2Proof.Machine

/-! ## A stream that carries given bits -/

/-- The stream has the bits `bs` from position `pos` on, all of them before its end. -/
def Stream.Carries (t : Stream) (pos : Nat) (bs : List Bool) : Prop :=
  pos + bs.length ≤ 8 * t.len ∧ ∀ k < bs.length, t.bit (pos + k) = bs.getD k false

theorem Stream.Carries.left {t : Stream} {pos : Nat} {xs ys : List Bool} (h : t.Carries pos (xs ++ ys)) :
    t.Carries pos xs := by
  obtain ⟨hlen, hbit⟩ := h
  rw [List.length_append] at hlen hbit
  exact ⟨by omega, fun k hk => by rw [hbit k (by omega), List.getD_append _ _ _ _ hk]⟩

theorem Stream.Carries.right {t : Stream} {pos : Nat} {xs ys : List Bool} (h : t.Carries pos (xs ++ ys)) :
    t.Carries (pos + xs.length) ys := by
  obtain ⟨hlen, hbit⟩ := h
  rw [List.length_append] at hlen hbit
  refine ⟨by omega, fun k hk => ?_⟩
  rw [Nat.add_assoc, hbit _ (by omega), List.getD_append_right _ _ _ _ (Nat.le_add_right _ _),
    Nat.add_sub_cancel_left]

/-- Get reads back the field whose bits the stream carries (40_bitstream.md R123). -/
theorem Stream.Carries.get {t : Stream} {pos v n : Nat} (h : t.Carries pos (natBits v n)) :
    t.get pos n = .ok (v % 2 ^ n) := by
  obtain ⟨hlen, hbit⟩ := h
  rw [natBits_length] at hlen hbit
  rw [Stream.get_of_le hlen, Stream.field_eq_mod fun k hk => (hbit k hk).trans (natBits_getD hk)]

theorem Stream.carries_ofBytes (bs : List Byte) : (Stream.ofBytes bs).Carries 0 (bs.flatMap byteBits) := by
  refine ⟨by rw [flatMap_byteBits_length, Nat.zero_add]; rfl, fun k hk => ?_⟩
  rw [flatMap_byteBits_length] at hk
  rw [Nat.zero_add, Stream.ofBytes_bit hk]

/-- The flushed bytes carry every bit put (40_bitstream.md R122). -/
theorem Writer.Ok.carries_flush {w : Writer} (h : w.Ok) : (Stream.ofBytes w.flush.out).Carries 0 w.bits := by
  obtain ⟨pad, -, hflush⟩ := Writer.flush_bits h
  exact Stream.Carries.left (hflush ▸ Stream.carries_ofBytes w.flush.out)

/-! ## Fields in a row -/

/-- The bits of a list of fields, each a value with its width. -/
def fieldBits (fields : List (Nat × Nat)) : List Bool := fields.flatMap fun f => natBits f.1 f.2

@[simp] theorem fieldBits_nil : fieldBits [] = [] := rfl

@[simp] theorem fieldBits_cons (f : Nat × Nat) (fields : List (Nat × Nat)) :
    fieldBits (f :: fields) = natBits f.1 f.2 ++ fieldBits fields := rfl

/-- The writer after a `Put` of each field. -/
def Writer.putFields (fields : List (Nat × Nat)) (w : Writer) : Writer :=
  fields.foldl (fun w f => w.put f.1 f.2) w

@[simp] theorem Writer.putFields_nil (w : Writer) : w.putFields [] = w := rfl

@[simp] theorem Writer.putFields_cons (f : Nat × Nat) (fields : List (Nat × Nat)) (w : Writer) :
    w.putFields (f :: fields) = (w.put f.1 f.2).putFields fields := rfl

theorem Writer.Ok.putFields {w : Writer} (h : w.Ok) (fields : List (Nat × Nat)) : (w.putFields fields).Ok := by
  induction fields generalizing w with
  | nil => exact h
  | cons f fields ih => exact ih (h.put f.1 f.2)

/-- A sequence of Puts appends the fields' bits in order (40_bitstream.md R121). -/
theorem Writer.Ok.bits_putFields {w : Writer} (h : w.Ok) (fields : List (Nat × Nat)) :
    (w.putFields fields).bits = w.bits ++ fieldBits fields := by
  induction fields generalizing w with
  | nil => simp
  | cons f fields ih =>
    have hput : (w.put f.1 f.2).bits = w.bits ++ natBits f.1 f.2 := Writer.bits_put h.2 f.1 f.2
    rw [Writer.putFields_cons, ih (h.put f.1 f.2), hput, fieldBits_cons, List.append_assoc]

/-- The values read so far and the position, after a `Get` of one more width. -/
def Stream.getField (t : Stream) (r : List Nat × Nat) (n : Nat) : Except FaultReport (List Nat × Nat) := do
  let v ← t.get r.2 n
  pure (r.1 ++ [v], r.2 + n)

theorem Stream.getField_of_get {t : Stream} {vals : List Nat} {pos n v : Nat} (h : t.get pos n = .ok v) :
    t.getField (vals, pos) n = .ok (vals ++ [v], pos + n) := by
  rw [Stream.getField, h]
  rfl

/-- A sequence of Gets reads back the fields whose bits the stream carries (40_bitstream.md R123, R125). -/
theorem Stream.Carries.foldlM_getField {t : Stream} {fields : List (Nat × Nat)} {pos : Nat}
    (h : t.Carries pos (fieldBits fields)) (vals : List Nat) :
    fields.foldlM (fun r f => t.getField r f.2) (vals, pos) =
      .ok (vals ++ fields.map fun f => f.1 % 2 ^ f.2, pos + (fields.map Prod.snd).sum) := by
  induction fields generalizing vals pos with
  | nil => simp [pure, Except.pure]
  | cons f fields ih =>
    rw [fieldBits_cons] at h
    have hrest : t.Carries (pos + f.2) (fieldBits fields) := natBits_length f.1 f.2 ▸ h.right
    rw [List.foldlM_cons, Stream.getField_of_get h.left.get]
    refine (ih hrest _).trans ?_
    simp [Nat.add_assoc]

/-- Settles O10: the flushed bytes carry the fields' bits in order. No bound on the widths is needed: these are the
unbounded numbers of 00_scope.md R9. -/
theorem bitStreamRoundTrip : Obligations.BitStreamRoundTrip := by
  intro fields _ out t
  have hok : (Writer.new.putFields fields).Ok := Writer.ok_new.putFields fields
  have hbits : (Writer.new.putFields fields).bits = fieldBits fields := Writer.ok_new.bits_putFields fields
  have hcarries : t.Carries 0 (fieldBits fields) := hbits ▸ hok.carries_flush
  exact (hcarries.foldlM_getField []).trans (by rw [List.nil_append, Nat.zero_add])

/-- Settles O9. Only the accumulator bound needs the writer below its count. -/
theorem putKeepsWriter : Obligations.PutKeepsWriter := fun v n w _ hacc =>
  ⟨Writer.put_cnt w v n, Writer.put_acc_lt hacc v n, Writer.put_out_length w v n⟩

end Sys2Proof.Machine
end

section
/-! The five bit-stream commands and NOP as next states (40_bitstream.md R126 to R130, 44_control.md R212), where the host
raced nothing. Each command is its prologue, let through, and its body on either side of its one check. -/

namespace Sys2Proof.Machine

/-! ## Prologues let through -/

theorem prologue_bwPut {n : BitVec 5} {s : State} (hdst : s.DstOk) (hn : 1 ≤ n.toNat ∧ n.toNat ≤ 24) :
    prologue (.bwPut n) s = none :=
  prologue_eq_none.2 ⟨by rintro _ ⟨⟩; exact hn, nofun, nofun, fun _ => hdst, nofun⟩

theorem prologue_bwFlush {s : State} (hdst : s.DstOk) : prologue .bwFlush s = none :=
  prologue_eq_none.2 ⟨nofun, nofun, nofun, fun _ => hdst, nofun⟩

theorem prologue_brGet {n : BitVec 5} {s : State} (hsrc : s.SrcOk) (hn : 1 ≤ n.toNat ∧ n.toNat ≤ 24) :
    prologue (.brGet n) s = none :=
  prologue_eq_none.2 ⟨by rintro _ ⟨⟩; exact hn, nofun, fun _ => hsrc, nofun, nofun⟩

/-- A command without operands has nothing to check. -/
theorem prologue_of_no_operands {i : Instr} (s : State) (hn : nbitsOf i = none) (hblocks : usesBlockMax i = false)
    (hsrc : usesSrc i = false) (hdst : usesDst i = false) : prologue i s = none := by
  rw [prologue_eq_none, hn, hblocks, hsrc, hdst]
  exact ⟨nofun, nofun, nofun, nofun, nofun⟩

/-! ## Next states of runs that write no byte -/

/-- A run that only sets registers: completion, and the model's own record of the command. -/
theorem exec_of_quietRun {i : Instr} {s t : State} (hi : i.format = .cmd) (hrun : runOf i s = quietRun t)
    (hquiet : t.Quiet) :
    exec i s = .next { t with done := true, phase := .idle, engineDue := 0, draws := t.draws + 1 } := by
  rw [exec_command hi, hrun, Run.finish_of_quiet rfl hquiet]
  rfl

/-- A run that only faults: fault entry, and the model's own record of the command. -/
theorem exec_of_faultRun {i : Instr} {s : State} {code : FaultCode} {sub : Byte} {pos : Nat}
    (hi : i.format = .cmd) (hrun : runOf i s = faultRun s code sub pos) (hquiet : s.Quiet) :
    exec i s = .next
      { s with
        errCode := code, errSub := sub, errPos := errPosWord pos, err := true, phase := .idle
        engineDue := 0, draws := s.draws + 1 } := by
  rw [exec_command hi, hrun, faultRun_finish_of_quiet hquiet]

/-! ## NOP and the cursor resets -/

theorem runOf_nop (s : State) : runOf .nop s = quietRun s :=
  runCommand_of_none (prologue_of_no_operands (i := .nop) s rfl rfl rfl rfl)

theorem runOf_bwReset (s : State) :
    runOf .bwReset s = quietRun { s with bwAcc := 0#32, bwCnt := 0#5, outLen := 0#32 } :=
  runCommand_of_none (prologue_of_no_operands (i := .bwReset) s rfl rfl rfl rfl)

theorem runOf_brReset (s : State) : runOf .brReset s = quietRun { s with brPos := 0#32 } :=
  runCommand_of_none (prologue_of_no_operands (i := .brReset) s rfl rfl rfl rfl)

/-- Settles O11: none of the three has an operand to check, and each run only sets registers. -/
theorem nopAndCursorResetsComplete : Obligations.NopAndCursorResetsComplete := fun s hquiet =>
  ⟨exec_of_quietRun rfl (runOf_nop s) hquiet, exec_of_quietRun rfl (runOf_bwReset s) hquiet,
    exec_of_quietRun rfl (runOf_brReset s) hquiet⟩

/-! ## The writer's commands with room -/

/-- The bytes a BW_FLUSH emits: one where bits remain (40_bitstream.md R122). -/
theorem Writer.flush_out (w : Writer) :
    w.flush.out = if 0 < w.cnt then w.out ++ [BitVec.ofNat 8 w.acc] else w.out := by
  unfold Writer.flush Writer.out
  split_ifs
  · exact List.reverse_cons
  · rfl

/-- The bytes a BW_FLUSH will emit. -/
def flushEmits (s : State) : Nat := if 0 < s.bwCnt.toNat then 1 else 0

theorem State.flush_out_length (s : State) : s.writer.flush.out.length = flushEmits s := by
  rw [Writer.flush_out, flushEmits]
  exact apply_ite List.length (0 < s.bwCnt.toNat) [BitVec.ofNat 8 s.bwAcc.toNat] []

/-- BW_FLUSH with room for its byte. -/
theorem runOf_bwFlush_of_room {s : State} (hdst : s.DstOk) (hroom : s.outLen.toNat + flushEmits s ≤ s.dstCap.toNat) :
    runOf .bwFlush s =
      { regs := { s with
          bwAcc := 0#32, bwCnt := 0#5, outLen := BitVec.ofNat 32 (s.outLen.toNat + flushEmits s) }
        writes := cellsAt (s.dstAddr.toNat + s.outLen.toNat) s.writer.flush.out
        fault := none } :=
  (runCommand_of_none (prologue_bwFlush hdst)).trans (if_neg (Nat.not_lt.2 hroom))

/-- Settles O12: from a legal writer the registers and bytes are those of `Writer.put_eq`. -/
theorem bwPutAppendsBits : Obligations.BwPutAppendsBits := by
  intro n s hquiet hwf hdst hwriter hn1 hn24 hroom e total base
  have hok : s.writer.Ok := State.writer_ok hwriter
  have hput : putWriter n.toNat s = s.writer.put s.arg.toNat n.toNat := putWriter_of_ok hn24 hok
  have hacc : (putWriter n.toNat s).acc = total / 2 ^ (8 * e) := by rw [hput, Writer.put_eq hok.2]; rfl
  have hcnt : (putWriter n.toNat s).cnt = (s.bwCnt.toNat + n.toNat) % 8 := by rw [hput, Writer.put_cnt]; rfl
  have hout : (putWriter n.toNat s).out = (List.range e).map fun k => BitVec.ofNat 8 (total / 2 ^ (8 * k)) := by
    rw [hput, Writer.put_out hok.2]; rfl
  have hlen : (putWriter n.toNat s).out.length = e := putWriter_out_length n.toNat s
  refine ⟨applyWrites s.mem (cellsAt base (putWriter n.toNat s).out), ?_, fun k hk => ?_, fun a ha => ?_⟩
  · rw [exec_command rfl, runOf, runBwPut_of_room hdst ⟨hn1, hn24⟩ hroom, Run.finish_of_quiet rfl hquiet, ← hacc,
      ← hcnt]
    rfl
  · rw [memRead_store_same hwf base _ k (hlen.symm ▸ hk), hout, List.getD_eq_getElem _ _ (by simpa using hk)]
    simp
  · exact memRead_store_other _ (hlen.symm ▸ ha)

/-- Settles O14: the byte, if any, is the one of `Writer.flush_out`. -/
theorem bwFlushEmitsPartialByte : Obligations.BwFlushEmitsPartialByte := by
  intro s hquiet hwf hdst hroom e base
  have hlen : s.writer.flush.out.length = e := s.flush_out_length
  refine ⟨applyWrites s.mem (cellsAt base s.writer.flush.out), ?_, fun hpos => ?_, fun a ha => ?_⟩
  · rw [exec_command rfl, runOf_bwFlush_of_room hdst hroom, Run.finish_of_quiet rfl hquiet]
    rfl
  · have hout : s.writer.flush.out = [BitVec.ofNat 8 s.bwAcc.toNat] := (Writer.flush_out _).trans (if_pos hpos)
    have hbyte := memRead_store_same hwf base s.writer.flush.out 0 (by rw [hout]; exact Nat.one_pos)
    rw [hout] at hbyte ⊢
    exact hbyte
  · exact memRead_store_other _ (hlen.symm ▸ ha)

/-! ## The writer's commands without room -/

theorem runOf_bwPut_of_overflow {n : BitVec 5} {s : State} (hdst : s.DstOk) (hn : 1 ≤ n.toNat ∧ n.toNat ≤ 24)
    (hfull : s.dstCap.toNat < s.outLen.toNat + putEmits n.toNat s) :
    runOf (.bwPut n) s = faultRun s .dstOverflow 0 (s.outLen.toNat + putEmits n.toNat s) :=
  (runCommand_of_none (prologue_bwPut hdst hn)).trans (if_pos hfull)

theorem runOf_bwFlush_of_overflow {s : State} (hdst : s.DstOk)
    (hfull : s.dstCap.toNat < s.outLen.toNat + flushEmits s) :
    runOf .bwFlush s = faultRun s .dstOverflow 0 (s.outLen.toNat + flushEmits s) :=
  (runCommand_of_none (prologue_bwFlush hdst)).trans (if_pos hfull)

/-- Settles O15: both runs only fault, at the bytes they need. -/
theorem writerOverflowChangesNothing : Obligations.WriterOverflowChangesNothing := by
  intro s hquiet hdst faulted
  constructor
  · rintro n need hn1 hn24 rfl hfull hfits
    rw [exec_of_faultRun rfl (runOf_bwPut_of_overflow hdst ⟨hn1, hn24⟩ hfull) hquiet, putEmits, errPosWord_of_lt hfits]
    rfl
  · rintro need rfl hfull hfits
    rw [exec_of_faultRun rfl (runOf_bwFlush_of_overflow hdst hfull) hquiet, flushEmits, errPosWord_of_lt hfits]
    rfl

/-! ## BR_GET -/

/-- BR_GET with its field inside the stream. -/
theorem runOf_brGet_of_le {n : BitVec 5} {s : State} (hsrc : s.SrcOk) (hn : 1 ≤ n.toNat ∧ n.toNat ≤ 24)
    (hle : s.brPos.toNat + n.toNat ≤ 8 * s.srcLen.toNat) :
    runOf (.brGet n) s =
      quietRun { s with
        result := BitVec.ofNat 32 (s.srcStream.field s.brPos.toNat n.toNat)
        brPos := BitVec.ofNat 32 (s.brPos.toNat + n.toNat) } := by
  refine (runCommand_of_none (prologue_brGet hsrc hn)).trans ?_
  rw [bodyBrGet, Stream.get_of_le hle]

/-- BR_GET with too few bits left. -/
theorem runOf_brGet_of_lt {n : BitVec 5} {s : State} (hsrc : s.SrcOk) (hn : 1 ≤ n.toNat ∧ n.toNat ≤ 24)
    (hlt : 8 * s.srcLen.toNat < s.brPos.toNat + n.toNat) :
    runOf (.brGet n) s = faultRun s .srcExhausted 1 s.brPos.toNat := by
  refine (runCommand_of_none (prologue_brGet hsrc hn)).trans ?_
  rw [bodyBrGet, Stream.get_of_lt hlt]
  rfl

/-- Stream bit `i` of the source range is a bit of buffer memory (40_bitstream.md R120). -/
theorem State.srcStream_bit {s : State} (h : s.srcDraw = none) (i : Nat) :
    s.srcStream.bit i = (memRead s.mem (s.srcAddr.toNat + i / 8)).getLsbD (i % 8) := by
  rw [State.srcStream_of_quiet h]
  rfl

/-- Settles O16: RESULT's bits are the field's, and a field of at most 24 bits fits RESULT. -/
theorem brGetReadsField : Obligations.BrGetReadsField := by
  intro n s hquiet hsrc hn1 hn24 hle
  refine ⟨BitVec.ofNat 32 (s.srcStream.field s.brPos.toNat n.toNat), fun k => ?_,
    exec_of_quietRun rfl (runOf_brGet_of_le hsrc ⟨hn1, hn24⟩ hle) hquiet⟩
  obtain ⟨hdraw, -⟩ := hquiet
  rw [BitVec.getLsbD_ofNat, Stream.field_testBit, State.srcStream_bit hdraw]
  by_cases hk : k < n.toNat
  · rw [decide_eq_true (show k < 32 by omega), Bool.true_and]
  · rw [decide_eq_false hk, Bool.false_and, Bool.and_false]

/-- Settles O17: the run only faults, and BR_POS fits ERR_POS. -/
theorem brGetExhaustedConsumesNothing : Obligations.BrGetExhaustedConsumesNothing := by
  intro n s hquiet hsrc hn1 hn24 hlt
  rw [exec_of_faultRun rfl (runOf_brGet_of_lt hsrc ⟨hn1, hn24⟩ hlt) hquiet, errPosWord_toNat]
  rfl

end Sys2Proof.Machine
end

section
/-! Canon as a whole (41_huffman.md R142, R143, R149): when it overflows, what its code values keep, and the code of a
table with one depth. -/

namespace Sys2Proof.Machine

/-! ## Canon from its sorted symbols -/

theorem canon_of_nil {lens : List Nat} (h : sortedSymbols lens = []) : canon lens = some [] := by
  rw [canon, h]

theorem canon_of_cons {lens : List Nat} {i l : Nat} {rest : List (Nat × Nat)}
    (h : sortedSymbols lens = (i, l) :: rest) :
    canon lens = (canonFrom 0 l rest).map fun cs => { sym := i, code := 0, len := l } :: cs := by
  rw [canon, h]

/-- No later symbol is shorter than the first, whose length is all that Canon's loop is given of it. -/
theorem sortedSymbols_tail_pairwise {lens : List Nat} {i l : Nat} {rest : List (Nat × Nat)}
    (h : sortedSymbols lens = (i, l) :: rest) : ((0, l) :: rest).Pairwise fun a b => a.2 ≤ b.2 := by
  have hle := sortedSymbols_le lens
  rw [h, List.pairwise_cons] at hle
  exact List.pairwise_cons.2 hle

/-- A code keeps the order of the symbols; its values fit and rise so that none begins with an earlier one, read from
the most significant bit. -/
theorem canon_some {lens : List Nat} {cs : List Codeword} (h : canon lens = some cs) :
    cs.map (fun c => (c.sym, c.len)) = sortedSymbols lens ∧ (∀ c ∈ cs, c.code < 2 ^ c.len) ∧
      cs.Pairwise fun c d => c.len ≤ d.len ∧ (c.code + 1) * 2 ^ (d.len - c.len) ≤ d.code := by
  cases hs : sortedSymbols lens with
  | nil =>
    rw [canon_of_nil hs] at h
    cases h
    simp
  | cons a rest =>
    obtain ⟨i, l⟩ := a
    rw [canon_of_cons hs, Option.map_eq_some_iff] at h
    obtain ⟨ds, hds, rfl⟩ := h
    obtain ⟨hsyms, hcodes, hrise⟩ := canonFrom_some hds (sortedSymbols_tail_pairwise hs)
    refine ⟨by rw [List.map_cons, hsyms], ?_, List.pairwise_cons.2 ⟨fun d hd => ?_, hrise⟩⟩
    · rintro c (_ | ⟨_, hc⟩)
      · exact Nat.two_pow_pos l
      · exact (hcodes c hc).2.1
    · obtain ⟨hlen, -, hcode⟩ := hcodes d hd
      exact ⟨hlen, hcode⟩

/-- Every codeword is of a present symbol. -/
theorem canon_mem {lens : List Nat} {cs : List Codeword} {c : Codeword} (h : canon lens = some cs) (hc : c ∈ cs) :
    lens[c.sym]? = some c.len ∧ 0 < c.len := by
  obtain ⟨hsyms, -, -⟩ := canon_some h
  rw [← mem_sortedSymbols, ← hsyms]
  exact List.mem_map_of_mem hc

/-! ## The Kraft sum -/

/-- Each present symbol adds its share once, in whatever order. -/
theorem sortedSymbols_kraftSum (lens : List Nat) (L : Nat) :
    ((sortedSymbols lens).map fun a => 2 ^ (L - a.2)).sum =
      ((lens.filter fun l => 0 < l).map fun l => 2 ^ (L - l)).sum := by
  rw [((sortedSymbols_perm lens).map _).sum_eq]
  conv_rhs => rw [← List.zipIdx_map_fst 0 lens]
  rw [List.filter_map, List.map_map, List.map_map]
  rfl

/-- Settles O18: the first symbol's share is what Canon's loop starts from. -/
theorem canonOverflowsIffKraftSumExceedsOne : Obligations.CanonOverflowsIffKraftSumExceedsOne := by
  intro lens
  rw [← sortedSymbols_kraftSum]
  cases hs : sortedSymbols lens with
  | nil => simp [canon_of_nil hs]
  | cons a rest =>
    obtain ⟨i, l⟩ := a
    have hlong : ∀ a ∈ (i, l) :: rest, a.2 ≤ longest lens := fun a ha =>
      le_longest (List.mem_of_getElem? (mem_sortedSymbols.1 (hs ▸ ha)).1)
    rw [canon_of_cons hs, Option.map_eq_none_iff,
      canonFrom_eq_none (sortedSymbols_tail_pairwise hs) (fun a ha => hlong a (List.mem_cons_of_mem _ ha))
        (hlong _ List.mem_cons_self) (Nat.two_pow_pos l),
      List.map_cons, List.sum_cons, Nat.zero_add, Nat.one_mul]

/-! ## One depth -/

/-- The order of the code is all there is to the sorted symbols. -/
theorem sortedSymbols_eq_of_mem_iff {lens : List Nat} {ss : List (Nat × Nat)}
    (hs : ss.Pairwise fun a b => a.2 < b.2 ∨ (a.2 = b.2 ∧ a.1 < b.1))
    (hmem : ∀ i l, (i, l) ∈ ss ↔ lens[i]? = some l ∧ 0 < l) : sortedSymbols lens = ss := by
  have hperm : (sortedSymbols lens).Perm ss :=
    (List.perm_ext_iff_of_nodup (sortedSymbols_nodup lens)
      (hs.imp fun {a b} h => by rintro rfl; omega)).2 fun ⟨i, l⟩ => mem_sortedSymbols.trans (hmem i l).symm
  exact hperm.eq_of_pairwise (fun a b _ _ hab hba => by omega) (sortedSymbols_pairwise lens) hs

theorem sortedSymbols_uniform {K D : Nat} (r : Nat) (hD : 1 ≤ D) :
    sortedSymbols (List.replicate K D ++ List.replicate r 0) = (List.range K).map fun i => (i, D) := by
  refine sortedSymbols_eq_of_mem_iff ?_ fun i l => ?_
  · rw [List.pairwise_map]
    exact List.pairwise_lt_range.imp fun h => .inr ⟨rfl, h⟩
  · simp only [List.mem_map, List.mem_range, Prod.mk.injEq, List.getElem?_append, List.length_replicate,
      List.getElem?_replicate]
    split_ifs with hK
    · simp only [Option.some.injEq]
      constructor
      · rintro ⟨_, _, rfl, rfl⟩; exact ⟨rfl, hD⟩
      · rintro ⟨rfl, _⟩; exact ⟨i, hK, rfl, rfl⟩
    · simp only [Option.some.injEq]
      constructor
      · rintro ⟨_, h, rfl, _⟩; exact absurd h hK
      · rintro ⟨rfl, h⟩; exact absurd h (Nat.lt_irrefl 0)
    · constructor
      · rintro ⟨_, h, rfl, _⟩; exact absurd h hK
      · rintro ⟨h, _⟩; cases h

/-- Among symbols of one length the code value rises by one (41_huffman.md R142). -/
theorem canonFrom_uniform {D k n : Nat} (h : k + n < 2 ^ D) :
    canonFrom k D ((List.range' (k + 1) n).map fun i => (i, D)) =
      some ((List.range' (k + 1) n).map fun i => { sym := i, code := i, len := D }) := by
  induction n generalizing k with
  | zero => rfl
  | succ n ih =>
    rw [List.range'_succ, List.map_cons, canonFrom, Nat.sub_self, Nat.shiftLeft_zero]
    rw [if_neg (by omega), ih (by omega)]
    rfl

/-- Settles O19: the symbols stand in order, the first with code 0, each other with one more than the last. -/
theorem uniformDepthCodeIsSymbol : Obligations.UniformDepthCodeIsSymbol := by
  intro K D r hD hK
  have hs := sortedSymbols_uniform (K := K) r hD
  cases K with
  | zero => exact canon_of_nil hs
  | succ n =>
    rw [List.range_eq_range', List.range'_succ, List.map_cons] at hs ⊢
    rw [canon_of_cons hs, canonFrom_uniform (by omega)]
    rfl

end Sys2Proof.Machine
end

section
/-! When BuildTree faults (41_huffman.md R145, R146), and the walk of the tree it builds (R147). -/

namespace Sys2Proof.Machine

/-! ## Transmitted strings -/

theorem properPrefix_iff {a b : List Bool} : properPrefix a b = true ↔ a <+: b ∧ a.length < b.length := by
  rw [properPrefix, Bool.and_eq_true, List.isPrefixOf_iff_prefix, decide_eq_true_iff]

theorem properPrefix_of_prefix_of_ne {a b : List Bool} (h : a <+: b) (hne : a ≠ b) : properPrefix a b = true :=
  properPrefix_iff.2 ⟨h, Nat.lt_of_le_of_ne h.length_le fun hl => hne (h.eq_of_length hl)⟩

/-- Under MSB_FIRST a string that begins another is the number that the other's first bits make (41_huffman.md R144). -/
theorem code_eq_of_msbFirst_prefix {c d l m : Nat} (hc : c < 2 ^ l) (hd : d < 2 ^ m)
    (h : transmitted .msbFirst c l <+: transmitted .msbFirst d m) : c = d / 2 ^ (m - l) := by
  have hlm : l ≤ m := by simpa using h.length_le
  have hquot : d / 2 ^ (m - l) < 2 ^ l := by
    rwa [Nat.div_lt_iff_lt_mul (Nat.two_pow_pos _), ← pow_add, Nat.add_sub_cancel' hlm]
  refine Nat.eq_of_testBit_eq fun j => ?_
  by_cases hj : j < l
  · have hbit := h.getElem (i := l - 1 - j) (by simp; omega)
    simp only [transmitted, List.getElem_map, List.getElem_range] at hbit
    rw [Nat.testBit_div_two_pow, show j = l - 1 - (l - 1 - j) by omega, hbit]
    congr 1
    omega
  · have hpow : 2 ^ l ≤ 2 ^ j := Nat.pow_le_pow_right Nat.two_pos (Nat.not_lt.1 hj)
    rw [Nat.testBit_lt_two_pow (hc.trans_le hpow), Nat.testBit_lt_two_pow (hquot.trans_le hpow)]

/-- Codes of one length that have the same string are the same, under either order. -/
theorem code_eq_of_transmitted_eq {order : CodeBitOrder} {c d l : Nat} (hc : c < 2 ^ l) (hd : d < 2 ^ l)
    (h : transmitted order c l = transmitted order d l) : c = d := by
  cases order with
  | msbFirst => simpa using code_eq_of_msbFirst_prefix hc hd (h ▸ List.prefix_refl _)
  | lsbFirst =>
    have hbits : ∀ k < l, c.testBit k = d.testBit k := by simpa [transmitted] using h
    rw [← Nat.mod_eq_of_lt hc, ← Nat.mod_eq_of_lt hd]
    refine Nat.eq_of_testBit_eq fun k => ?_
    by_cases hk : k < l
    · simp [hk, hbits k hk]
    · simp [hk]

/-! ## Strings of one code -/

theorem rel_or_rel_of_pairwise {α : Type} {R : α → α → Prop} {l : List α} (h : l.Pairwise R) {a b : α} (ha : a ∈ l)
    (hb : b ∈ l) (hne : a ≠ b) : R a b ∨ R b a := by
  have : Std.Symm fun x y => R x y ∨ R y x := ⟨fun _ _ => Or.symm⟩
  exact List.Pairwise.forall (R := fun x y => R x y ∨ R y x) (h.imp Or.inl) ha hb hne

theorem code_le_of_len_lt {lens : List Nat} {cs : List Codeword} (h : canon lens = some cs) {a b : Codeword}
    (ha : a ∈ cs) (hb : b ∈ cs) (hlt : a.len < b.len) : (a.code + 1) * 2 ^ (b.len - a.len) ≤ b.code := by
  obtain ⟨-, -, hrise⟩ := canon_some h
  rcases rel_or_rel_of_pairwise hrise ha hb (by rintro rfl; exact Nat.lt_irrefl _ hlt) with hab | hba
  · exact hab.2
  · exact absurd hba.1 (Nat.not_le.2 hlt)

/-- No two codewords share a string, under either order. -/
theorem canon_strings_pairwise_ne {lens : List Nat} {cs : List Codeword} (order : CodeBitOrder)
    (h : canon lens = some cs) :
    cs.Pairwise fun a b => transmitted order a.code a.len ≠ transmitted order b.code b.len := by
  obtain ⟨-, hfit, hrise⟩ := canon_some h
  refine hrise.imp_of_mem fun {a b} ha hb hab heq => ?_
  have hlen : a.len = b.len := by simpa using congrArg List.length heq
  have hcode : a.code = b.code :=
    code_eq_of_transmitted_eq (hfit a ha) (by rw [hlen]; exact hfit b hb) (by rw [heq, hlen])
  have := hab.2
  rw [hlen, Nat.sub_self, pow_zero] at this
  omega

/-- Inserting the strings one by one finds the pairs that R145's check finds. -/
theorem trieOf_eq_none_iff_properPrefix {lens : List Nat} {cs : List Codeword} (order : CodeBitOrder)
    (h : canon lens = some cs) :
    trieOf order cs .absent = none ↔ ∃ a ∈ cs, ∃ b ∈ cs,
      properPrefix (transmitted order a.code a.len) (transmitted order b.code b.len) = true := by
  rw [trieOf_eq_none (t := .absent) trivial]
  constructor
  · rintro (⟨c, -, p, s, hp, -⟩ | hpre)
    · cases hp
    · by_contra hno
      refine hpre ((canon_strings_pairwise_ne order h).imp_of_mem fun {a b} ha hb hne => ?_)
      rintro (hab | hba)
      · exact hno ⟨a, ha, b, hb, properPrefix_of_prefix_of_ne hab hne⟩
      · exact hno ⟨b, hb, a, ha, properPrefix_of_prefix_of_ne hba hne.symm⟩
  · rintro ⟨a, ha, b, hb, hab⟩
    obtain ⟨hpre, hlt⟩ := properPrefix_iff.1 hab
    refine .inr fun hnone => ?_
    rcases rel_or_rel_of_pairwise hnone ha hb (by rintro rfl; exact Nat.lt_irrefl _ hlt) with hno | hno
    · exact hno (.inl hpre)
    · exact hno (.inr hpre)

/-! ## BuildTree -/

theorem buildTree_of_none {lens : List Nat} (order : CodeBitOrder) (h : canon lens = none) :
    buildTree order lens = .error 3 := by
  rw [buildTree, h]

theorem buildTree_of_some {lens : List Nat} {cs : List Codeword} (order : CodeBitOrder) (h : canon lens = some cs) :
    buildTree order lens = (trieOf order cs .absent).elim (.error 4) .ok := by
  simp only [buildTree, h]
  cases trieOf order cs .absent with
  | none => rfl
  | some tree => rfl

theorem buildTree_eq_error_three {order : CodeBitOrder} {lens : List Nat} :
    buildTree order lens = .error 3 ↔ canon lens = none := by
  cases h : canon lens with
  | none => simp [buildTree_of_none order h]
  | some cs => cases ht : trieOf order cs .absent <;> simp [buildTree_of_some order h, ht]

theorem buildTree_eq_error_four {order : CodeBitOrder} {lens : List Nat} :
    buildTree order lens = .error 4 ↔ ∃ cs, canon lens = some cs ∧ trieOf order cs .absent = none := by
  cases h : canon lens with
  | none => simp [buildTree_of_none order h]
  | some cs => cases ht : trieOf order cs .absent <;> simp [buildTree_of_some order h, ht]

theorem buildTree_eq_ok {order : CodeBitOrder} {lens : List Nat} {tree : Trie} :
    buildTree order lens = .ok tree ↔ ∃ cs, canon lens = some cs ∧ trieOf order cs .absent = some tree := by
  cases h : canon lens with
  | none => simp [buildTree_of_none order h]
  | some cs => cases ht : trieOf order cs .absent <;> simp [buildTree_of_some order h, ht]

/-- Settles O20: the trie cannot be built exactly when R145's pairwise check fails. -/
theorem buildTreeFaultsExactly : Obligations.BuildTreeFaultsExactly := by
  refine fun order lens => ⟨buildTree_eq_error_three, buildTree_eq_error_four.trans ?_⟩
  exact exists_congr fun cs => and_congr_right fun h => trieOf_eq_none_iff_properPrefix order h

/-- Read from the most significant bit no string of a code begins another: the later value would have to be below the
next one of the shorter length. -/
theorem properPrefix_msbFirst_ne {lens : List Nat} {cs : List Codeword} (h : canon lens = some cs) {a b : Codeword}
    (ha : a ∈ cs) (hb : b ∈ cs) :
    properPrefix (transmitted .msbFirst a.code a.len) (transmitted .msbFirst b.code b.len) ≠ true := by
  intro hab
  obtain ⟨hpre, hlt⟩ := properPrefix_iff.1 hab
  obtain ⟨-, hfit, -⟩ := canon_some h
  have hquot : a.code = b.code / 2 ^ (b.len - a.len) := code_eq_of_msbFirst_prefix (hfit a ha) (hfit b hb) hpre
  have hle : a.code + 1 ≤ b.code / 2 ^ (b.len - a.len) :=
    (Nat.le_div_iff_mul_le (Nat.two_pow_pos _)).2 (code_le_of_len_lt h ha hb (by simpa using hlt))
  omega

theorem canon_len_of_uniform {lens : List Nat} {cs : List Codeword} {D : Nat} (h : canon lens = some cs)
    (hD : ∀ l ∈ lens, l = 0 ∨ l = D) {c : Codeword} (hc : c ∈ cs) : c.len = D := by
  obtain ⟨hget, hpos⟩ := canon_mem h hc
  exact (hD _ (List.mem_of_getElem? hget)).resolve_left (Nat.ne_of_gt hpos)

/-- Settles O21: under MSB_FIRST the code is prefix-free, and strings of one length never begin one another properly. -/
theorem prefixFaultOnlyForMixedDepthsLsbFirst : Obligations.PrefixFaultOnlyForMixedDepthsLsbFirst := by
  refine ⟨fun lens => ⟨fun hfault => ?_, fun D hD hfault => ?_⟩, ⟨_, rfl⟩, rfl⟩
  · obtain ⟨cs, hcs, a, ha, b, hb, hab⟩ := (buildTreeFaultsExactly .msbFirst lens).2.1 hfault
    exact properPrefix_msbFirst_ne hcs ha hb hab
  · obtain ⟨cs, hcs, a, ha, b, hb, hab⟩ := (buildTreeFaultsExactly .lsbFirst lens).2.1 hfault
    have hlt := (properPrefix_iff.1 hab).2
    rw [canon_len_of_uniform hcs hD ha, canon_len_of_uniform hcs hD hb] at hlt
    simp at hlt

/-! ## The walk of a built tree -/

/-- The strings of a built tree are those of its code, and a string passes through each of its nodes. -/
theorem buildTree_strings {order : CodeBitOrder} {lens : List Nat} {cs : List Codeword} {tree : Trie}
    (hcs : canon lens = some cs) (htree : buildTree order lens = .ok tree) :
    triePruned tree ∧ ∀ p s, (p, s) ∈ trieStrings tree ↔
      ∃ c ∈ cs, p = transmitted order c.code c.len ∧ s = c.sym := by
  obtain ⟨cs', hcs', htrie⟩ := buildTree_eq_ok.1 htree
  cases hcs.symm.trans hcs'
  obtain ⟨hpruned, hstrings⟩ := trieOf_some htrie
  refine ⟨hpruned trivial, fun p s => (hstrings p s).trans ?_⟩
  simp [trieStrings]

/-- No string of a code is empty, so a built tree is not a bare leaf. -/
theorem buildTree_ne_leaf {order : CodeBitOrder} {lens : List Nat} (s : Nat) :
    buildTree order lens ≠ .ok (.leaf s) := by
  intro htree
  obtain ⟨cs, hcs, -⟩ := buildTree_eq_ok.1 htree
  obtain ⟨c, hc, hempty, -⟩ := ((buildTree_strings hcs htree).2 [] s).1 (by simp [trieStrings])
  have hlen : c.len = 0 := by simpa using (congrArg List.length hempty).symm
  exact Nat.lt_irrefl 0 (hlen ▸ (canon_mem hcs hc).2)

theorem walk_of_mem {t : Stream} {tree : Trie} {p : List Bool} {s pos : Nat} (h : (p, s) ∈ trieStrings tree)
    (hp : p ≠ []) (hlen : pos + p.length ≤ 8 * t.len) (hbits : t.bits pos p.length = p) :
    walk t tree pos = (.ok s, pos + p.length) := by
  refine walk_eq_ok.2 ⟨?_, descend_of_mem h hlen fun k hk => ?_⟩
  · cases tree with
    | absent => cases h
    | leaf s' =>
      simp only [trieStrings, List.mem_singleton, Prod.mk.injEq] at h
      exact absurd h.1 hp
    | node z o => exact ⟨z, o, rfl⟩
  · conv_rhs => rw [List.getElem_of_eq hbits.symm]
    simp [Stream.bits]

/-- Where the bits read so far are a proper prefix of a string, or none were read, the walk stands at an internal node
whose strings are the rests of those the bits begin, or at the root of an empty tree. -/
theorem walk_of_internal {t : Stream} {tree : Trie} {pos n : Nat} (htree : triePruned tree)
    (hleaf : ∀ s, tree ≠ .leaf s) (hlen : pos + n ≤ 8 * t.len)
    (hint : n = 0 ∨ ∃ q s, (q, s) ∈ trieStrings tree ∧ properPrefix (t.bits pos n) q = true) :
    (n = 0 ∧ tree = .absent) ∨
      ∃ z o, walk t tree pos = descend t (.node z o) (pos + n) ∧ triePruned (.node z o) ∧
        ∀ p s, (p, s) ∈ trieStrings (.node z o) ↔ (t.bits pos n ++ p, s) ∈ trieStrings tree := by
  cases tree with
  | leaf s => exact absurd rfl (hleaf s)
  | absent =>
    rcases hint with rfl | ⟨q, s, hq, -⟩
    · exact .inl ⟨rfl, rfl⟩
    · cases hq
  | node z o =>
    rcases hint with rfl | ⟨q, s, hq, hpre⟩
    · exact .inr ⟨z, o, rfl, htree, fun _ _ => Iff.rfl⟩
    · obtain ⟨hpre, hlt⟩ := properPrefix_iff.1 hpre
      exact .inr (descend_of_prefix hq hpre (by simpa [Stream.bits] using hlt) hlen htree)

theorem walk_unterminated {t : Stream} {tree : Trie} {pos n : Nat} (htree : triePruned tree)
    (hleaf : ∀ s, tree ≠ .leaf s) (hlen : pos + n + 1 ≤ 8 * t.len)
    (hint : n = 0 ∨ ∃ q s, (q, s) ∈ trieStrings tree ∧ properPrefix (t.bits pos n) q = true)
    (hout : ∀ q s, (q, s) ∈ trieStrings tree → ¬ t.bits pos (n + 1) <+: q) :
    walk t tree pos = (.error ⟨.codeUnterminated, 0, pos + n + 1⟩, pos + n + 1) := by
  rcases walk_of_internal htree hleaf (Nat.le_of_succ_le hlen) hint with ⟨rfl, rfl⟩ | ⟨z, o, hwalk, hnode, hstrings⟩
  · simp only [walk, Stream.get_of_le (show pos + 1 ≤ 8 * t.len from hlen), Nat.add_zero]
  · rw [hwalk]
    refine descend_node_of_none hlen hnode fun p s hp => ?_
    refine hout _ s ((hstrings _ s).1 hp) ?_
    exact ⟨p, by rw [Stream.bits_snoc, List.append_assoc, List.singleton_append]⟩

theorem walk_exhausted {t : Stream} {tree : Trie} {pos n : Nat} (htree : triePruned tree)
    (hleaf : ∀ s, tree ≠ .leaf s) (hlen : pos + n = 8 * t.len)
    (hint : n = 0 ∨ ∃ q s, (q, s) ∈ trieStrings tree ∧ properPrefix (t.bits pos n) q = true) :
    walk t tree pos = (.error ⟨.srcExhausted, 1, pos + n⟩, pos + n) := by
  have hend : t.get (pos + n) 1 = .error ⟨.srcExhausted, 1, pos + n⟩ := Stream.get_of_lt (by omega)
  rcases walk_of_internal htree hleaf (Nat.le_of_eq hlen) hint with ⟨rfl, rfl⟩ | ⟨z, o, hwalk, -, -⟩
  · simp only [walk, Nat.add_zero] at hend ⊢
    simp only [hend]
  · rw [hwalk, descend, hend]

/-- Settles O22: the places of the tree are the prefixes of the code's strings. -/
theorem walkFindsCodeword : Obligations.WalkFindsCodeword := by
  intro order lens cs tree t pos hcs htree
  obtain ⟨hpruned, hstrings⟩ := buildTree_strings hcs htree
  have hleaf : ∀ s, tree ≠ .leaf s := by rintro s rfl; exact buildTree_ne_leaf s htree
  have hmem : ∀ c ∈ cs, (transmitted order c.code c.len, c.sym) ∈ trieStrings tree := fun c hc =>
    (hstrings _ _).2 ⟨c, hc, rfl, rfl⟩
  have hint : ∀ n, (n = 0 ∨ ∃ c ∈ cs, properPrefix (t.bits pos n) (transmitted order c.code c.len) = true) →
      n = 0 ∨ ∃ q s, (q, s) ∈ trieStrings tree ∧ properPrefix (t.bits pos n) q = true := fun n =>
    Or.imp_right fun ⟨c, hc, hpre⟩ => ⟨_, _, hmem c hc, hpre⟩
  refine ⟨fun c hc hlen hbits => ?_, fun n hlen hn hout => ?_, fun n hlen hn => ?_⟩
  · have hne : transmitted order c.code c.len ≠ [] := by
      rw [← List.length_pos_iff, transmitted_length]
      exact (canon_mem hcs hc).2
    simpa using walk_of_mem (hmem c hc) hne (by rwa [transmitted_length])
      (by rw [transmitted_length]; exact hbits)
  · refine walk_unterminated hpruned hleaf hlen (hint n hn) fun q s hq => ?_
    obtain ⟨c, hc, rfl, -⟩ := (hstrings q s).1 hq
    rw [← List.isPrefixOf_iff_prefix]
    exact ne_true_of_eq_false (hout c hc)
  · exact walk_exhausted hpruned hleaf hlen (hint n hn)

end Sys2Proof.Machine
end

section
/-! A block of Decode, check by check (42_block_codec.md R163, 41_huffman.md R145, R148, R151): what each part answers
where it faults, and how the first fault ends the block and the blocks after it. -/

namespace Sys2Proof.Machine

/-! ## The parts of a block -/

theorem readCount_of_lt {t : Stream} {T : Nat} {c : Cursor} (h : 8 * t.len < c.brPos + 16) :
    readCount t T c = .error (⟨.srcExhausted, 1, c.brPos⟩, c) := by
  simp only [readCount, litcountBits, Stream.get_of_lt h]

theorem readCount_overrun {t : Stream} {T : Nat} {c : Cursor} (h : c.brPos + 16 ≤ 8 * t.len)
    (hover : T - c.produced < t.field c.brPos 16) :
    readCount t T c =
      .error (⟨.targetOverrun, 0, c.brPos + 16⟩,
        { c with
          brPos := c.brPos + 16, blkCount := c.blkCount + 1, lastLits := t.field c.brPos 16 }) := by
  simp only [readCount, litcountBits, Stream.get_of_le h, if_pos hover]

/-- A descriptor that fits is read in the form its flag selects (30_encoding.md R90). -/
theorem readDescriptor_of_le {t : Stream} {c : Cursor}
    (h : (if t.field c.brPos 1 = 1 then c.brPos + 5 else c.brPos + 77) ≤ 8 * t.len) :
    readDescriptor t c = .ok
      { c with
        brPos := if t.field c.brPos 1 = 1 then c.brPos + 5 else c.brPos + 77
        cltLen :=
          if t.field c.brPos 1 = 1 then List.replicate 19 (t.field (c.brPos + 1) 4)
          else (List.range 19).map fun i => t.field (c.brPos + 1 + 4 * i) 4
        lastClt :=
          if t.field c.brPos 1 = 1 then ⟨true, BitVec.ofNat 4 (t.field (c.brPos + 1) 4), true⟩
          else ⟨false, 0#4, true⟩ } := by
  simp only [Stream.field_one, Bool.toNat_eq_one] at h ⊢
  cases hb : t.bit c.brPos with
  | true =>
    rw [hb, if_pos rfl] at h
    refine readDescriptor_eq_ok.2 ⟨by omega, ?_⟩
    rw [if_pos hb]
    exact readShortClt_eq_ok.2 ⟨h, rfl⟩
  | false =>
    rw [hb, if_neg Bool.false_ne_true] at h
    refine readDescriptor_eq_ok.2 ⟨by omega, ?_⟩
    rw [if_neg (ne_true_of_eq_false hb)]
    exact readFullClt_eq_ok.2 ⟨h, rfl⟩

theorem readClt_of_overflow {t : Stream} {c d : Cursor} (h : readDescriptor t c = .ok d)
    (hcanon : canon d.cltLen = none) : readClt t c = .error (⟨.malformedTree, 1, d.brPos⟩, d) := by
  simp only [readClt, bind, Except.bind, h, checkClt, hcanon]

theorem readLitTable_of_lt {t : Stream} {c : Cursor} (h : 8 * t.len < c.brPos + 9) :
    readLitTable t c = .error (⟨.srcExhausted, 1, c.brPos⟩, c) := by
  simp only [readLitTable, litnBits, Stream.get_of_lt h]

theorem readLitTable_reserved {t : Stream} {c : Cursor} (h : c.brPos + 9 ≤ 8 * t.len)
    (hn : 0x1FE < t.field c.brPos 9) :
    readLitTable t c =
      .error (⟨.malformedTree, 2, c.brPos + 9⟩,
        { c with brPos := c.brPos + 9, lastLitn := t.field c.brPos 9 }) := by
  simp only [readLitTable, litnBits, litAlphabet, Stream.get_of_le h]
  exact if_pos hn

theorem placeTree_of_error {order : CodeBitOrder} {c : Cursor} {sub : Byte}
    (h : buildTree order c.litLen = .error sub) :
    placeTree order c = .error (⟨.malformedTree, sub, c.brPos⟩, c) := by
  rw [placeTree, h]

/-! ## The first part that faults ends the block -/

section
variable {order : CodeBitOrder} {t : Stream} {T l : Nat} {c c1 c2 c3 : Cursor} {e : FaultReport × Cursor}

theorem decodeBlock_of_count_error (h : readCount t T c = .error e) : decodeBlock order t T c = .error e := by
  simp only [decodeBlock, bind, Except.bind, h]

theorem decodeBlock_of_clt_error (h1 : readCount t T c = .ok (l, c1)) (h : readClt t c1 = .error e) :
    decodeBlock order t T c = .error e := by
  simp only [decodeBlock, bind, Except.bind, h1, h]

theorem decodeBlock_of_litTable_error (h1 : readCount t T c = .ok (l, c1)) (h2 : readClt t c1 = .ok c2)
    (h : readLitTable t c2 = .error e) : decodeBlock order t T c = .error e := by
  simp only [decodeBlock, bind, Except.bind, h1, h2, h]

theorem decodeBlock_of_tree_error (h1 : readCount t T c = .ok (l, c1)) (h2 : readClt t c1 = .ok c2)
    (h3 : readLitTable t c2 = .ok c3) (h : placeTree order c3 = .error e) : decodeBlock order t T c = .error e := by
  simp only [decodeBlock, bind, Except.bind, h1, h2, h3, h]

end

/-! ## The codewords and the blocks after one another -/

section
variable {t : Stream} {n q : Nat} {c : Cursor}

theorem decodeLiterals_of_walk_error {f : FaultReport} (h : walk t c.tree c.brPos = (.error f, q)) :
    decodeLiterals t (n + 1) c = .error (f, { c with brPos := q }) := by
  rw [decodeLiterals, h]

theorem decodeLiterals_of_walk_ok {s : Nat} (h : walk t c.tree c.brPos = (.ok s, q)) :
    decodeLiterals t (n + 1) c =
      if 0x100 ≤ s then .error (⟨.unsupportedSymbol, 0, q⟩, { c with brPos := q })
      else decodeLiterals t n
        { c with brPos := q, produced := c.produced + 1, outRev := BitVec.ofNat 8 s :: c.outRev } := by
  rw [decodeLiterals, h]

end

section
variable {order : CodeBitOrder} {t : Stream} {T fuel : Nat} {c : Cursor}

theorem decodeBlocks_of_block_error {e : FaultReport × Cursor} (h : c.produced < T)
    (hblock : decodeBlock order t T c = .error e) : decodeBlocks order t T (fuel + 1) c = .error e := by
  rw [decodeBlocks, if_pos h, hblock]
  rfl

theorem decodeBlocks_of_block_ok {c' : Cursor} (h : c.produced < T) (hblock : decodeBlock order t T c = .ok c') :
    decodeBlocks order t T (fuel + 1) c = decodeBlocks order t T fuel c' := by
  rw [decodeBlocks, if_pos h, hblock]
  rfl

end

/-- Settles O60: each clause is the parts before its check, read, and what that check answers. -/
theorem decodeBlockFaultsInOrder : Obligations.DecodeBlockFaultsInOrder := by
  refine ⟨fun order t T c => ?_, fun t n q c => ?_, fun order t T fuel c => ?_⟩
  · intro p L short len lens d N depths b c1 c2 c3 c4
    refine ⟨fun h => decodeBlock_of_count_error (readCount_of_lt h),
      fun h hover => decodeBlock_of_count_error (readCount_overrun h hover), fun hL hd => ?_⟩
    have hpd : p + 16 ≤ d := by
      change p + 16 ≤ if short = 1 then p + 21 else p + 93
      split_ifs <;> omega
    have hcount : readCount t T c = .ok (L, c1) := readCount_eq_ok.2 ⟨hpd.trans hd, rfl, hL, rfl⟩
    have hdesc : readDescriptor t c1 = .ok c2 := readDescriptor_of_le hd
    refine ⟨fun hcanon => decodeBlock_of_clt_error hcount (readClt_of_overflow hdesc hcanon), fun hcanon => ?_⟩
    have hclt : readClt t c1 = .ok c2 := readClt_eq_ok.2 ⟨hdesc, hcanon⟩
    refine ⟨fun h => decodeBlock_of_litTable_error hcount hclt (readLitTable_of_lt h),
      fun h hN => decodeBlock_of_litTable_error hcount hclt
        (readLitTable_reserved h (show 0x1FE < N by omega)), fun hb hN => ?_⟩
    have hlit : readLitTable t c2 = .ok c4 := readLitTable_eq_ok.2 ⟨N, rfl, hN, hb, rfl⟩
    exact ⟨fun sub htree => decodeBlock_of_tree_error hcount hclt hlit (placeTree_of_error htree),
      fun tree htree => decodeBlock_of_parts hcount hclt hlit htree⟩
  · refine ⟨rfl, fun f hwalk => decodeLiterals_of_walk_error hwalk, fun sym hwalk => ?_⟩
    rw [decodeLiterals_of_walk_ok hwalk]
    exact ⟨fun hs => if_pos hs, fun hs => if_neg (Nat.not_le.2 hs)⟩
  · exact ⟨decodeBlocks_of_done _, fun h =>
      ⟨fun e hblock => decodeBlocks_of_block_error h hblock, fun c' hblock => decodeBlocks_of_block_ok h hblock⟩⟩

end Sys2Proof.Machine
end

section
/-! What Encode emits (42_block_codec.md R160 to R162): the blocks it splits the data into, the bits they become, and
the number of bytes after the final Flush. -/

namespace Sys2Proof.Machine

/-! ## The number of blocks -/

theorem blockCount_zero (M : Nat) : blockCount 0 M = 0 := by
  rcases Nat.eq_zero_or_pos M with rfl | hM
  · rfl
  · exact Nat.div_eq_of_lt (by omega)

/-- The first block takes `M` bytes, or all there are. -/
theorem blockCount_of_pos {n M : Nat} (hM : 1 ≤ M) (hn : 1 ≤ n) : blockCount n M = blockCount (n - M) M + 1 := by
  rcases Nat.le_total n M with hle | hle
  · rw [Nat.sub_eq_zero_of_le hle, blockCount_zero, blockCount, Nat.div_eq_iff (by omega)]
    omega
  · obtain ⟨k, rfl⟩ := Nat.exists_eq_add_of_le hle
    rw [Nat.add_sub_cancel_left, blockCount, blockCount, ← Nat.add_div_right _ hM]
    congr 1
    omega

theorem blockCount_eq_zero {n M : Nat} (hM : 1 ≤ M) : blockCount n M = 0 ↔ n = 0 := by
  constructor
  · intro h
    by_contra hn
    rw [blockCount_of_pos hM (Nat.one_le_iff_ne_zero.2 hn)] at h
    cases h
  · rintro rfl
    exact blockCount_zero M

/-! ## The blocks of the data -/

/-- The blocks of Encode's loop (42_block_codec.md R160): `M` bytes each, the remainder in the last. -/
def blocksOf (M : Nat) : Nat → List Byte → List (List Byte)
  | 0, _ => []
  | _ + 1, [] => []
  | fuel + 1, d :: ds => (d :: ds).take M :: blocksOf M fuel ((d :: ds).drop M)

theorem blocksOf_nil (M fuel : Nat) : blocksOf M fuel [] = [] := by
  cases fuel <;> rfl

theorem blocksOf_step {M fuel : Nat} {data : List Byte} (h : data ≠ []) :
    blocksOf M (fuel + 1) data = data.take M :: blocksOf M fuel (data.drop M) := by
  cases data with
  | nil => exact absurd rfl h
  | cons d ds => rfl

/-- Encode's loop is one block after another. -/
theorem encodeBlocks_eq_foldl (order : CodeBitOrder) (M fuel : Nat) (data : List Byte) (e : EncodeRun) :
    encodeBlocks order M fuel data e =
      (blocksOf M fuel data).foldl (fun e lits => encodeBlock order lits e) e := by
  induction fuel generalizing data e with
  | zero => rfl
  | succ fuel ih =>
    cases data with
    | nil => rfl
    | cons d ds => exact ih ((d :: ds).drop M) (encodeBlock order ((d :: ds).take M) e)

/-- No byte is lost, and the blocks are as many as R160 says: the fuel covers them all. -/
theorem blocksOf_spec {M fuel : Nat} {data : List Byte} (hM : 1 ≤ M) (h : data.length ≤ fuel) :
    (blocksOf M fuel data).flatten = data ∧ (blocksOf M fuel data).length = blockCount data.length M := by
  induction fuel generalizing data with
  | zero =>
    obtain rfl : data = [] := List.length_eq_zero_iff.1 (Nat.le_zero.1 h)
    exact ⟨rfl, (blockCount_zero M).symm⟩
  | succ fuel ih =>
    rcases eq_or_ne data [] with rfl | hne
    · rw [blocksOf_nil]
      exact ⟨rfl, (blockCount_zero M).symm⟩
    · have hpos : 1 ≤ data.length := List.length_pos_iff.2 hne
      obtain ⟨hflat, hcount⟩ := ih (data := data.drop M) (by rw [List.length_drop]; omega)
      rw [blocksOf_step hne, List.flatten_cons, hflat, List.take_append_drop, List.length_cons, hcount,
        List.length_drop, ← blockCount_of_pos hM hpos]
      exact ⟨rfl, rfl⟩

theorem length_of_mem_blocksOf {M fuel : Nat} {data lits : List Byte} (hM : 1 ≤ M)
    (h : lits ∈ blocksOf M fuel data) : 1 ≤ lits.length ∧ lits.length ≤ M := by
  induction fuel generalizing data with
  | zero => cases h
  | succ fuel ih =>
    rcases eq_or_ne data [] with rfl | hne
    · cases h
    · have hpos : 1 ≤ data.length := List.length_pos_iff.2 hne
      rw [blocksOf_step hne, List.mem_cons] at h
      rcases h with rfl | h
      · rw [List.length_take]
        omega
      · exact ih h

/-- LAST_LITS is what the blocks before the last leave (42_block_codec.md R160, R161). -/
theorem encodeBlocks_lastLits {order : CodeBitOrder} {M fuel : Nat} {data : List Byte} {e : EncodeRun} (hM : 1 ≤ M)
    (h : data.length ≤ fuel) :
    (encodeBlocks order M fuel data e).lastLits =
      if data.length = 0 then e.lastLits else data.length - (blockCount data.length M - 1) * M := by
  induction fuel generalizing data e with
  | zero =>
    obtain rfl : data = [] := List.length_eq_zero_iff.1 (Nat.le_zero.1 h)
    rfl
  | succ fuel ih =>
    rcases eq_or_ne data [] with rfl | hne
    · rfl
    · have hpos : 1 ≤ data.length := List.length_pos_iff.2 hne
      rw [encodeBlocks_step hne, ih (by rw [List.length_drop]; omega), if_neg (Nat.ne_of_gt hpos),
        blockCount_of_pos hM hpos, List.length_drop, Nat.add_sub_cancel]
      split_ifs with hlast
      · rw [hlast, blockCount_zero, Nat.zero_mul, Nat.sub_zero]
        exact List.length_take.trans (Nat.min_eq_right (Nat.sub_eq_zero_iff_le.1 hlast))
      · have hmore : blockCount (data.length - M) M ≠ 0 := fun h0 => by
          rw [blockCount_eq_zero hM] at h0
          omega
        obtain ⟨k, hk⟩ := Nat.exists_eq_succ_of_ne_zero hmore
        rw [hk, Nat.succ_sub_one, Nat.succ_mul]
        omega

/-! ## The bits of the blocks -/

theorem flatMap_blockBits_length (order : CodeBitOrder) (blocks : List (List Byte)) :
    (blocks.flatMap (blockBits order)).length = 1054 * blocks.length + 8 * blocks.flatten.length := by
  induction blocks with
  | nil => rfl
  | cons lits blocks ih =>
    rw [List.flatMap_cons, List.length_append, ih, blockBits_length, List.length_cons, List.flatten_cons,
      List.length_append]
    omega

/-- Blocks encoded one after another append their bits in order (42_block_codec.md R161). -/
theorem foldl_encodeBlock_spec {order : CodeBitOrder} {blocks : List (List Byte)} {e : EncodeRun} (h : e.writer.Ok) :
    (blocks.foldl (fun e lits => encodeBlock order lits e) e).writer.Ok ∧
      (blocks.foldl (fun e lits => encodeBlock order lits e) e).writer.bits =
        e.writer.bits ++ blocks.flatMap (blockBits order) ∧
      (blocks.foldl (fun e lits => encodeBlock order lits e) e).blocks = e.blocks + blocks.length := by
  induction blocks generalizing e with
  | nil => exact ⟨h, (List.append_nil _).symm, rfl⟩
  | cons lits blocks ih =>
    obtain ⟨hok, hbits, hcount, -⟩ := encodeBlock_spec (order := order) (lits := lits) h
    obtain ⟨hok', hbits', hcount'⟩ := ih hok
    refine ⟨hok', ?_, ?_⟩
    · rw [List.foldl_cons, hbits', hbits, List.append_assoc, List.flatMap_cons]
    · rw [List.foldl_cons, hcount', hcount, List.length_cons]
      omega

/-! ## Encode as a whole -/

/-- The blocks of all the data. -/
def dataBlocks (M : Nat) (data : List Byte) : List (List Byte) := blocksOf M data.length data

theorem flatten_dataBlocks {M : Nat} (hM : 1 ≤ M) (data : List Byte) : (dataBlocks M data).flatten = data :=
  (blocksOf_spec hM (Nat.le_refl _)).1

theorem length_dataBlocks {M : Nat} (hM : 1 ≤ M) (data : List Byte) :
    (dataBlocks M data).length = blockCount data.length M :=
  (blocksOf_spec hM (Nat.le_refl _)).2

/-- The writer that Encode flushes holds the bits of the blocks. -/
theorem encodeStream_writer_eq_flush (order : CodeBitOrder) (M : Nat) (data : List Byte) :
    ∃ w : Writer, w.Ok ∧ w.bits = (dataBlocks M data).flatMap (blockBits order) ∧
      (encodeStream order M data).writer = w.flush := by
  obtain ⟨hok, hbits, -⟩ := foldl_encodeBlock_spec (order := order) (blocks := dataBlocks M data)
    (e := { writer := Writer.new, blocks := 0, lastLits := 0 }) Writer.ok_new
  refine ⟨_, hok, hbits, ?_⟩
  rw [dataBlocks, ← encodeBlocks_eq_foldl]
  rfl

theorem encodeStream_blocks {M : Nat} (hM : 1 ≤ M) (order : CodeBitOrder) (data : List Byte) :
    (encodeStream order M data).blocks = blockCount data.length M := by
  obtain ⟨-, -, hcount⟩ := foldl_encodeBlock_spec (order := order) (blocks := dataBlocks M data)
    (e := { writer := Writer.new, blocks := 0, lastLits := 0 }) Writer.ok_new
  rw [dataBlocks, ← encodeBlocks_eq_foldl, ← dataBlocks, length_dataBlocks hM, Nat.zero_add] at hcount
  exact hcount

theorem encodeStream_lastLits {M : Nat} (hM : 1 ≤ M) (order : CodeBitOrder) (data : List Byte) :
    (encodeStream order M data).lastLits = data.length - (blockCount data.length M - 1) * M := by
  refine (encodeBlocks_lastLits hM (Nat.le_refl _)).trans ?_
  split_ifs with h
  · rw [h, Nat.zero_sub]
  · rfl

/-- A flush fills up the last byte (40_bitstream.md R122). -/
theorem Writer.Ok.flush_out_length {w : Writer} (h : w.Ok) : w.flush.out.length = (w.bits.length + 7) / 8 := by
  obtain ⟨pad, hpad, hflush⟩ := Writer.flush_bits h
  have hlen := congrArg List.length hflush
  rw [flatMap_byteBits_length, List.length_append, List.length_replicate] at hlen
  omega

/-- The encoded length (42_block_codec.md R162). -/
theorem encodeStream_out_length {M : Nat} (hM : 1 ≤ M) (order : CodeBitOrder) (data : List Byte) :
    (encodeStream order M data).writer.out.length = data.length + (527 * blockCount data.length M + 3) / 4 := by
  obtain ⟨w, hok, hbits, hw⟩ := encodeStream_writer_eq_flush order M data
  rw [hw, hok.flush_out_length, hbits, flatMap_blockBits_length, flatten_dataBlocks hM, length_dataBlocks hM]
  omega

/-- The encoded bytes carry the bits of the blocks from the first bit on. -/
theorem encodeStream_carries (order : CodeBitOrder) (M : Nat) (data : List Byte) :
    (Stream.ofBytes (encodeStream order M data).writer.out).Carries 0
      ((dataBlocks M data).flatMap (blockBits order)) := by
  obtain ⟨w, hok, hbits, hw⟩ := encodeStream_writer_eq_flush order M data
  rw [hw, ← hbits]
  exact hok.carries_flush

/-- Settles O23: the length is that of the blocks' bits, and data that is not empty has a block. -/
theorem encodedLength : Obligations.EncodedLength := by
  intro order M data hM _ out
  have hlen : out.length = data.length + (527 * blockCount data.length M + 3) / 4 :=
    encodeStream_out_length hM order data
  refine ⟨hlen, fun h0 => ?_, fun h1 => ?_, by omega⟩
  · rw [hlen, h0, blockCount_zero]
  · have hblocks : blockCount data.length M ≠ 0 := fun h => by
      rw [blockCount_eq_zero hM] at h
      omega
    omega

end Sys2Proof.Machine
end

section
/-! The round trip of the block codec (42_block_codec.md R169): what each part of Decode answers on the bits that Encode
emits for a block, under both bit orders, and the blocks after one another. -/

namespace Sys2Proof.Machine

/-! ## What a carried bit string gives the reader -/

theorem Stream.Carries.bits_eq {t : Stream} {pos : Nat} {bs : List Bool} (h : t.Carries pos bs) :
    t.bits pos bs.length = bs := by
  obtain ⟨-, hbit⟩ := h
  refine List.ext_getElem (by simp [Stream.bits]) fun k hk hk' => ?_
  rw [← List.getD_eq_getElem bs false hk', ← hbit k hk']
  simp [Stream.bits]

theorem Stream.Carries.field {t : Stream} {pos v n : Nat} (h : t.Carries pos (natBits v n)) :
    pos + n ≤ 8 * t.len ∧ t.field pos n = v % 2 ^ n := by
  obtain ⟨hlen, hfield⟩ := Stream.get_eq_ok.1 h.get
  exact ⟨hlen, hfield.symm⟩

/-- Each of `k` equal fields in a row stands where the ones before it end. -/
theorem Stream.Carries.of_replicate {t : Stream} {pos v n k i : Nat}
    (h : t.Carries pos (List.replicate k (natBits v n)).flatten) (hi : i < k) :
    t.Carries (pos + n * i) (natBits v n) := by
  obtain ⟨r, rfl⟩ : ∃ r, k = i + (1 + r) := ⟨k - i - 1, by omega⟩
  have hbefore : (List.replicate i (natBits v n)).flatten.length = n * i := by
    rw [List.length_flatten, List.map_replicate, List.sum_replicate, natBits_length, smul_eq_mul, Nat.mul_comm]
  rw [List.replicate_add, List.replicate_add, List.flatten_append, List.flatten_append] at h
  have hone := h.right.left
  rw [hbefore] at hone
  simpa using hone

/-! ## The encoder's tree -/

/-- A code of one depth has a tree under either order: no string of it begins another (41_huffman.md R146). -/
theorem exists_buildTree_of_uniform {lens : List Nat} {cs : List Codeword} {D : Nat} (order : CodeBitOrder)
    (h : canon lens = some cs) (hD : ∀ l ∈ lens, l = 0 ∨ l = D) : ∃ tree, buildTree order lens = .ok tree := by
  cases htrie : trieOf order cs .absent with
  | some tree => exact ⟨tree, buildTree_eq_ok.2 ⟨cs, h, htrie⟩⟩
  | none =>
    obtain ⟨a, ha, b, hb, hab⟩ := (trieOf_eq_none_iff_properPrefix order h).1 htrie
    have hlt := (properPrefix_iff.1 hab).2
    rw [transmitted_length, transmitted_length, canon_len_of_uniform h hD ha, canon_len_of_uniform h hD hb] at hlt
    exact absurd hlt (Nat.lt_irrefl D)

/-- The code of ENC_LENS: the codeword of byte `d` is `(d, 8)` (41_huffman.md R150). -/
theorem canon_encLens :
    canon encLens = some ((List.range 256).map fun i => { sym := i, code := i, len := 8 }) :=
  uniformDepthCodeIsSymbol 256 8 254 (by decide) (by decide)

theorem exists_encTree (order : CodeBitOrder) : ∃ tree, buildTree order encLens = .ok tree := by
  refine exists_buildTree_of_uniform (D := encDepth) order canon_encLens fun l hl => ?_
  rcases List.mem_append.1 hl with hl | hl
  · exact .inr (List.eq_of_mem_replicate hl)
  · exact .inl (List.eq_of_mem_replicate hl)

/-- The walk of the encoder's tree finds the byte whose string the stream carries. -/
theorem walk_encTree {order : CodeBitOrder} {t : Stream} {tree : Trie} {pos : Nat} {d : Byte}
    (htree : buildTree order encLens = .ok tree) (h : t.Carries pos (transmitted order d.toNat 8)) :
    walk t tree pos = (.ok d.toNat, pos + 8) := by
  have hmem : (⟨d.toNat, d.toNat, 8⟩ : Codeword) ∈
      (List.range 256).map fun i => ({ sym := i, code := i, len := 8 } : Codeword) :=
    List.mem_map.2 ⟨d.toNat, List.mem_range.2 d.isLt, rfl⟩
  have hbits := h.bits_eq
  obtain ⟨hlen, -⟩ := h
  rw [transmitted_length] at hbits hlen
  exact (walkFindsCodeword order encLens _ tree t pos canon_encLens htree).1 _ hmem hlen hbits

/-! ## The parts of an encoded block -/

theorem readCount_of_carries {t : Stream} {T n : Nat} {c : Cursor} (h : t.Carries c.brPos (natBits n 16))
    (hn : n ≤ 0xFFFF) (hroom : n ≤ T - c.produced) :
    readCount t T c =
      .ok (n, { c with brPos := c.brPos + 16, blkCount := c.blkCount + 1, lastLits := n }) := by
  obtain ⟨hlen, hfield⟩ := h.field
  rw [Nat.mod_eq_of_lt (show n < 2 ^ 16 by omega)] at hfield
  exact readCount_eq_ok.2 ⟨hlen, hfield.symm, hroom, rfl⟩

/-- The shortcut descriptor with length 5: 19 codewords of 5 bits do not overflow (41_huffman.md R151). -/
theorem readClt_of_carries {t : Stream} {c : Cursor} (h : t.Carries c.brPos (natBits 1 1 ++ natBits 5 4)) :
    readClt t c = .ok
      { c with
        brPos := c.brPos + 5, cltLen := List.replicate 19 5, lastClt := ⟨true, 5#4, true⟩ } := by
  obtain ⟨hflag, hshort⟩ := h.left.field
  obtain ⟨hlen, hfield⟩ := h.right.field
  rw [natBits_length] at hlen hfield
  rw [Stream.field_one] at hshort
  have hbit : t.bit c.brPos = true := Bool.toNat_eq_one.1 hshort
  refine readClt_eq_ok.2 ⟨readDescriptor_eq_ok.2 ⟨hflag, ?_⟩, ?_⟩
  · rw [if_pos hbit]
    refine readShortClt_eq_ok.2 ⟨hlen, ?_⟩
    simp only [hfield]
    rfl
  · have hcode := uniformDepthCodeIsSymbol 19 5 0 (by decide) (by decide)
    rw [List.replicate_zero, List.append_nil] at hcode
    rw [hcode]
    exact Option.some_ne_none _

/-- The literal table of 256 depths of 8 is ENC_LENS (41_huffman.md R150). -/
theorem readLitTable_of_carries {t : Stream} {c : Cursor}
    (h : t.Carries c.brPos (natBits 256 9 ++ (List.replicate 256 (natBits 6 4)).flatten)) :
    readLitTable t c = .ok { c with brPos := c.brPos + 1033, lastLitn := 256, litLen := encLens } := by
  obtain ⟨-, hcount⟩ := h.left.field
  have hdepths := h.right
  rw [natBits_length] at hdepths
  have hdepth : ∀ i < 256, c.brPos + 9 + 4 * i + 4 ≤ 8 * t.len ∧ t.field (c.brPos + 9 + 4 * i) 4 = 6 :=
    fun i hi => (hdepths.of_replicate hi).field
  have htable : ((List.range 256).map fun i => t.field (c.brPos + 9 + 4 * i) 4 + 2) = List.replicate 256 8 := by
    refine List.eq_replicate_iff.2 ⟨by rw [List.length_map, List.length_range], fun d hd => ?_⟩
    obtain ⟨i, hi, rfl⟩ := List.mem_map.1 hd
    rw [(hdepth i (List.mem_range.1 hi)).2]
  have hend : c.brPos + 9 + 4 * 256 ≤ 8 * t.len := (hdepth 255 (by decide)).1
  refine readLitTable_eq_ok.2 ⟨256, hcount.symm, by decide, hend, ?_⟩
  rw [htable]
  rfl

theorem decodeLiterals_of_carries {order : CodeBitOrder} {t : Stream} {lits : List Byte} {c : Cursor}
    (htree : buildTree order encLens = .ok c.tree)
    (h : t.Carries c.brPos (lits.flatMap fun d => transmitted order d.toNat 8)) :
    decodeLiterals t lits.length c = .ok
      { c with
        brPos := c.brPos + 8 * lits.length, produced := c.produced + lits.length
        outRev := lits.reverse ++ c.outRev } := by
  induction lits generalizing c with
  | nil => rfl
  | cons d lits ih =>
    rw [List.flatMap_cons] at h
    have hrest := h.right
    rw [transmitted_length] at hrest
    have hbyte : ¬ 0x100 ≤ d.toNat := Nat.not_le.2 d.isLt
    rw [List.length_cons, decodeLiterals_of_walk_ok (walk_encTree htree h.left), if_neg hbyte]
    refine (ih (c := { c with
      brPos := c.brPos + 8, produced := c.produced + 1, outRev := BitVec.ofNat 8 d.toNat :: c.outRev })
      htree hrest).trans ?_
    simp only [BitVec.ofNat_toNat, BitVec.setWidth_eq, List.reverse_cons, List.append_assoc, List.singleton_append,
      Nat.mul_succ, Except.ok.injEq, Cursor.mk.injEq, and_true, true_and]
    omega

/-! ## Encoded blocks -/

/-- The cursor after a block that Encode emitted. -/
def Cursor.afterBlock (tree : Trie) (c : Cursor) (lits : List Byte) : Cursor :=
  { brPos := c.brPos + 1054 + 8 * lits.length, blkCount := c.blkCount + 1, lastLits := lits.length
    lastLitn := 256, lastClt := ⟨true, 5#4, true⟩, litLen := encLens, cltLen := List.replicate 19 5
    tree := tree, produced := c.produced + lits.length, outRev := lits.reverse ++ c.outRev }

section
variable (tree : Trie) (c : Cursor) (lits : List Byte)

@[simp] theorem Cursor.afterBlock_brPos : (c.afterBlock tree lits).brPos = c.brPos + 1054 + 8 * lits.length := rfl
@[simp] theorem Cursor.afterBlock_blkCount : (c.afterBlock tree lits).blkCount = c.blkCount + 1 := rfl
@[simp] theorem Cursor.afterBlock_produced : (c.afterBlock tree lits).produced = c.produced + lits.length := rfl
@[simp] theorem Cursor.afterBlock_out : (c.afterBlock tree lits).out = c.out ++ lits := by
  simp [Cursor.out, Cursor.afterBlock]

end

/-- Decode of a block restores its bytes and ends at its last bit (42_block_codec.md R161, R163). -/
theorem decodeBlock_of_carries {order : CodeBitOrder} {t : Stream} {T : Nat} {tree : Trie} {lits : List Byte}
    {c : Cursor} (htree : buildTree order encLens = .ok tree) (h : t.Carries c.brPos (blockBits order lits))
    (hlen : lits.length ≤ 0xFFFF) (hroom : lits.length ≤ T - c.produced) :
    decodeBlock order t T c = .ok (c.afterBlock tree lits) := by
  have hheader := h.left
  have hlits := h.right
  rw [headerBits_length] at hlits
  rw [headerBits] at hheader
  have hclt := hheader.right
  rw [natBits_length, ← List.append_assoc] at hclt
  have hlit := hclt.right
  rw [List.length_append, natBits_length, natBits_length] at hlit
  rw [decodeBlock_of_parts (readCount_of_carries hheader.left hlen hroom) (readClt_of_carries hclt.left)
    (readLitTable_of_carries hlit) htree]
  exact decodeLiterals_of_carries htree hlits

/-- Blocks after one another, up to the target (42_block_codec.md R163). -/
theorem decodeBlocks_of_carries {order : CodeBitOrder} {t : Stream} {T fuel : Nat} {tree : Trie}
    {blocks : List (List Byte)} {c : Cursor} (htree : buildTree order encLens = .ok tree)
    (h : t.Carries c.brPos (blocks.flatMap (blockBits order)))
    (hlen : ∀ lits ∈ blocks, 1 ≤ lits.length ∧ lits.length ≤ 0xFFFF)
    (hT : T = c.produced + blocks.flatten.length) (hfuel : blocks.length ≤ fuel) :
    decodeBlocks order t T fuel c = .ok (blocks.foldl (Cursor.afterBlock tree) c) := by
  induction blocks generalizing fuel c with
  | nil => exact decodeBlocks_of_done fuel (Nat.le_of_eq hT)
  | cons lits blocks ih =>
    obtain ⟨k, rfl⟩ : ∃ k, fuel = k + 1 := ⟨fuel - 1, by rw [List.length_cons] at hfuel; omega⟩
    obtain ⟨hpos, hmax⟩ := hlen lits List.mem_cons_self
    rw [List.flatten_cons, List.length_append] at hT
    rw [List.flatMap_cons] at h
    have hrest := h.right
    rw [blockBits_length, ← Nat.add_assoc] at hrest
    rw [decodeBlocks_of_block_ok (by omega) (decodeBlock_of_carries htree h.left hmax (by omega)), List.foldl_cons]
    exact ih hrest (fun l hl => hlen l (List.mem_cons_of_mem _ hl)) (by rw [Cursor.afterBlock_produced]; omega)
      (Nat.le_of_succ_le_succ hfuel)

theorem foldl_afterBlock {tree : Trie} (blocks : List (List Byte)) (c : Cursor) :
    (blocks.foldl (Cursor.afterBlock tree) c).out = c.out ++ blocks.flatten ∧
      (blocks.foldl (Cursor.afterBlock tree) c).brPos =
        c.brPos + (1054 * blocks.length + 8 * blocks.flatten.length) ∧
      (blocks.foldl (Cursor.afterBlock tree) c).blkCount = c.blkCount + blocks.length := by
  induction blocks generalizing c with
  | nil => exact ⟨(List.append_nil _).symm, rfl, rfl⟩
  | cons lits blocks ih =>
    obtain ⟨hout, hpos, hcount⟩ := ih (c.afterBlock tree lits)
    rw [List.foldl_cons, hout, hpos, hcount, List.flatten_cons, List.length_append, List.length_cons]
    refine ⟨?_, ?_, ?_⟩
    · rw [Cursor.afterBlock_out, List.append_assoc]
    · rw [Cursor.afterBlock_brPos]
      omega
    · rw [Cursor.afterBlock_blkCount]
      omega

/-- Settles O24: the encoded bytes carry the blocks' bits, and the blocks are those of the data. -/
theorem decodeOfEncodeIsIdentity : Obligations.DecodeOfEncodeIsIdentity := by
  intro order M data c hM hMmax hpos out t
  obtain ⟨tree, htree⟩ := exists_encTree order
  have hcarries : t.Carries c.brPos ((dataBlocks M data).flatMap (blockBits order)) := by
    rw [hpos]
    exact encodeStream_carries order M data
  have hfuel : (dataBlocks M data).length ≤ 8 * t.len + 1 := by
    have := hcarries.1
    rw [flatMap_blockBits_length] at this
    omega
  have hlen : ∀ lits ∈ dataBlocks M data, 1 ≤ lits.length ∧ lits.length ≤ 0xFFFF := fun lits hlits =>
    (length_of_mem_blocksOf hM hlits).imp_right fun h => h.trans hMmax
  obtain ⟨hout, hend, hcount⟩ :=
    foldl_afterBlock (tree := tree) (dataBlocks M data) { c with produced := 0, outRev := [] }
  rw [flatten_dataBlocks hM] at hout hend
  rw [length_dataBlocks hM] at hend hcount
  refine ⟨_, decodeBlocks_of_carries htree hcarries hlen ?_ hfuel, hout, ?_, hcount⟩
  · rw [flatten_dataBlocks hM, Nat.zero_add]
  · rw [hend, hpos, Nat.zero_add]

end Sys2Proof.Machine
end

section
/-! The ends of Decode (42_block_codec.md R163, R164): the block loop stops by its target or inside its stream, never by
its fuel. -/

namespace Sys2Proof.Machine

/-! ## The fuel -/

/-- Every block takes at least 16 bits of the stream, so fuel above the bits left is never used up. -/
theorem decodeBlocks_fuel {order : CodeBitOrder} {t : Stream} {T fuel fuel' : Nat} {c : Cursor}
    (hpos : c.brPos ≤ 8 * t.len) (h : 8 * t.len < c.brPos + fuel) (h' : 8 * t.len < c.brPos + fuel') :
    decodeBlocks order t T fuel c = decodeBlocks order t T fuel' c := by
  induction fuel generalizing c fuel' with
  | zero => omega
  | succ fuel ih =>
    obtain ⟨k, rfl⟩ : ∃ k, fuel' = k + 1 := ⟨fuel' - 1, by omega⟩
    by_cases hlt : c.produced < T
    · cases hblock : decodeBlock order t T c with
      | error e => rw [decodeBlocks_of_block_error hlt hblock, decodeBlocks_of_block_error hlt hblock]
      | ok d =>
        obtain ⟨hends, hmoved⟩ := decodeBlock_ends order t T c
        have hlong : c.brPos + 16 ≤ d.brPos := hmoved d hblock
        rw [decodeBlocks_of_block_ok hlt hblock, decodeBlocks_of_block_ok hlt hblock]
        exact ih ((hends.of_ok hblock).inside hpos) (by omega) (by omega)
    · rw [decodeBlocks_of_done _ (Nat.not_lt.1 hlt), decodeBlocks_of_done _ (Nat.not_lt.1 hlt)]

/-- Settles O25: both fuels exceed the bits left, and a target of 0 is met at once. -/
theorem decodeEndsWithinStream : Obligations.DecodeEndsWithinStream := fun _ _ _ _ _ =>
  ⟨fun hpos hfuel => decodeBlocks_fuel hpos (by omega) (by omega), decodeBlocks_of_done _ (Nat.le_refl 0)⟩

/-! ## The target -/

theorem le_produced_of_decodeBlocks_eq_ok {order : CodeBitOrder} {t : Stream} {T fuel : Nat} {c d : Cursor}
    (h : decodeBlocks order t T fuel c = .ok d) : T ≤ d.produced := by
  induction fuel generalizing c with
  | zero =>
    rw [decodeBlocks] at h
    split_ifs at h with hlt
    cases h
    exact Nat.not_lt.1 hlt
  | succ fuel ih =>
    by_cases hlt : c.produced < T
    · obtain ⟨e, -, hrest⟩ := (decodeBlocks_succ_eq_ok hlt).1 h
      exact ih hrest
    · rw [decodeBlocks_of_done _ (Nat.not_lt.1 hlt)] at h
      cases h
      exact Nat.not_lt.1 hlt

/-- Settles O26: no end of Decode is past its target, and its loop goes on below it. -/
theorem decodeProducesItsTarget : Obligations.DecodeProducesItsTarget := by
  intro order t T c hpos
  have hends := decodeStream_ends order t T c
  refine ⟨fun c' h => ?_, fun f c' h => ?_⟩
  · rw [h] at hends
    obtain ⟨hinside, hout, hmost, -⟩ := hends
    have hproduced : c'.produced = T := Nat.le_antisymm hmost (le_produced_of_decodeBlocks_eq_ok h)
    exact ⟨hproduced, hout.trans hproduced, hinside hpos⟩
  · rw [h] at hends
    obtain ⟨⟨hinside, hout, hmost, -⟩, hfault⟩ := hends
    exact ⟨hout, hmost, hinside hpos, hfault⟩

end Sys2Proof.Machine
end

section
/-! COPY and DECODE as next states (42_block_codec.md R166, R168), where the host raced nothing: what a run that stores
bytes in the destination range leaves, and each command's body on either side of its checks. -/

namespace Sys2Proof.Machine

/-! ## Commands with a source and a destination -/

theorem prologue_of_ranges {i : Instr} {s : State} (hn : nbitsOf i = none)
    (hblocks : usesBlockMax i = true → s.BlockMaxOk) (hsrc : s.SrcOk) (hdst : s.DstOk) (hdisjoint : s.Disjoint) :
    prologue i s = none := by
  rw [prologue_eq_none, hn]
  exact ⟨nofun, hblocks, fun _ => hsrc, fun _ => hdst, fun _ _ => hdisjoint⟩

section
variable {i : Instr} {s u : State} {bytes : List Byte}

/-- A run that stores bytes and completes. -/
theorem exec_of_stores (hi : i.format = .cmd)
    (hrun : runOf i s = { regs := u, writes := cellsAt u.dstAddr.toNat bytes, fault := none }) (hquiet : u.Quiet) :
    exec i s = .next
      { u with
        mem := applyWrites u.mem (cellsAt u.dstAddr.toNat bytes)
        done := true, phase := .idle, engineDue := 0, draws := u.draws + 1 } := by
  rw [exec_command hi, hrun, Run.finish_of_quiet rfl hquiet]

/-- A run that stores bytes before it faults (60_exceptions.md R234, R235). -/
theorem exec_of_stores_fault {f : FaultReport} (hi : i.format = .cmd)
    (hrun : runOf i s = { regs := u, writes := cellsAt u.dstAddr.toNat bytes, fault := some f }) (hquiet : u.Quiet) :
    exec i s = .next
      { u with
        mem := applyWrites u.mem (cellsAt u.dstAddr.toNat bytes)
        errCode := f.code, errSub := f.sub, errPos := errPosWord f.pos, err := true
        phase := .idle, engineDue := 0, draws := u.draws + 1 } := by
  obtain ⟨hsrc, htouched⟩ := hquiet
  rw [exec_command hi, hrun, Run.finish_of_some rfl]
  simp only [hsrc, htouched, scramble_nil]

/-- A run that faults before it stores a byte, from the registers it has set. -/
theorem exec_of_faultRun_regs {code : FaultCode} {sub : Byte} {pos : Nat} (hi : i.format = .cmd)
    (hrun : runOf i s = faultRun u code sub pos) (hquiet : u.Quiet) :
    exec i s = .next
      { u with
        errCode := code, errSub := sub, errPos := errPosWord pos, err := true, phase := .idle
        engineDue := 0, draws := u.draws + 1 } := by
  rw [exec_command hi, hrun, faultRun_finish_of_quiet hquiet]

end

/-! ## COPY -/

section
variable {s : State}

theorem prologue_copy (hsrc : s.SrcOk) (hdst : s.DstOk) (hdisjoint : s.Disjoint) : prologue .copy s = none :=
  prologue_of_ranges rfl nofun hsrc hdst hdisjoint

theorem runOf_copy_of_room (hp : prologue .copy s = none) (hsrc : s.targetLen.toNat ≤ s.srcLen.toNat)
    (hcap : s.targetLen.toNat ≤ s.dstCap.toNat) :
    runOf .copy s =
      { regs := { s with outLen := s.targetLen }
        writes := cellsAt s.dstAddr.toNat (s.srcStream.take s.targetLen.toNat), fault := none } := by
  refine (runCommand_of_none hp).trans ?_
  simp only [bodyCopy, if_neg (Nat.not_lt.2 hsrc), if_neg (Nat.not_lt.2 hcap), storeRun, State.setOutLen,
    Stream.take_length, BitVec.ofNat_toNat, BitVec.setWidth_eq]

theorem runOf_copy_of_short (hp : prologue .copy s = none) (hsrc : s.srcLen.toNat < s.targetLen.toNat) :
    runOf .copy s = faultRun (s.setOutLen 0) .srcExhausted 2 s.targetLen.toNat :=
  (runCommand_of_none hp).trans (if_pos hsrc)

theorem runOf_copy_of_overflow (hp : prologue .copy s = none) (hsrc : s.targetLen.toNat ≤ s.srcLen.toNat)
    (hcap : s.dstCap.toNat < s.targetLen.toNat) :
    runOf .copy s = faultRun (s.setOutLen 0) .dstOverflow 0 s.targetLen.toNat :=
  (runCommand_of_none hp).trans ((if_neg (Nat.not_lt.2 hsrc)).trans (if_pos hcap))

end

/-- Settles O32: the bytes stored are the first TARGET_LEN of the source. -/
theorem copyCommandResult : Obligations.CopyCommandResult := by
  intro s hquiet hwf hsrc hdst hdisjoint hlen hcap
  have hrun := runOf_copy_of_room (prologue_copy hsrc hdst hdisjoint) hlen hcap
  refine ⟨_, exec_of_stores rfl hrun hquiet, fun j hj => ?_, fun a ha => ?_⟩
  · rw [← Stream.take_length s.targetLen.toNat s.srcStream] at hj
    refine (memRead_store_same hwf s.dstAddr.toNat _ j hj).trans ?_
    rw [Stream.take_length] at hj
    rw [Stream.take_getD _ _ hj, State.srcStream_of_quiet hquiet.1]
  · exact memRead_store_other _ (by rwa [Stream.take_length])

/-- Settles O33: each check's run only faults, at TARGET_LEN. -/
theorem copyCommandFaultsInOrder : Obligations.CopyCommandFaultsInOrder := by
  intro s hquiet hsrc hdst hdisjoint
  have hp := prologue_copy hsrc hdst hdisjoint
  constructor
  · intro hshort
    rw [exec_of_faultRun_regs rfl (runOf_copy_of_short hp hshort) hquiet, errPosWord_toNat]
    rfl
  · intro hlen hfull
    rw [exec_of_faultRun_regs rfl (runOf_copy_of_overflow hp hlen hfull) hquiet, errPosWord_toNat]
    rfl

/-! ## DECODE -/

theorem Cursor.out_length (c : Cursor) : c.out.length = c.outRev.length := List.length_reverse

/-- Decode as DECODE starts it: cursors cleared, the tables as they stand, the output Decode's own to clear. -/
theorem decodeStream_clearDecode (order : CodeBitOrder) (t : Stream) (T : Nat) (s : State) :
    decodeStream order t T s.clearDecode.cursor =
      decodeStream order t T
        { brPos := 0, blkCount := 0, lastLits := 0, lastLitn := 0, lastClt := ⟨false, 0#4, false⟩
          litLen := s.litLen, cltLen := s.cltLen, tree := s.tree, produced := 0, outRev := [] } := rfl

section
variable {s : State}

theorem prologue_decode (hsrc : s.SrcOk) (hdst : s.DstOk) (hdisjoint : s.Disjoint) : prologue .decode s = none :=
  prologue_of_ranges rfl nofun hsrc hdst hdisjoint

theorem runOf_decode_of_room (hp : prologue .decode s = none) (hcap : s.targetLen.toNat ≤ s.dstCap.toNat) :
    runOf .decode s = decodeRun s.clearDecode s.srcStream s.targetLen.toNat :=
  (runCommand_of_none hp).trans (if_neg (Nat.not_lt.2 hcap))

theorem runOf_decode_of_overflow (hp : prologue .decode s = none) (hcap : s.dstCap.toNat < s.targetLen.toNat) :
    runOf .decode s = faultRun s.clearDecode .dstOverflow 0 s.targetLen.toNat :=
  (runCommand_of_none hp).trans (if_pos hcap)

end

/-- Settles O28: the run is Decode's, which has produced TARGET_LEN bytes. -/
theorem decodeCommandResult : Obligations.DecodeCommandResult := by
  intro s c hquiet hwf hsrc hdst hdisjoint hcap hdecode
  obtain ⟨hproduced, hout, -⟩ := (decodeProducesItsTarget _ _ _ _ (Nat.zero_le _)).1 c hdecode
  rw [← decodeStream_clearDecode, ← State.srcStream_of_quiet hquiet.1] at hdecode
  have hrun := (runOf_decode_of_room (prologue_decode hsrc hdst hdisjoint) hcap).trans (decodeRun_of_ok hdecode)
  have hregs : s.clearDecode.loadCursor c =
      { s with
        outLen := s.targetLen, brPos := BitVec.ofNat 32 c.brPos, blkCount := BitVec.ofNat 32 c.blkCount
        lastLits := BitVec.ofNat 16 c.lastLits, lastLitn := BitVec.ofNat 9 c.lastLitn, lastClt := c.lastClt
        litLen := c.litLen, cltLen := c.cltLen, tree := c.tree, produced := s.targetLen.toNat } := by
    rw [State.loadCursor, ← c.out_length, hout, hproduced, BitVec.ofNat_toNat, BitVec.setWidth_eq]
    rfl
  rw [hregs] at hrun
  refine ⟨_, exec_of_stores rfl hrun hquiet, fun j hj => ?_, fun a ha => ?_⟩
  · exact memRead_store_same hwf _ _ j (hout.symm ▸ hj)
  · exact memRead_store_other _ (hout.symm ▸ ha)

/-- Settles O29: the run is Decode's, whose fault's position is BR_POS and lies in the source range; a target beyond
DST_CAP faults with the cursors cleared. -/
theorem decodeCommandFaultIsPrecise : Obligations.DecodeCommandFaultIsPrecise := by
  intro s hquiet hwf hsrc hdst hdisjoint
  have hp := prologue_decode hsrc hdst hdisjoint
  refine ⟨fun hcap f c hdecode => ?_, fun hfull => ?_⟩
  · obtain ⟨hout, -, hinside, hpos⟩ := (decodeProducesItsTarget _ _ _ _ (Nat.zero_le _)).2 f c hdecode
    rw [← decodeStream_clearDecode, ← State.srcStream_of_quiet hquiet.1] at hdecode
    have hrun := (runOf_decode_of_room hp hcap).trans (decodeRun_of_error hdecode)
    have hregs : s.clearDecode.loadCursor c =
        { s with
          outLen := BitVec.ofNat 32 c.produced, brPos := BitVec.ofNat 32 c.brPos
          blkCount := BitVec.ofNat 32 c.blkCount, lastLits := BitVec.ofNat 16 c.lastLits
          lastLitn := BitVec.ofNat 9 c.lastLitn, lastClt := c.lastClt, litLen := c.litLen
          cltLen := c.cltLen, tree := c.tree, produced := c.produced } := by
      rw [State.loadCursor, ← c.out_length, hout]
      rfl
    have hfits : errPosWord f.pos = BitVec.ofNat 32 c.brPos := by
      obtain ⟨hmax, -⟩ := hsrc
      simp only [srcLenMax] at hmax
      simp only at hinside
      rw [hpos, errPosWord_of_lt (by omega)]
    rw [hregs] at hrun
    refine ⟨_, (exec_of_stores_fault rfl hrun hquiet).trans (by rw [hfits]), fun j hj => ?_, fun a ha => ?_⟩
    · exact memRead_store_same hwf _ _ j (hout.symm ▸ hj)
    · exact memRead_store_other _ (hout.symm ▸ ha)
  · rw [exec_of_faultRun_regs rfl (runOf_decode_of_overflow hp hfull) hquiet, errPosWord_toNat]
    rfl

/-! ## DECODE of an encoded stream -/

/-- A stream holds the bits of the list of its bytes. -/
theorem Stream.holds_ofBytes_take (t : Stream) : t.Holds (Stream.ofBytes (t.take t.len)) (8 * t.len) := by
  refine ⟨Nat.le_refl _, fun i hi => ?_⟩
  simp only [Stream.bit, Stream.ofBytes]
  rw [Stream.take_getD t.len t (by omega)]

/-- The round trip on any stream whose bytes are the encoded ones (42_block_codec.md R169). -/
theorem decodeStream_of_encoded {order : CodeBitOrder} {M : Nat} {data : List Byte} {t : Stream} {c : Cursor}
    (hM : 1 ≤ M) (hMmax : M ≤ 0xFFFF) (hpos : c.brPos = 0)
    (h : t.take t.len = (encodeStream order M data).writer.out) :
    ∃ c', decodeStream order t data.length c = .ok c' ∧ c'.out = data ∧
      c'.brPos = 1054 * blockCount data.length M + 8 * data.length ∧
      c'.blkCount = c.blkCount + blockCount data.length M ∧ c'.brPos ≤ 8 * t.len := by
  obtain ⟨c', hdecode, hout, hend, hcount⟩ := decodeOfEncodeIsIdentity order M data c hM hMmax hpos
  have hlen : (encodeStream order M data).writer.out.length = t.len := by rw [← h, Stream.take_length]
  have hinside : c'.brPos ≤ 8 * t.len := by
    obtain ⟨-, -, hle⟩ := (decodeProducesItsTarget _ _ _ _ (by rw [hpos]; exact Nat.zero_le _)).1 c' hdecode
    exact hlen ▸ hle
  have hholds : t.Holds (Stream.ofBytes (encodeStream order M data).writer.out) c'.brPos :=
    h ▸ t.holds_ofBytes_take.mono hinside
  exact ⟨c', decodeIgnoresWhatFollows _ _ _ _ _ _ hdecode hinside hholds.bits, hout, hend, hcount, hinside⟩

/-- Settles O30: DECODE's next state for the cursor of the round trip, whose values fit the registers. -/
theorem decodeCommandRestoresEncodedData : Obligations.DecodeCommandRestoresEncodedData := by
  intro s M data hquiet hwf hsrc hdst hdisjoint hM hMmax htarget hcap hencoded
  obtain ⟨c, hdecode, hout, hend, hcount, hinside⟩ :=
    decodeStream_of_encoded (t := ⟨fun j => memRead s.mem (s.srcAddr.toNat + j), s.srcLen.toNat⟩)
      (c := ⟨0, 0, 0, 0, ⟨false, 0#4, false⟩, s.litLen, s.cltLen, s.tree, 0, []⟩) hM hMmax rfl hencoded
  rw [← htarget] at hdecode hcap
  obtain ⟨m, hexec, hbytes, -⟩ := decodeCommandResult s c hquiet hwf hsrc hdst hdisjoint hcap hdecode
  have hsmall : c.brPos < 2 ^ 32 := by
    obtain ⟨hmax, -⟩ := hsrc
    simp only [srcLenMax] at hmax
    simp only at hinside
    omega
  refine ⟨_, hexec, rfl, rfl, rfl, ?_, rfl, ?_, ?_⟩
  · refine List.ext_getElem (by simp) fun j hj hj' => ?_
    rw [List.getElem_map, List.getElem_range, hbytes j (htarget.symm ▸ hj'), hout, List.getD_eq_getElem]
  · rw [BitVec.toNat_ofNat, Nat.mod_eq_of_lt hsmall, hend]
  · rw [BitVec.toNat_ofNat, hcount, Nat.zero_add]
    exact Nat.mod_eq_of_lt (by omega)

end Sys2Proof.Machine
end

section
/-! ENCODE and PENCODE as next states (42_block_codec.md R167, 43_payload.md R191 to R194), where the host raced nothing:
the registers the encode attempt leaves, the header's bytes, and each command on either side of its capacity check. -/

namespace Sys2Proof.Machine

/-! ## The registers of an encode attempt -/

/-- What Encode of `n` bytes in blocks of `M` leaves in the registers (42_block_codec.md R161). -/
def State.attempted (n M : Nat) (s : State) : State :=
  { s with
    outLen := 0#32, bwAcc := 0#32, bwCnt := 0#5, blkCount := BitVec.ofNat 32 (blockCount n M)
    lastLits := BitVec.ofNat 16 (n - (blockCount n M - 1) * M), lastLitn := if n = 0 then 0#9 else 0x100#9
    lastClt := if n = 0 then ⟨false, 0#4, false⟩ else ⟨true, 5#4, true⟩ }

theorem State.loadEncode_encodeStream {M : Nat} (hM : 1 ≤ M) (order : CodeBitOrder) (data : List Byte) (s : State) :
    s.clearCounts.loadEncode (encodeStream order M data) = s.attempted data.length M := by
  simp only [State.loadEncode, encodeStream_blocks hM, encodeStream_lastLits hM, blockCount_eq_zero hM]
  rfl

/-- The number of bytes Encode emits for `n` bytes in blocks of `M` (42_block_codec.md R162). -/
def encodedSize (n M : Nat) : Nat := n + (527 * blockCount n M + 3) / 4

theorem ne_zero_of_encodedSize_pos {n M : Nat} (h : 0 < encodedSize n M) : n ≠ 0 := by
  rintro rfl
  rw [encodedSize, blockCount_zero] at h
  exact absurd h (Nat.lt_irrefl 0)

/-! ## ENCODE -/

section
variable {s : State}

/-- The bytes ENCODE stores. -/
def State.encodedForm (s : State) : List Byte :=
  (encodeStream s.cfg.codeBitOrder s.blockMax.toNat (s.srcStream.take s.srcLen.toNat)).writer.out

theorem State.encodedForm_length (hblocks : s.BlockMaxOk) :
    s.encodedForm.length = encodedSize s.srcLen.toNat s.blockMax.toNat := by
  rw [State.encodedForm, encodeStream_out_length hblocks.1, Stream.take_length, encodedSize]

theorem prologue_encode (hsrc : s.SrcOk) (hdst : s.DstOk) (hdisjoint : s.Disjoint) (hblocks : s.BlockMaxOk) :
    prologue .encode s = none :=
  prologue_of_ranges rfl (fun _ => hblocks) hsrc hdst hdisjoint

/-- ENCODE's body: the attempt, then the capacity check. -/
theorem runOf_encode (hp : prologue .encode s = none) (hblocks : s.BlockMaxOk) :
    runOf .encode s =
      if s.dstCap.toNat < s.encodedForm.length then
        faultRun (s.attempted s.srcLen.toNat s.blockMax.toNat) .dstOverflow 0 s.encodedForm.length
      else storeRun (s.attempted s.srcLen.toNat s.blockMax.toNat) s.encodedForm := by
  refine (runCommand_of_none hp).trans ?_
  simp only [bodyEncode, State.loadEncode_encodeStream hblocks.1, Stream.take_length]
  rfl

end

/-- Settles O31: with room the run stores the encoded form. -/
theorem encodeCommandResult : Obligations.EncodeCommandResult := by
  intro s hquiet hwf hsrc hdst hdisjoint hblocks n M size data out hroom
  have hout : s.encodedForm = out := by
    rw [State.encodedForm, State.srcStream_of_quiet hquiet.1]
    rfl
  have hlen : out.length = size := hout ▸ s.encodedForm_length hblocks
  have hrun := runOf_encode (prologue_encode hsrc hdst hdisjoint hblocks) hblocks
  rw [hout, hlen, if_neg (Nat.not_lt.2 hroom), storeRun, State.setOutLen, hlen] at hrun
  refine ⟨_, exec_of_stores rfl hrun hquiet, fun j hj => ?_, fun a ha => ?_⟩
  · exact memRead_store_same hwf _ _ j (hlen.symm ▸ hj)
  · exact memRead_store_other _ (hlen.symm ▸ ha)

/-! ## PENCODE's header -/

theorem extractLsb'_eq_ofNat_div (u : Word) (k : Nat) : u.extractLsb' k 8 = BitVec.ofNat 8 (u.toNat / 2 ^ k) := by
  rw [← Nat.shiftRight_eq_div_pow]
  rfl

@[simp] theorem emitHdr_length (u : Word) (packed : Bool) : (emitHdr u packed).length = 9 := rfl

/-- USIZE stands in the first four bytes, big-endian (43_payload.md R191). -/
theorem emitHdr_usize (u : Word) (packed : Bool) {j : Nat} (hj : j < 4) :
    (emitHdr u packed).getD j 0#8 = BitVec.ofNat 8 (u.toNat / 2 ^ (24 - 8 * j)) := by
  rw [← extractLsb'_eq_ofNat_div]
  interval_cases j <;> rfl

/-- The reserved bytes are zero, and so is the flag of a raw payload (43_payload.md R191). -/
theorem emitHdr_raw_tail (u : Word) {j : Nat} (h4 : 4 ≤ j) (h9 : j < 9) : (emitHdr u false).getD j 0#8 = 0#8 := by
  interval_cases j <;> rfl

/-! ## PENCODE -/

/-- What PENCODE leaves in the registers before its capacity check: with RAW the cleared counts, else those of the encode
attempt (43_payload.md R194). -/
def State.framed (raw : Bool) (s : State) : State :=
  { s with
    outLen := 0#32, hdrUsize := s.srcLen
    bwAcc := if raw then s.bwAcc else 0#32, bwCnt := if raw then s.bwCnt else 0#5
    blkCount := if raw then 0#32 else BitVec.ofNat 32 (blockCount s.srcLen.toNat s.blockMax.toNat)
    lastLits :=
      if raw then 0#16
      else BitVec.ofNat 16
        (s.srcLen.toNat - (blockCount s.srcLen.toNat s.blockMax.toNat - 1) * s.blockMax.toNat)
    lastLitn := if !raw && decide (0 < s.srcLen.toNat) then 0x100#9 else 0#9
    lastClt := if !raw && decide (0 < s.srcLen.toNat) then ⟨true, 5#4, true⟩ else ⟨false, 0#4, false⟩ }

theorem State.framed_false (s : State) :
    s.framed false = ({ s with hdrUsize := s.srcLen } : State).attempted s.srcLen.toNat s.blockMax.toNat := by
  by_cases h : s.srcLen.toNat = 0
  · simp [State.framed, State.attempted, h]
  · simp [State.framed, State.attempted, h, Nat.pos_of_ne_zero h]

section
variable {s : State} {raw : Bool}

/-- The compressed form is never kept: it is never shorter (42_block_codec.md R162, 43_payload.md R192). -/
theorem keepsCompressed_encodeStream {M : Nat} (hM : 1 ≤ M) (order : CodeBitOrder) (data : List Byte) :
    keepsCompressed (encodeStream order M data).writer.out data = false := by
  rw [keepsCompressed, encodeStream_out_length hM]
  exact decide_eq_false (Nat.not_lt.2 (Nat.le_add_right _ _))

theorem bodyPencode_eq (hblocks : raw = false → s.BlockMaxOk) :
    bodyPencode raw s = storePayload (s.framed raw) false (s.srcStream.take s.srcLen.toNat) := by
  cases raw with
  | true => rfl
  | false =>
    have hM : 1 ≤ s.blockMax.toNat := (hblocks rfl).1
    have hregs := State.loadEncode_encodeStream hM s.cfg.codeBitOrder (s.srcStream.take s.srcLen.toNat)
      { s with hdrUsize := s.srcLen }
    rw [Stream.take_length, ← State.framed_false] at hregs
    rw [← hregs]
    simp only [bodyPencode, keepsCompressed_encodeStream hM, Bool.false_eq_true, if_false]
    rfl

theorem prologue_pencode (hsrc : s.SrcOk) (hdst : s.DstOk) (hdisjoint : s.Disjoint)
    (hblocks : raw = false → s.BlockMaxOk) : prologue (.pencode raw) s = none :=
  prologue_of_ranges rfl (fun h => hblocks (by simpa [usesBlockMax] using h)) hsrc hdst hdisjoint

/-- PENCODE's body: the attempt, then the capacity check and the raw payload behind its header. -/
theorem runOf_pencode (hp : prologue (.pencode raw) s = none) (hblocks : raw = false → s.BlockMaxOk) :
    runOf (.pencode raw) s =
      if s.dstCap.toNat < 9 + s.srcLen.toNat then faultRun (s.framed raw) .dstOverflow 0 (9 + s.srcLen.toNat)
      else
        { regs := { s.framed raw with packed := false, outLen := BitVec.ofNat 32 (9 + s.srcLen.toNat) }
          writes := cellsAt s.dstAddr.toNat (emitHdr s.srcLen false ++ s.srcStream.take s.srcLen.toNat)
          fault := none } := by
  refine (runCommand_of_none hp).trans ?_
  simp only [bodyPencode_eq hblocks, storePayload, storeRun, State.setOutLen, List.length_append, emitHdr_length,
    Stream.take_length, phdrBytes]
  rfl

end

/-- Settles O37: the bytes stored are the header's, then the source's. -/
theorem pencodeStoresRawPayload : Obligations.PencodeStoresRawPayload := by
  intro raw s hquiet hwf hsrc hdst hdisjoint hblocks n M tried hroom
  have hrun := runOf_pencode (prologue_pencode hsrc hdst hdisjoint hblocks) hblocks
  rw [if_neg (Nat.not_lt.2 hroom)] at hrun
  have hlen : (emitHdr s.srcLen false ++ s.srcStream.take n).length = 9 + n := by
    rw [List.length_append, emitHdr_length, Stream.take_length]
  have hbyte := memRead_store_same hwf s.dstAddr.toNat (emitHdr s.srcLen false ++ s.srcStream.take n)
  rw [hlen] at hbyte
  have hheader : ∀ j < 9, (emitHdr s.srcLen false ++ s.srcStream.take n).getD j 0#8 =
      (emitHdr s.srcLen false).getD j 0#8 := fun j hj => List.getD_append _ _ _ _ hj
  refine ⟨_, exec_of_stores rfl hrun hquiet, fun j hj => ?_, fun j h4 h9 => ?_, fun j hj => ?_, fun a ha => ?_⟩
  · exact (hbyte j (by omega)).trans ((hheader j (by omega)).trans (emitHdr_usize s.srcLen false hj))
  · exact (hbyte j (by omega)).trans ((hheader j h9).trans (emitHdr_raw_tail s.srcLen h4 h9))
  · rw [Nat.add_assoc]
    refine (hbyte (9 + j) (by omega)).trans ?_
    rw [List.getD_append_right _ _ _ _ (Nat.le_add_right 9 j), emitHdr_length, Nat.add_sub_cancel_left,
      Stream.take_getD _ _ hj, State.srcStream_of_quiet hquiet.1]
  · exact memRead_store_other _ (hlen.symm ▸ ha)

/-- Settles O39: the runs only fault, at the bytes they need; 9 bytes more than SRC_LEN always fit ERR_POS. -/
theorem encodersOverflowWriteNothing : Obligations.EncodersOverflowWriteNothing := by
  intro s hquiet hsrc hdst hdisjoint n M size
  refine ⟨fun hblocks hfull hfits => ?_, fun raw hblocks hfull => ?_⟩
  · have hn : s.srcLen.toNat ≠ 0 := ne_zero_of_encodedSize_pos (M := M) (Nat.zero_lt_of_lt hfull)
    have hrun := runOf_encode (prologue_encode hsrc hdst hdisjoint hblocks) hblocks
    rw [s.encodedForm_length hblocks] at hrun
    rw [exec_of_faultRun_regs rfl (hrun.trans (if_pos hfull)) hquiet, encodedSize, errPosWord_of_lt hfits]
    simp only [State.attempted, if_neg hn]
    rfl
  · have hfits : 9 + s.srcLen.toNat < 2 ^ 32 := by
      obtain ⟨hmax, -⟩ := hsrc
      simp only [srcLenMax] at hmax
      omega
    have hrun := runOf_pencode (prologue_pencode hsrc hdst hdisjoint hblocks) hblocks
    rw [exec_of_faultRun_regs rfl (hrun.trans (if_pos hfull)) hquiet, errPosWord_of_lt hfits]
    rfl

end Sys2Proof.Machine
end

section
/-! PDECODE as next states (43_payload.md R190, R193), where the host raced nothing: the header's number, the checks in
their order and the two branches, and the round trip of the framing (R195). -/

namespace Sys2Proof.Machine

/-! ## The header -/

/-- USIZE of a payload's header as a number: four bytes, big-endian (43_payload.md R190). -/
def Stream.usize (t : Stream) : Nat :=
  (t.byte 0).toNat * 2 ^ 24 + (t.byte 1).toNat * 2 ^ 16 + (t.byte 2).toNat * 2 ^ 8 + (t.byte 3).toNat

theorem toNat_append_byte {n : Nat} (x : BitVec n) (y : Byte) : (x ++ y).toNat = x.toNat * 2 ^ 8 + y.toNat := by
  rw [BitVec.toNat_append, ← Nat.shiftLeft_add_eq_or_of_lt y.isLt, Nat.shiftLeft_eq]

theorem parseHdr_usize_toNat (t : Stream) : (parseHdr t).1.toNat = t.usize := by
  simp only [parseHdr, toNat_append_byte, Stream.usize]
  omega

theorem parseHdr_usize (t : Stream) : (parseHdr t).1 = BitVec.ofNat 32 t.usize := by
  rw [← parseHdr_usize_toNat, BitVec.ofNat_toNat, BitVec.setWidth_eq]

theorem Stream.usize_lt (t : Stream) : t.usize < 2 ^ 32 := by
  rw [← parseHdr_usize_toNat]
  exact BitVec.isLt _

/-- The header that holds a 32-bit number's four bytes gives that number (43_payload.md R190, R191). -/
theorem Stream.usize_of_bytes {t : Stream} {n : Nat} (hn : n < 2 ^ 32)
    (h : ∀ j < 4, t.byte j = BitVec.ofNat 8 (n / 2 ^ (24 - 8 * j))) : t.usize = n := by
  rw [Stream.usize, h 0 (by decide), h 1 (by decide), h 2 (by decide), h 3 (by decide)]
  simp only [BitVec.toNat_ofNat]
  omega

theorem State.srcStream_byte_of_quiet {s : State} (h : s.srcDraw = none) (j : Nat) :
    s.srcStream.byte j = memRead s.mem (s.srcAddr.toNat + j) := by
  rw [State.srcStream_of_quiet h]

theorem State.srcStream_usize_of_quiet {s : State} (h : s.srcDraw = none) :
    s.srcStream.usize =
      (memRead s.mem (s.srcAddr.toNat + 0)).toNat * 2 ^ 24 + (memRead s.mem (s.srcAddr.toNat + 1)).toNat * 2 ^ 16 +
        (memRead s.mem (s.srcAddr.toNat + 2)).toNat * 2 ^ 8 + (memRead s.mem (s.srcAddr.toNat + 3)).toNat := by
  simp only [Stream.usize, State.srcStream_byte_of_quiet h]

/-! ## PDECODE's body -/

/-- What PDECODE leaves in the registers once it has read the header: the cleared cursors and HDR_USIZE (R193). -/
def State.headerRead (s : State) : State := { s.clearDecode with hdrUsize := BitVec.ofNat 32 s.srcStream.usize }

/-- What it leaves once the flag is known to be legal: PACKED too (R193). -/
def State.flagRead (s : State) : State := { s.headerRead with packed := decide (s.srcStream.byte 8 = 1#8) }

section
variable {s : State}

theorem prologue_pdecode (hsrc : s.SrcOk) (hdst : s.DstOk) (hdisjoint : s.Disjoint) : prologue .pdecode s = none :=
  prologue_of_ranges rfl nofun hsrc hdst hdisjoint

theorem runOf_pdecode_of_short (hp : prologue .pdecode s = none) (hlen : s.srcLen.toNat < 9) :
    runOf .pdecode s = faultRun s.clearDecode .srcExhausted 2 9 :=
  (runCommand_of_none hp).trans (if_pos hlen)

/-- PDECODE's checks behind a whole header, in their order, and its branches. -/
theorem runOf_pdecode_of_header (hp : prologue .pdecode s = none) (hlen : 9 ≤ s.srcLen.toNat) :
    runOf .pdecode s =
      if 1 < (s.srcStream.byte 8).toNat then faultRun s.headerRead .badFlag 0 0
      else if s.dstCap.toNat < s.srcStream.usize then faultRun s.flagRead .dstOverflow 0 s.srcStream.usize
      else if s.srcStream.byte 8 = 0#8 then
        if s.srcLen.toNat < 9 + s.srcStream.usize then
          faultRun s.flagRead .srcExhausted 2 (9 + s.srcStream.usize)
        else storeRun s.flagRead ((s.srcStream.skip 9).take s.srcStream.usize)
      else decodeRun s.flagRead (s.srcStream.skip 9) s.srcStream.usize := by
  refine (runCommand_of_none hp).trans ((if_neg (Nat.not_lt.2 hlen)).trans ?_)
  simp only [bodyPdecodePayload, parseHdr_usize, BitVec.toNat_ofNat, Nat.mod_eq_of_lt s.srcStream.usize_lt]
  rfl

theorem runOf_pdecode_of_raw (hp : prologue .pdecode s = none) (hlen : 9 ≤ s.srcLen.toNat)
    (hflag : s.srcStream.byte 8 = 0#8) (hcap : s.srcStream.usize ≤ s.dstCap.toNat) :
    runOf .pdecode s =
      if s.srcLen.toNat < 9 + s.srcStream.usize then
        faultRun { s.headerRead with packed := false } .srcExhausted 2 (9 + s.srcStream.usize)
      else storeRun { s.headerRead with packed := false } ((s.srcStream.skip 9).take s.srcStream.usize) := by
  rw [runOf_pdecode_of_header hp hlen, State.flagRead, hflag, if_neg (by decide), if_neg (Nat.not_lt.2 hcap),
    if_pos rfl]
  rfl

theorem runOf_pdecode_of_codec (hp : prologue .pdecode s = none) (hlen : 9 ≤ s.srcLen.toNat)
    (hflag : s.srcStream.byte 8 = 1#8) (hcap : s.srcStream.usize ≤ s.dstCap.toNat) :
    runOf .pdecode s = decodeRun { s.headerRead with packed := true } (s.srcStream.skip 9) s.srcStream.usize := by
  rw [runOf_pdecode_of_header hp hlen, State.flagRead, hflag, if_neg (by decide), if_neg (Nat.not_lt.2 hcap),
    if_neg (by decide)]
  rfl

end

/-- Settles O36: behind each check the run only faults, with the registers set up to there. -/
theorem pdecodeHeaderFaultsInOrder : Obligations.PdecodeHeaderFaultsInOrder := by
  intro s hquiet hsrc hdst hdisjoint b usize faulted
  have hp := prologue_pdecode hsrc hdst hdisjoint
  have hbyte : ∀ j, s.srcStream.byte j = b j := State.srcStream_byte_of_quiet hquiet.1
  have husize : s.srcStream.usize = usize := State.srcStream_usize_of_quiet hquiet.1
  have hsmall : usize < 2 ^ 32 := husize ▸ s.srcStream.usize_lt
  refine ⟨fun hshort => ?_, fun hlen hflag => ?_, fun hlen hflag hfull => ?_,
    fun hlen hflag hcap hshort hfits => ?_⟩
  · exact exec_of_faultRun_regs rfl (runOf_pdecode_of_short hp hshort) hquiet
  · have hrun := (runOf_pdecode_of_header hp hlen).trans (if_pos (by rwa [hbyte]))
    rw [exec_of_faultRun_regs rfl hrun hquiet, State.headerRead, husize]
    rfl
  · rw [← husize] at hfull
    have hlegal : ¬ 1 < (s.srcStream.byte 8).toNat := by rwa [hbyte, Nat.not_lt]
    have hrun := (runOf_pdecode_of_header hp hlen).trans ((if_neg hlegal).trans (if_pos hfull))
    rw [exec_of_faultRun_regs rfl hrun hquiet, State.flagRead, State.headerRead, husize, hbyte,
      errPosWord_of_lt hsmall]
    rfl
  · rw [← husize] at hcap hshort
    have hrun := (runOf_pdecode_of_raw hp hlen ((hbyte 8).trans hflag) hcap).trans (if_pos hshort)
    rw [exec_of_faultRun_regs rfl hrun hquiet, State.headerRead, husize, errPosWord_of_lt hfits]
    rfl

/-! ## A raw payload -/

/-- Settles O34: the bytes stored are the USIZE bytes behind the header. -/
theorem pdecodeRawPayload : Obligations.PdecodeRawPayload := by
  intro s hquiet hwf hsrc hdst hdisjoint b usize hlen hflag hcap hwhole
  have hbyte : ∀ j, s.srcStream.byte j = b j := State.srcStream_byte_of_quiet hquiet.1
  have husize : s.srcStream.usize = usize := State.srcStream_usize_of_quiet hquiet.1
  have hrun := runOf_pdecode_of_raw (prologue_pdecode hsrc hdst hdisjoint) hlen ((hbyte 8).trans hflag)
    (husize.symm ▸ hcap)
  rw [husize, if_neg (Nat.not_lt.2 hwhole), storeRun, State.headerRead, husize, State.setOutLen,
    Stream.take_length] at hrun
  refine ⟨_, exec_of_stores rfl hrun hquiet, fun j hj => ?_, fun a ha => ?_⟩
  · refine (memRead_store_same hwf _ _ j (by rwa [Stream.take_length])).trans ?_
    rw [Stream.take_getD _ _ hj, Stream.skip_byte, hbyte]
  · exact memRead_store_other _ (by rwa [Stream.take_length])

/-! ## A codec payload -/

section
variable {i : Instr} {s u : State} {t : Stream} {T : Nat} {c : Cursor}

/-- The next state of a command whose run is a Decode that succeeds. -/
theorem exec_of_decodeRun_ok (hi : i.format = .cmd) (hrun : runOf i s = decodeRun u t T) (hquiet : u.Quiet)
    (hwf : Memory.wf u.mem) (hpos : u.brPos = 0#32)
    (hdecode : decodeStream u.cfg.codeBitOrder t T u.cursor = .ok c) :
    ∃ m : Memory,
      exec i s = .next
        { u with
          mem := m, outLen := BitVec.ofNat 32 T, brPos := BitVec.ofNat 32 c.brPos
          blkCount := BitVec.ofNat 32 c.blkCount, lastLits := BitVec.ofNat 16 c.lastLits
          lastLitn := BitVec.ofNat 9 c.lastLitn, lastClt := c.lastClt, litLen := c.litLen
          cltLen := c.cltLen, tree := c.tree, produced := T
          done := true, phase := .idle, engineDue := 0, draws := u.draws + 1 } ∧
      (∀ j < T, memRead m (u.dstAddr.toNat + j) = c.out.getD j 0#8) ∧
      ∀ a, (a < u.dstAddr.toNat ∨ u.dstAddr.toNat + T ≤ a) → memRead m a = memRead u.mem a := by
  have hstart : u.cursor.brPos ≤ 8 * t.len := by rw [State.cursor, hpos]; exact Nat.zero_le _
  obtain ⟨hproduced, hout, -⟩ := (decodeProducesItsTarget _ _ _ _ hstart).1 c hdecode
  have hstores := hrun.trans (decodeRun_of_ok hdecode)
  rw [State.loadCursor, ← c.out_length, hout, hproduced] at hstores
  refine ⟨_, exec_of_stores hi hstores hquiet, fun j hj => ?_, fun a ha => ?_⟩
  · exact memRead_store_same hwf _ _ j (hout.symm ▸ hj)
  · exact memRead_store_other _ (hout.symm ▸ ha)

/-- The next state of a command whose run is a Decode that faults, on a stream whose positions fit ERR_POS. -/
theorem exec_of_decodeRun_error {f : FaultReport} (hi : i.format = .cmd) (hrun : runOf i s = decodeRun u t T)
    (hquiet : u.Quiet) (hwf : Memory.wf u.mem) (hpos : u.brPos = 0#32) (hfits : 8 * t.len < 2 ^ 32)
    (hdecode : decodeStream u.cfg.codeBitOrder t T u.cursor = .error (f, c)) :
    ∃ m : Memory,
      exec i s = .next
        { u with
          mem := m, outLen := BitVec.ofNat 32 c.produced, brPos := BitVec.ofNat 32 c.brPos
          blkCount := BitVec.ofNat 32 c.blkCount, lastLits := BitVec.ofNat 16 c.lastLits
          lastLitn := BitVec.ofNat 9 c.lastLitn, lastClt := c.lastClt, litLen := c.litLen
          cltLen := c.cltLen, tree := c.tree, produced := c.produced
          errCode := f.code, errSub := f.sub, errPos := BitVec.ofNat 32 c.brPos, err := true
          phase := .idle, engineDue := 0, draws := u.draws + 1 } ∧
      (∀ j < c.produced, memRead m (u.dstAddr.toNat + j) = c.out.getD j 0#8) ∧
      ∀ a, (a < u.dstAddr.toNat ∨ u.dstAddr.toNat + c.produced ≤ a) → memRead m a = memRead u.mem a := by
  have hstart : u.cursor.brPos ≤ 8 * t.len := by rw [State.cursor, hpos]; exact Nat.zero_le _
  obtain ⟨hout, -, hinside, hfault⟩ := (decodeProducesItsTarget _ _ _ _ hstart).2 f c hdecode
  have hstores := hrun.trans (decodeRun_of_error hdecode)
  rw [State.loadCursor, ← c.out_length, hout] at hstores
  have herrPos : errPosWord f.pos = BitVec.ofNat 32 c.brPos := by rw [hfault, errPosWord_of_lt (by omega)]
  refine ⟨_, (exec_of_stores_fault hi hstores hquiet).trans (by rw [herrPos]), fun j hj => ?_, fun a ha => ?_⟩
  · exact memRead_store_same hwf _ _ j (hout.symm ▸ hj)
  · exact memRead_store_other _ (hout.symm ▸ ha)

end

/-- Settles O35: the run is that of Decode on the source from byte 9 on, with HDR_USIZE and PACKED set before it. -/
theorem pdecodeCodecPayload : Obligations.PdecodeCodecPayload := by
  intro s hquiet hwf hsrc hdst hdisjoint b usize decoded hlen hflag hcap
  have hbyte : ∀ j, s.srcStream.byte j = b j := State.srcStream_byte_of_quiet hquiet.1
  have husize : s.srcStream.usize = usize := State.srcStream_usize_of_quiet hquiet.1
  have hstream : s.srcStream.skip 9 = { byte := fun j => b (9 + j), len := s.srcLen.toNat - 9 } := by
    rw [State.srcStream_of_quiet hquiet.1]
    rfl
  have hrun := runOf_pdecode_of_codec (prologue_pdecode hsrc hdst hdisjoint) hlen ((hbyte 8).trans hflag)
    (husize.symm ▸ hcap)
  rw [husize, hstream, State.headerRead, husize] at hrun
  have hfits : 8 * (s.srcLen.toNat - 9) < 2 ^ 32 := by
    obtain ⟨hmax, -⟩ := hsrc
    simp only [srcLenMax] at hmax
    omega
  exact ⟨fun c hdecode => exec_of_decodeRun_ok rfl hrun hquiet hwf rfl hdecode,
    fun f c hdecode => exec_of_decodeRun_error rfl hrun hquiet hwf rfl hfits hdecode⟩

/-! ## The round trip of the framing -/

theorem exec_command_mem_wf {i : Instr} {s t : State} (hi : i.format = .cmd) (hwf : Memory.wf s.mem)
    (h : exec i s = .next t) : Memory.wf t.mem := by
  obtain rfl := eq_finish_of_exec hi h
  obtain ⟨hmem, -⟩ := (runOf_spec i s).frame
  rw [Run.finish_mem, hmem]
  exact scramble_wf (applyWrites_wf hwf _) _ _

/-- PENCODE without a fault had room for its payload (43_payload.md R194). -/
theorem room_of_pencode_ok {raw : Bool} {s t : State} (hquiet : s.Quiet) (hsrc : s.SrcOk) (hdst : s.DstOk)
    (hdisjoint : s.Disjoint) (hblocks : raw = false → s.BlockMaxOk) (hexec : exec (.pencode raw) s = .next t)
    (herr : t.err = false) : 9 + s.srcLen.toNat ≤ s.dstCap.toNat := by
  by_contra hfull
  obtain ⟨-, hoverflow⟩ := encodersOverflowWriteNothing s hquiet hsrc hdst hdisjoint
  rw [hoverflow raw hblocks (Nat.not_le.1 hfull)] at hexec
  cases hexec
  cases herr

/-- Settles O38: PENCODE stores a raw payload whose header holds SRC_LEN, and PDECODE copies the bytes behind it. -/
theorem framingRoundTrip : Obligations.FramingRoundTrip := by
  intro raw s t u hquiet hwf hsrc hdst hdisjoint hblocks hshort hexec herr uquiet usrc udst udisjoint _ hmem haddr hlen
    hcap
  have hwft : Memory.wf t.mem := exec_command_mem_wf rfl hwf hexec
  have hroom := room_of_pencode_ok hquiet hsrc hdst hdisjoint hblocks hexec herr
  obtain ⟨m, hpencode, hhead, htail, hdata, -⟩ :=
    pencodeStoresRawPayload raw s hquiet hwf hsrc hdst hdisjoint hblocks hroom
  obtain rfl := Host.Outcome.next.inj (hexec.symm.trans hpencode)
  simp only at hmem hlen
  have hfits : 9 + s.srcLen.toNat < 2 ^ 32 := by simp only [srcLenMax] at hshort; omega
  have hsrcLen : u.srcLen.toNat = 9 + s.srcLen.toNat := by rw [hlen, BitVec.toNat_ofNat, Nat.mod_eq_of_lt hfits]
  have husize := (State.srcStream_usize_of_quiet uquiet.1).symm.trans
    (Stream.usize_of_bytes s.srcLen.isLt fun j hj => by
      rw [State.srcStream_byte_of_quiet uquiet.1, hmem, haddr, hhead j hj])
  have hflag : memRead u.mem (u.srcAddr.toNat + 8) = 0#8 := by
    rw [hmem, haddr]
    exact htail 8 (by decide) (by decide)
  have hpdecode := pdecodeRawPayload u uquiet (hmem ▸ hwft) usrc udst udisjoint
  simp only [husize] at hpdecode
  obtain ⟨m', hnext, hcopied, -⟩ :=
    hpdecode (hsrcLen ▸ Nat.le_add_right 9 _) hflag hcap hsrcLen.ge
  refine ⟨_, hnext, rfl, rfl, rfl, by rw [BitVec.ofNat_toNat, BitVec.setWidth_eq], fun j hj => ?_⟩
  calc memRead m' (u.dstAddr.toNat + j)
      _ = memRead m (s.dstAddr.toNat + 9 + j) := by rw [hcopied j hj, hmem, haddr, Nat.add_assoc]
      _ = memRead s.mem (s.srcAddr.toNat + j) := hdata j hj

end Sys2Proof.Machine
end

section
/-! The engine's step and the stops (44_control.md R213, R214, R216): ABORT and SOFT_RESET leave the same memory behind,
which `Run.stoppedMemory_spec` describes. -/

namespace Sys2Proof.Machine

/-! ## The engine's step -/

/-- Settles O5: the turn gives the engine its step, and the latched word gives that step its meaning. -/
theorem stepRunsLatchedCommand : Obligations.StepRunsLatchedCommand := fun _ _ hturn hdecode =>
  (step_of_engine hturn).trans (State.engineStep_command hdecode)

/-- The engine's step finishes the run of the latched word, legal or not (44_control.md R210, R216). -/
theorem State.engineStep_eq_finish (s : State) : s.engineStep = .next (runLatched s).finish := by
  unfold runLatched
  cases hdecode : decodeCommand s.latch with
  | ok i => exact (State.engineStep_command hdecode).trans (exec_command (decodeCommand_format hdecode) s)
  | error e => exact State.engineStep_illegal hdecode

/-! ## ABORT and SOFT_RESET -/

/-- The memory of a block whose engine was stopped (44_control.md R213, R214). -/
theorem State.stoppedMemory_spec (s : State) :
    (∃ k ≤ (runLatched s).writes.length,
      (s.dstTouched = [] → s.stoppedMemory = applyWrites s.mem ((runLatched s).writes.take k)) ∧
      ∀ a, a ∉ s.dstTouched →
        memRead s.stoppedMemory a = memRead (applyWrites s.mem ((runLatched s).writes.take k)) a) ∧
    ∀ a, a ∉ s.dstTouched → (a < s.dstAddr.toNat ∨ s.dstAddr.toNat + s.dstCap.toNat ≤ a) →
      memRead s.stoppedMemory a = memRead s.mem a :=
  (runLatched s).stoppedMemory_spec s fun c hc => by
    obtain ⟨hge, hlt, -⟩ := runLatched_writes s c hc
    exact ⟨hge, hlt⟩

theorem exec_abort_of_idle {s : State} (h : s.busy = false) (ie : Bool) :
    exec (.abort ie) s = .next (s.setIrqEn ie) := if_neg (by simp [h])

theorem exec_abort_of_busy {s : State} (h : s.busy = true) (ie : Bool) :
    exec (.abort ie) s = .next (s.setIrqEn ie).abortRun := if_pos h

/-- Settles O42: the two branches of ABORT; what the stop leaves in memory is `State.stoppedMemory_spec`. -/
theorem abortStopsRunningCommand : Obligations.AbortStopsRunningCommand := by
  intro ie s
  refine ⟨fun hidle => exec_abort_of_idle hidle ie, fun hbusy => ?_⟩
  exact ⟨_, exec_abort_of_busy hbusy ie, rfl, (s.setIrqEn ie).stoppedMemory_spec⟩

theorem State.resetMemory_of_idle {s : State} (h : s.busy = false) : s.resetMemory = s.mem := if_neg (by simp [h])

theorem State.resetMemory_of_busy {s : State} (h : s.busy = true) : s.resetMemory = s.stoppedMemory := if_pos h

/-- Settles O43: a reset of a running block stops it as ABORT does. -/
theorem softResetRestoresResetValues : Obligations.SoftResetRestoresResetValues := by
  intro s
  refine ⟨s.softReset, rfl, rfl, State.forgetTables_tablesOk _, State.resetMemory_of_idle, fun hbusy => ?_⟩
  have hmem : s.softReset.mem = s.stoppedMemory := State.resetMemory_of_busy hbusy
  rw [hmem]
  exact s.stoppedMemory_spec

end Sys2Proof.Machine
end

section
/-! What a host step does to the command that may be running (44_control.md R216; 70_reset_and_hazards.md R265, R266,
R270). `hostStep_effect` says it once, for an access that keeps the hazard rules and for one that does not: the access
ends the command, or nothing was running, or the access passes the command by. -/

namespace Sys2Proof.Machine

/-! ## The three effects -/

/-- The accesses that end a running command: the hardware reset input, and the CTRL writes of SOFT_RESET and ABORT. -/
def HostOp.IsEnd (op : HostOp) (s : State) : Prop :=
  (∃ contents, op = .hardwareReset contents) ∨
    ∃ v i, op = .busWrite (s.cfg.regBase + 0x08) 4 v ∧ decodeCtrl v = .ok i ∧
      (i = .softReset ∨ ∃ ie, i = .abort ie)

/-- From `s` to `t` no write error and no race was put on record, and every byte of the running command's ranges keeps
its value (70_reset_and_hazards.md R265, R266). -/
def State.Spares (s t : State) : Prop :=
  (t.werr = true → s.werr = true) ∧ (t.srcDraw = s.srcDraw ∧ t.dstTouched = s.dstTouched ∧ t.draws = s.draws) ∧
    ∀ a, s.ownsSrc a = true ∨ s.ownsDst a = true → memRead t.mem a = memRead s.mem a

/-- After the access `op`, which is one that ends a command, none runs. -/
def EndsCommand (op : HostOp) (s t : State) : Prop :=
  op.IsEnd s ∧ t.busy = false ∧ t.Quiet ∧ (t.werr = true → s.werr = true)

/-- No command ran before, and no write error or race was put on record: an operand was written, or START accepted. -/
def PreparesCommand (s t : State) : Prop :=
  s.busy = false ∧ (s.Quiet → t.Quiet) ∧ (t.werr = true → s.werr = true)

/-- Only these fields changed, and by an access that keeps the hazard rules none that the command reads or writes. -/
def PassesCommand (op : HostOp) (s t : State) : Prop :=
  t = { s with
    irqEn := t.irqEn, done := t.done, err := t.err, werr := t.werr, mem := t.mem, pending := t.pending
    reply := t.reply, srcDraw := t.srcDraw, dstTouched := t.dstTouched, draws := t.draws } ∧
  (hazardFree op s = true → s.Spares t)

/-- What the host's access `op` can do from `s` to `t`. -/
def HostEffect (op : HostOp) (s t : State) : Prop :=
  EndsCommand op s t ∨ PreparesCommand s t ∨ PassesCommand op s t

theorem HostEffect.ends {op : HostOp} {s t : State} (h : EndsCommand op s t) : HostEffect op s t := .inl h
theorem HostEffect.prepares {op : HostOp} {s t : State} (h : PreparesCommand s t) : HostEffect op s t := .inr (.inl h)
theorem HostEffect.passes {op : HostOp} {s t : State} (h : PassesCommand op s t) : HostEffect op s t := .inr (.inr h)

/-- Memory and the model's record of races and draws are those of before. -/
theorem State.Spares.of_kept {s t : State} (hwerr : t.werr = true → s.werr = true) (hsrc : t.srcDraw = s.srcDraw)
    (hdst : t.dstTouched = s.dstTouched) (hdraws : t.draws = s.draws) (hmem : t.mem = s.mem) : s.Spares t :=
  ⟨hwerr, ⟨hsrc, hdst, hdraws⟩, fun _ _ => by rw [hmem]⟩

/-- An access that is only answered. -/
theorem HostEffect.of_answer (op : HostOp) (s : State) (r : BusReply) : HostEffect op s (s.answer r) :=
  .passes ⟨rfl, fun _ => .of_kept id rfl rfl rfl rfl⟩

/-! ## The window -/

theorem offset_of_regAt {off : Nat} {r : Reg} (h : regAt off = r) (hr : r ≠ .reserved) (h4 : off % 4 = 0) :
    off = r.offset := by
  have hlow : off < 0x5C := by
    by_contra hge
    exact hr (h ▸ regAt_reserved (Nat.not_lt.1 hge))
  obtain ⟨k, rfl⟩ := Nat.dvd_of_mod_eq_zero h4
  have hk : k < 0x17 := Nat.lt_of_mul_lt_mul_left hlow
  rw [← h]
  interval_cases k <;> rfl

/-- A register with an offset of its own is reached by that one access only (10_state.md R20, R21). -/
theorem eq_of_busTarget_eq_reg {base addr width : Nat} {r : Reg} (h : busTarget base addr width = .reg r)
    (hr : r ≠ .reserved) : addr = base + r.offset ∧ width = 4 := by
  unfold busTarget at h
  split_ifs at h with _ haligned
  obtain ⟨hbase, hwidth, h4⟩ := haligned
  rw [← offset_of_regAt (BusTarget.reg.inj h) hr h4, Nat.add_sub_cancel' hbase]
  exact ⟨rfl, hwidth⟩

/-! ## Hazards -/

/-- During BUSY an operand write is ignored with a write error (10_state.md R46), and so is a START (44_control.md
R211). -/
theorem not_hazardFree_busWrite {s : State} {addr width : Nat} {v : Word} {r : Reg}
    (h : busTarget s.cfg.regBase addr width = .reg r) (hbusy : s.busy = true)
    (hwrite : r.isOperand = true ∨ r = .ctrl ∧ ∃ ie, decodeCtrl v = .ok (.start ie)) :
    ¬hazardFree (.busWrite addr width v) s = true := by
  unfold hazardFree
  rcases hwrite with hop | ⟨rfl, ie, hd⟩
  · simp [h, hop, hbusy]
  · simp [h, hd, hbusy]

/-- A result or cursor register reads as any value during BUSY (70_reset_and_hazards.md R266). -/
theorem not_hazardFree_openRead {s : State} {addr width : Nat} {r : Reg}
    (h : busTarget s.cfg.regBase addr width = .reg r) (hbusy : s.busy = true) (hopen : r.openWhileBusy = true) :
    ¬hazardFree (.busRead addr width) s = true := by
  unfold hazardFree
  simp [h, hopen, hbusy]

theorem hazardFree_memWrite {s : State} {a : Nat} {v : Byte} (h : hazardFree (.memWrite a v) s = true) :
    s.ownsSrc a = false ∧ s.ownsDst a = false :=
  Bool.or_eq_false_iff.1 (Bool.not_eq_true' _ ▸ h)

theorem hazardFree_memRead {s : State} {a : Nat} (h : hazardFree (.memRead a) s = true) : s.ownsDst a = false :=
  Bool.not_eq_true' _ ▸ h

/-! ## Access by access -/

/-- A write of CTRL: its action, or only IRQ_EN (30_encoding.md R85). -/
theorem writeCtrl_effect {s t : State} {addr width : Nat} {v : Word}
    (htarget : busTarget s.cfg.regBase addr width = .reg .ctrl) (ht : writeCtrl v (s.answer .done) = .next t) :
    HostEffect (.busWrite addr width v) s t := by
  obtain ⟨rfl, rfl⟩ := eq_of_busTarget_eq_reg htarget (by simp)
  unfold writeCtrl at ht
  cases hd : decodeCtrl v with
  | error e =>
    rw [hd] at ht
    cases ht
    exact .passes ⟨rfl, fun _ => .of_kept id rfl rfl rfl rfl⟩
  | ok i =>
    rw [hd] at ht
    rcases decodeCtrl_cases hd with rfl | rfl | rfl
    · cases ht
      exact .ends ⟨.inr ⟨v, _, rfl, hd, .inl rfl⟩, rfl, ⟨rfl, rfl⟩, fun h => absurd h Bool.false_ne_true⟩
    · cases hb : s.busy with
      | true =>
        cases (exec_abort_of_busy (s := s.answer .done) hb _).symm.trans ht
        exact .ends ⟨.inr ⟨v, _, rfl, hd, .inr ⟨_, rfl⟩⟩, rfl, ⟨rfl, rfl⟩, id⟩
      | false =>
        cases (exec_abort_of_idle (s := s.answer .done) hb _).symm.trans ht
        exact .passes ⟨rfl, fun _ => .of_kept id rfl rfl rfl rfl⟩
    · obtain ⟨haccept, hrefuse⟩ := startLatchesOrSetsWerr (irqEnField v) (s.answer .done)
      cases hb : s.busy with
      | true =>
        cases (hrefuse hb).symm.trans ht
        exact .passes ⟨rfl, fun hfree => absurd hfree (not_hazardFree_busWrite htarget hb (.inr ⟨rfl, _, hd⟩))⟩
      | false =>
        obtain ⟨k, hk⟩ := haccept hb
        cases hk.symm.trans ht
        exact .prepares ⟨hb, fun _ => ⟨rfl, rfl⟩, id⟩

theorem State.setOperand_quiet {s : State} (h : s.Quiet) (r : Reg) (v : Word) : (s.setOperand r v).Quiet := by
  cases r <;> exact h

theorem State.setOperand_werr (r : Reg) (v : Word) (s : State) : (s.setOperand r v).werr = s.werr := by
  cases r <;> rfl

/-- A write of another register: W1C, an operand, a write error, or nothing. -/
theorem writeReg_effect {s : State} {addr width : Nat} {v : Word} {r : Reg}
    (htarget : busTarget s.cfg.regBase addr width = .reg r) :
    HostEffect (.busWrite addr width v) s ((s.answer .done).writeReg r v) := by
  rcases (s.answer .done).writeReg_cases r v with ⟨-, hw⟩ | ⟨hop, hbusy, hw⟩ | ⟨-, hidle, hw⟩ | ⟨-, -, hw⟩
  · rw [hw]
    exact .passes ⟨rfl, fun _ => .of_kept (fun h => (Bool.and_eq_true_iff.1 h).1) rfl rfl rfl rfl⟩
  · rw [hw]
    exact .passes ⟨rfl, fun hfree => absurd hfree (not_hazardFree_busWrite htarget hbusy (.inl hop))⟩
  · rw [hw]
    exact .prepares ⟨hidle, fun hquiet => State.setOperand_quiet (s := s.answer .done) hquiet r v,
      fun h => by rwa [State.setOperand_werr] at h⟩
  · rw [hw]
    exact .of_answer _ s _

/-- A read of a register. -/
theorem readReg_effect {s : State} {addr width : Nat} {r : Reg}
    (htarget : busTarget s.cfg.regBase addr width = .reg r) :
    HostEffect (.busRead addr width) s (s.readReg r) := by
  rcases s.readReg_cases r with ⟨hr, -⟩ | ⟨hr, hbusy, hopen⟩
  · rw [hr]
    exact .of_answer _ s _
  · rw [hr]
    exact .passes ⟨rfl, fun hfree => absurd hfree (not_hazardFree_openRead htarget hbusy hopen)⟩

/-- A write of buffer memory: the byte written is none of the command's where the write keeps the hazard rules. -/
theorem hostMemWrite_effect {s t : State} {a : Nat} {v : Byte} (ht : hostMemWrite a v s = .next t) :
    HostEffect (.memWrite a v) s t := by
  rcases hostMemWrite_cases a v s with ⟨-, hf⟩ | ⟨-, srcDraw, dstTouched, draws, hn, hkept, hrecord⟩
  · cases hf.symm.trans ht
  · cases hn.symm.trans ht
    refine .passes ⟨rfl, fun hfree => ?_⟩
    obtain ⟨hsrc, hdst⟩ := hazardFree_memWrite hfree
    obtain ⟨hdraw, hdraws⟩ := hkept hsrc
    refine ⟨id, ⟨hdraw, hrecord.trans (if_neg (by simp [hdst])), hdraws⟩, fun b hb => ?_⟩
    have hne : b ≠ a := by
      rintro rfl
      simp [hsrc, hdst] at hb
    exact memRead_memWrite_other s.mem v hne

/-- A read of buffer memory. -/
theorem hostMemRead_effect {s t : State} {a : Nat} (ht : hostMemRead a s = .next t) :
    HostEffect (.memRead a) s t := by
  rcases hostMemRead_cases a s with ⟨-, hf⟩ | ⟨-, -, hn⟩ | ⟨-, howns, b, hn⟩
  · cases hf.symm.trans ht
  · cases hn.symm.trans ht
    exact .of_answer _ s _
  · cases hn.symm.trans ht
    exact .passes ⟨rfl, fun hfree => absurd howns (by simp [hazardFree_memRead hfree])⟩

/-- Everything a host step can do to the command that may be running. -/
theorem hostStep_effect {op : HostOp} {s t : State} (ht : hostStep op s = .next t) : HostEffect op s t := by
  cases op with
  | busWrite addr width v =>
    cases htarget : busTarget s.cfg.regBase addr width with
    | elsewhere => rw [hostStep_busWrite_elsewhere htarget] at ht; cases ht; exact .of_answer _ s _
    | illegal => rw [hostStep_busWrite_illegal htarget] at ht; cases ht; exact .of_answer _ s _
    | reg r =>
      rw [hostStep_busWrite_reg htarget] at ht
      unfold writeRegister at ht
      split_ifs at ht with hr
      · subst hr
        exact writeCtrl_effect htarget ht
      · cases ht
        exact writeReg_effect htarget
  | busRead addr width =>
    cases htarget : busTarget s.cfg.regBase addr width with
    | elsewhere => rw [hostStep_busRead_elsewhere htarget] at ht; cases ht; exact .of_answer _ s _
    | illegal => rw [hostStep_busRead_illegal htarget] at ht; cases ht; exact .of_answer _ s _
    | reg r => rw [hostStep_busRead_reg htarget] at ht; cases ht; exact readReg_effect htarget
  | memWrite a v => exact hostMemWrite_effect ht
  | memRead a => exact hostMemRead_effect ht
  | poll =>
    cases ht
    split_ifs
    · exact .passes ⟨rfl, fun _ => .of_kept id rfl rfl rfl rfl⟩
    · exact .of_answer _ s _
  | hardwareReset contents =>
    cases ht
    exact .ends ⟨.inl ⟨contents, rfl⟩, rfl, ⟨rfl, rfl⟩, fun h => absurd h Bool.false_ne_true⟩

/-! ## Fairness and noninterference -/

/-- Settles O8: the engine's step finishes a run; a host step that leaves the command running passes it by, and the
wait was lowered when its access was taken off the queue. -/
theorem engineIsFair : Obligations.EngineIsFair := by
  intro s t ht
  refine ⟨fun hturn => ?_, fun op rest hrun hturn hrun' => ?_⟩
  · rw [step_of_engine hturn, State.engineStep_eq_finish] at ht
    cases ht
    exact Run.finish_phase _
  · rw [step_of_host hturn] at ht
    rcases hostStep_effect ht with ⟨-, hidle, -, -⟩ | ⟨hidle, -, -⟩ | ⟨hframe, -⟩
    · exact absurd (State.busy_eq_true.2 hrun') (by simp [hidle])
    · exact absurd (State.busy_eq_false.1 hidle) (by simp [hrun])
    · have hdue : t.engineDue = s.engineDue - 1 := congrArg State.engineDue hframe
      have hwait : s.engineDue ≠ 0 := (State.turn_eq_host.1 hturn).2 hrun
      exact hdue ▸ Nat.pred_lt hwait

/-- Settles O56: effect by effect. -/
theorem hazardFreeHostDisturbsNothing : Obligations.HazardFreeHostDisturbsNothing := by
  intro op s t hfree ht
  rcases hostStep_effect ht with ⟨haccess, hidle, hquiet, hwerr⟩ | ⟨hidle, hquiet, hwerr⟩ | ⟨hframe, hspares⟩
  · exact ⟨hwerr, fun _ => hquiet, fun _ => .inl ⟨hidle, haccess⟩⟩
  · exact ⟨hwerr, hquiet, fun hbusy => absurd hbusy (by simp [hidle])⟩
  · obtain ⟨hwerr, ⟨hsrc, hdst, hdraws⟩, howned⟩ := hspares hfree
    have hrecord : s.Quiet → t.Quiet := by
      rintro ⟨hnone, huntouched⟩
      exact ⟨hsrc.trans hnone, hdst.trans huntouched⟩
    rw [hsrc, hdst, hdraws] at hframe
    exact ⟨hwerr, hrecord, fun _ => .inr ⟨hframe, howned⟩⟩

end Sys2Proof.Machine
end

section
/-! The hardware reset input (70_reset_and_hazards.md R260 to R262). -/

namespace Sys2Proof.Machine

/-- Settles O44: register by register; the tables are some that SOFT_RESET may leave too. -/
theorem hardwareResetRestoresResetValues : Obligations.HardwareResetRestoresResetValues := by
  intro contents s
  refine ⟨s.hardwareReset contents, rfl, fun r hr => ?_, rfl, rfl, rfl, State.forgetTables_tablesOk _⟩
  cases r with
  | caps => exact absurd rfl hr
  | _ => rfl

end Sys2Proof.Machine
end

section
/-! What a command cannot see (44_control.md R216; 70_reset_and_hazards.md R265, R271): LATCH, the host's queue and
answer, the model's counters, and the record of raced destination bytes. A run from a state with others of these is the
same run with these in its registers; only finishing the run uses the record and the draw count. -/

namespace Sys2Proof.Machine

/-! ## Runs -/

/-- The same state with another host side and another record of raced destination bytes. -/
def State.withUnread (x : Side) (touched : List Nat) (s : State) : State :=
  { s.withSide x with dstTouched := touched }

/-- The same run with these in its registers. -/
def Run.withUnread (x : Side) (touched : List Nat) (r : Run) : Run := { r with regs := r.regs.withUnread x touched }

section
variable {x : Side} {touched : List Nat}

/-- The prologue sees none of them, so neither does a command whose body sees none. -/
theorem runCommand_withUnread (i : Instr) {body : State → Run} {s : State}
    (h : body (s.withUnread x touched) = (body s).withUnread x touched) :
    runCommand i body (s.withUnread x touched) = (runCommand i body s).withUnread x touched := by
  have hprologue : prologue i (s.withUnread x touched) = prologue i s := rfl
  rcases runCommand_cases i body s with ⟨hpass, hrun⟩ | ⟨f, hfault, hrun⟩
  · rw [hrun, runCommand_of_none (hprologue.trans hpass), h]
  · rw [hrun, runCommand_of_some (hprologue.trans hfault)]
    rfl

/-- A choice that depends on none of them. -/
theorem Run.ite_withUnread {p : Prop} [Decidable p] {a b a' b' : Run} (ha : a' = a.withUnread x touched)
    (hb : b' = b.withUnread x touched) : (if p then a' else b') = (if p then a else b).withUnread x touched := by
  rw [ha, hb, apply_ite (Run.withUnread x touched)]

/-- Decode works on a cursor, and a cursor holds none of them. -/
theorem decodeRun_withUnread {s u : State} (h : u = s.withUnread x touched) (t : Stream) (T : Nat) :
    decodeRun u t T = (decodeRun s t T).withUnread x touched := by
  subst h
  have hsame : decodeStream (s.withUnread x touched).cfg.codeBitOrder t T (s.withUnread x touched).cursor =
      decodeStream s.cfg.codeBitOrder t T s.cursor := rfl
  cases hs : decodeStream s.cfg.codeBitOrder t T s.cursor with
  | ok c =>
    rw [decodeRun_of_ok hs, decodeRun_of_ok (hsame.trans hs)]
    rfl
  | error p =>
    obtain ⟨f, c⟩ := p
    rw [decodeRun_of_error hs, decodeRun_of_error (hsame.trans hs)]
    rfl

theorem bodyBrGet_withUnread (n : BitVec 5) (s : State) :
    bodyBrGet n (s.withUnread x touched) = (bodyBrGet n s).withUnread x touched := by
  have hsame : (s.withUnread x touched).srcStream.get (s.withUnread x touched).brPos.toNat n.toNat =
      s.srcStream.get s.brPos.toNat n.toNat := rfl
  unfold bodyBrGet
  rw [hsame]
  cases s.srcStream.get s.brPos.toNat n.toNat with
  | error f => rfl
  | ok v => rfl

theorem storePayload_withUnread {s u : State} (h : u = s.withUnread x touched) (packed : Bool)
    (payload : List Byte) :
    storePayload u packed payload = (storePayload s packed payload).withUnread x touched := by
  subst h
  exact Run.ite_withUnread rfl rfl

theorem bodyPdecodePayload_withUnread {s u : State} (h : u = s.withUnread x touched) (usize : Word) (flag : Byte) :
    bodyPdecodePayload usize flag u = (bodyPdecodePayload usize flag s).withUnread x touched := by
  subst h
  exact Run.ite_withUnread rfl <| Run.ite_withUnread rfl <|
    Run.ite_withUnread (Run.ite_withUnread rfl rfl) (decodeRun_withUnread (by rfl) _ _)

/-- Each body, branch by branch. -/
theorem runOf_withUnread (i : Instr) (s : State) :
    runOf i (s.withUnread x touched) = (runOf i s).withUnread x touched := by
  cases i with
  | nop => exact runCommand_withUnread .nop (body := quietRun) rfl
  | decode =>
    exact runCommand_withUnread .decode (Run.ite_withUnread rfl (decodeRun_withUnread (by rfl) _ _))
  | encode => exact runCommand_withUnread .encode (Run.ite_withUnread rfl rfl)
  | copy => exact runCommand_withUnread .copy (Run.ite_withUnread rfl (Run.ite_withUnread rfl rfl))
  | pdecode =>
    exact runCommand_withUnread .pdecode
      (Run.ite_withUnread rfl (bodyPdecodePayload_withUnread (by rfl) _ _))
  | pencode raw =>
    exact runCommand_withUnread (.pencode raw)
      (Run.ite_withUnread (storePayload_withUnread (by rfl) _ _) (storePayload_withUnread (by rfl) _ _))
  | bwReset => exact runCommand_withUnread .bwReset (body := bodyBwReset) rfl
  | bwPut n => exact runCommand_withUnread (.bwPut n) (Run.ite_withUnread rfl rfl)
  | bwFlush => exact runCommand_withUnread .bwFlush (Run.ite_withUnread rfl rfl)
  | brReset => exact runCommand_withUnread .brReset (body := bodyBrReset) rfl
  | brGet n => exact runCommand_withUnread (.brGet n) (bodyBrGet_withUnread n s)
  | start ie => rfl
  | abort ie => rfl
  | softReset => rfl

end

/-! ## Next states -/

/-- The host's side of a state. -/
def State.side (s : State) : Side :=
  { latch := s.latch, pending := s.pending, reply := s.reply, engineDue := s.engineDue, draws := s.draws }

/-- The host's side as the end of a command leaves it (logs 6, 19). -/
def Side.retire (x : Side) : Side := { x with engineDue := 0, draws := x.draws + 1 }

/-- A command's run leaves the host's side to its end. -/
theorem Run.Spec.side {i : Instr} {s : State} {r : Run} (h : r.Spec i s) : r.regs.side = s.side := by
  rw [h.regs]
  rfl

theorem Run.finish_withSide_retire (r : Run) : r.finish.withSide r.regs.side.retire = r.finish := by
  obtain ⟨regs, writes, fault⟩ := r
  cases fault with
  | none => rfl
  | some f => rfl

/-- Finished with no byte on record, a run leaves its writes in memory whatever the draw count is. -/
theorem Run.finish_withUnread_nil (r : Run) (x : Side) :
    (r.withUnread x []).finish = (r.finish.withSide x.retire).withMem (applyWrites r.regs.mem r.writes) := by
  obtain ⟨regs, writes, fault⟩ := r
  cases fault with
  | none => rfl
  | some f => rfl

/-- Settles O52: without the record the run is the same run, and only the bytes on record are drawn at its end. -/
theorem racedDestinationBytesStayLocal : Obligations.RacedDestinationBytesStayLocal := by
  intro i s t u hi ht hu
  have hspec := runOf_spec i s
  obtain ⟨-, -, htouched, -, -⟩ := hspec.frame
  obtain rfl := eq_finish_of_exec hi ht
  obtain rfl : u = (runOf i s).finish.withMem (applyWrites (runOf i s).regs.mem (runOf i s).writes) :=
    calc u = (runOf i (s.withUnread s.side [])).finish := eq_finish_of_exec hi hu
      _ = _ := by
        rw [runOf_withUnread, Run.finish_withUnread_nil, ← hspec.side, Run.finish_withSide_retire]
  refine ⟨fun a ha => ?_, rfl⟩
  rw [Run.finish_mem]
  exact memRead_scramble_other _ _ (htouched ▸ ha)

/-- Settles O55: the run from the other side is the same run, and no byte is on record at its end. -/
theorem commandsDependOnRegistersAndMemory : Obligations.CommandsDependOnRegistersAndMemory := by
  intro i s x hi hquiet
  obtain ⟨-, huntouched⟩ := hquiet
  obtain ⟨-, -, htouched, -, -⟩ := (runOf_spec i s).frame
  have hside : s.withSide x = s.withUnread x [] := by rw [State.withUnread, ← huntouched]; rfl
  have hmem := Run.finish_mem_of_quiet (htouched.trans huntouched)
  refine ⟨_, x.retire, exec_command hi s, ?_⟩
  rw [exec_command hi, hside, runOf_withUnread, Run.finish_withUnread_nil, ← hmem]
  rfl

end Sys2Proof.Machine
end
